-- ==== Sys2Proof/Word.lean ====
section
/-!
DEFINITION. The 8-bit and 32-bit words of OPX-DEC and the plain arithmetic of spec/00_scope.md rule R9:
`wrap32`, `sext`, `asr`, truncating division and `clamp`. The pseudocode of the spec computes on mathematical
integers and states a width only where a value is stored, so these functions work on `Int` and narrow at the end.
-/

namespace Sys2Proof

/-- A 32-bit register value or an int32 buffer element (R25, R40). -/
abbrev Word := BitVec 32

/-- One byte of memory (R8). -/
abbrev Byte := BitVec 8

/-- R9 `wrap32(v)`: the two's-complement word of the low 32 bits of an integer. -/
abbrev wrap32 (v : Int) : Word := BitVec.ofInt 32 v

/-- R9 `asr(v, n) = floor(v / 2^n)`. -/
def asr (v : Int) (n : Nat) : Int := v >>> n

/-- R9 `tdiv(a, b)`: division truncated toward zero. -/
def tdiv (a b : Int) : Int := Int.tdiv a b

/-- R9 `clamp(v, lo, hi) = min(hi, max(lo, v))`. -/
def clamp (v lo hi : Int) : Int := min hi (max lo v)

theorem clamp_le (v lo hi : Int) : clamp v lo hi ≤ hi := min_le_left _ _

theorem le_clamp (v lo hi : Int) (h : lo ≤ hi) : lo ≤ clamp v lo hi :=
  le_min h (le_max_left _ _)

end Sys2Proof
end

