-- ==== Sys2Proof/Config.lean ====
section
/-!
DEFINITION. What an implementation of OPX-DEC fixes, and the values no one fixes. `Params` is the parameter table of
spec/00_scope.md rule R6. A parameter the spec leaves OPEN (P1, P2, P3, P13, P14) is an opaque constant with no body;
a parameter with a default (P4-P11, P15) has its default in Machine/Params.lean. The last section holds the free
values: what the spec calls a draw or a havoc.
-/

namespace Sys2Proof

/-- P6: how `ReadBits` assembles the bits it reads (R74). -/
inductive BitAssembly where
  | lsbFirst
  | msbFirst
deriving DecidableEq, Repr

/-- P9: what the AC loop does once position 64 is reached (R161). -/
inductive FullBlockPolicy where
  | stopAt64
  | readNextCode
deriving DecidableEq, Repr

/-- P10: whether the level bits of an overflowing code are read (R164). -/
inductive OverflowLevelRead where
  | consume
  | skip
deriving DecidableEq, Repr

/-- P11: the width of a product inside the IDCT kernel (R176). -/
inductive ProductBits where
  | bits64
  | bits32
deriving DecidableEq, Repr

/-- P5: which one-dimensional kernel the IDCT uses (R177): the reference kernel, or one the model knows nothing of
(spec/93_implementation_defined.md U8). -/
inductive Kernel where
  | reference
  | uninterpreted (k : Nat)
deriving DecidableEq, Repr

/-- A range of byte addresses: base, ..., base+len-1, without wrap. -/
structure Span where
  base : Nat
  len  : Nat
deriving DecidableEq, Repr

/-- The parameters of R6, which a model takes as arguments: fixed for a machine, changed by no step. P12 is fixed by
the source (`maxDim`). -/
structure Params where
  /-- P1, natural order. -/
  lumaBase : Vector (BitVec 16) 64
  /-- P2, natural order. -/
  chromaBase : Vector (BitVec 16) 64
  /-- P3, natural order. -/
  mult : Vector (BitVec 16) 64
  /-- P4: `zigzag[k]` is the natural index of the k-th zig-zag coefficient (R144). -/
  zigzag : Vector (Fin 64) 64
  /-- P5. -/
  kernel : Kernel
  /-- P6. -/
  bitAssembly : BitAssembly
  /-- P7: the frequency of the end sentinel (R115). -/
  hufSentinelFreq : BitVec 8
  /-- P8: the bound on header bytes (R115). -/
  hufMaxHdrBytes : Nat
  /-- P9. -/
  fullBlockPolicy : FullBlockPolicy
  /-- P10. -/
  overflowLevelRead : OverflowLevelRead
  /-- P11. -/
  productBits : ProductBits
  /-- P13: the byte addresses the memory port can reach, as the ranges that are Mapped (R61). -/
  mapped : List Span
  /-- P14: the address of the register window (R20). -/
  csrBase : Word
  /-- P15: the scale factor at quality 0 (R140). -/
  qAtQuality0 : Nat
deriving DecidableEq, Repr

/-- What the type column of R6 asks of P4 and P7 beyond their Lean types: ZIGZAG is a permutation of 0..63, and the
frequency of the sentinel is not 0. -/
abbrev Params.Legal (p : Params) : Prop := p.zigzag.toList.Nodup ∧ p.hufSentinelFreq ≠ 0

namespace Config

/-- P12, fixed by the source: the largest width or height in pixels (R6, R7). -/
def maxDim : Nat := 10000

/-- P1 LUMA_BASE: OPEN, so nothing is known of it (R6, R142). -/
opaque lumaBase : Vector (BitVec 16) 64

/-- P2 CHROMA_BASE: OPEN (R6, R142). -/
opaque chromaBase : Vector (BitVec 16) 64

/-- P3 MULT: OPEN (R6, R142). -/
opaque mult : Vector (BitVec 16) 64

/-- P13 Mapped: OPEN, the platform's address map (R6, R61). -/
opaque mapped : List Span

/-- P14 CSR_BASE: OPEN, the platform's address of the register window (R6, R20). -/
opaque csrBase : Word

/-- P5, uninterpreted: a kernel of which nothing is known (R177, R178). -/
opaque otherKernel : Nat → Vector Word 8 → Vector Word 8

/-- A free value: the byte that havoc number `draw` leaves at an address (R252, R281, R81). -/
opaque havocByte : Nat → Nat → Byte

/-- A free value: what draw number `draw` of a result register reads as while BUSY = 1 (R31). -/
opaque busyRead : Nat → Word

/-- A free value: what draw number `draw` of a byte of a running command's output reads as to the host (R81). -/
opaque busyByte : Nat → Nat → Byte

end Config

end Sys2Proof
end

