-- ==== Sys2Proof/Machine/Params.lean ====
section
/-!
DEFINITION. The parameters the machine has after reset (spec/00_scope.md rule R6): the OPEN ones are the opaque constants
of Config.lean, the others have the default the spec decided. They stand in `State.cfg`, which no step changes, so a
statement about every state is a statement about every choice of parameters. The test instance TI of
spec/95_test_vectors.md section 0 stands beside them.
-/

namespace Sys2Proof.Machine

/-- P4, default: the JPEG zig-zag order (R144; general knowledge by the spec's own word, log entry 4). -/
def defaultZigzag : Vector (Fin 64) 64 :=
  #v[ 0,  1,  8, 16,  9,  2,  3, 10, 17, 24, 32, 25, 18, 11,  4,  5,
     12, 19, 26, 33, 40, 48, 41, 34, 27, 20, 13,  6,  7, 14, 21, 28,
     35, 42, 49, 56, 57, 50, 43, 36, 29, 22, 15, 23, 30, 37, 44, 51,
     58, 59, 52, 45, 38, 31, 39, 46, 53, 60, 61, 54, 47, 55, 62, 63]

/-- The parameters of R6: P1, P2, P3, P13, P14 open, the rest at their defaults. -/
def defaultParams : Params where
  lumaBase := Config.lumaBase
  chromaBase := Config.chromaBase
  mult := Config.mult
  zigzag := defaultZigzag
  kernel := .reference
  bitAssembly := .lsbFirst
  hufSentinelFreq := 1
  hufMaxHdrBytes := 256
  fullBlockPolicy := .stopAt64
  overflowLevelRead := .consume
  productBits := .bits64
  mapped := Config.mapped
  csrBase := Config.csrBase
  qAtQuality0 := 5000

/-- The test instance TI (spec/95_test_vectors.md section 0), with CSR_BASE, which TI leaves open, at 0xF000_0000. It is
what the model's tests run with; the machine does not use it. -/
def testInstance : Params :=
  { defaultParams with
    lumaBase := Vector.replicate 64 16
    chromaBase := Vector.replicate 64 17
    mult := Vector.replicate 64 8192
    mapped := [⟨0, 0x100000⟩]
    csrBase := 0xF0000000 }

end Sys2Proof.Machine
end

