-- ==== Sys2Proof/Syntax.lean ====
section
/-!
DEFINITION. The command set of OPX-DEC as syntax: one constructor of `Instr` for each of the 15 legal command
words of spec/30_encoding.md rule R94 (the rows of spec/opcode_table.json), the pixel formats and table selectors
they carry (R90), and the four fields of a command word. No command has an operand (R91): every operand is a fixed
register.
-/

namespace Sys2Proof

/-- The pixel formats of the FMT field (R90, R194). FMT = 3 is reserved and has no constructor. -/
inductive PixelFormat where
  | rgb24
  | rgb565
  | argb32
deriving DecidableEq, Repr

/-- The quantization table the CHAN field selects (R90, R95). -/
inductive TableSel where
  | luma
  | chroma
deriving DecidableEq, Repr

/-- The 15 commands of R94. -/
inductive Instr where
  | nop
  | qtBuild
  | hufDecode
  | dequantBlockL
  | dequantBlockC
  | idctBlock
  | colorBlockRgb24
  | colorBlockRgb565
  | colorBlockArgb32
  | decodeImageRgb24
  | decodeImageRgb565
  | decodeImageArgb32
  | compositeRgb24
  | compositeRgb565
  | compositeArgb32
deriving DecidableEq, Repr

/-- The four fields of a command word (R90): OPC in bits 7:0, FMT in 9:8, CHAN in 10, RSV in 31:11. -/
structure CommandFields where
  opc  : BitVec 8
  fmt  : BitVec 2
  chan : BitVec 1
  rsv  : BitVec 21
deriving DecidableEq, Repr

end Sys2Proof
end

