-- ==== Sys2Proof/Machine/State.lean ====
section
/-!
DEFINITION. The state of OPX-DEC as plain data: the registers of spec/10_state.md rules R25-R29, the hidden engine
state of R40, the memory behind the memory port (R60), and the few fields that are the model's own: the parameters of
R6, the host's pending moves, what the host last read, the level of the reset input, the interference mark and the draw
counter (log entries 3, 8, 12, 13, 14).
`State.reset` is the machine right after reset (spec/70_reset_and_hazards.md rule R280).
-/

namespace Sys2Proof.Machine

/-- The memory behind the memory port (R60): the bytes that differ from what an unlisted address reads as. -/
abbrev Memory := List Host.Cell

/-- The bits of STATUS (R28); bits 7:4 and 31:21 are reserved and read 0. -/
structure Status where
  /-- bit 0 BUSY. -/
  busy : Bool := false
  /-- bit 1 DONE. -/
  done : Bool := false
  /-- bit 2 ERR. -/
  err : Bool := false
  /-- bit 3 HAZ. -/
  haz : Bool := false
  /-- bits 15:8 ERRCODE. -/
  errcode : Byte := 0
  /-- bit 16 W_AC_OVERREAD. -/
  wAcOverread : Bool := false
  /-- bit 17 W_ZERO_LEN. -/
  wZeroLen : Bool := false
  /-- bit 18 W_HUF_SHORT. -/
  wHufShort : Bool := false
  /-- bit 19 W_ACCODE_OVERREAD. -/
  wAccodeOverread : Bool := false
  /-- bit 20 W_POS_OVERFLOW. -/
  wPosOverflow : Bool := false
deriving DecidableEq, Repr

/-- The five warnings of R257. -/
inductive Warning where
  | acOverread
  | zeroLen
  | hufShort
  | accodeOverread
  | posOverflow
deriving DecidableEq, Repr

/-- The fault codes of R250: what a command can end in. They are recorded in STATUS and FAULT_INFO and never stop
the machine. -/
inductive FaultCode where
  | illegalCmd
  | badGeometry
  | overlap
  | srcOverrun
  | dstOverrun
  | scratchOverflow
  | hufOverrun
  | dcOverrun
  | busError
deriving DecidableEq, Repr

/-- A raised fault: its code and its detail, which FAULT_INFO receives mod 2^32 (R251, R252). -/
structure CmdFault where
  code : FaultCode
  info : Nat
deriving DecidableEq, Repr

/-- The 32-bit registers of R25 other than ID, CTRL and STATUS. -/
structure Regs where
  cmd        : Word
  srcAddr    : Word
  srcLen     : Word
  dstAddr    : Word
  dstLen     : Word
  scrAddr    : Word
  scrLen     : Word
  width      : Word
  height     : Word
  quality    : Word
  dstStride  : Word
  offsAddr   : Word
  blockCount : Word
  hufLen     : Word
  hufOut     : Word
  animCount  : Word
  animCur    : Word
  faultInfo  : Word
  /-- LUMA_Q[0..63], natural order (R33). -/
  lumaQ      : Vector Word 64
  /-- CHROMA_Q[0..63], natural order (R33). -/
  chromaQ    : Vector Word 64
deriving DecidableEq, Repr

/-- One node of the Huffman arena (R40). -/
structure Node where
  freq : Word
  c0   : Fin 513
  c1   : Fin 513
deriving DecidableEq, Repr, Inhabited

/-- The node arena: slots 0-255 the byte leaves, 256 the end sentinel, 257-512 the internal nodes (R7). -/
abbrev Arena := Vector Node 513

/-- A block buffer of 64 int32 values (R40). -/
abbrev Block := Vector Word 64

/-- The three channels of a block (R7, R166). -/
inductive Channel where
  | y
  | cb
  | cr
deriving DecidableEq, Repr

/-- The engine's hidden state (R40), which no register exposes. `phase` stands in `State`. -/
structure Hidden where
  /-- Huffman bit cursor. -/
  hcur : Nat
  /-- AC-data bit cursor. -/
  acur : Nat
  /-- DC-data bit cursor. -/
  dcur : Nat
  /-- AC-code stream read index. -/
  j : Nat
  node : Arena
  /-- The root of the tree, or NONE. -/
  root : Option (Fin 513)
  /-- zig-zag coefficient buffers, one a channel. -/
  zz : Vector Block 3
  /-- natural-order dequantized coefficients. -/
  coef : Vector Block 3
  /-- IDCT workspace. -/
  ws : Block
  /-- IDCT outputs. -/
  pix : Vector Block 3
deriving DecidableEq, Repr

/-- The sequencing state that stands in for a program counter (R22, R40): IDLE, or RUN of what CMD decoded to. -/
inductive Phase where
  | idle
  | run (i : Instr)
  | runIllegal
deriving DecidableEq, Repr

/-- The width of a host access to the register port (R24). -/
inductive AccessSize where
  | byte
  | half
  | word
deriving DecidableEq, Repr

/-- One move of the outside world, or the engine's turn (R13, R291). Between START and the end of a command any
number of host moves may come (R288), so which agent moves next is data of the state. -/
inductive HostMove where
  /-- A write at the register port, at a bus address (R20, R23, R24). -/
  | portWrite (addr : Word) (size : AccessSize) (value : Word)
  /-- A read at the register port (R20, R23, R24). -/
  | portRead (addr : Word) (size : AccessSize)
  /-- The host writes one byte of its memory (R13, R81). -/
  | memWrite (addr : Word) (value : Byte)
  /-- The host reads one byte of its memory (R13, R81). -/
  | memRead (addr : Word)
  /-- The reset input is asserted, and from then on held (R20, R281). -/
  | resetAssert
  /-- The reset input is released (R281). -/
  | resetRelease
  /-- The host lets the engine take its turn. -/
  | engineTurn
deriving DecidableEq, Repr

/-- The whole machine. -/
structure State where
  /-- Model's own: the parameters of R6, fixed for the machine; no step changes them. -/
  cfg    : Params
  regs   : Regs
  /-- STATUS (R28). -/
  status : Status
  /-- CTRL.IRQ_EN (R27). -/
  irqEn  : Bool
  phase  : Phase
  hidden : Hidden
  mem    : Memory
  /-- Model's own: the level of the reset input (R281). -/
  resetHeld : Bool
  /-- Model's own: the host wrote a window of the running command (R81). -/
  interfered : Bool
  /-- Model's own: how many free values have been drawn. -/
  draws  : Nat
  /-- Model's own: the moves of the outside world still to come, the next first. -/
  inputs : List HostMove
  /-- Model's own: what the last register-port read returned to the host. -/
  portData : Word
  /-- Model's own: what the last memory read returned to the host. -/
  memData : Byte
deriving DecidableEq, Repr

/-- A reason for the machine itself to stop. It has no constructor: spec/60_exceptions.md rule R256 says that there is
no stuck or hanging state, and a fault of a command (`FaultCode`) is recorded in STATUS, after which the machine goes
on (R240, R252). -/
inductive Fault where
deriving DecidableEq, Repr

/-- A reason for the model to give no meaning. -/
inductive Refusal where
  /-- An instruction of the table that has no meaning yet: raised by no arm of this model (safe). -/
  | notModelled (mnemonic : String)
deriving DecidableEq, Repr

/-- A block buffer of zeros (R41). -/
def Block.zero : Block := Vector.replicate 64 0

/-- The entry values of R41, also the hidden state after reset (R280). -/
def Hidden.entry : Hidden where
  hcur := 0
  acur := 0
  dcur := 0
  j := 0
  node := Vector.replicate 513 ⟨0, 0, 0⟩
  root := none
  zz := Vector.replicate 3 Block.zero
  coef := Vector.replicate 3 Block.zero
  ws := Block.zero
  pix := Vector.replicate 3 Block.zero

/-- R280: the registers after reset. -/
def Regs.reset : Regs where
  cmd := 0
  srcAddr := 0
  srcLen := 0
  dstAddr := 0
  dstLen := 0
  scrAddr := 0
  scrLen := 0
  width := 0
  height := 0
  quality := 0
  dstStride := 0
  offsAddr := 0
  blockCount := 0
  hufLen := 0
  hufOut := 0
  animCount := 0
  animCur := 0
  faultInfo := 0
  lumaQ := Block.zero
  chromaQ := Block.zero

/-- The machine right after reset (R280); the model's own fields are named in the assumption log. -/
def State.reset : State where
  cfg := defaultParams
  regs := Regs.reset
  status := {}
  irqEn := false
  phase := .idle
  hidden := Hidden.entry
  mem := []
  resetHeld := false
  interfered := false
  draws := 0
  inputs := []
  portData := 0
  memData := 0

end Sys2Proof.Machine
end

