-- ==== Sys2Proof/Machine/Ops.lean ====
section
/-!
DEFINITION. The shared operations: named updates of the state, memory and the memory port (spec/00_scope.md rule
R10, spec/20_memory.md rules R60-R68), windows and the OVERLAP check (R63, R64), how a command starts and ends
(spec/10_state.md rules R30, R32), TAKING A FAULT (spec/60_exceptions.md rule R252) with the havoc it leaves, and the
frame every command runs in. The block returns from no trap (R264).
-/

namespace Sys2Proof.Machine

/-! ### Named updates -/

def State.withCfg (s : State) (p : Params) : State := { s with cfg := p }
def State.withRegs (s : State) (r : Regs) : State := { s with regs := r }
def State.withStatus (s : State) (t : Status) : State := { s with status := t }
def State.withIrqEn (s : State) (b : Bool) : State := { s with irqEn := b }
def State.withPhase (s : State) (p : Phase) : State := { s with phase := p }
def State.withHidden (s : State) (h : Hidden) : State := { s with hidden := h }
def State.withMem (s : State) (m : Memory) : State := { s with mem := m }
def State.withResetHeld (s : State) (b : Bool) : State := { s with resetHeld := b }
def State.withInterfered (s : State) (b : Bool) : State := { s with interfered := b }
def State.withDraws (s : State) (n : Nat) : State := { s with draws := n }
def State.withInputs (s : State) (l : List HostMove) : State := { s with inputs := l }
def State.withPortData (s : State) (w : Word) : State := { s with portData := w }
def State.withMemData (s : State) (b : Byte) : State := { s with memData := b }

/-! ### Memory -/

/-- What an address that the memory does not list reads as. DESIGN CHOICE (log entry 2): 0, as the programs of
spec/95_test_vectors.md section 14 start. -/
def Memory.unlisted : Byte := 0

/-- The canonical form: addresses strictly rising, and no entry equal to what an unlisted address reads as. -/
abbrev Memory.wf (m : Memory) : Prop :=
  m.Pairwise (fun a b => a.1 < b.1) ∧ ∀ c ∈ m, c.2 ≠ Memory.unlisted

/-- The byte at an address. -/
def Memory.read : Memory → Nat → Byte
  | [], _ => Memory.unlisted
  | (b, v) :: m, a => if b = a then v else Memory.read m a

/-- One entry put in front, unless it says what an unlisted address says anyway. -/
def Memory.cons (a : Nat) (v : Byte) (m : Memory) : Memory :=
  if v = Memory.unlisted then m else (a, v) :: m

/-- Store one byte, keeping the canonical form. -/
def Memory.write : Memory → Nat → Byte → Memory
  | [], a, v => Memory.cons a v []
  | (b, w) :: m, a, v =>
    if a < b then Memory.cons a v ((b, w) :: m)
    else if a = b then Memory.cons a v m
    else (b, w) :: Memory.write m a v

/-! ### The engine's step -/

/-- A piece of a command's algorithm: it reads and changes the state, and may raise a fault, which keeps the state
reached (R10, R11). -/
abbrev Engine := EStateM CmdFault State

/-- `raise Fault(code, info)` (R10). -/
def raise {α : Type} (code : FaultCode) (info : Nat) : Engine α := throw ⟨code, info⟩

/-- A check that raises a fault when its condition holds. -/
def faultIf (bad : Bool) (code : FaultCode) (info : Nat) : Engine Unit :=
  if bad then raise code info else pure ()

/-- The value of a register as an unsigned number (R95). -/
def regVal (f : Regs → Word) : Engine Nat := fun s => .ok (f s.regs).toNat s

/-- Change the hidden state (R40). -/
def modifyHidden (f : Hidden → Hidden) : Engine Unit := fun s => .ok () (s.withHidden (f s.hidden))

/-- Change the registers the engine writes (R29). -/
def modifyRegs (f : Regs → Regs) : Engine Unit := fun s => .ok () (s.withRegs (f s.regs))

/-! ### The memory port -/

/-- The address lies in the range. -/
def Span.holds (a : Nat) (r : Span) : Bool := decide (r.base ≤ a) && decide (a < r.base + r.len)

/-- R61: the memory port reaches an address that is below 2^32 and Mapped. -/
def reachable (p : Params) (a : Nat) : Bool :=
  decide (a < 2 ^ 32) && p.mapped.any (Span.holds a)

/-- Read one byte at the memory port (R10, R61). -/
def readByte (p : Params) (a : Nat) : Engine Byte := fun s =>
  if reachable p a then .ok (s.mem.read a) s else .error ⟨.busError, a⟩ s

/-- Write one byte at the memory port (R10, R61). -/
def writeByte (p : Params) (a : Nat) (v : Byte) : Engine Unit := fun s =>
  if reachable p a then .ok () (s.withMem (s.mem.write a v)) else .error ⟨.busError, a⟩ s

/-- `MemRead(addr, n)`: little-endian, byte by byte in ascending address order (R10, R65, R67). -/
def memRead (p : Params) (a : Nat) : Nat → Engine Nat
  | 0 => pure 0
  | n + 1 => do
    let b ← readByte p a
    let rest ← memRead p (a + 1) n
    pure (b.toNat + 256 * rest)

/-- Write a list of bytes at ascending addresses. -/
def writeBytes (p : Params) (a : Nat) : List Byte → Engine Unit
  | [] => pure ()
  | b :: bs => do
    writeByte p a b
    writeBytes p (a + 1) bs

/-- The `n` bytes of `v mod 256^n`, lowest first (R65). -/
def bytesOf (v : Nat) : Nat → List Byte
  | 0 => []
  | n + 1 => BitVec.ofNat 8 v :: bytesOf (v / 256) n

/-- `MemWrite(addr, n, v)` (R10). -/
def memWrite (p : Params) (a n v : Nat) : Engine Unit := writeBytes p a (bytesOf v n)

/-- Write `n` zero bytes from `a` (R122). -/
def zeroFill (p : Params) (a : Nat) : Nat → Engine Unit
  | 0 => pure ()
  | n + 1 => do
    writeByte p a 0
    zeroFill p (a + 1) n

/-- An int32 block array (R78): `n` elements from address `a`. -/
def readWords (p : Params) (a : Nat) : Nat → Engine (List Word)
  | 0 => pure []
  | n + 1 => do
    let v ← memRead p a 4
    let rest ← readWords p (a + 4) n
    pure (BitVec.ofNat 32 v :: rest)

/-- Write words as an int32 array (R78). -/
def writeWords (p : Params) (a : Nat) : List Word → Engine Unit
  | [] => pure ()
  | w :: ws => do
    memWrite p a 4 w.toNat
    writeWords p (a + 4) ws

/-- The 64 elements of a list as a block buffer. -/
def blockOf (l : List Word) : Block := Vector.ofFn fun i => l.getD i.val 0

/-- Read a block buffer from memory (R78). -/
def readBlock (p : Params) (a : Nat) : Engine Block := do
  let l ← readWords p a 64
  pure (blockOf l)

/-- Write a block buffer to memory (R78). -/
def writeBlock (p : Params) (a : Nat) (b : Block) : Engine Unit := writeWords p a b.toList

/-! ### Windows -/

/-- A window (R63): the bytes base, ..., base+len-1, without wrap. -/
structure Window where
  base : Nat
  len  : Nat
deriving DecidableEq, Repr

namespace Window

/-- The byte at an address lies in the window. -/
def holds (w : Window) (a : Nat) : Bool := decide (w.base ≤ a) && decide (a < w.base + w.len)

/-- R64: two windows overlap; one of length 0 overlaps nothing. -/
def overlaps (a b : Window) : Bool :=
  decide (0 < a.len) && decide (0 < b.len) && decide (a.base < b.base + b.len) && decide (b.base < a.base + a.len)

end Window

/-- Some two of a command's written windows overlap (R64). -/
def someOverlap : List Window → Bool
  | [] => false
  | w :: ws => ws.any w.overlaps || someOverlap ws

/-- The OVERLAP check (R64) on the written and the read windows. -/
def overlapCheck (written read : List Window) : Engine Unit :=
  faultIf (someOverlap written || written.any fun w => read.any w.overlaps) .overlap 0

/-! ### Free values -/

/-- Havoc `n` bytes from `a`: each byte the memory port can reach becomes a free value (R252). -/
def havocBytes (p : Params) (draw a : Nat) : Nat → Memory → Memory
  | 0, m => m
  | n + 1, m =>
    havocBytes p draw (a + 1) n
      (if reachable p a then m.write a (Config.havocByte draw a) else m)

/-- Havoc a list of windows. -/
def havocWindows (p : Params) (draw : Nat) : List Window → Memory → Memory
  | [], m => m
  | w :: ws, m => havocWindows p draw ws (havocBytes p draw w.base w.len m)

/-- Every byte of the windows takes an unspecified value (R252, R281, R81). -/
def havoc (p : Params) (ws : List Window) (s : State) : State :=
  (s.withMem (havocWindows p s.draws ws s.mem)).withDraws (s.draws + 1)

/-! ### The end of a command -/

/-- The code of a fault in STATUS.ERRCODE (R250). -/
def FaultCode.toByte : FaultCode → Byte
  | .illegalCmd => 0x01
  | .badGeometry => 0x02
  | .overlap => 0x03
  | .srcOverrun => 0x04
  | .dstOverrun => 0x05
  | .scratchOverflow => 0x06
  | .hufOverrun => 0x07
  | .dcOverrun => 0x08
  | .busError => 0x09

/-- R32: a command ends without a fault. -/
def endCommand (s : State) : State :=
  (s.withStatus { s.status with busy := false, done := true }).withPhase .idle

/-- R252: `raise Fault(CODE, info)` ends the command. -/
def takeFault (f : CmdFault) (s : State) : State :=
  ((s.withRegs { s.regs with faultInfo := BitVec.ofNat 32 f.info }).withStatus
    { s.status with errcode := f.code.toByte, err := true, done := true, busy := false }).withPhase .idle

/-- R81: if the host wrote a window of the command while it ran, its written windows are unspecified at its end. -/
def settle (p : Params) (written : List Window) (s : State) : State :=
  if s.interfered then (havoc p written s).withInterfered false else s

/-- What a command's pre-checks (R253) settle for its body. -/
structure Plan where
  /-- The write footprint (R253). -/
  footprint : List Window
  /-- The declared length ds and the places of the three streams (R69, R70); all 0 where there is no payload. -/
  ds : Nat
  cs : Nat
  compOff : Nat
  acLen : Nat
  acOff : Nat
  dcLen : Nat
  dcOff : Nat
  /-- OFFSET[0..N-1] of COMPOSITE (R77). -/
  offsets : List Nat
deriving DecidableEq, Repr

/-- The plan of a command with no payload. -/
def Plan.of (footprint : List Window) : Plan := ⟨footprint, 0, 0, 0, 0, 0, 0, 0, []⟩

/-- A command from its start to its end: its pre-checks, whose faults leave memory as it was, then its body, whose
faults leave the write footprint unspecified (R252-R255); R32 or R252 ends it. -/
def perform (p : Params) (written : List Window) (check : Engine Plan) (body : Plan → Engine Unit) (s : State) :
    State :=
  settle p written <|
    match check s with
    | .error f s1 => takeFault f s1
    | .ok plan s1 =>
      match body plan s1 with
      | .error f s2 => takeFault f (havoc p plan.footprint s2)
      | .ok _ s2 => endCommand s2

end Sys2Proof.Machine
end

