-- ==== Sys2Proof/Machine/Flags.lean ====
section
/-!
DEFINITION. The flags of OPX-DEC: the bits of STATUS (spec/10_state.md rules R28 and R43), setting a warning
(R257), clearing bits by writing 1 (R23), and the interrupt output (spec/60_exceptions.md rule R262).
-/

namespace Sys2Proof.Machine

/-- A flag as a number at its bit place. -/
def bitAt (b : Bool) (n : Nat) : Word := if b then 1#32 <<< n else 0

/-- STATUS as the host reads it (R28); reserved bits read 0 (R23). -/
def Status.toWord (t : Status) : Word :=
  bitAt t.busy 0 ||| bitAt t.done 1 ||| bitAt t.err 2 ||| bitAt t.haz 3 ||| (t.errcode.zeroExtend 32 <<< 8) |||
  bitAt t.wAcOverread 16 ||| bitAt t.wZeroLen 17 ||| bitAt t.wHufShort 18 ||| bitAt t.wAccodeOverread 19 |||
  bitAt t.wPosOverflow 20

/-- Set one sticky warning bit (R257). -/
def Status.setWarning (t : Status) : Warning → Status
  | .acOverread => { t with wAcOverread := true }
  | .zeroLen => { t with wZeroLen := true }
  | .hufShort => { t with wHufShort := true }
  | .accodeOverread => { t with wAccodeOverread := true }
  | .posOverflow => { t with wPosOverflow := true }

/-- Whether a warning is set. -/
def Status.warned (t : Status) : Warning → Bool
  | .acOverread => t.wAcOverread
  | .zeroLen => t.wZeroLen
  | .hufShort => t.wHufShort
  | .accodeOverread => t.wAccodeOverread
  | .posOverflow => t.wPosOverflow

/-- `warn(FLAG)` (R10): a warning never ends a command. -/
def warn (w : Warning) : Engine Unit := fun s => .ok () (s.withStatus (s.status.setWarning w))

/-- Warn when a condition holds. -/
def warnIf (c : Bool) (w : Warning) : Engine Unit := if c then warn w else pure ()

/-- A host write to STATUS: each W1C bit written 1 is cleared; BUSY and ERRCODE are RO (R28, R31). -/
def Status.clearedBy (t : Status) (v : Word) : Status :=
  { t with
    done := t.done && !v.getLsbD 1
    err := t.err && !v.getLsbD 2
    haz := t.haz && !v.getLsbD 3
    wAcOverread := t.wAcOverread && !v.getLsbD 16
    wZeroLen := t.wZeroLen && !v.getLsbD 17
    wHufShort := t.wHufShort && !v.getLsbD 18
    wAccodeOverread := t.wAccodeOverread && !v.getLsbD 19
    wPosOverflow := t.wPosOverflow && !v.getLsbD 20 }

/-- R30: what START does to STATUS. HAZ is not cleared. -/
def Status.started (t : Status) : Status := { busy := true, haz := t.haz }

/-- R31: a dropped write or a dropped START. -/
def Status.hazard (t : Status) : Status := { t with haz := true }

/-- R262: the interrupt output, a level. -/
def State.irq (s : State) : Bool := s.irqEn && s.status.done

end Sys2Proof.Machine
end

