-- ==== Sys2Proof/Machine/Operands.lean ====
section
/-!
DEFINITION. The operands of the commands. No command word holds an operand (spec/30_encoding.md rules R91 and R95):
each is a fixed register, a window of two registers (spec/20_memory.md rule R63), the pixel format FMT names, or the
table CHAN names.
-/

namespace Sys2Proof.Machine

/-- R95: QUALITY is read signed. -/
def Regs.qualityInt (r : Regs) : Int := r.quality.toInt

/-- The read window (R63). -/
def Regs.srcWindow (r : Regs) : Window := ⟨r.srcAddr.toNat, r.srcLen.toNat⟩

/-- The write window (R63). -/
def Regs.dstWindow (r : Regs) : Window := ⟨r.dstAddr.toNat, r.dstLen.toNat⟩

/-- The scratch window (R63). -/
def Regs.scrWindow (r : Regs) : Window := ⟨r.scrAddr.toNat, r.scrLen.toNat⟩

/-- COMPOSITE's offset-list window (R63). -/
def Regs.offsWindow (r : Regs) : Window := ⟨r.offsAddr.toNat, 4 * r.blockCount.toNat⟩

/-- The registers as the engine sees them. -/
def getRegs : Engine Regs := fun s => .ok s.regs s

/-- The table CHAN names (R95). -/
def Regs.table (r : Regs) : TableSel → Block
  | .luma => r.lumaQ
  | .chroma => r.chromaQ

/-- `BPP(FMT)` (R194). -/
def bpp : PixelFormat → Nat
  | .rgb24 => 3
  | .rgb565 => 2
  | .argb32 => 4

/-- The place of a channel in the buffers of R40. -/
def Channel.index : Channel → Fin 3
  | .y => 0
  | .cb => 1
  | .cr => 2

/-- The table of a channel in the image path: luma for Y, chroma for Cb and Cr (R143, R166). -/
def Channel.table : Channel → TableSel
  | .y => .luma
  | .cb => .chroma
  | .cr => .chroma

end Sys2Proof.Machine
end

