-- ==== Sys2Proof/Machine/Color.lean ====
section
/-!
DEFINITION. The colour conversion and the pixel packing (spec/45_color.md): R190-R193, the packing of R194, WritePixel
(R197) and COLOR_BLOCK (R196).
-/

namespace Sys2Proof.Machine

/-- One converted pixel (R190). -/
structure Rgb where
  r : Byte
  g : Byte
  b : Byte
deriving DecidableEq, Repr

/-- R191 Div3: the literal fixed-point multiply (spec/90_conflicts.md C2). -/
def div3 (cb : Word) : Word := wrap32 (asr (cb.toInt * 0x55555555) 32)

/-- R192 Half: the sign-adjusted shift. -/
def half (t : Word) : Word :=
  wrap32 (asr (wrap32 (t.toInt + if t.toInt < 0 then 1 else 0)).toInt 1)

/-- Clamp a word to 0..255, as a byte (R190). -/
def toByte (w : Word) : Byte := BitVec.ofInt 8 (clamp w.toInt 0 255)

/-- R190 Color: word sums wrap, and the divisions truncate toward zero (R193). -/
def color (y cb cr : Word) : Rgb :=
  let yp := y + 128
  let g1 := half (div3 cb - cb)
  { r := toByte (yp + 2 * cb)
    g := toByte (yp + g1 - wrap32 (tdiv (cr * 8).toInt 10))
    b := toByte (yp + wrap32 (tdiv (cr * 16).toInt 10)) }

/-- R194: the RGB565 value. -/
def pack565 (c : Rgb) : Nat := ((c.r.toNat >>> 3) <<< 11) ||| ((c.g.toNat >>> 2) <<< 5) ||| (c.b.toNat >>> 3)

/-- R194: the ARGB32 value. -/
def packArgb (c : Rgb) : Nat := (0xFF <<< 24) ||| (c.r.toNat <<< 16) ||| (c.g.toNat <<< 8) ||| c.b.toNat

/-- R194: the bytes of a packed pixel, lowest address first. -/
def pixelBytes : PixelFormat → Rgb → List Byte
  | .rgb24, c => [c.r, c.g, c.b]
  | .rgb565, c => bytesOf (pack565 c) 2
  | .argb32, c => bytesOf (packArgb c) 4

/-- R197 WritePixel. -/
def writePixel (p : Params) (a : Nat) (fmt : PixelFormat) (c : Rgb) : Engine Unit :=
  writeBytes p a (pixelBytes fmt c)

/-! ### COLOR_BLOCK -/

/-- R253: the write footprint of COLOR_BLOCK. -/
def colorBlockFootprint (fmt : PixelFormat) (r : Regs) : List Window := [⟨r.dstAddr.toNat, 64 * bpp fmt⟩]

/-- R196 and R253: the pre-checks of COLOR_BLOCK. -/
def colorBlockCheck (fmt : PixelFormat) : Engine Plan := do
  let r ← getRegs
  overlapCheck [r.dstWindow] [r.srcWindow]
  faultIf (decide (r.srcLen.toNat < 768)) .srcOverrun 0
  faultIf (decide (r.dstLen.toNat < 64 * bpp fmt)) .dstOverrun 0
  pure (Plan.of (colorBlockFootprint fmt r))

/-- R196: `n` pixels from pixel `px` on, each read, converted and written in turn. -/
def colorPixels (p : Params) (fmt : PixelFormat) (src dst : Nat) : (n px : Nat) → Engine Unit
  | 0, _ => pure ()
  | n + 1, px => do
    let y ← memRead p (src + 4 * px) 4
    let cb ← memRead p (src + 256 + 4 * px) 4
    let cr ← memRead p (src + 512 + 4 * px) 4
    writePixel p (dst + px * bpp fmt) fmt (color (BitVec.ofNat 32 y) (BitVec.ofNat 32 cb) (BitVec.ofNat 32 cr))
    colorPixels p fmt src dst n (px + 1)

/-- R196: the body of COLOR_BLOCK. -/
def colorBlockBody (p : Params) (fmt : PixelFormat) (_ : Plan) : Engine Unit := do
  let r ← getRegs
  colorPixels p fmt r.srcAddr.toNat r.dstAddr.toNat 64 0

/-- R196: COLOR_BLOCK. -/
def colorBlock (p : Params) (fmt : PixelFormat) (s : State) : State :=
  perform p [s.regs.dstWindow] (colorBlockCheck fmt) (colorBlockBody p fmt) s

/-- R196: COLOR_BLOCK.RGB24. -/
def execColorBlockRgb24 (s : State) : Host.Outcome State Fault Refusal := .next (colorBlock s.cfg .rgb24 s)

/-- R196: COLOR_BLOCK.RGB565. -/
def execColorBlockRgb565 (s : State) : Host.Outcome State Fault Refusal := .next (colorBlock s.cfg .rgb565 s)

/-- R196: COLOR_BLOCK.ARGB32. -/
def execColorBlockArgb32 (s : State) : Host.Outcome State Fault Refusal := .next (colorBlock s.cfg .argb32 s)

end Sys2Proof.Machine
end

