-- ==== Sys2Proof/Machine/BlockDecode.lean ====
section
/-!
DEFINITION. The DCT payload (spec/20_memory.md R69-R71), the bit-stream cursors (R72-R76), and the entropy decode of
one channel of one block (spec/43_block_decode.md R160-R165).
-/

namespace Sys2Proof.Machine

/-! ### The payload -/

/-- R70 `need(off, n)` and the read of a size field at `off`. -/
def need (off n : Nat) : Engine Unit := do
  let len ← regVal Regs.srcLen
  faultIf (decide (len < off + n)) .srcOverrun off

/-- R70: a size field at offset `off` of the read window. -/
def sizeField (p : Params) (off : Nat) : Engine Nat := do
  need off 4
  let base ← regVal Regs.srcAddr
  memRead p (base + off) 4

/-- R70 PayloadParse, as a plan whose footprint and offsets are still to be filled in. -/
def payloadParse (p : Params) : Engine Plan := do
  let cs ← sizeField p 0
  let ds ← sizeField p 4
  need 8 cs
  let acLen ← sizeField p (8 + cs)
  need (12 + cs) acLen
  let dcLen ← sizeField p (12 + cs + acLen)
  need (16 + cs + acLen) dcLen
  pure { footprint := [], ds := ds, cs := cs, compOff := 8, acLen := acLen, acOff := 12 + cs
         dcLen := dcLen, dcOff := 16 + cs + acLen, offsets := [] }

/-! ### Cursors -/

/-- Bit `cur` of a byte, first bit 7 (R66). -/
def msbBit (b : Byte) (cur : Nat) : Bool := b.getLsbD (7 - cur % 8)

/-- R72 BitAC: past the end of the AC-data each bit is 0, with a warning. -/
def bitAC (p : Params) (pl : Plan) : Engine Bool := fun s =>
  let cur := s.hidden.acur
  let moved := s.withHidden { s.hidden with acur := cur + 1 }
  if pl.acLen ≤ cur / 8 then
    (do warn .acOverread; pure false : Engine Bool) moved
  else
    match readByte p (s.regs.srcAddr.toNat + pl.acOff + cur / 8) s with
    | .error f s1 => .error f s1
    | .ok b _ => .ok (msbBit b cur) moved

/-- R73 BitDC: past the end of the DC-data it faults. -/
def bitDC (p : Params) (pl : Plan) : Engine Bool := fun s =>
  let cur := s.hidden.dcur
  if pl.dcLen ≤ cur / 8 then .error ⟨.dcOverrun, cur / 8⟩ s
  else
    match readByte p (s.regs.srcAddr.toNat + pl.dcOff + cur / 8) s with
    | .error f s1 => .error f s1
    | .ok b _ => .ok (msbBit b cur) (s.withHidden { s.hidden with dcur := cur + 1 })

/-- R74: the value after one more bit; `t` is how many bits came before. -/
def assemble (o : BitAssembly) (v t : Nat) (bit : Bool) : Nat :=
  match o with
  | .lsbFirst => v + bit.toNat * 2 ^ t
  | .msbFirst => 2 * v + bit.toNat

/-- R74 ReadBits over either stream: `n` more bits, `t` read so far with value `v`. -/
def readBits (p : Params) (next : Engine Bool) : (n t v : Nat) → Engine Nat
  | 0, _, v => pure v
  | n + 1, t, v => do
    let bit ← next
    readBits p next n (t + 1) (assemble p.bitAssembly v t bit)

/-- R76 AcCodeByte: the AC-code stream is read back from the scratch window; at or past ds it is 0, with a warning. -/
def acCodeByte (p : Params) (pl : Plan) : Engine Byte := fun s =>
  let moved := s.withHidden { s.hidden with j := s.hidden.j + 1 }
  if pl.ds ≤ s.hidden.j then
    (do warn .accodeOverread; pure 0 : Engine Byte) moved
  else
    match readByte p (s.regs.scrAddr.toNat + s.hidden.j) s with
    | .error f s1 => .error f s1
    | .ok b _ => .ok b moved

/-! ### One channel -/

/-- R165 Level. -/
def level (v len : Nat) : Word :=
  if v.testBit (len - 1) then wrap32 v else wrap32 ((v : Int) - (2 ^ len - 1))

/-- R164: a level of `len` bits that goes to position `k`. Answers the next position, or `none` where the channel ends
because the position is past 63. -/
def levelCode (p : Params) (pl : Plan) (k len : Nat) (zz : Block) : Engine (Block × Option Nat) :=
  if decide (p.overflowLevelRead = .skip) && decide (63 < k) then do
    warn .posOverflow
    pure (zz, none)
  else do
    let v ← readBits p (bitAC p pl) len 0 0
    if 63 < k then do
      warn .posOverflow
      pure (zz, none)
    else pure (zz.setIfInBounds k (level v len), some (k + 1))

/-- R161-R164: one AC code. Answers the array and the next position, or `none` where the code ends the channel. -/
def acCode (p : Params) (pl : Plan) (k : Nat) (zz : Block) (b : Byte) : Engine (Block × Option Nat) :=
  if b = 0x00 then pure (zz, none)
  else if b = 0xF0 then pure (zz, some (k + 16))
  else if b.toNat % 16 = 0 then do
    warn .zeroLen
    pure (zz, none)
  else levelCode p pl (k + b.toNat / 16) (b.toNat % 16) zz

/-- R161: the AC loop. `fuel` bounds the codes read; every code read moves `j`, and a code at or past ds is 0, so
`ds + 1` is never exceeded (R256). -/
def acLoop (p : Params) (pl : Plan) : (fuel k : Nat) → Block → Engine Block
  | 0, _, zz => pure zz
  | n + 1, k, zz =>
    if decide (p.fullBlockPolicy = .stopAt64) && decide (63 < k) then pure zz
    else do
      let b ← acCodeByte p pl
      match ← acCode p pl k zz b with
      | (zz, none) => pure zz
      | (zz, some k) => acLoop p pl n k zz

/-- R160: the DC value of 8 bits, read as two's complement. -/
def dcValue (v : Nat) : Word := (BitVec.ofNat 8 v).signExtend 32

/-- R160 DecodeChannel. -/
def decodeChannel (p : Params) (pl : Plan) : Engine Block := do
  let v ← readBits p (bitDC p pl) 8 0 0
  acLoop p pl (pl.ds + 1) 1 (Block.zero.setIfInBounds 0 (dcValue v))

end Sys2Proof.Machine
end

