-- ==== Sys2Proof/Machine/Huffman.lean ====
section
/-!
DEFINITION. The Huffman decoder (spec/41_huffman.md): the frequency table (R115), the merge tree (R117), the symbol
decode (R120-R122), the phase DECODE_IMAGE and COMPOSITE share (R123) and HUF_DECODE (R124).
-/

namespace Sys2Proof.Machine

/-- Where the compressed bytes COMP stand: base address and length cs (R71, R115). -/
structure Comp where
  base : Nat
  len  : Nat
deriving DecidableEq, Repr

/-- Byte `i` of COMP. Past its end the decoder faults (R115 `Byte()`, R120); the byte is read from memory when a rule
first uses it (R253). -/
def compByte (p : Params) (c : Comp) (i : Nat) : Engine Byte :=
  if c.len ≤ i then raise .hufOverrun i else readByte p (c.base + i)

/-! ### Frequency table -/

/-- `node[s].freq <- f`. -/
def setFreq (a : Arena) (s : Nat) (f : Word) : Arena :=
  a.setIfInBounds s { a[s]?.getD default with freq := f }

/-- R115, first two lines: every symbol's frequency is 0 and the sentinel's is P7. -/
def clearFreqs (p : Params) (a : Arena) : Arena :=
  Vector.mk
    (a.toList.zipIdx.map fun ni =>
      if ni.2 < 256 then { ni.1 with freq := 0 }
      else if ni.2 = 256 then { ni.1 with freq := p.hufSentinelFreq.zeroExtend 32 }
      else ni.1).toArray
    (by simp)

/-- One range of the table: `count` frequency bytes from symbol `s` on. Answers the next index into COMP. -/
def freqRange (p : Params) (c : Comp) : (count s pos : Nat) → Engine Nat
  | 0, _, pos => pure pos
  | n + 1, s, pos => do
    let f ← compByte p c pos
    modifyHidden fun h => { h with node := setFreq h.node s (f.zeroExtend 32) }
    freqRange p c n (s + 1) (pos + 1)

/-- The range `start .. end`: no iteration when start > end (R115). -/
def freqRangeOf (p : Params) (c : Comp) (first last pos : Nat) : Engine Nat :=
  freqRange p c (last + 1 - first) first pos

/-- The next range header of R115: `none` at the terminating zero start byte. -/
def nextHeader (p : Params) (c : Comp) (pos : Nat) : Engine (Nat × Option (Nat × Nat)) := do
  let first ← compByte p c pos
  if first = 0 then pure (pos + 1, none)
  else do
    let last ← compByte p c (pos + 1)
    pure (pos + 2, some (first.toNat, last.toNat))

/-- The loop of R115, with `left` the header bytes that P8 still allows (`HUF_MAX_HDR_BYTES - hdr`): a header takes
two, and the loop ends when none is left. -/
def freqLoop (p : Params) (c : Comp) : (left first last pos : Nat) → Engine Nat
  | 0, first, last, pos => freqRangeOf p c first last pos
  | 1, first, last, pos => do
    let pos ← freqRangeOf p c first last pos
    match ← nextHeader p c pos with
    | (pos, none) => pure pos
    | (pos, some (first, last)) => freqLoop p c 0 first last pos
  | n + 2, first, last, pos => do
    let pos ← freqRangeOf p c first last pos
    match ← nextHeader p c pos with
    | (pos, none) => pure pos
    | (pos, some (first, last)) => freqLoop p c n first last pos

/-- R115 FreqParse: answers the index of the first bit-stream byte. -/
def freqParse (p : Params) (c : Comp) : Engine Nat := do
  modifyHidden fun h => { h with node := clearFreqs p h.node }
  let first ← compByte p c 0
  let last ← compByte p c 1
  freqLoop p c (p.hufMaxHdrBytes - 2) first.toNat last.toNat 2

/-! ### Tree -/

/-- The active slot of least (frequency, index) in a list of nodes that starts at slot `i`, leaving out `skip`;
`best` is the least found so far (R117). -/
def leastActive (skip : Option Nat) : List Node → (i : Nat) → (best : Option (Nat × Word)) → Option (Nat × Word)
  | [], _, best => best
  | n :: ns, i, best =>
    leastActive skip ns (i + 1)
      (if n.freq = 0 || skip == some i then best
       else match best with
         | none => some (i, n.freq)
         | some (j, f) => if n.freq < f then some (i, n.freq) else some (j, f))

/-- The two slots R117 merges, if there are two: `left` then `right`. -/
def mergePair (a : Arena) (next : Nat) : Option ((Nat × Word) × (Nat × Word)) :=
  match leastActive none (a.toList.take next) 0 none with
  | none => none
  | some l =>
    match leastActive (some l.1) (a.toList.take next) 0 none with
    | none => none
    | some r => some (l, r)

/-- One merge of R117 into slot `next`. -/
def mergeInto (a : Arena) (next : Nat) (l r : Nat × Word) : Arena :=
  setFreq (setFreq (a.setIfInBounds next ⟨l.2 + r.2, Fin.ofNat 513 l.1, Fin.ofNat 513 r.1⟩) l.1 0) r.1 0

/-- The loop of R117, with `room` the internal slots still free (`513 - next`). Answers the arena and `next`. -/
def mergeLoop : (room : Nat) → Arena → (next : Nat) → Arena × Nat
  | 0, a, next => (a, next)
  | n + 1, a, next =>
    match mergePair a next with
    | none => (a, next)
    | some (l, r) => mergeLoop n (mergeInto a next l r) (next + 1)

/-- R117 TreeBuild: the arena after the merges, and the root. -/
def treeBuild (a : Arena) : Arena × Option (Fin 513) :=
  let m := mergeLoop 256 a 257
  (m.1,
    if 257 < m.2 then some (Fin.ofNat 513 (m.2 - 1))
    else (leastActive none (m.1.toList.take 257) 0 none).map fun l => Fin.ofNat 513 l.1)

/-! ### Symbols -/

/-- R120 `HufBit()`: the next bit of the stream that starts at byte `start` of COMP. -/
def hufBit (p : Params) (c : Comp) (start : Nat) : Engine Bool := fun s =>
  let cur := s.hidden.hcur
  match compByte p c (start + cur / 8) s with
  | .error f s1 => .error f s1
  | .ok b s1 => .ok (b.getLsbD (7 - cur % 8)) (s1.withHidden { s1.hidden with hcur := cur + 1 })

/-- R121, inner loop: follow the bits from a node to a leaf. `fuel` bounds the depth (R118: at most 256 edges), so it
never runs out on a tree that `treeBuild` made. -/
def walk (p : Params) (c : Comp) (start : Nat) : (fuel : Nat) → Fin 513 → Engine (Fin 513)
  | 0, n => pure n
  | k + 1, n =>
    if n.val ≤ 256 then pure n
    else do
      let bit ← hufBit p c start
      let node ← (fun s => .ok (s.hidden.node[n.val]) s : Engine Node)
      walk p c start k (if bit then node.c1 else node.c0)

/-- R121 SymbolDecode with `left` symbols still to produce: answers how many it produced. -/
def symbolLoop (p : Params) (c : Comp) (start out : Nat) (root : Fin 513) : (left n : Nat) → Engine Nat
  | 0, n => pure n
  | k + 1, n => do
    let leaf ← walk p c start 513 root
    if leaf.val = 256 then pure n
    else do
      writeByte p (out + n) (BitVec.ofNat 8 leaf.val)
      symbolLoop p c start out root k (n + 1)

/-- R121: nothing is decoded when the tree has no root. -/
def symbolDecode (p : Params) (c : Comp) (start out ds : Nat) : Engine Nat := do
  let root ← (fun s => .ok s.hidden.root s : Engine (Option (Fin 513)))
  match root with
  | none => pure 0
  | some r => symbolLoop p c start out r ds 0

/-- Build the tree in the hidden state (R117). -/
def buildTree : Engine Unit :=
  modifyHidden fun h => { h with node := (treeBuild h.node).1, root := (treeBuild h.node).2 }

/-- R123 HuffmanPhase: parse, build, decode, then the zero fill and the flags of R122. -/
def huffmanPhase (p : Params) (c : Comp) (out ds : Nat) : Engine Unit := do
  let start ← freqParse p c
  buildTree
  let n ← symbolDecode p c start out ds
  zeroFill p (out + n) (ds - n)
  warnIf (decide (n < ds)) .hufShort
  modifyRegs fun r => { r with hufOut := BitVec.ofNat 32 n }

/-! ### HUF_DECODE -/

/-- R253: the write footprint of HUF_DECODE. -/
def hufDecodeFootprint (r : Regs) : List Window := [⟨r.dstAddr.toNat, r.hufLen.toNat⟩]

/-- R124 and R253: the pre-checks of HUF_DECODE. -/
def hufDecodeCheck : Engine Plan := do
  let r ← getRegs
  overlapCheck [r.dstWindow] [r.srcWindow]
  faultIf (decide (r.dstLen.toNat < r.hufLen.toNat)) .dstOverrun 0
  pure (Plan.of (hufDecodeFootprint r))

/-- R124: the body of HUF_DECODE. -/
def hufDecodeBody (p : Params) (_ : Plan) : Engine Unit := do
  let r ← getRegs
  huffmanPhase p ⟨r.srcAddr.toNat, r.srcLen.toNat⟩ r.dstAddr.toNat r.hufLen.toNat

/-- R124: HUF_DECODE. -/
def hufDecode (p : Params) (s : State) : State :=
  perform p [s.regs.dstWindow] hufDecodeCheck (hufDecodeBody p) s

/-- R124: HUF_DECODE. -/
def execHufDecode (s : State) : Host.Outcome State Fault Refusal := .next (hufDecode s.cfg s)

end Sys2Proof.Machine
end

