-- ==== Sys2Proof/Machine/Dequant.lean ====
section
/-!
DEFINITION. The dequantizer (spec/42_dequant.md): the quality factor (R140), the tables (R141, R142), the permutation
and the multiply (R143), and the commands QT_BUILD (R145) and DEQUANT_BLOCK (R146).
-/

namespace Sys2Proof.Machine

/-- R140 QFactor. -/
def qFactor (p : Params) (q : Int) : Nat :=
  if q < 0 then 5000
  else if q = 0 then p.qAtQuality0
  else if q < 50 then 5000 / q.toNat
  else if q < 100 then (100 - q.toNat) * 2
  else 0

/-- R141 `scaled[i]`: round half up, then clamp to 8..255. -/
def scaledEntry (base : BitVec 16) (q : Nat) : Nat :=
  min 255 (max 8 ((base.toNat * q + 50) / 100))

/-- R141 `final[i]`. -/
def finalEntry (base mult : BitVec 16) (q : Nat) : Word :=
  BitVec.ofNat 32 ((scaledEntry base q * mult.toNat) >>> 13)

/-- R142: one final table. -/
def finalTable (base mult : Vector (BitVec 16) 64) (q : Nat) : Block :=
  Vector.zipWith (fun b m => finalEntry b m q) base mult

/-- R142 QtBuild: both tables from the current quality. -/
def qtBuildTables (p : Params) : Engine Unit :=
  modifyRegs fun r =>
    let q := qFactor p r.qualityInt
    { r with lumaQ := finalTable p.lumaBase p.mult q, chromaQ := finalTable p.chromaBase p.mult q }

/-- R143, first line: `nat[ZIGZAG[k]] <- zz[k]` for k = 0..63. -/
def toNatural (zigzag : Vector (Fin 64) 64) (zz : Block) : Block :=
  (zigzag.toList.zip zz.toList).foldl (fun nat kv => nat.set kv.1.val kv.2) Block.zero

/-- R143 Dequant: the product wraps to 32 bits. -/
def dequant (p : Params) (zz table : Block) : Block :=
  Vector.zipWith (· * ·) (toNatural p.zigzag zz) table

/-! ### QT_BUILD -/

/-- R253: QT_BUILD has no pre-check of its own. -/
def qtBuildCheck : Engine Plan := pure (Plan.of [])

/-- R145: QT_BUILD. -/
def qtBuild (p : Params) (s : State) : State :=
  perform p [] qtBuildCheck (fun _ => qtBuildTables p) s

/-! ### DEQUANT_BLOCK -/

/-- R253: the write footprint of DEQUANT_BLOCK and of IDCT_BLOCK. -/
def blockStageFootprint (r : Regs) : List Window := [⟨r.dstAddr.toNat, 256⟩]

/-- R146, R181 and R253: the pre-checks of DEQUANT_BLOCK and of IDCT_BLOCK. -/
def blockStageCheck : Engine Plan := do
  let r ← getRegs
  overlapCheck [r.dstWindow] [r.srcWindow]
  faultIf (decide (r.srcLen.toNat < 256)) .srcOverrun 0
  faultIf (decide (r.dstLen.toNat < 256)) .dstOverrun 0
  pure (Plan.of (blockStageFootprint r))

/-- R146: the body of DEQUANT_BLOCK, with the table CHAN names as it stands. -/
def dequantBlockBody (p : Params) (t : TableSel) (_ : Plan) : Engine Unit := do
  let r ← getRegs
  let zz ← readBlock p r.srcAddr.toNat
  let coef := dequant p zz (r.table t)
  writeBlock p r.dstAddr.toNat coef

/-- R146: DEQUANT_BLOCK. -/
def dequantBlock (p : Params) (t : TableSel) (s : State) : State :=
  perform p [s.regs.dstWindow] blockStageCheck (dequantBlockBody p t) s

/-- R145: QT_BUILD. -/
def execQtBuild (s : State) : Host.Outcome State Fault Refusal := .next (qtBuild s.cfg s)

/-- R146: DEQUANT_BLOCK.L, CHAN = 0. -/
def execDequantBlockL (s : State) : Host.Outcome State Fault Refusal := .next (dequantBlock s.cfg .luma s)

/-- R146: DEQUANT_BLOCK.C, CHAN = 1. -/
def execDequantBlockC (s : State) : Host.Outcome State Fault Refusal := .next (dequantBlock s.cfg .chroma s)

end Sys2Proof.Machine
end

