-- ==== Sys2Proof/Machine/Kernel.lean ====
section
/-!
DEFINITION. The one-dimensional IDCT kernel: the fixed-point multiply (spec/44_idct.md R176) and the reference kernel
that is the default of parameter P5 (R177), and the choice of kernel.
-/

namespace Sys2Proof.Machine

/-- R176: the four Q16 constants (spec/90_conflicts.md C1). -/
def kA : Int := 0x16A0A
def kB : Int := 0x1D907
def kC : Int := 0x29CF6
def kD : Int := 0x11518

/-- R176 `MUL(a, K)`, with the product width P11. -/
def mulK (w : ProductBits) (a : Word) (k : Int) : Word :=
  match w with
  | .bits64 => wrap32 (asr (a.toInt * k) 16)
  | .bits32 => wrap32 (asr (wrap32 (a.toInt * k)).toInt 16)

/-- R177: the reference kernel. Every sum and difference of words is `wrap32`. PRESUMED by the spec itself (general
knowledge, spec/93_implementation_defined.md G2; log entry 5). -/
def referenceKernel (w : ProductBits) (i : Vector Word 8) : Vector Word 8 :=
  let tmp10 := i[0] + i[4]
  let tmp11 := i[0] - i[4]
  let tmp13 := i[2] + i[6]
  let tmp12 := mulK w (i[2] - i[6]) kA - tmp13
  let e0 := tmp10 + tmp13
  let e3 := tmp10 - tmp13
  let e1 := tmp11 + tmp12
  let e2 := tmp11 - tmp12
  let z13 := i[5] + i[3]
  let z10 := i[5] - i[3]
  let z11 := i[1] + i[7]
  let z12 := i[1] - i[7]
  let t7 := z11 + z13
  let t11 := mulK w (z11 - z13) kA
  let z5 := mulK w (z10 + z12) kB
  let t10 := mulK w z12 kD - z5
  let t12 := mulK w z10 (-kC) + z5
  let t6 := t12 - t7
  let t5 := t11 - t6
  let t4 := t10 + t5
  #v[e0 + t7, e1 + t6, e2 + t5, e3 - t4, e3 + t4, e2 - t5, e1 - t6, e0 - t7]

/-- P5: the kernel a machine uses. -/
def kernel1d (p : Params) (i : Vector Word 8) : Vector Word 8 :=
  match p.kernel with
  | .reference => referenceKernel p.productBits i
  | .uninterpreted k => Config.otherKernel k i

end Sys2Proof.Machine
end

