-- ==== Sys2Proof/Machine/Idct.lean ====
section
/-!
DEFINITION. The inverse DCT (spec/44_idct.md): the two passes over the one-dimensional kernel (R175), the descale
(R179), and IDCT_BLOCK (R181).
-/

namespace Sys2Proof.Machine

/-- Column `x` of a block (R175). -/
def column (b : Block) (x : Fin 8) : Vector Word 8 :=
  Vector.ofFn fun r : Fin 8 => b[r.val * 8 + x.val]

/-- Row `r` of a block (R175). -/
def row (b : Block) (r : Fin 8) : Vector Word 8 :=
  Vector.ofFn fun x : Fin 8 => b[r.val * 8 + x.val]

/-- R175, pass 1: the kernel on each column. -/
def columnPass (p : Params) (b : Block) : Block :=
  let cols : Vector (Vector Word 8) 8 := Vector.ofFn fun x => kernel1d p (column b x)
  Vector.ofFn fun i : Fin 64 => cols[i.val % 8][i.val / 8]

/-- R175, pass 2: the kernel on each row. -/
def rowPass (p : Params) (b : Block) : Block :=
  let rows : Vector (Vector Word 8) 8 := Vector.ofFn fun r => kernel1d p (row b r)
  Vector.ofFn fun i : Fin 64 => rows[i.val / 8][i.val % 8]

/-- R179 Descale: the clamp bound is 128, not 127. -/
def descale (v : Word) : Word :=
  let w := asr (wrap32 (v.toInt + if v.toInt < 0 then 15 else 0)).toInt 4
  wrap32 (clamp w (-128) 128)

/-- R175 Idct2D: columns before rows. -/
def idct2D (p : Params) (c : Block) : Block := (rowPass p (columnPass p c)).map descale

/-! ### IDCT_BLOCK -/

/-- R181: the body of IDCT_BLOCK. -/
def idctBlockBody (p : Params) (_ : Plan) : Engine Unit := do
  let r ← getRegs
  let c ← readBlock p r.srcAddr.toNat
  modifyHidden fun h => { h with ws := columnPass p c }
  writeBlock p r.dstAddr.toNat (idct2D p c)

/-- R181: IDCT_BLOCK. -/
def idctBlock (p : Params) (s : State) : State :=
  perform p [s.regs.dstWindow] blockStageCheck (idctBlockBody p) s

/-- R181: IDCT_BLOCK. -/
def execIdctBlock (s : State) : Host.Outcome State Fault Refusal := .next (idctBlock s.cfg s)

end Sys2Proof.Machine
end

