-- ==== Sys2Proof/Machine/Image.lean ====
section
/-!
DEFINITION. The block pipeline and DECODE_IMAGE (spec/46_image.md): DecodeBlocks (R205, R206), the raster placement
(R207) and the command (R208).
-/

namespace Sys2Proof.Machine

/-! ### The block pipeline -/

/-- R205: one channel of a block through the entropy decode, the dequantizer and the IDCT. -/
def decodePlane (p : Params) (pl : Plan) (ch : Channel) : Engine Block := do
  let zz ← decodeChannel p pl
  let r ← getRegs
  let coef := dequant p zz (r.table ch.table)
  let pix := idct2D p coef
  modifyHidden fun h =>
    { h with
      zz := h.zz.set ch.index zz
      coef := h.coef.set ch.index coef
      ws := columnPass p coef
      pix := h.pix.set ch.index pix }
  pure pix

/-- R205: `n` pixels of a block from pixel `px` on, each converted and placed; `place px` is the address of pixel
`px`. -/
def placePixels (p : Params) (fmt : PixelFormat) (place : Nat → Nat) (y cb cr : Block) : (n px : Nat) → Engine Unit
  | 0, _ => pure ()
  | n + 1, px => do
    writePixel p (place px) fmt (color (y.toList.getD px 0) (cb.toList.getD px 0) (cr.toList.getD px 0))
    placePixels p fmt place y cb cr n (px + 1)

/-- R205, R206: one block; the channels in the order Y, Cb, Cr. -/
def decodeBlock (p : Params) (pl : Plan) (fmt : PixelFormat) (place : Nat → Nat) : Engine Unit := do
  let y ← decodePlane p pl .y
  let cb ← decodePlane p pl .cb
  let cr ← decodePlane p pl .cr
  placePixels p fmt place y cb cr 64 0

/-- R205 DecodeBlocks: `n` blocks from block `b` on; `place b px` is the address of pixel `px` of block `b`. -/
def decodeBlocks (p : Params) (pl : Plan) (fmt : PixelFormat) (place : Nat → Nat → Nat) : (n b : Nat) → Engine Unit
  | 0, _ => pure ()
  | n + 1, b => do
    decodeBlock p pl fmt (place b)
    decodeBlocks p pl fmt place n (b + 1)

/-- R208, R224: the tables, the Huffman phase and the blocks of a payload that the pre-checks accepted. -/
def decodePayload (p : Params) (pl : Plan) (fmt : PixelFormat) (place : Nat → Nat → Nat) (blocks : Nat) :
    Engine Unit := do
  let r ← getRegs
  qtBuildTables p
  huffmanPhase p ⟨r.srcAddr.toNat + pl.compOff, pl.cs⟩ r.scrAddr.toNat pl.ds
  decodeBlocks p pl fmt place blocks 0

/-- R208, R224: PayloadParse and the scratch check. -/
def payloadCheck (p : Params) : Engine Plan := do
  let pl ← payloadParse p
  let room ← regVal Regs.scrLen
  faultIf (decide (room < pl.ds)) .scratchOverflow pl.ds
  pure pl

/-! ### DECODE_IMAGE -/

/-- R207 PlaceRaster: the address of pixel `px` of block `b` in an image of width `w` at `dst`. -/
def rasterAddr (fmt : PixelFormat) (dst w b px : Nat) : Nat :=
  let x := b % (w / 8) * 8 + px % 8
  let y := b / (w / 8) * 8 + px / 8
  dst + (y * w + x) * bpp fmt

/-- R208: the geometry DECODE_IMAGE rejects. -/
def badGeometry (w h : Nat) : Bool :=
  w == 0 || h == 0 || w % 8 != 0 || h % 8 != 0 || decide (Config.maxDim < w) || decide (Config.maxDim < h)

/-- R253: the image part of the write footprint of DECODE_IMAGE. -/
def imageFootprint (fmt : PixelFormat) (r : Regs) : Window :=
  ⟨r.dstAddr.toNat, r.width.toNat * r.height.toNat * bpp fmt⟩

/-- R208 and R253: the pre-checks of DECODE_IMAGE. -/
def decodeImageCheck (p : Params) (fmt : PixelFormat) : Engine Plan := do
  let r ← getRegs
  let w := r.width.toNat
  let h := r.height.toNat
  faultIf (badGeometry w h) .badGeometry 0
  overlapCheck [r.dstWindow, r.scrWindow] [r.srcWindow]
  faultIf (decide (r.dstLen.toNat < w * h * bpp fmt)) .dstOverrun 0
  let pl ← payloadCheck p
  pure { pl with footprint := [⟨r.scrAddr.toNat, pl.ds⟩, imageFootprint fmt r] }

/-- R208: the body of DECODE_IMAGE. -/
def decodeImageBody (p : Params) (fmt : PixelFormat) (pl : Plan) : Engine Unit := do
  let r ← getRegs
  let w := r.width.toNat
  let h := r.height.toNat
  decodePayload p pl fmt (rasterAddr fmt r.dstAddr.toNat w) (w / 8 * (h / 8))

/-- R208: DECODE_IMAGE. -/
def decodeImage (p : Params) (fmt : PixelFormat) (s : State) : State :=
  perform p [s.regs.dstWindow, s.regs.scrWindow] (decodeImageCheck p fmt) (decodeImageBody p fmt) s

/-- R208: DECODE_IMAGE.RGB24. -/
def execDecodeImageRgb24 (s : State) : Host.Outcome State Fault Refusal := .next (decodeImage s.cfg .rgb24 s)

/-- R208: DECODE_IMAGE.RGB565. -/
def execDecodeImageRgb565 (s : State) : Host.Outcome State Fault Refusal := .next (decodeImage s.cfg .rgb565 s)

/-- R208: DECODE_IMAGE.ARGB32. -/
def execDecodeImageArgb32 (s : State) : Host.Outcome State Fault Refusal := .next (decodeImage s.cfg .argb32 s)

end Sys2Proof.Machine
end

