-- ==== Sys2Proof/Machine/Composite.lean ====
section
/-!
DEFINITION. The block-raster compositor and the playback cursor (spec/47_composite.md): the offset list (R77, R220), the
scatter (R222), the cursor (R226) and COMPOSITE (R224, R225).
-/

namespace Sys2Proof.Machine

/-- R77: `n` block offsets from address `a`. -/
def readOffsets (p : Params) (a : Nat) : Nat → Engine (List Nat)
  | 0 => pure []
  | n + 1 => do
    let v ← memRead p a 4
    let rest ← readOffsets p (a + 4) n
    pure (v :: rest)

/-- R224: the first offset, from index `i` on, whose block does not fit the write window faults with its index. -/
def checkOffsets (fmt : PixelFormat) (stride len : Nat) : List Nat → (i : Nat) → Engine Unit
  | [], _ => pure ()
  | o :: os, i => do
    faultIf (decide (len < (o + 7 * stride + 8) * bpp fmt)) .dstOverrun i
    checkOffsets fmt stride len os (i + 1)

/-- R222 PlaceScatter: the address of pixel `px` of the block at offset `o`. -/
def scatterAddr (fmt : PixelFormat) (dst stride o px : Nat) : Nat :=
  dst + (o + px / 8 * stride + px % 8) * bpp fmt

/-- R253: the bytes of the scatter pixels, one window for each row of each block. -/
def scatterWindows (fmt : PixelFormat) (dst stride : Nat) (offsets : List Nat) : List Window :=
  offsets.flatMap fun o => (List.range 8).map fun r => ⟨scatterAddr fmt dst stride o (8 * r), 8 * bpp fmt⟩

/-- R226 AdvanceCursor, on the two registers. -/
def advance (count cur : Word) : Word :=
  if count = 0 then cur
  else if count.toNat ≤ cur.toNat + 1 then 0
  else cur + 1

/-- R226 AdvanceCursor. -/
def advanceCursor : Engine Unit :=
  modifyRegs fun r => { r with animCur := advance r.animCount r.animCur }

/-- R224, R225 and R253: the pre-checks of COMPOSITE; an empty frame has none. -/
def compositeCheck (p : Params) (fmt : PixelFormat) : Engine Plan := do
  let r ← getRegs
  let n := r.blockCount.toNat
  if n = 0 then pure (Plan.of [])
  else do
    faultIf (decide (Config.maxDim < 8 * n)) .badGeometry 0
    overlapCheck [r.dstWindow, r.scrWindow] [r.srcWindow, r.offsWindow]
    let offsets ← readOffsets p r.offsAddr.toNat n
    checkOffsets fmt r.dstStride.toNat r.dstLen.toNat offsets 0
    let pl ← payloadCheck p
    pure { pl with
      footprint := ⟨r.scrAddr.toNat, pl.ds⟩ :: scatterWindows fmt r.dstAddr.toNat r.dstStride.toNat offsets
      offsets := offsets }

/-- R224: the body of COMPOSITE. -/
def compositeBody (p : Params) (fmt : PixelFormat) (pl : Plan) : Engine Unit := do
  let r ← getRegs
  let n := r.blockCount.toNat
  if n = 0 then advanceCursor
  else do
    decodePayload p pl fmt
      (fun b px => scatterAddr fmt r.dstAddr.toNat r.dstStride.toNat (pl.offsets.getD b 0) px) n
    advanceCursor

/-- R253: the written windows of COMPOSITE; an empty frame has none (R225). -/
def compositeWritten (r : Regs) : List Window :=
  if r.blockCount.toNat = 0 then [] else [r.dstWindow, r.scrWindow]

/-- R224, R225: COMPOSITE. -/
def composite (p : Params) (fmt : PixelFormat) (s : State) : State :=
  perform p (compositeWritten s.regs) (compositeCheck p fmt) (compositeBody p fmt) s

/-- R224: COMPOSITE.RGB24. -/
def execCompositeRgb24 (s : State) : Host.Outcome State Fault Refusal := .next (composite s.cfg .rgb24 s)

/-- R224: COMPOSITE.RGB565. -/
def execCompositeRgb565 (s : State) : Host.Outcome State Fault Refusal := .next (composite s.cfg .rgb565 s)

/-- R224: COMPOSITE.ARGB32. -/
def execCompositeArgb32 (s : State) : Host.Outcome State Fault Refusal := .next (composite s.cfg .argb32 s)

end Sys2Proof.Machine
end

