-- ==== Sys2Proof/Machine/Control.lean ====
section
/-!
DEFINITION. The control command NOP (spec/40_control.md R110), and what a reserved command word does
(spec/30_encoding.md R92, R93). Control transfer does not exist (R111).
-/

namespace Sys2Proof.Machine

/-- R253: NOP has no pre-check of its own. -/
def nopCheck : Engine Plan := pure (Plan.of [])

/-- R110: NOP. -/
def nopCommand (p : Params) (s : State) : State := perform p [] nopCheck (fun _ => pure ()) s

/-- R92, R250, R251: a reserved command word ends at once with ILLEGAL_CMD and the word; it touches no memory. -/
def illegalCheck : Engine Plan := fun s => .error ⟨.illegalCmd, s.regs.cmd.toNat⟩ s

/-- R92: the run of a reserved command word. -/
def illegalCommand (p : Params) (s : State) : State := perform p [] illegalCheck (fun _ => pure ()) s

/-- R110: NOP. -/
def execNop (s : State) : Host.Outcome State Fault Refusal := .next (nopCommand s.cfg s)

end Sys2Proof.Machine
end

