-- ==== Sys2Proof/Machine/Dispatch.lean ====
section
/-!
DEFINITION. The dispatch: one arm for each command of spec/30_encoding.md rule R94.
-/

namespace Sys2Proof.Machine

def exec (i : Instr) (s : State) : Host.Outcome State Fault Refusal :=
  match i with
  | .nop => Sys2Proof.Machine.execNop s
  | .qtBuild => Sys2Proof.Machine.execQtBuild s
  | .hufDecode => Sys2Proof.Machine.execHufDecode s
  | .dequantBlockL => Sys2Proof.Machine.execDequantBlockL s
  | .dequantBlockC => Sys2Proof.Machine.execDequantBlockC s
  | .idctBlock => Sys2Proof.Machine.execIdctBlock s
  | .colorBlockRgb24 => Sys2Proof.Machine.execColorBlockRgb24 s
  | .colorBlockRgb565 => Sys2Proof.Machine.execColorBlockRgb565 s
  | .colorBlockArgb32 => Sys2Proof.Machine.execColorBlockArgb32 s
  | .decodeImageRgb24 => Sys2Proof.Machine.execDecodeImageRgb24 s
  | .decodeImageRgb565 => Sys2Proof.Machine.execDecodeImageRgb565 s
  | .decodeImageArgb32 => Sys2Proof.Machine.execDecodeImageArgb32 s
  | .compositeRgb24 => Sys2Proof.Machine.execCompositeRgb24 s
  | .compositeRgb565 => Sys2Proof.Machine.execCompositeRgb565 s
  | .compositeArgb32 => Sys2Proof.Machine.execCompositeArgb32 s

end Sys2Proof.Machine
end

