-- ==== Sys2Proof/WellFormed.lean ====
section
/-!
DEFINITION. When the fields of a command word are well formed: the reserved values of spec/30_encoding.md rules
R92 and R93, one named defect for each. A command carries no operand, so what can be ill formed is
the word a host writes to CMD; `Instr.WellFormed` (Decode.lean) asks the same of the fields a command is encoded with.
-/

namespace Sys2Proof

/-- Why a command word is reserved (R93). -/
inductive Defect where
  /-- RSV (bits 31:11) is not 0. -/
  | reservedBits
  /-- OPC is above 0x07. -/
  | reservedOpcode
  /-- FMT = 3 on a command that uses FMT. -/
  | reservedFormat
  /-- FMT is not 0 on a command that does not use it. -/
  | unusedFormat
  /-- CHAN is not 0 on a command that does not use it. -/
  | unusedChannel
deriving DecidableEq, Repr

namespace CommandFields

/-- R91: the opcodes whose command uses FMT. -/
def usesFormat (f : CommandFields) : Bool := f.opc == 5 || f.opc == 6 || f.opc == 7

/-- R91: the opcode whose command uses CHAN. -/
def usesChannel (f : CommandFields) : Bool := f.opc == 3

/-- R93: the defects of a command word's fields, in no order; a word is legal when the list is empty. -/
def defects (f : CommandFields) : List Defect :=
  (if f.rsv = 0 then [] else [.reservedBits]) ++
  (if f.opc ≤ 7 then [] else [.reservedOpcode]) ++
  (if f.usesFormat && f.fmt == 3 then [.reservedFormat] else []) ++
  (if !f.usesFormat && f.fmt != 0 then [.unusedFormat] else []) ++
  (if !f.usesChannel && f.chan != 0 then [.unusedChannel] else [])

/-- A command word is legal (R92): none of the defects of R93 holds. -/
abbrev WellFormed (f : CommandFields) : Prop := f.defects = []

end CommandFields

end Sys2Proof
end

