-- ==== Sys2Proof/Decode.lean ====
section
/-!
DEFINITION. The decoder of spec/30_encoding.md rule R92, total on every 32-bit CMD value and rejecting by name, and
the encoder of rule R94. A command word is a register value, never bytes of memory: its laying out is the identity.
-/

namespace Sys2Proof

/-- R90: the fields of a command word. -/
def fieldsOf (w : Word) : CommandFields where
  opc := w.extractLsb' 0 8
  fmt := w.extractLsb' 8 2
  chan := w.extractLsb' 10 1
  rsv := w.extractLsb' 11 21

/-- R90: the word that has given fields. -/
def wordOf (f : CommandFields) : Word := f.rsv ++ f.chan ++ f.fmt ++ f.opc

/-- What R92 answers for a CMD value: a command, or ILLEGAL with the reason R93 gives. -/
inductive Decoded where
  | command (i : Instr)
  | illegal (why : Defect)
deriving DecidableEq, Repr

/-- The format FMT names on a command that uses it (R90); FMT = 3 is reserved. -/
def formatOf (fmt : BitVec 2) : Option PixelFormat :=
  if fmt = 0 then some .rgb24
  else if fmt = 1 then some .rgb565
  else if fmt = 2 then some .argb32
  else none

/-- A command of R92's third line: it uses FMT and not CHAN. -/
def decodeFormatted (f : CommandFields) (k : PixelFormat → Instr) : Decoded :=
  match formatOf f.fmt with
  | none => .illegal .reservedFormat
  | some p => if f.chan ≠ 0 then .illegal .unusedChannel else .command (k p)

/-- A command of R92's last line: it uses neither FMT nor CHAN. -/
def decodePlain (f : CommandFields) (i : Instr) : Decoded :=
  if f.fmt ≠ 0 then .illegal .unusedFormat
  else if f.chan ≠ 0 then .illegal .unusedChannel
  else .command i

/-- DEQUANT_BLOCK (R92): it uses CHAN and not FMT. -/
def decodeDequant (f : CommandFields) : Decoded :=
  if f.fmt ≠ 0 then .illegal .unusedFormat
  else if f.chan = 0 then .command .dequantBlockL
  else .command .dequantBlockC

/-- COLOR_BLOCK of each format (R94). -/
def colorBlockOf : PixelFormat → Instr
  | .rgb24 => .colorBlockRgb24
  | .rgb565 => .colorBlockRgb565
  | .argb32 => .colorBlockArgb32

/-- DECODE_IMAGE of each format (R94). -/
def decodeImageOf : PixelFormat → Instr
  | .rgb24 => .decodeImageRgb24
  | .rgb565 => .decodeImageRgb565
  | .argb32 => .decodeImageArgb32

/-- COMPOSITE of each format (R94). -/
def compositeOf : PixelFormat → Instr
  | .rgb24 => .compositeRgb24
  | .rgb565 => .compositeRgb565
  | .argb32 => .compositeArgb32

/-- R92 on the fields of a command word. -/
def decodeFields (f : CommandFields) : Decoded :=
  if f.rsv ≠ 0 then .illegal .reservedBits
  else match f.opc.toNat with
    | 0 => decodePlain f .nop
    | 1 => decodePlain f .qtBuild
    | 2 => decodePlain f .hufDecode
    | 3 => decodeDequant f
    | 4 => decodePlain f .idctBlock
    | 5 => decodeFormatted f colorBlockOf
    | 6 => decodeFormatted f decodeImageOf
    | 7 => decodeFormatted f compositeOf
    | _ => .illegal .reservedOpcode

/-- R92 `decode(w)`. -/
def decode (w : Word) : Decoded := decodeFields (fieldsOf w)

/-- The instruction the decoder reads from a word numbered as spec/opcode_table.json numbers it. -/
def decodeTableWord (_nbits w : Nat) : Option Instr :=
  if w < 2 ^ 32 then
    match decode (BitVec.ofNat 32 w) with
    | .command i => some i
    | .illegal _ => none
  else none

/-- The fields each command is encoded with (R94). -/
def encodeFields : Instr → CommandFields
  | .nop => ⟨0, 0, 0, 0⟩
  | .qtBuild => ⟨1, 0, 0, 0⟩
  | .hufDecode => ⟨2, 0, 0, 0⟩
  | .dequantBlockL => ⟨3, 0, 0, 0⟩
  | .dequantBlockC => ⟨3, 0, 1, 0⟩
  | .idctBlock => ⟨4, 0, 0, 0⟩
  | .colorBlockRgb24 => ⟨5, 0, 0, 0⟩
  | .colorBlockRgb565 => ⟨5, 1, 0, 0⟩
  | .colorBlockArgb32 => ⟨5, 2, 0, 0⟩
  | .decodeImageRgb24 => ⟨6, 0, 0, 0⟩
  | .decodeImageRgb565 => ⟨6, 1, 0, 0⟩
  | .decodeImageArgb32 => ⟨6, 2, 0, 0⟩
  | .compositeRgb24 => ⟨7, 0, 0, 0⟩
  | .compositeRgb565 => ⟨7, 1, 0, 0⟩
  | .compositeArgb32 => ⟨7, 2, 0, 0⟩

/-- R94: the CMD value of a command. -/
def encode (i : Instr) : Word := wordOf (encodeFields i)

/-- A command is well formed when the fields it is encoded with are legal (R93). -/
abbrev Instr.WellFormed (i : Instr) : Prop := (encodeFields i).WellFormed

end Sys2Proof
end

