-- ==== Sys2Proof/Machine/HostPort.lean ====
section
/-!
DEFINITION. The host's side: the register port and its map (spec/10_state.md R20-R31), START (R30), reset and
cancellation (spec/70_reset_and_hazards.md R280, R281), and the moves of the host on its memory (R81, R291).
-/

namespace Sys2Proof.Machine

/-- The registers of the map (R25). -/
inductive Csr where
  | id
  | ctrl
  | cmd
  | status
  | srcAddr
  | srcLen
  | dstAddr
  | dstLen
  | scrAddr
  | scrLen
  | width
  | height
  | quality
  | dstStride
  | offsAddr
  | blockCount
  | hufLen
  | hufOut
  | animCount
  | animCur
  | faultInfo
  | lumaQ (i : Fin 64)
  | chromaQ (i : Fin 64)
deriving DecidableEq, Repr

/-! ### The register map -/

/-- R26: the fixed value of ID. -/
def idValue : Word := 0x4F500001

/-- R25: the offsets of the registers below 0x100. -/
def csrTable : List (Nat × Csr) :=
  [(0x000, .id), (0x004, .ctrl), (0x008, .cmd), (0x00C, .status), (0x010, .srcAddr), (0x014, .srcLen),
   (0x018, .dstAddr), (0x01C, .dstLen), (0x020, .scrAddr), (0x024, .scrLen), (0x028, .width), (0x02C, .height),
   (0x030, .quality), (0x034, .dstStride), (0x038, .offsAddr), (0x03C, .blockCount), (0x040, .hufLen),
   (0x044, .hufOut), (0x048, .animCount), (0x04C, .animCur), (0x050, .faultInfo)]

/-- R25: the register at an aligned offset of the window; a reserved offset has none. -/
def csrAt (off : Nat) : Option Csr :=
  if off < 0x100 then csrTable.lookup off
  else if off < 0x200 then some (.lumaQ (Fin.ofNat 64 ((off - 0x100) / 4)))
  else if off < 0x300 then some (.chromaQ (Fin.ofNat 64 ((off - 0x200) / 4)))
  else none

/-- R25: the offset of a register. -/
def Csr.offset : Csr → Nat
  | .id => 0x000
  | .ctrl => 0x004
  | .cmd => 0x008
  | .status => 0x00C
  | .srcAddr => 0x010
  | .srcLen => 0x014
  | .dstAddr => 0x018
  | .dstLen => 0x01C
  | .scrAddr => 0x020
  | .scrLen => 0x024
  | .width => 0x028
  | .height => 0x02C
  | .quality => 0x030
  | .dstStride => 0x034
  | .offsAddr => 0x038
  | .blockCount => 0x03C
  | .hufLen => 0x040
  | .hufOut => 0x044
  | .animCount => 0x048
  | .animCur => 0x04C
  | .faultInfo => 0x050
  | .lumaQ i => 0x100 + 4 * i.val
  | .chromaQ i => 0x200 + 4 * i.val

/-- R23, R25: the registers marked L, which are also the RW ones. -/
def Csr.locked : Csr → Bool
  | .cmd | .srcAddr | .srcLen | .dstAddr | .dstLen | .scrAddr | .scrLen | .width | .height | .quality | .dstStride
  | .offsAddr | .blockCount | .hufLen | .animCount | .animCur => true
  | .id | .ctrl | .status | .hufOut | .faultInfo | .lumaQ _ | .chromaQ _ => false

/-- R31: the registers that read as unspecified values while BUSY = 1. -/
def Csr.unspecifiedWhileBusy : Csr → Bool
  | .hufOut | .animCur | .faultInfo | .lumaQ _ | .chromaQ _ => true
  | .id | .ctrl | .cmd | .status | .srcAddr | .srcLen | .dstAddr | .dstLen | .scrAddr | .scrLen | .width | .height
  | .quality | .dstStride | .offsAddr | .blockCount | .hufLen | .animCount => false

/-- R27: CTRL as the host reads it. -/
def ctrlWord (s : State) : Word := bitAt s.irqEn 2

/-- The value of a register (R25-R29). -/
def Csr.read (s : State) : Csr → Word
  | .id => idValue
  | .ctrl => ctrlWord s
  | .cmd => s.regs.cmd
  | .status => s.status.toWord
  | .srcAddr => s.regs.srcAddr
  | .srcLen => s.regs.srcLen
  | .dstAddr => s.regs.dstAddr
  | .dstLen => s.regs.dstLen
  | .scrAddr => s.regs.scrAddr
  | .scrLen => s.regs.scrLen
  | .width => s.regs.width
  | .height => s.regs.height
  | .quality => s.regs.quality
  | .dstStride => s.regs.dstStride
  | .offsAddr => s.regs.offsAddr
  | .blockCount => s.regs.blockCount
  | .hufLen => s.regs.hufLen
  | .hufOut => s.regs.hufOut
  | .animCount => s.regs.animCount
  | .animCur => s.regs.animCur
  | .faultInfo => s.regs.faultInfo
  | .lumaQ i => s.regs.lumaQ[i.val]
  | .chromaQ i => s.regs.chromaQ[i.val]

/-- Store a value in a host-writable data register; the other registers ignore it (R23, R29). -/
def Csr.store (r : Regs) (v : Word) : Csr → Regs
  | .cmd => { r with cmd := v }
  | .srcAddr => { r with srcAddr := v }
  | .srcLen => { r with srcLen := v }
  | .dstAddr => { r with dstAddr := v }
  | .dstLen => { r with dstLen := v }
  | .scrAddr => { r with scrAddr := v }
  | .scrLen => { r with scrLen := v }
  | .width => { r with width := v }
  | .height => { r with height := v }
  | .quality => { r with quality := v }
  | .dstStride => { r with dstStride := v }
  | .offsAddr => { r with offsAddr := v }
  | .blockCount => { r with blockCount := v }
  | .hufLen => { r with hufLen := v }
  | .animCount => { r with animCount := v }
  | .animCur => { r with animCur := v }
  | .id | .ctrl | .status | .hufOut | .faultInfo | .lumaQ _ | .chromaQ _ => r

/-! ### The running command -/

/-- The written windows of a command (R253). -/
def writtenWindows (r : Regs) : Instr → List Window
  | .nop | .qtBuild => []
  | .hufDecode | .dequantBlockL | .dequantBlockC | .idctBlock
  | .colorBlockRgb24 | .colorBlockRgb565 | .colorBlockArgb32 => [r.dstWindow]
  | .decodeImageRgb24 | .decodeImageRgb565 | .decodeImageArgb32 => [r.dstWindow, r.scrWindow]
  | .compositeRgb24 | .compositeRgb565 | .compositeArgb32 => compositeWritten r

/-- The read windows of a command (R253). -/
def readWindows (r : Regs) : Instr → List Window
  | .nop | .qtBuild => []
  | .hufDecode | .dequantBlockL | .dequantBlockC | .idctBlock
  | .colorBlockRgb24 | .colorBlockRgb565 | .colorBlockArgb32
  | .decodeImageRgb24 | .decodeImageRgb565 | .decodeImageArgb32 => [r.srcWindow]
  | .compositeRgb24 | .compositeRgb565 | .compositeArgb32 =>
    if r.blockCount.toNat = 0 then [] else [r.srcWindow, r.offsWindow]

/-- R253: SCR bytes 0 .. ds-1, with ds as the payload in memory holds it. DESIGN CHOICE (log entry 9): where the read
window does not hold ds, or it cannot be reached, the whole scratch window. -/
def scratchFootprint (p : Params) (s : State) : Window :=
  match sizeField p 4 s with
  | .ok ds _ => ⟨s.regs.scrAddr.toNat, ds⟩
  | .error _ _ => s.regs.scrWindow

/-- R253: the scatter pixels, with the offsets as memory holds them. DESIGN CHOICE (log entry 9): where one cannot be
reached, the whole write window. -/
def scatterFootprint (p : Params) (fmt : PixelFormat) (s : State) : List Window :=
  match readOffsets p s.regs.offsAddr.toNat s.regs.blockCount.toNat s with
  | .ok offsets _ => scatterWindows fmt s.regs.dstAddr.toNat s.regs.dstStride.toNat offsets
  | .error _ _ => [s.regs.dstWindow]

/-- R253: the write footprint of COMPOSITE, by its two rows. -/
def compositeFootprint (p : Params) (fmt : PixelFormat) (s : State) : List Window :=
  if s.regs.blockCount.toNat = 0 then [] else scratchFootprint p s :: scatterFootprint p fmt s

/-- The write footprint of a command (R253), whether or not its pre-checks would pass. -/
def footprintOf (p : Params) (i : Instr) (s : State) : List Window :=
  match i with
  | .nop | .qtBuild => []
  | .hufDecode => hufDecodeFootprint s.regs
  | .dequantBlockL | .dequantBlockC | .idctBlock => blockStageFootprint s.regs
  | .colorBlockRgb24 => colorBlockFootprint .rgb24 s.regs
  | .colorBlockRgb565 => colorBlockFootprint .rgb565 s.regs
  | .colorBlockArgb32 => colorBlockFootprint .argb32 s.regs
  | .decodeImageRgb24 => [scratchFootprint p s, imageFootprint .rgb24 s.regs]
  | .decodeImageRgb565 => [scratchFootprint p s, imageFootprint .rgb565 s.regs]
  | .decodeImageArgb32 => [scratchFootprint p s, imageFootprint .argb32 s.regs]
  | .compositeRgb24 => compositeFootprint p .rgb24 s
  | .compositeRgb565 => compositeFootprint p .rgb565 s
  | .compositeArgb32 => compositeFootprint p .argb32 s

/-- The windows the running command writes (R81). -/
def State.outputWindows (s : State) : List Window :=
  match s.phase with
  | .run i => writtenWindows s.regs i
  | .idle | .runIllegal => []

/-- The windows the running command uses (R81). -/
def State.allWindows (s : State) : List Window :=
  match s.phase with
  | .run i => writtenWindows s.regs i ++ readWindows s.regs i
  | .idle | .runIllegal => []

/-! ### START and reset -/

/-- R30: the phase START enters. -/
def phaseOf (w : Word) : Phase :=
  match decode w with
  | .command i => .run i
  | .illegal _ => .runIllegal

/-- R30: an accepted START, one atomic step; the hidden state takes its entry values (R41). -/
def acceptStart (s : State) : State :=
  (((s.withStatus s.status.started).withRegs { s.regs with faultInfo := 0, hufOut := 0 }).withHidden
    Hidden.entry).withPhase (phaseOf s.regs.cmd)

/-- R281: a running command is cancelled; every byte of its write footprint is unspecified, and so are its written
windows if the host wrote one of its windows (R81). -/
def cancel (p : Params) (s : State) : State :=
  match s.phase with
  | .run i =>
    havoc p (footprintOf p i s ++ (if s.interfered then writtenWindows s.regs i else [])) s
  | .idle | .runIllegal => s

/-- R280: every piece of the block's state at its reset value; memory, the level of the reset input, the moves still to
come and what the host last read are not the block's. -/
def resetBlock (s : State) : State :=
  { State.reset with
    cfg := s.cfg
    mem := s.mem
    resetHeld := s.resetHeld
    draws := s.draws
    inputs := s.inputs
    portData := s.portData
    memData := s.memData }

/-- R281: the reset of R280, whether or not a command runs. -/
def softReset (p : Params) (s : State) : State := resetBlock (cancel p s)

/-! ### Register accesses -/

/-- R31: a dropped write or START. -/
def dropWithHazard (s : State) : State := s.withStatus s.status.hazard

/-- R27: a write to CTRL. SOFT_RESET wins over START and over IRQ_EN (log entry 10). -/
def writeCtrl (p : Params) (v : Word) (s : State) : State :=
  if v.getLsbD 1 then softReset p s
  else
    let s := s.withIrqEn (v.getLsbD 2)
    if v.getLsbD 0 then (if s.status.busy then dropWithHazard s else acceptStart s) else s

/-- R23, R28-R31: an aligned 32-bit write to a register. -/
def writeCsr (p : Params) (c : Csr) (v : Word) (s : State) : State :=
  match c with
  | .ctrl => writeCtrl p v s
  | .status => s.withStatus (s.status.clearedBy v)
  | c =>
    if c.locked then
      (if s.status.busy then dropWithHazard s else s.withRegs (c.store s.regs v))
    else s

/-- R31: an aligned 32-bit read of a register: its value, or a draw. -/
def readCsr (c : Csr) (s : State) : State :=
  if s.status.busy && c.unspecifiedWhileBusy then
    (s.withPortData (Config.busyRead s.draws)).withDraws (s.draws + 1)
  else s.withPortData (c.read s)

/-- R20: the offset of a bus address in the register window, if it lies there. -/
def portOffset (p : Params) (addr : Word) : Option Nat :=
  if p.csrBase.toNat ≤ addr.toNat ∧ addr.toNat < p.csrBase.toNat + 4096 then
    some (addr.toNat - p.csrBase.toNat)
  else none

/-- R24: an access reaches a register only if it is 32 bits wide and aligned. DESIGN CHOICE (log entry 25): aligned means
that its offset in the window is a multiple of 4, whatever CSR_BASE is. -/
def wholeWord (size : AccessSize) (off : Nat) : Bool := decide (size = .word) && decide (off % 4 = 0)

/-- R23, R24: a host write at the register port. While the reset input is asserted it is ignored (R281). -/
def portWrite (p : Params) (addr : Word) (size : AccessSize) (v : Word) (s : State) : State :=
  match portOffset p addr with
  | none => s
  | some off =>
    if s.resetHeld || !wholeWord size off then s
    else match csrAt off with
      | none => s
      | some c => writeCsr p c v s

/-- R23, R24: a host read at the register port. -/
def portRead (p : Params) (addr : Word) (size : AccessSize) (s : State) : State :=
  match portOffset p addr with
  | none => s
  | some off =>
    if !wholeWord size off then s.withPortData 0
    else match csrAt off with
      | none => s.withPortData 0
      | some c => readCsr c s

/-! ### The host's memory -/

/-- R81, R291: the host writes a byte of memory; in a window of the running command that is interference. -/
def hostMemWrite (p : Params) (addr : Word) (v : Byte) (s : State) : State :=
  if reachable p addr.toNat then
    (s.withMem (s.mem.write addr.toNat v)).withInterfered
      (s.interfered || s.allWindows.any fun w => w.holds addr.toNat)
  else s

/-- R81: the host reads a byte of memory; a byte of the running command's output is unspecified. -/
def hostMemRead (p : Params) (addr : Word) (s : State) : State :=
  if reachable p addr.toNat then
    if s.outputWindows.any fun w => w.holds addr.toNat then
      (s.withMemData (Config.busyByte s.draws addr.toNat)).withDraws (s.draws + 1)
    else s.withMemData (s.mem.read addr.toNat)
  else s

/-- One move of the outside world (R13, R281, R291). -/
def hostMove (p : Params) (m : HostMove) (s : State) : State :=
  match m with
  | .portWrite addr size v => portWrite p addr size v s
  | .portRead addr size => portRead p addr size s
  | .memWrite addr v => hostMemWrite p addr v s
  | .memRead addr => hostMemRead p addr s
  | .resetAssert => (softReset p s).withResetHeld true
  | .resetRelease => s.withResetHeld false
  | .engineTurn => s

/-! ### The host's notation (spec/30_encoding.md rules R96 and R97) -/

/-- `WR <REG>, <value>` (R96). -/
def wr (p : Params) (c : Csr) (v : Word) : HostMove :=
  .portWrite (p.csrBase + BitVec.ofNat 32 c.offset) .word v

/-- `RD <REG>` (R96). -/
def rd (p : Params) (c : Csr) : HostMove := .portRead (p.csrBase + BitVec.ofNat 32 c.offset) .word

/-- `GO <mnemonic>` (R97). -/
def go (p : Params) (i : Instr) : List HostMove := [wr p .cmd (encode i), wr p .ctrl 0x1]

/-- `GOI <mnemonic>` (R97). -/
def goi (p : Params) (i : Instr) : List HostMove := [wr p .cmd (encode i), wr p .ctrl 0x5]

/-- `WAIT` (R97): the engine takes its turn, after which a read of STATUS shows BUSY = 0. -/
def waitEnd (p : Params) : List HostMove := [.engineTurn, rd p .status]

/-- `ACK` (R97). -/
def ack (p : Params) : List HostMove := [wr p .status 0x001F000E]

end Sys2Proof.Machine
end

