-- ==== Sys2Proof/Machine/Turn.lean ====
section
/-!
DEFINITION. Whose turn it is and what the turn does (spec/00_scope.md rule R13, spec/10_state.md rule R22): the next move
of the outside world if one is pending, else the engine's. Step.lean only calls this.
-/

namespace Sys2Proof.Machine

/-- The engine's turn: it runs the command of its phase from START to its end (R14, R22, R256), and does nothing when
idle (R271). -/
def engineTurn (s : State) : Host.Outcome State Fault Refusal :=
  match s.phase with
  | .idle => .next s
  | .run i => exec i s
  | .runIllegal => .next (illegalCommand s.cfg s)

/-- One step of the whole machine (R13, R285): register accesses take effect in the order of the pending moves, each
as one step; with none pending the engine has its turn. -/
def turn (s : State) : Host.Outcome State Fault Refusal :=
  match s.inputs with
  | [] => engineTurn s
  | .engineTurn :: rest => engineTurn (s.withInputs rest)
  | m :: rest => .next (hostMove s.cfg m (s.withInputs rest))

/-- A START accepted on a given command word, with the engine's turn next: what the host's writes of CMD and CTRL
bring about (R30, R83). -/
def startOn (s : State) (w : Word) : State :=
  (((acceptStart (s.withRegs { s.regs with cmd := w })).withInputs (.engineTurn :: s.inputs)).withResetHeld
    false).withInterfered false

end Sys2Proof.Machine
end

