-- ==== Sys2Proof/Machine/Step.lean ====
section
/-!
DEFINITION. The step of the machine and the place its next command stands. The block fetches nothing from memory
(spec/20_memory.md rule R83): the command word is the value CMD holds when START is accepted.
-/

namespace Sys2Proof.Machine

/-- One step. -/
def step (s : State) : Host.Outcome State Fault Refusal := turn s

/-- The state in which CMD holds the word and START has just been accepted, so that the next step runs that command. -/
def State.withFetchWord (s : State) (_nbits w : Nat) : State := startOn s (BitVec.ofNat 32 w)

end Sys2Proof.Machine
end

