-- ==== Sys2Proof/Machine/Reference.lean ====
section
/-!
DEFINITION. The decoder's algorithms once more, as plain functions from lists of bytes and bits to values: the Huffman
decoder (spec/41_huffman.md), the entropy decode of a block (spec/43_block_decode.md) and the block pipeline
(spec/46_image.md R205). No command runs these. The claims say that the engine, which works byte by byte through the
memory port with its cursors in `Hidden`, gives what they give.
-/

namespace Sys2Proof.Machine

/-! ### Bytes, bits and the payload -/

/-- The `n` bytes from `a`. -/
def Memory.bytes (m : Memory) (a n : Nat) : List Byte := (List.range n).map fun k => m.read (a + k)

/-- The bits of bytes, first bit 7 of the first byte (R66). -/
def bitsOf (l : List Byte) : List Bool := l.flatMap fun b => (List.range 8).map fun k => b.getLsbD (7 - k)

/-- R74: the value that bits read in order stand for. -/
def assembled : BitAssembly → List Bool → Nat
  | .lsbFirst, bs => bs.foldr (fun b v => b.toNat + 2 * v) 0
  | .msbFirst, bs => bs.foldl (fun v b => 2 * v + b.toNat) 0

/-- The unsigned little-endian number of `n` bytes from `a` (R10, R65). -/
def Memory.value (m : Memory) (a : Nat) : Nat → Nat
  | 0 => 0
  | n + 1 => (m.read a).toNat + 256 * m.value (a + 1) n

/-- R69: the sizes and places of the streams of the payload at `base`, as its size fields say. -/
def payloadAt (m : Memory) (base : Nat) : Plan :=
  let cs := m.value base 4
  let acLen := m.value (base + (8 + cs)) 4
  { footprint := [], offsets := []
    cs := cs, ds := m.value (base + 4) 4, compOff := 8
    acLen := acLen, acOff := 12 + cs
    dcLen := m.value (base + (12 + cs + acLen)) 4, dcOff := 16 + cs + acLen }

/-- R69: how many bytes a payload takes. -/
def Plan.size (pl : Plan) : Nat := 16 + pl.cs + pl.acLen + pl.dcLen

/-! ### Huffman -/

/-- R115, one range of the frequency table: `count` frequency bytes for the symbols from `s` on. -/
def refRange : (count s : Nat) → List Byte → Arena → Option (Arena × List Byte)
  | 0, _, l, a => some (a, l)
  | _ + 1, _, [], _ => none
  | n + 1, s, f :: l, a => refRange n (s + 1) l (setFreq a s (f.zeroExtend 32))

/-- R115: what comes after a range. `none` where the bytes run out; else the first and last symbol of the next range,
or nothing at the zero byte that ends the table, and the bytes that are left. -/
def refHeader : List Byte → Option (Option (Nat × Nat) × List Byte)
  | [] => none
  | f :: l =>
    if f = 0 then some (none, l)
    else match l with
      | [] => none
      | e :: l => some (some (f.toNat, e.toNat), l)

/-- R115, the loop, with `left` the header bytes still allowed. -/
def refRanges : (left first last : Nat) → List Byte → Arena → Option (Arena × List Byte)
  | 0, first, last, l, a => refRange (last + 1 - first) first l a
  | 1, first, last, l, a =>
    match refRange (last + 1 - first) first l a with
    | none => none
    | some (a, l) =>
      match refHeader l with
      | none => none
      | some (none, l) => some (a, l)
      | some (some (first, last), l) => refRanges 0 first last l a
  | n + 2, first, last, l, a =>
    match refRange (last + 1 - first) first l a with
    | none => none
    | some (a, l) =>
      match refHeader l with
      | none => none
      | some (none, l) => some (a, l)
      | some (some (first, last), l) => refRanges n first last l a

/-- R115 on a whole string of compressed bytes: the arena and the bytes of the bit stream, or `none` where the table
runs out. -/
def refTable (p : Params) : List Byte → Option (Arena × List Byte)
  | f :: e :: l => refRanges (p.hufMaxHdrBytes - 2) f.toNat e.toNat l (clearFreqs p Hidden.entry.node)
  | _ => none

/-- R121: one code, from a node to a leaf; `none` where the bits run out. -/
def refCode (a : Arena) : List Bool → Fin 513 → Option (Fin 513 × List Bool)
  | [], n => if n.val ≤ 256 then some (n, []) else none
  | b :: bs, n => if n.val ≤ 256 then some (n, b :: bs) else refCode a bs (if b then a[n.val].c1 else a[n.val].c0)

/-- R121: at most `left` symbols, up to the sentinel; `none` where the bits run out. -/
def refSymbols (a : Arena) (root : Fin 513) : (left : Nat) → List Bool → Option (List Byte)
  | 0, _ => some []
  | n + 1, bits =>
    match refCode a bits root with
    | none => none
    | some (leaf, bits) =>
      if leaf.val = 256 then some []
      else (refSymbols a root n bits).map (BitVec.ofNat 8 leaf.val :: ·)

/-- R115-R121: the symbols that compressed bytes decode to, at most `ds` of them; `none` where the table or the bit
stream runs out. -/
def refHuffman (p : Params) (comp : List Byte) (ds : Nat) : Option (List Byte) :=
  match refTable p comp with
  | none => none
  | some (a, rest) =>
    match (treeBuild a).2 with
    | none => some []
    | some root => refSymbols (treeBuild a).1 root ds (bitsOf rest)

/-- R122: the symbols, filled up with zeros to the declared length. -/
def padded (syms : List Byte) (ds : Nat) : List Byte := syms ++ List.replicate (ds - syms.length) 0

/-! ### Blocks -/

/-- What is left of the three streams of a payload (R71, R76), and the warnings seen so far. -/
structure Streams where
  /-- AC-code bytes. -/
  codes : List Byte
  /-- AC-data bits. -/
  ac : List Bool
  /-- DC-data bits. -/
  dc : List Bool
  seen : List Warning
deriving DecidableEq, Repr

/-- R72, R74: the next `n` AC-data bits, zeros past the end. -/
def Streams.acBits (t : Streams) (n : Nat) : List Bool := (t.ac ++ List.replicate n false).take n

/-- The streams after `n` AC-data bits (R72). -/
def Streams.dropAc (t : Streams) (n : Nat) : Streams :=
  { t with ac := t.ac.drop n, seen := if t.ac.length < n then .acOverread :: t.seen else t.seen }

/-- The streams with a warning (R257). -/
def Streams.warn (t : Streams) (w : Warning) : Streams := { t with seen := w :: t.seen }

/-- R161-R164: the AC codes of a channel from position `k` on. `codes` is what is left of the AC-code stream, and the
streams hold the rest. -/
def refCodes (p : Params) : (codes : List Byte) → (k : Nat) → Block → Streams → Block × Streams
  | [], k, zz, t =>
    if p.fullBlockPolicy = .stopAt64 ∧ 63 < k then (zz, { t with codes := [] })
    else (zz, { t with codes := [] }.warn .accodeOverread)
  | b :: codes, k, zz, t =>
    if p.fullBlockPolicy = .stopAt64 ∧ 63 < k then (zz, { t with codes := b :: codes })
    else
      let t := { t with codes := codes }
      let len := b.toNat % 16
      let q := k + b.toNat / 16
      if b = 0x00 then (zz, t)
      else if b = 0xF0 then refCodes p codes (k + 16) zz t
      else if len = 0 then (zz, t.warn .zeroLen)
      else if p.overflowLevelRead = .skip ∧ 63 < q then (zz, t.warn .posOverflow)
      else if 63 < q then (zz, (t.dropAc len).warn .posOverflow)
      else
        refCodes p codes (q + 1) (zz.setIfInBounds q (level (assembled p.bitAssembly (t.acBits len)) len))
          (t.dropAc len)

/-- R160: one channel of one block; `none` where the DC-data runs out. -/
def refChannel (p : Params) (t : Streams) : Option (Block × Streams) :=
  if t.dc.length < 8 then none
  else
    some (refCodes p t.codes 1
      (Block.zero.setIfInBounds 0 (dcValue (assembled p.bitAssembly (t.dc.take 8)))) { t with dc := t.dc.drop 8 })

/-- R205: the pixels of one channel of one block, through the table of that channel. -/
def refPlane (p : Params) (table : Block) (t : Streams) : Option (Block × Streams) :=
  (refChannel p t).map fun zt => (idct2D p (dequant p zt.1 table), zt.2)

/-- The three planes of one block (R166). -/
structure Planes where
  y : Block
  cb : Block
  cr : Block
deriving DecidableEq, Repr

/-- R205, R206: one block: Y, then Cb, then Cr. -/
def refBlock (p : Params) (luma chroma : Block) (t : Streams) : Option (Planes × Streams) :=
  match refPlane p luma t with
  | none => none
  | some (y, t) =>
    match refPlane p chroma t with
    | none => none
    | some (cb, t) =>
      match refPlane p chroma t with
      | none => none
      | some (cr, t) => some (⟨y, cb, cr⟩, t)

/-- R205: `n` blocks in order. -/
def refBlocks (p : Params) (luma chroma : Block) : (n : Nat) → Streams → Option (List Planes × Streams)
  | 0, t => some ([], t)
  | n + 1, t =>
    match refBlock p luma chroma t with
    | none => none
    | some (b, t) => (refBlocks p luma chroma n t).map fun bt => (b :: bt.1, bt.2)

/-- R190: the colour of pixel `px` of a block. -/
def Planes.pixel (b : Planes) (px : Nat) : Rgb :=
  color (b.y.toList.getD px 0) (b.cb.toList.getD px 0) (b.cr.toList.getD px 0)

/-- What a payload's blocks and warnings are, once its Huffman phase gave `syms` (R205, R208). -/
def refImage (p : Params) (m : Memory) (base : Nat) (pl : Plan) (luma chroma : Block) (syms : List Byte) (blocks : Nat) :
    Option (List Planes × Streams) :=
  refBlocks p luma chroma blocks
    { codes := padded syms pl.ds
      ac := bitsOf (m.bytes (base + pl.acOff) pl.acLen)
      dc := bitsOf (m.bytes (base + pl.dcOff) pl.dcLen)
      seen := [] }

end Sys2Proof.Machine
end

