-- ==== Sys2Proof/Safety.lean ====
section
/-!
DEFINITION. The vocabulary of the claims: what memory holds as numbers, which addresses a window can reach, how a command
ended, what a command may not change, the invariant of the machine, and the host's duties (spec/70_reset_and_hazards.md
R290-R293).
-/

namespace Sys2Proof.Machine

/-! ### Memory as numbers -/

/-- The int32 at `a` (R78). -/
def Memory.int32 (m : Memory) (a : Nat) : Word := BitVec.ofNat 32 (m.value a 4)

/-- The 64 int32 values from `a`, as a block (R78). -/
def Memory.block (m : Memory) (a : Nat) : Block := Vector.ofFn fun i : Fin 64 => m.int32 (a + 4 * i.val)

/-- Every byte of a window is one the memory port can reach (R61). -/
def Reaches (p : Params) (w : Window) : Prop := ∀ i < w.len, reachable p (w.base + i) = true

/-- An address lies in one of the windows. -/
def inWindows (ws : List Window) (a : Nat) : Prop := ∃ w ∈ ws, w.holds a = true

/-! ### How a command ended -/

/-- What no command changes (R13, R29): the parameters, the host's side and every register but those the engine
writes. -/
structure CommandFrame (s t : State) : Prop where
  cfg : t.cfg = s.cfg
  irqEn : t.irqEn = s.irqEn
  resetHeld : t.resetHeld = s.resetHeld
  inputs : t.inputs = s.inputs
  portData : t.portData = s.portData
  memData : t.memData = s.memData
  haz : t.status.haz = s.status.haz
  operands : t.regs = { s.regs with
    hufOut := t.regs.hufOut
    animCur := t.regs.animCur
    faultInfo := t.regs.faultInfo
    lumaQ := t.regs.lumaQ
    chromaQ := t.regs.chromaQ }

/-- A command that ended without a fault (R32): BUSY 0, DONE 1, the fault record as START left it. -/
structure Finished (s t : State) : Prop extends CommandFrame s t where
  idle : t.phase = .idle
  busy : t.status.busy = false
  done : t.status.done = true
  err : t.status.err = s.status.err
  errcode : t.status.errcode = s.status.errcode
  faultInfo : t.regs.faultInfo = s.regs.faultInfo

/-- No warning changed. -/
def SameWarnings (s t : State) : Prop := ∀ w, t.status.warned w = s.status.warned w

/-- Memory reads the same outside the windows. -/
def SameOutside (ws : List Window) (s t : State) : Prop := ∀ a, ¬inWindows ws a → t.mem.read a = s.mem.read a

/-- The two tables are the ones the current quality gives (R142), QUALITY read signed (R29, R95). -/
def TablesBuilt (s t : State) : Prop :=
  ∀ i : Fin 64,
    t.regs.lumaQ[i.val] = finalEntry s.cfg.lumaBase[i.val] s.cfg.mult[i.val] (qFactor s.cfg s.regs.quality.toInt) ∧
    t.regs.chromaQ[i.val] = finalEntry s.cfg.chromaBase[i.val] s.cfg.mult[i.val] (qFactor s.cfg s.regs.quality.toInt)

/-- The two tables did not change. -/
def SameTables (s t : State) : Prop := t.regs.lumaQ = s.regs.lumaQ ∧ t.regs.chromaQ = s.regs.chromaQ

/-- The state QtBuild leaves (R142). -/
def State.tablesBuilt (s : State) : State :=
  s.withRegs { s.regs with
    lumaQ := finalTable s.cfg.lumaBase s.cfg.mult (qFactor s.cfg s.regs.quality.toInt)
    chromaQ := finalTable s.cfg.chromaBase s.cfg.mult (qFactor s.cfg s.regs.quality.toInt) }

/-- A stage command that ended without a fault: besides memory, nothing changed but the end of the command (R146, R181,
R196). -/
structure StageFinished (s t : State) (footprint : List Window) : Prop extends Finished s t where
  warnings : SameWarnings s t
  hufOut : t.regs.hufOut = s.regs.hufOut
  animCur : t.regs.animCur = s.regs.animCur
  tables : SameTables s t
  outside : SameOutside footprint s t

/-- A command that a pre-check ended (R252): the fault is recorded, and nothing but the fault record changed. -/
structure FaultedBeforeWriting (s t : State) (code : FaultCode) (info : Nat) : Prop extends CommandFrame s t where
  idle : t.phase = .idle
  busy : t.status.busy = false
  done : t.status.done = true
  err : t.status.err = true
  errcode : t.status.errcode = code.toByte
  faultInfo : t.regs.faultInfo = BitVec.ofNat 32 info
  warnings : SameWarnings s t
  hufOut : t.regs.hufOut = s.regs.hufOut
  animCur : t.regs.animCur = s.regs.animCur
  tables : SameTables s t
  mem : t.mem = s.mem

/-- A command that a run-time fault ended (R252): the fault is recorded, and memory outside the footprint is as it
was. -/
structure FaultedWhileRunning (s t : State) (footprint : List Window) (code : FaultCode) (info : Nat) : Prop extends
    CommandFrame s t where
  idle : t.phase = .idle
  busy : t.status.busy = false
  done : t.status.done = true
  err : t.status.err = true
  errcode : t.status.errcode = code.toByte
  faultInfo : t.regs.faultInfo = BitVec.ofNat 32 info
  animCur : t.regs.animCur = s.regs.animCur
  outside : SameOutside footprint s t

/-- R93: the reserved command words, by arithmetic on the word. -/
abbrev ReservedWord (w : Word) : Prop :=
  let opc := w.toNat % 256
  let fmt := w.toNat / 256 % 4
  let chan := w.toNat / 1024 % 2
  w.toNat / 2048 ≠ 0 ∨ 7 < opc ∨ (5 ≤ opc ∧ (fmt = 3 ∨ chan ≠ 0)) ∨ (opc = 3 ∧ fmt ≠ 0) ∨
    (opc ≠ 3 ∧ opc < 5 ∧ (fmt ≠ 0 ∨ chan ≠ 0))

/-- DEQUANT_BLOCK with each table (R94). -/
def dequantBlockFor : TableSel → Instr
  | .luma => .dequantBlockL
  | .chroma => .dequantBlockC

/-- The commands that build the tables, when they get that far (R33). -/
def buildsTables : Instr → Bool
  | .qtBuild | .decodeImageRgb24 | .decodeImageRgb565 | .decodeImageArgb32
  | .compositeRgb24 | .compositeRgb565 | .compositeArgb32 => true
  | .nop | .hufDecode | .dequantBlockL | .dequantBlockC | .idctBlock
  | .colorBlockRgb24 | .colorBlockRgb565 | .colorBlockArgb32 => false

/-- The commands with a Huffman phase (R123): only these write HUF_OUT and raise warnings. -/
def decodesSymbols : Instr → Bool
  | .hufDecode | .decodeImageRgb24 | .decodeImageRgb565 | .decodeImageArgb32
  | .compositeRgb24 | .compositeRgb565 | .compositeArgb32 => true
  | .nop | .qtBuild | .dequantBlockL | .dequantBlockC | .idctBlock
  | .colorBlockRgb24 | .colorBlockRgb565 | .colorBlockArgb32 => false

/-- The COMPOSITE commands. -/
def isComposite : Instr → Bool
  | .compositeRgb24 | .compositeRgb565 | .compositeArgb32 => true
  | .nop | .qtBuild | .hufDecode | .dequantBlockL | .dequantBlockC | .idctBlock
  | .colorBlockRgb24 | .colorBlockRgb565 | .colorBlockArgb32
  | .decodeImageRgb24 | .decodeImageRgb565 | .decodeImageArgb32 => false

/-- The faults each command can end in (R253), other than ILLEGAL_CMD, which no decoded command raises. -/
def faultsOf : Instr → List FaultCode
  | .nop | .qtBuild => []
  | .hufDecode => [.overlap, .dstOverrun, .hufOverrun, .busError]
  | .dequantBlockL | .dequantBlockC | .idctBlock | .colorBlockRgb24 | .colorBlockRgb565 | .colorBlockArgb32 =>
    [.overlap, .srcOverrun, .dstOverrun, .busError]
  | .decodeImageRgb24 | .decodeImageRgb565 | .decodeImageArgb32
  | .compositeRgb24 | .compositeRgb565 | .compositeArgb32 =>
    [.badGeometry, .overlap, .dstOverrun, .srcOverrun, .scratchOverflow, .hufOverrun, .dcOverrun, .busError]

/-! ### What a command finds -/

/-- The state a command finds when the host kept off its windows (R41, R290 item 3) and memory is canonical. -/
structure State.Ready (s : State) : Prop where
  interfered : s.interfered = false
  hidden : s.hidden = Hidden.entry
  mem : s.mem.wf

/-- No two of the windows a command writes share a byte, and none shares one with a window it reads (R64). -/
def Apart (written read : List Window) : Prop :=
  written.Pairwise (fun a b => a.overlaps b = false) ∧ ∀ a ∈ written, ∀ b ∈ read, a.overlaps b = false

/-- The read window holds the payload `pl` whole, and scratch has room for its declared length (R70, R208). -/
structure PayloadReady (s : State) (pl : Plan) : Prop where
  plan : pl = payloadAt s.mem s.regs.srcAddr.toNat
  fits : pl.size ≤ s.regs.srcLen.toNat
  room : pl.ds ≤ s.regs.scrLen.toNat
  reads : Reaches s.cfg ⟨s.regs.srcAddr.toNat, pl.size⟩
  scratch : Reaches s.cfg ⟨s.regs.scrAddr.toNat, pl.ds⟩

/-- The compressed bytes of a payload (R71). -/
def State.comp (s : State) (pl : Plan) : List Byte := s.mem.bytes (s.regs.srcAddr.toNat + pl.compOff) pl.cs

/-- The offset of block `b` in COMPOSITE's list (R77). -/
def State.offset (s : State) (b : Nat) : Nat := s.mem.value (s.regs.offsAddr.toNat + 4 * b) 4

/-- The blocks a payload decodes to with the tables of the current quality (R142, R205). -/
def State.image (s : State) (pl : Plan) (syms : List Byte) (blocks : Nat) : Option (List Planes × Streams) :=
  refImage s.cfg s.mem s.regs.srcAddr.toNat pl s.tablesBuilt.regs.lumaQ s.tablesBuilt.regs.chromaQ syms blocks

/-- What the Huffman phase of a finished command leaves (R122): the symbols, zeros up to the declared length, their
number and the warning. -/
structure SymbolsStored (s t : State) (out ds : Nat) (syms : List Byte) : Prop where
  bytes : ∀ k < ds, t.mem.read (out + k) = syms.getD k 0
  count : t.regs.hufOut.toNat = syms.length
  short : t.status.wHufShort = (s.status.wHufShort || decide (syms.length < ds))

/-! ### The machine's invariant -/

/-- What holds of the machine at every step: the parameters are such as R6 lists; memory is canonical and lists only bytes the port can reach; BUSY is set
exactly while a command runs (R28, R40); the fault record is one R250 can write; a running command has the state START
left it in (R30, R31, R41); the tables stay within their bound (R33). -/
structure State.Inv (s : State) : Prop where
  legal : s.cfg.Legal
  canonical : s.mem.wf
  reached : ∀ c ∈ s.mem, reachable s.cfg c.1 = true
  busyRuns : s.status.busy = true ↔ s.phase ≠ .idle
  errcode : s.status.errcode.toNat ≤ 9
  errHasCode : s.status.err = true → s.status.errcode ≠ 0
  started : s.status.busy = true →
    s.status.done = false ∧ s.status.err = false ∧ s.status.errcode = 0 ∧ (∀ w, s.status.warned w = false) ∧
    s.regs.hufOut = 0 ∧ s.regs.faultInfo = 0 ∧ s.hidden = Hidden.entry ∧ s.phase = phaseOf s.regs.cmd
  marked : s.interfered = true → s.status.busy = true
  held : s.resetHeld = true → s.phase = .idle
  tables : ∀ i : Fin 64, s.regs.lumaQ[i.val].toNat ≤ 2039 ∧ s.regs.chromaQ[i.val].toNat ≤ 2039

/-! ### Streams and codes -/

/-- Reading a bit stream gives these bits, one after the other, and leaves this state (R72, R73). -/
def Produces (next : Engine Bool) : State → List Bool → State → Prop
  | s, [], t => t = s
  | s, b :: bs, t => ∃ u, next s = .ok b u ∧ Produces next u bs t

/-- R117: slot `i` is the active slot below `next` of least frequency, then of least index, leaving out `skip`. -/
def LeastSlot (a : Arena) (next : Nat) (skip : Option (Fin 513)) (i : Fin 513) : Prop :=
  i.val < next ∧ a[i.val].freq ≠ 0 ∧ skip ≠ some i ∧
    ∀ j : Fin 513, j.val < next → a[j.val].freq ≠ 0 → skip ≠ some j →
      a[i.val].freq.toNat < a[j.val].freq.toNat ∨ (a[i.val].freq = a[j.val].freq ∧ i ≤ j)

/-- R119: following the choices `code` from a node of the tree leads to `leaf`, through internal nodes only. -/
def CodeOf (a : Arena) : Fin 513 → List Bool → Fin 513 → Prop
  | n, [], leaf => leaf = n ∧ n.val ≤ 256
  | n, b :: bs, leaf => 256 < n.val ∧ CodeOf a (if b then a[n.val].c1 else a[n.val].c0) bs leaf

/-! ### The host -/

/-- The next move is an aligned 32-bit write of `v` to register `c`, and the reset input is not asserted. -/
def State.WritesNext (s : State) (c : Csr) (v : Word) (rest : List HostMove) : Prop :=
  ∃ a, s.inputs = .portWrite a .word v :: rest ∧ portOffset s.cfg a = some c.offset ∧ s.resetHeld = false

/-- The next move is an aligned 32-bit read of register `c`. -/
def State.ReadsNext (s : State) (c : Csr) (rest : List HostMove) : Prop :=
  ∃ a, s.inputs = .portRead a .word :: rest ∧ portOffset s.cfg a = some c.offset

/-- The engine has the next step: no move is pending, or the host yields to it. -/
def State.EngineNext (s : State) : Prop := s.inputs = [] ∨ ∃ rest, s.inputs = .engineTurn :: rest

/-- The next step is the engine's and a command runs, so the step ends it (log entry 8). -/
def State.CommandEndsNext (s : State) : Prop := s.EngineNext ∧ s.phase ≠ .idle

/-- The next move is an accepted START (R27, R30). -/
def State.StartsNext (s : State) : Prop :=
  ∃ v rest, s.WritesNext .ctrl v rest ∧ v.getLsbD 0 = true ∧ v.getLsbD 1 = false ∧ s.status.busy = false

/-- The next move is a SOFT_RESET or the reset input (R281). -/
def State.ResetsNext (s : State) : Prop :=
  (∃ rest, s.inputs = .resetAssert :: rest) ∨ ∃ v rest, s.WritesNext .ctrl v rest ∧ v.getLsbD 1 = true

/-- The next move writes 1 to bit `n` of STATUS (R28). -/
def State.ClearsNext (s : State) (n : Nat) : Prop := ∃ v rest, s.WritesNext .status v rest ∧ v.getLsbD n = true

/-- The bit of a warning in STATUS (R28, R257). -/
def Warning.bit : Warning → Nat
  | .acOverread => 16
  | .zeroLen => 17
  | .hufShort => 18
  | .accodeOverread => 19
  | .posOverflow => 20

/-- R290 item 3: the host does not write a window of the running command. -/
def NoInterference (s : State) (m : HostMove) : Prop :=
  ∀ a v, m = .memWrite a v → ¬inWindows s.allWindows a.toNat

/-- The windows the registers name (R63). -/
def Regs.windows (r : Regs) : List Window := [r.srcWindow, r.dstWindow, r.scrWindow, r.offsWindow]

/-- None of the moves is a host write to one of the windows. -/
def NoWriteTo (ws : List Window) (moves : List HostMove) : Prop :=
  ∀ a v, HostMove.memWrite a v ∈ moves → ¬inWindows ws a.toNat

/-- R293: the state a program may assume before its first START. The windows are those the registers name, and a
pending write is one among the pending moves (log entry 26). -/
structure State.CleanLaunch (s : State) : Prop where
  busy : s.status.busy = false
  done : s.status.done = false
  err : s.status.err = false
  haz : s.status.haz = false
  quiet : ∀ w, s.status.warned w = false
  idle : s.phase = .idle
  noWrite : NoWriteTo s.regs.windows s.inputs

/-- The moves that are register accesses of the host (R285). -/
def HostMove.isRegisterAccess : HostMove → Bool
  | .portWrite _ _ _ | .portRead _ _ => true
  | .memWrite _ _ | .memRead _ | .resetAssert | .resetRelease | .engineTurn => false

/-- R292: a host program has ended: its last register access is issued, and no command runs. -/
def State.RunEnded (s : State) : Prop :=
  (∀ m ∈ s.inputs, m.isRegisterAccess = false) ∧ s.status.busy = false

end Sys2Proof.Machine
end

