-- ==== Sys2Proof/Certificates/Slice0/Obligations.lean ====
section
/-!
DEFINITION. The statements for the provers, taken from the numbered rules of spec/. Each docstring names the rules.
OBLIGATIONS.json lists them.
-/

open Sys2Proof
open Sys2Proof.Machine

/-! ### Command words -/

/-- R94: the 15 legal words, and no other word decodes to a command. -/
def Obligations.DecodeReadsExactlyTheEncodedWords : Prop :=
  (∀ i : Instr, i.WellFormed) ∧ (∀ (w : Word) (i : Instr), decode w = .command i ↔ w = encode i) ∧
  [encode .nop, encode .qtBuild, encode .hufDecode, encode .dequantBlockL, encode .dequantBlockC, encode .idctBlock,
    encode .colorBlockRgb24, encode .colorBlockRgb565, encode .colorBlockArgb32,
    encode .decodeImageRgb24, encode .decodeImageRgb565, encode .decodeImageArgb32,
    encode .compositeRgb24, encode .compositeRgb565, encode .compositeArgb32] =
  [0x00000000, 0x00000001, 0x00000002, 0x00000003, 0x00000403, 0x00000004,
    0x00000005, 0x00000105, 0x00000205, 0x00000006, 0x00000106, 0x00000206, 0x00000007, 0x00000107, 0x00000207]

/-- R94: some of the words as the spec writes them out. -/
def Obligations.WrittenWordsDecode : Prop :=
  decode 0x00000000 = .command .nop ∧ decode 0x00000001 = .command .qtBuild ∧
  decode 0x00000002 = .command .hufDecode ∧ decode 0x00000403 = .command .dequantBlockC ∧
  decode 0x00000004 = .command .idctBlock ∧ decode 0x00000105 = .command .colorBlockRgb565 ∧
  decode 0x00000206 = .command .decodeImageArgb32 ∧ decode 0x00000107 = .command .compositeRgb565

/-- R92, R93: a reserved word starts as usual and ends at once in ILLEGAL_CMD with the word in FAULT_INFO, touching no
memory; every other word is a command. -/
def Obligations.ReservedWordsRaiseIllegalCmd : Prop :=
  ∀ (s : State) (w : Word),
    (¬ReservedWord w → ∃ i, decode w = .command i) ∧
    (ReservedWord w →
      (∃ d ∈ (fieldsOf w).defects, decode w = .illegal d) ∧ (s.withFetchWord 32 w.toNat).status.busy = true ∧
      ∃ t, step (s.withFetchWord 32 w.toNat) = .next t ∧
        FaultedBeforeWriting ((s.withFetchWord 32 w.toNat).withInputs s.inputs) t .illegalCmd w.toNat)

/-! ### The step -/

/-- R22, R30, R83: a step at the engine's turn is `exec` of what CMD decoded to when START was accepted. That a command
is one step, and whose turn it is, is the model's schedule (log entry 8). -/
def Obligations.StepRunsTheDecodedCommand : Prop :=
  (∀ (s : State) (n w : Nat) (i : Instr), decode (BitVec.ofNat 32 w) = .command i →
    step (s.withFetchWord n w) = exec i ((s.withFetchWord n w).withInputs s.inputs)) ∧
  (∀ (s : State) (i : Instr), s.phase = .run i → s.inputs = [] → step s = exec i s) ∧
  (∀ (s : State) (i : Instr) (rest : List HostMove), s.phase = .run i → s.inputs = .engineTurn :: rest →
    step s = exec i (s.withInputs rest)) ∧
  ∀ (s : State) (v : Word) (rest : List HostMove) (i : Instr), s.WritesNext .ctrl v rest → v.getLsbD 0 = true →
    v.getLsbD 1 = false → s.status.busy = false → decode s.regs.cmd = .command i →
    ∃ t, step s = .next t ∧ t.phase = .run i ∧ t.inputs = rest

/-- R256, R271, R285: the pending moves take effect in their order, one a step; an idle block does nothing; and no step
stops. That pending moves come before the engine is the model's schedule (log entry 8). -/
def Obligations.PendingMovesComeFirst : Prop :=
  ∀ s : State,
    (∀ m rest, s.inputs = m :: rest → m ≠ .engineTurn → step s = .next (hostMove s.cfg m (s.withInputs rest))) ∧
    (s.phase = .idle → s.inputs = [] → step s = .next s) ∧
    (∀ rest, s.phase = .idle → s.inputs = .engineTurn :: rest → step s = .next (s.withInputs rest)) ∧
    ∃ t, step s = .next t

/-- The machine's invariant is kept by every step (R6, R28, R33, R250). These clauses are the model's: the canonical form of
memory and that it lists only bytes the port can reach (log entries 2 and 16); that while BUSY = 1 the warnings are 0 and
the hidden state has its entry values, which is so because a command is one step (log entry 8, DESIGN CHOICE: R10, R40
and R72 let them move during a command); the interference mark (log entry 13); the held reset input (log entry 22). -/
def Obligations.StepKeepsTheInvariant : Prop := ∀ s t : State, s.Inv → step s = .next t → t.Inv

/-- The state after reset meets the invariant, whose clauses are in part the model's (log entries 2, 8, 13, 16, 22). -/
def Obligations.ResetMeetsTheInvariant : Prop := State.reset.Inv

/-- R6, R34: no step changes the parameters. -/
def Obligations.StepKeepsTheParameters : Prop := ∀ s t : State, step s = .next t → t.cfg = s.cfg

/-- R28, R43, R291: what can set and what can clear each bit of STATUS. That a command's end is one step, in which its
warnings rise too, is the model's schedule (log entry 8). -/
def Obligations.StatusBitsMoveOnlyAsTheRulesSay : Prop :=
  ∀ s t : State, step s = .next t →
    (s.status.busy = false → t.status.busy = true → s.StartsNext) ∧
    (s.status.busy = true → t.status.busy = false → t.phase = .idle ∧ (s.CommandEndsNext ∨ s.ResetsNext)) ∧
    (s.status.done = false → t.status.done = true → s.CommandEndsNext ∧ t.phase = .idle) ∧
    (s.status.done = true → t.status.done = false → s.ClearsNext 1 ∨ s.StartsNext ∨ s.ResetsNext) ∧
    (s.status.err = false → t.status.err = true → s.CommandEndsNext ∧ t.phase = .idle) ∧
    (s.status.err = true → t.status.err = false → s.ClearsNext 2 ∨ s.StartsNext ∨ s.ResetsNext) ∧
    (s.status.haz = false → t.status.haz = true →
      s.status.busy = true ∧ ∃ c v rest, s.WritesNext c v rest ∧ (c.locked = true ∨ c = .ctrl ∧ v.getLsbD 0 = true)) ∧
    (s.status.haz = true → t.status.haz = false → s.ClearsNext 3 ∨ s.ResetsNext) ∧
    (t.status.errcode ≠ s.status.errcode → s.CommandEndsNext ∨ s.StartsNext ∨ s.ResetsNext) ∧
    ∀ w, (s.status.warned w = false → t.status.warned w = true → s.CommandEndsNext ∧ t.phase = .idle) ∧
      (s.status.warned w = true → t.status.warned w = false → s.ClearsNext w.bit ∨ s.StartsNext ∨ s.ResetsNext)

/-! ### The register port -/

/-- R30, R41: what an accepted START leaves, the hidden state at its entry values among it. -/
def Obligations.StartSetsTheEntryState : Prop :=
  ∀ (s : State) (v : Word) (rest : List HostMove), s.WritesNext .ctrl v rest → v.getLsbD 0 = true →
    v.getLsbD 1 = false → s.status.busy = false →
    ∃ t, step s = .next t ∧ t.status = { busy := true, haz := s.status.haz } ∧
      t.regs = { s.regs with faultInfo := 0, hufOut := 0 } ∧ t.irqEn = v.getLsbD 2 ∧ t.mem = s.mem ∧
      t.inputs = rest ∧ t.cfg = s.cfg ∧
      (∀ i, decode s.regs.cmd = .command i → t.phase = .run i) ∧
      (∀ d, decode s.regs.cmd = .illegal d → t.phase = .runIllegal) ∧
      t.hidden.hcur = 0 ∧ t.hidden.acur = 0 ∧ t.hidden.dcur = 0 ∧ t.hidden.j = 0 ∧ t.hidden.root = none ∧
      (∀ i : Fin 513, t.hidden.node[i.val] = ⟨0, 0, 0⟩) ∧
      ∀ (i : Fin 64), t.hidden.ws[i.val] = 0 ∧
        ∀ ch : Channel, t.hidden.zz[ch.index][i.val] = 0 ∧ t.hidden.coef[ch.index][i.val] = 0 ∧
          t.hidden.pix[ch.index][i.val] = 0

/-- R31: the host's accesses while BUSY = 1; and, with BUSY = 0, a CTRL write with neither START nor SOFT_RESET, which only
stores IRQ_EN. -/
def Obligations.AccessesWhileBusy : Prop :=
  ∀ (s : State) (rest : List HostMove),
    (∀ v, s.status.busy = false → s.WritesNext .ctrl v rest → v.getLsbD 0 = false → v.getLsbD 1 = false →
      step s = .next ((s.withInputs rest).withIrqEn (v.getLsbD 2))) ∧
    (∀ c v, s.status.busy = true → c.locked = true → s.WritesNext c v rest →
      step s = .next ((s.withInputs rest).withStatus { s.status with haz := true })) ∧
    (∀ v, s.status.busy = true → s.WritesNext .ctrl v rest → v.getLsbD 1 = false →
      step s = .next (((s.withInputs rest).withIrqEn (v.getLsbD 2)).withStatus
        { s.status with haz := s.status.haz || v.getLsbD 0 })) ∧
    (∀ v, s.WritesNext .ctrl v rest → v.getLsbD 1 = true → ∃ t, step s = .next t ∧ t.status.busy = false) ∧
    (∀ v, s.WritesNext .status v rest → step s = .next ((s.withInputs rest).withStatus (s.status.clearedBy v))) ∧
    (∀ c, s.ReadsNext c rest → s.status.busy = true →
      c = .hufOut ∨ c = .animCur ∨ c = .faultInfo ∨ (∃ i, c = .lumaQ i ∨ c = .chromaQ i) →
      step s = .next (((s.withInputs rest).withPortData (Config.busyRead s.draws)).withDraws (s.draws + 1))) ∧
    ∀ c, s.ReadsNext c rest →
      s.status.busy = false ∨
        (c ≠ .hufOut ∧ c ≠ .animCur ∧ c ≠ .faultInfo ∧ ∀ i, c ≠ .lumaQ i ∧ c ≠ .chromaQ i) →
      step s = .next ((s.withInputs rest).withPortData (c.read s))

/-- R23, R26: ID reads its fixed value in every state, and a write to a read-only register has no effect. -/
def Obligations.ReadOnlyRegistersIgnoreWrites : Prop :=
  ∀ (s : State) (rest : List HostMove),
    (s.ReadsNext .id rest → step s = .next ((s.withInputs rest).withPortData 0x4F500001)) ∧
    ∀ c v, c = .id ∨ c = .hufOut ∨ c = .faultInfo ∨ (∃ i, c = .lumaQ i ∨ c = .chromaQ i) → s.WritesNext c v rest →
      step s = .next (s.withInputs rest)

/-- R23, R25: each name of the map reads the register of that name, CTRL reads as IRQ_EN in bit 2 (R27), a write to a name
stores in the register of that name, and a host-writable data register reads back the value stored, with nothing else
changed. -/
def Obligations.DataRegistersReadBack : Prop :=
  (∀ s : State,
    [Csr.id, .ctrl, .cmd, .status, .srcAddr, .srcLen, .dstAddr, .dstLen, .scrAddr, .scrLen, .width, .height, .quality,
      .dstStride, .offsAddr, .blockCount, .hufLen, .hufOut, .animCount, .animCur, .faultInfo].map (Csr.read s) =
    [0x4F500001, if s.irqEn then 4 else 0, s.regs.cmd, s.status.toWord, s.regs.srcAddr, s.regs.srcLen, s.regs.dstAddr,
      s.regs.dstLen, s.regs.scrAddr, s.regs.scrLen, s.regs.width, s.regs.height, s.regs.quality, s.regs.dstStride,
      s.regs.offsAddr, s.regs.blockCount, s.regs.hufLen, s.regs.hufOut, s.regs.animCount, s.regs.animCur,
      s.regs.faultInfo] ∧
    ∀ i : Fin 64, Csr.read s (.lumaQ i) = s.regs.lumaQ[i.val] ∧ Csr.read s (.chromaQ i) = s.regs.chromaQ[i.val]) ∧
  (∀ (r : Regs) (v : Word),
    [Csr.cmd, .srcAddr, .srcLen, .dstAddr, .dstLen, .scrAddr, .scrLen, .width, .height, .quality, .dstStride, .offsAddr,
      .blockCount, .hufLen, .animCount, .animCur].map (Csr.store r v) =
    [{ r with cmd := v }, { r with srcAddr := v }, { r with srcLen := v }, { r with dstAddr := v },
      { r with dstLen := v }, { r with scrAddr := v }, { r with scrLen := v }, { r with width := v },
      { r with height := v }, { r with quality := v }, { r with dstStride := v }, { r with offsAddr := v },
      { r with blockCount := v }, { r with hufLen := v }, { r with animCount := v }, { r with animCur := v }]) ∧
  ∀ (s : State) (c : Csr) (v : Word) (rest : List HostMove), s.status.busy = false → c.locked = true →
    s.WritesNext c v rest →
    ∃ t, step s = .next t ∧ t.regs = c.store s.regs v ∧ t.status = s.status ∧ t.irqEn = s.irqEn ∧ c.read t = v ∧ (∀ c', c' ≠ c → c'.read t = c'.read s) ∧ t.mem = s.mem ∧
      t.hidden = s.hidden ∧ t.phase = s.phase ∧ t.cfg = s.cfg ∧ t.inputs = rest

/-- R28, R43: STATUS read as a word, and what a write to it clears: DONE, ERR, HAZ and the warnings where the written
bit is 1. -/
def Obligations.StatusWriteClearsTheOnes : Prop :=
  (∀ x : Status, x.toWord &&& 0xFFE000F0 = 0 ∧ x.toWord.extractLsb' 8 8 = x.errcode ∧
    (x.toWord.getLsbD 0 = x.busy ∧ x.toWord.getLsbD 1 = x.done ∧ x.toWord.getLsbD 2 = x.err ∧
      x.toWord.getLsbD 3 = x.haz) ∧
    x.toWord.getLsbD 16 = x.wAcOverread ∧ x.toWord.getLsbD 17 = x.wZeroLen ∧ x.toWord.getLsbD 18 = x.wHufShort ∧
    x.toWord.getLsbD 19 = x.wAccodeOverread ∧ x.toWord.getLsbD 20 = x.wPosOverflow) ∧
  ∀ (s : State) (v : Word) (rest : List HostMove), s.WritesNext .status v rest →
    ∃ t, step s = .next t ∧ t.status.toWord = s.status.toWord &&& ~~~(v &&& 0x001F000E) ∧ t.regs = s.regs ∧
      t.hidden = s.hidden ∧ t.phase = s.phase ∧ t.mem = s.mem ∧ t.irqEn = s.irqEn

/-- R25: the registers stand at the offsets the table lists, every other aligned offset is reserved, and no two registers
share one. -/
def Obligations.RegisterMapFollowsTheOffsets : Prop :=
  [csrAt 0x000, csrAt 0x004, csrAt 0x008, csrAt 0x00C, csrAt 0x010, csrAt 0x014, csrAt 0x018, csrAt 0x01C,
    csrAt 0x020, csrAt 0x024, csrAt 0x028, csrAt 0x02C, csrAt 0x030, csrAt 0x034, csrAt 0x038, csrAt 0x03C,
    csrAt 0x040, csrAt 0x044, csrAt 0x048, csrAt 0x04C, csrAt 0x050] =
      [some .id, some .ctrl, some .cmd, some .status, some .srcAddr, some .srcLen, some .dstAddr, some .dstLen,
        some .scrAddr, some .scrLen, some .width, some .height, some .quality, some .dstStride, some .offsAddr,
        some .blockCount, some .hufLen, some .hufOut, some .animCount, some .animCur, some .faultInfo] ∧
  (∀ i : Fin 64, csrAt (0x100 + 4 * i.val) = some (.lumaQ i) ∧ csrAt (0x200 + 4 * i.val) = some (.chromaQ i)) ∧
  (∀ off, off % 4 = 0 → (csrAt off = none ↔ (0x050 < off ∧ off < 0x100) ∨ 0x300 ≤ off)) ∧
  (∀ off c, off % 4 = 0 → (csrAt off = some c ↔ c.offset = off)) ∧
  (∀ c : Csr, c.offset < 4096 ∧ c.offset % 4 = 0) ∧
  ∀ c c' : Csr, c.offset = c'.offset → c = c'

/-- R23, R24: an access that is narrow, misaligned or at a reserved offset reads 0 and writes nothing. That misaligned is
said of the offset in the window, not of the bus address, is the model's choice (log entry 25, DESIGN CHOICE). -/
def Obligations.UnreachedRegistersReadZero : Prop :=
  ∀ (s : State) (a : Word) (size : AccessSize) (off : Nat) (rest : List HostMove), portOffset s.cfg a = some off →
    (size ≠ .word ∨ off % 4 ≠ 0 ∨ csrAt off = none) →
    (∀ v, s.inputs = .portWrite a size v :: rest → step s = .next (s.withInputs rest)) ∧
    (s.inputs = .portRead a size :: rest → step s = .next ((s.withInputs rest).withPortData 0))

/-! ### Reset, the interrupt and the host's memory -/

/-- R280, R281: reset, by CTRL or by the reset input, whatever runs. These are the model's reading: that a CTRL write with
SOFT_RESET leaves IRQ_EN = 0 even where its bit 2 is 1 (log entry 10, DEDUCED, against the words of R27 that every write
stores bit 2); what the footprint is where memory does not tell ds or the offsets (log entry 9); that the footprint takes
the form of free values at the bytes the port can reach (log entry 11); and what interference adds (log entry 13). -/
def Obligations.ResetGivesTheResetState : Prop :=
  (∀ (s : State) (rest : List HostMove),
    ((∃ v, s.WritesNext .ctrl v rest ∧ v.getLsbD 1 = true) ∨ s.inputs = .resetAssert :: rest) →
    ∃ t, step s = .next t ∧ (∀ c : Csr, c.read t = if c = .id then 0x4F500001 else 0) ∧ t.status = {} ∧
      t.irqEn = false ∧ t.phase = .idle ∧ t.hidden = Hidden.entry ∧ t.irq = false ∧ t.cfg = s.cfg ∧ t.inputs = rest ∧
      ((∀ i, s.phase ≠ .run i) → t.mem = s.mem) ∧
      (∀ i, s.phase = .run i →
        let cancelled := footprintOf s.cfg i s ++ (if s.interfered then writtenWindows s.regs i else [])
        SameOutside cancelled s t ∧
        (s.mem.wf → ∃ n, ∀ a, inWindows cancelled a → reachable s.cfg a = true →
          t.mem.read a = Config.havocByte n a)) ∧
      (s.inputs = .resetAssert :: rest → t.resetHeld = true)) ∧
  ∀ (s : State) (a : Word) (size : AccessSize) (v : Word) (rest : List HostMove), s.resetHeld = true →
    s.inputs = .portWrite a size v :: rest → step s = .next (s.withInputs rest)

/-- R25, R280, R293: the state after reset. What a clean launch asks of pending writes is the model's reading (log entry
26). -/
def Obligations.ResetStateValues : Prop :=
  (∀ c : Csr, c.read State.reset = if c = .id then 0x4F500001 else 0) ∧ State.reset.CleanLaunch ∧
  State.reset.hidden = Hidden.entry ∧ State.reset.irq = false

/-- R262: the interrupt output is a level: it rises at the end of a command and when the host enables it, and falls when
the host clears DONE, disables it, starts a command or resets the block. -/
def Obligations.IrqFollowsEnableAndDone : Prop :=
  (∀ s : State, s.irq = true ↔ s.irqEn = true ∧ s.status.done = true) ∧
  (∀ (i : Instr) (s t : State), exec i s = .next t → t.irq = s.irqEn) ∧
  (∀ (s t : State) (v : Word) (rest : List HostMove), s.WritesNext .ctrl v rest → step s = .next t →
    (v.getLsbD 1 = true → t.irq = false) ∧
    (v.getLsbD 1 = false → v.getLsbD 0 = true → s.status.busy = false → t.irq = false) ∧
    (v.getLsbD 1 = false → v.getLsbD 2 = false → t.irq = false) ∧
    (v.getLsbD 1 = false → v.getLsbD 0 = false → v.getLsbD 2 = true → t.irq = s.status.done)) ∧
  ∀ (s t : State) (v : Word) (rest : List HostMove), s.WritesNext .status v rest → v.getLsbD 1 = true →
    step s = .next t → t.irq = false

/-- R97, R293: after a completed command and ACK with no host write pending to a window, and after reset, the launch is
clean. Which windows and which writes are meant is the model's reading (log entry 26). -/
def Obligations.AcknowledgedBlockIsClean : Prop :=
  State.reset.CleanLaunch ∧
  (∀ (s t : State) (rest : List HostMove),
    ((∃ v, s.WritesNext .ctrl v rest ∧ v.getLsbD 1 = true) ∨ s.inputs = .resetAssert :: rest) →
    step s = .next t → t.CleanLaunch) ∧
  ∀ (s : State) (rest : List HostMove), s.Inv → s.status.busy = false → s.WritesNext .status 0x001F000E rest →
    NoWriteTo s.regs.windows rest → ∃ t, step s = .next t ∧ t.CleanLaunch

/-- R271, R292: a run that has ended stays ended, and what it left moves only by the reset input and by the host's own
writes of memory. When a run has ended (no register access pending and BUSY = 0, DONE not asked) is the model's reading
(log entry 26, DEDUCED). -/
def Obligations.EndedRunStaysEnded : Prop :=
  ∀ s t : State, s.Inv → s.RunEnded → step s = .next t →
    t.RunEnded ∧
    ((∀ rest, s.inputs ≠ .resetAssert :: rest) →
      t.regs = s.regs ∧ t.status = s.status ∧ t.irqEn = s.irqEn ∧ t.phase = .idle ∧ t.hidden = s.hidden) ∧
    ((∀ a v rest, s.inputs ≠ .memWrite a v :: rest) → t.mem = s.mem)

/-- R13, R81: the host's moves on its memory. What a byte of a running command's output reads as is a free value (log
entry 12); that the host moves single bytes, and how interference is marked, is the model's (log entries 13, 16). -/
def Obligations.HostMemoryMoves : Prop :=
  (∀ (s : State) (a : Word) (v : Byte) (rest : List HostMove), s.mem.wf → s.inputs = .memWrite a v :: rest →
    reachable s.cfg a.toNat = true →
    ∃ t, step s = .next t ∧ t.mem.read a.toNat = v ∧ (∀ b, b ≠ a.toNat → t.mem.read b = s.mem.read b) ∧ t.mem.wf ∧
      t.regs = s.regs ∧ t.status = s.status ∧ t.hidden = s.hidden ∧ t.phase = s.phase ∧
      (t.interfered = true ↔ s.interfered = true ∨ inWindows s.allWindows a.toNat)) ∧
  ∀ (s : State) (a : Word) (rest : List HostMove), s.inputs = .memRead a :: rest → reachable s.cfg a.toNat = true →
    (¬inWindows s.outputWindows a.toNat → step s = .next ((s.withInputs rest).withMemData (s.mem.read a.toNat))) ∧
    (inWindows s.outputWindows a.toNat →
      step s = .next (((s.withInputs rest).withMemData (Config.busyByte s.draws a.toNat)).withDraws (s.draws + 1)))

/-- R81: if the host wrote a window of the command, every byte of the command's written windows is a free value at its
end, and no other byte changed (log entries 11 and 13). -/
def Obligations.InterferenceHavocsTheWindows : Prop :=
  ∀ (i : Instr) (s t : State), s.mem.wf → s.interfered = true → exec i s = .next t →
    t.interfered = false ∧ SameOutside (writtenWindows s.regs i) s t ∧
    ∃ n, ∀ a, inWindows (writtenWindows s.regs i) a → reachable s.cfg a = true → t.mem.read a = Config.havocByte n a

/-- R290 item 3: a host that writes no window of the running command leaves no mark of interference. -/
def Obligations.DutifulHostNeverInterferes : Prop :=
  ∀ s t : State, s.interfered = false → (∀ m rest, s.inputs = m :: rest → NoInterference s m) → step s = .next t →
    t.interfered = false

/-! ### Memory -/

/-- R10, R65, R67: `MemRead` is little-endian at any alignment, and errs at the lowest byte the port cannot reach. -/
def Obligations.MemReadIsLittleEndian : Prop :=
  ∀ (s : State) (a n : Nat),
    (Reaches s.cfg ⟨a, n⟩ →
      memRead s.cfg a n s = .ok (∑ k ∈ Finset.range n, (s.mem.read (a + k)).toNat * 256 ^ k) s) ∧
    ∀ k < n, (∀ i < k, reachable s.cfg (a + i) = true) → reachable s.cfg (a + k) = false →
      memRead s.cfg a n s = .error ⟨.busError, a + k⟩ s

/-- R10, R65, R67: `MemWrite` stores the bytes of the value, lowest first, and no other byte; it errs at the lowest
byte the port cannot reach, with the bytes below it written. -/
def Obligations.MemWriteIsLittleEndian : Prop :=
  ∀ (s : State) (a n v : Nat), s.mem.wf →
    (Reaches s.cfg ⟨a, n⟩ →
      ∃ t, memWrite s.cfg a n v s = .ok () t ∧ t = s.withMem t.mem ∧ t.mem.wf ∧
        (∀ k < n, (t.mem.read (a + k)).toNat = v / 256 ^ k % 256) ∧ SameOutside [⟨a, n⟩] s t) ∧
    ∀ k < n, (∀ i < k, reachable s.cfg (a + i) = true) → reachable s.cfg (a + k) = false →
      ∃ t, memWrite s.cfg a n v s = .error ⟨.busError, a + k⟩ t ∧ t = s.withMem t.mem ∧ t.mem.wf ∧
        (∀ i < k, (t.mem.read (a + i)).toNat = v / 256 ^ i % 256) ∧ SameOutside [⟨a, k⟩] s t

/-- R64: the OVERLAP check faults exactly when two written windows, or a written and a read window, share a byte; a
window of length 0 holds no byte. -/
def Obligations.OverlapCheckFindsSharedBytes : Prop :=
  ∀ (written read : List Window) (s : State),
    (((∃ i j : Nat, ∃ a b : Window, ∃ x, i < j ∧ written[i]? = some a ∧ written[j]? = some b ∧ a.holds x = true ∧
        b.holds x = true) ∨ ∃ a ∈ written, ∃ b ∈ read, ∃ x, a.holds x = true ∧ b.holds x = true) →
      overlapCheck written read s = .error ⟨.overlap, 0⟩ s) ∧
    ((∀ i j : Nat, ∀ a b : Window, ∀ x, i < j → written[i]? = some a → written[j]? = some b → a.holds x = true →
        b.holds x = false) → (∀ a ∈ written, ∀ b ∈ read, ∀ x, a.holds x = true → b.holds x = false) →
      overlapCheck written read s = .ok () s)

/-- R69, R70: PayloadParse, when the whole read window can be reached: the first field that runs past SRC_LEN faults
with its offset, else the streams stand where the size fields say. -/
def Obligations.PayloadParseFollowsTheLayout : Prop :=
  ∀ s : State, Reaches s.cfg s.regs.srcWindow →
    let pl := payloadAt s.mem s.regs.srcAddr.toNat
    let len := s.regs.srcLen.toNat
    payloadParse s.cfg s =
      if len < 4 then .error ⟨.srcOverrun, 0⟩ s
      else if len < 8 then .error ⟨.srcOverrun, 4⟩ s
      else if len < 8 + pl.cs then .error ⟨.srcOverrun, 8⟩ s
      else if len < 12 + pl.cs then .error ⟨.srcOverrun, 8 + pl.cs⟩ s
      else if len < 12 + pl.cs + pl.acLen then .error ⟨.srcOverrun, 12 + pl.cs⟩ s
      else if len < 16 + pl.cs + pl.acLen then .error ⟨.srcOverrun, 12 + pl.cs + pl.acLen⟩ s
      else if len < 16 + pl.cs + pl.acLen + pl.dcLen then .error ⟨.srcOverrun, 16 + pl.cs + pl.acLen⟩ s
      else .ok pl s

/-! ### Streams and codes -/

/-- R72, R73, R76: the three stream reads, at any cursor. -/
def Obligations.StreamReads : Prop :=
  ∀ (s : State) (pl : Plan),
    (pl.acLen ≤ s.hidden.acur / 8 →
      bitAC s.cfg pl s = .ok false
        ((s.withHidden { s.hidden with acur := s.hidden.acur + 1 }).withStatus (s.status.setWarning .acOverread))) ∧
    (s.hidden.acur / 8 < pl.acLen →
      reachable s.cfg (s.regs.srcAddr.toNat + pl.acOff + s.hidden.acur / 8) = true →
      bitAC s.cfg pl s = .ok (decide ((s.mem.read (s.regs.srcAddr.toNat + pl.acOff + s.hidden.acur / 8)).toNat /
        2 ^ (7 - s.hidden.acur % 8) % 2 = 1)) (s.withHidden { s.hidden with acur := s.hidden.acur + 1 })) ∧
    (pl.dcLen ≤ s.hidden.dcur / 8 → bitDC s.cfg pl s = .error ⟨.dcOverrun, s.hidden.dcur / 8⟩ s) ∧
    (s.hidden.dcur / 8 < pl.dcLen →
      reachable s.cfg (s.regs.srcAddr.toNat + pl.dcOff + s.hidden.dcur / 8) = true →
      bitDC s.cfg pl s = .ok (decide ((s.mem.read (s.regs.srcAddr.toNat + pl.dcOff + s.hidden.dcur / 8)).toNat /
        2 ^ (7 - s.hidden.dcur % 8) % 2 = 1)) (s.withHidden { s.hidden with dcur := s.hidden.dcur + 1 })) ∧
    (pl.ds ≤ s.hidden.j →
      acCodeByte s.cfg pl s = .ok 0
        ((s.withHidden { s.hidden with j := s.hidden.j + 1 }).withStatus (s.status.setWarning .accodeOverread))) ∧
    (s.hidden.j < pl.ds → reachable s.cfg (s.regs.scrAddr.toNat + s.hidden.j) = true →
      acCodeByte s.cfg pl s = .ok (s.mem.read (s.regs.scrAddr.toNat + s.hidden.j))
        (s.withHidden { s.hidden with j := s.hidden.j + 1 }))

/-- R74: `ReadBits` reads the bits in order, the t-th bit read lands in bit t (LSB_FIRST) or in bit n-1-t (MSB_FIRST),
and the value is below 2^n. -/
def Obligations.ReadBitsAssemblesTheBits : Prop :=
  ∀ (p : Params) (next : Engine Bool) (s t : State) (bs : List Bool), Produces next s bs t →
    ∃ v, readBits p next bs.length 0 0 s = .ok v t ∧ v = assembled p.bitAssembly bs ∧ v < 2 ^ bs.length ∧
      ∀ k < bs.length,
        (p.bitAssembly = .lsbFirst → v.testBit k = bs.getD k false) ∧
        (p.bitAssembly = .msbFirst → v.testBit k = bs.getD (bs.length - 1 - k) false)

/-- R165: the level of `len` bits is sign-extended by its top bit, and is never 0. -/
def Obligations.LevelIsSignExtended : Prop :=
  ∀ v len : Nat, 1 ≤ len → len ≤ 15 → v < 2 ^ len →
    (v.testBit (len - 1) = true →
      (level v len).toInt = v ∧ 2 ^ (len - 1) ≤ (level v len).toInt ∧ (level v len).toInt ≤ 2 ^ len - 1) ∧
    (v.testBit (len - 1) = false →
      (level v len).toInt = v - (2 ^ len - 1) ∧ -(2 ^ len - 1) ≤ (level v len).toInt ∧
        (level v len).toInt ≤ -2 ^ (len - 1))

/-- R161, R167, R256: the bounds of one channel, its only faults, and that the bound on codes is never what ends it. -/
def Obligations.ChannelBounds : Prop :=
  (∀ (s t : State) (pl : Plan) (zz : Block), decodeChannel s.cfg pl s = .ok zz t →
    t.hidden.dcur = s.hidden.dcur + 8 ∧
    (s.cfg.fullBlockPolicy = .stopAt64 →
      t.hidden.j ≤ s.hidden.j + 64 ∧ t.hidden.acur ≤ s.hidden.acur + 63 * 15)) ∧
  (∀ (s t : State) (pl : Plan) (f : CmdFault), decodeChannel s.cfg pl s = .error f t →
    f.code = .dcOverrun ∨ f.code = .busError) ∧
  ∀ (s : State) (pl : Plan) (k n : Nat) (zz : Block), pl.ds + 1 ≤ n →
    acLoop s.cfg pl n k zz s = acLoop s.cfg pl (pl.ds + 1) k zz s

/-! ### Huffman -/

/-- R117: the selection of a merge: the active slot of least frequency, then of least index, leaving out `skip`. -/
def Obligations.LeastActiveIsLeast : Prop :=
  ∀ (nodes : List Node) (skip : Option Nat),
    let active := fun (i : Nat) (f : Word) => nodes[i]?.map Node.freq = some f ∧ f ≠ 0 ∧ skip ≠ some i
    (∀ i f, leastActive skip nodes 0 none = some (i, f) ↔
      active i f ∧ ∀ j g, active j g → f.toNat < g.toNat ∨ (f = g ∧ i ≤ j)) ∧
    (leastActive skip nodes 0 none = none ↔ ∀ i f, ¬active i f)

/-- R115, R117: the updates of the arena; what one merge does, and when there is none; the merges go on from each other,
at most 256 of them; and the root. -/
def Obligations.MergesFollowTheRule : Prop :=
  (∀ (a : Arena) (s i : Fin 513) (f : Word),
    (setFreq a s.val f)[i.val] = if i = s then { a[s.val] with freq := f } else a[i.val]) ∧
  (∀ (p : Params) (a : Arena) (i : Fin 513),
    (i.val < 256 → (clearFreqs p a)[i.val] = { a[i.val] with freq := 0 }) ∧
    (i.val = 256 → ((clearFreqs p a)[i.val].freq.toNat = p.hufSentinelFreq.toNat ∧
      (clearFreqs p a)[i.val].c0 = a[i.val].c0 ∧ (clearFreqs p a)[i.val].c1 = a[i.val].c1)) ∧
    (256 < i.val → (clearFreqs p a)[i.val] = a[i.val])) ∧
  (∀ (a : Arena) (next l r : Fin 513), LeastSlot a next.val none l → LeastSlot a next.val (some l) r →
    ∃ b, mergeLoop 1 a next.val = (b, next.val + 1) ∧ b[next.val] = ⟨a[l.val].freq + a[r.val].freq, l, r⟩ ∧
      b[l.val] = { a[l.val] with freq := 0 } ∧ b[r.val] = { a[r.val] with freq := 0 } ∧
      ∀ k : Fin 513, k ≠ next → k ≠ l → k ≠ r → b[k.val] = a[k.val]) ∧
  (∀ (a : Arena) (next : Fin 513), (¬∃ l r, LeastSlot a next.val none l ∧ LeastSlot a next.val (some l) r) →
    ∀ room, mergeLoop room a next.val = (a, next.val)) ∧
  (∀ (room : Nat) (a b : Arena) (next : Nat), mergeLoop 1 a next = (b, next + 1) →
    mergeLoop (room + 1) a next = mergeLoop room b (next + 1)) ∧
  ∀ a : Arena, (treeBuild a).1 = (mergeLoop 256 a 257).1 ∧
    (257 < (mergeLoop 256 a 257).2 → (treeBuild a).2.map Fin.val = some ((mergeLoop 256 a 257).2 - 1)) ∧
    ((mergeLoop 256 a 257).2 = 257 →
      ∀ i : Fin 513, (treeBuild a).2 = some i ↔ LeastSlot (mergeLoop 256 a 257).1 257 none i)

/-- R118, R119: in the tree built from byte frequencies, each leaf of nonzero frequency has exactly one code, the
others have none, no code is longer than 256, and there is no root only when every frequency is 0. -/
def Obligations.EveryUsedSymbolHasOneCode : Prop :=
  ∀ a : Arena, (∀ i : Fin 513, i.val ≤ 256 → a[i.val].freq.toNat ≤ 255) →
    ((treeBuild a).2 = none ↔ ∀ i : Fin 513, i.val ≤ 256 → a[i.val].freq = 0) ∧
    ∀ root, (treeBuild a).2 = some root → ∀ leaf : Fin 513, leaf.val ≤ 256 →
      (a[leaf.val].freq ≠ 0 → ∃ code, CodeOf (treeBuild a).1 root code leaf) ∧
      (a[leaf.val].freq = 0 → ∀ code, ¬CodeOf (treeBuild a).1 root code leaf) ∧
      (∀ c c', CodeOf (treeBuild a).1 root c leaf → CodeOf (treeBuild a).1 root c' leaf → c = c') ∧
      ∀ c, CodeOf (treeBuild a).1 root c leaf → c.length ≤ 256

/-- R119, R121: a stream of codes decodes to the symbols of its codes, up to the declared length or the sentinel. -/
def Obligations.CodesDecodeToTheirSymbols : Prop :=
  ∀ (a : Arena) (root : Fin 513) (codes : List (List Bool × Fin 513)) (tail : List Bool),
    (∀ c ∈ codes, CodeOf a root c.1 c.2 ∧ c.2.val < 256) →
    refSymbols a root codes.length (codes.flatMap Prod.fst ++ tail) =
      some (codes.map fun c => BitVec.ofNat 8 c.2.val) ∧
    ∀ (ds : Nat) (last : List Bool), codes.length < ds → CodeOf a root last 256 →
      refSymbols a root ds (codes.flatMap Prod.fst ++ (last ++ tail)) =
        some (codes.map fun c => BitVec.ofNat 8 c.2.val)

/-- R115, R120-R124: HUF_DECODE completes whenever its table and bit stream hold enough bytes, with the decoded symbols
and then zeros in the output, their number in HUF_OUT and W_HUF_SHORT when they are too few. -/
def Obligations.HufDecodeResult : Prop :=
  ∀ (s : State) (syms : List Byte), s.Ready → Apart [s.regs.dstWindow] [s.regs.srcWindow] →
    s.regs.hufLen.toNat ≤ s.regs.dstLen.toNat → Reaches s.cfg s.regs.srcWindow →
    Reaches s.cfg ⟨s.regs.dstAddr.toNat, s.regs.hufLen.toNat⟩ →
    refHuffman s.cfg (s.mem.bytes s.regs.srcAddr.toNat s.regs.srcLen.toNat) s.regs.hufLen.toNat = some syms →
    ∃ t, exec .hufDecode s = .next t ∧ Finished s t ∧
      SymbolsStored s t s.regs.dstAddr.toNat s.regs.hufLen.toNat syms ∧
      (∀ w, w ≠ .hufShort → t.status.warned w = s.status.warned w) ∧ SameTables s t ∧
      t.regs.animCur = s.regs.animCur ∧ SameOutside [⟨s.regs.dstAddr.toNat, s.regs.hufLen.toNat⟩] s t

/-- R115, R120, R251, R252: HUF_DECODE, DECODE_IMAGE and COMPOSITE fault HUF_OVERRUN when the table or the bit stream
runs out; the byte it needed is the first past the end of COMP. The two image commands have built their tables by then,
and COMPOSITE keeps the cursor. -/
def Obligations.HufDecodeOverrun : Prop :=
  (∀ s : State, s.Ready → Apart [s.regs.dstWindow] [s.regs.srcWindow] →
    s.regs.hufLen.toNat ≤ s.regs.dstLen.toNat → Reaches s.cfg s.regs.srcWindow →
    Reaches s.cfg ⟨s.regs.dstAddr.toNat, s.regs.hufLen.toNat⟩ →
    refHuffman s.cfg (s.mem.bytes s.regs.srcAddr.toNat s.regs.srcLen.toNat) s.regs.hufLen.toNat = none →
    ∃ t, exec .hufDecode s = .next t ∧
      FaultedWhileRunning s t [⟨s.regs.dstAddr.toNat, s.regs.hufLen.toNat⟩] .hufOverrun s.regs.srcLen.toNat ∧
      SameWarnings s t ∧ SameTables s t ∧ t.regs.hufOut = s.regs.hufOut) ∧
  (∀ (fmt : PixelFormat) (s : State) (pl : Plan),
    let w := s.regs.width.toNat
    let h := s.regs.height.toNat
    s.Ready → badGeometry w h = false → Apart [s.regs.dstWindow, s.regs.scrWindow] [s.regs.srcWindow] →
    w * h * bpp fmt ≤ s.regs.dstLen.toNat → PayloadReady s pl → refHuffman s.cfg (s.comp pl) pl.ds = none →
    ∃ t, exec (decodeImageOf fmt) s = .next t ∧
      FaultedWhileRunning s t [⟨s.regs.scrAddr.toNat, pl.ds⟩, ⟨s.regs.dstAddr.toNat, w * h * bpp fmt⟩] .hufOverrun
        pl.cs ∧
      SameWarnings s t ∧ TablesBuilt s t ∧ t.regs.hufOut = s.regs.hufOut) ∧
  ∀ (fmt : PixelFormat) (s : State) (pl : Plan),
    let n := s.regs.blockCount.toNat
    s.Ready → 0 < n → 8 * n ≤ 10000 →
    Apart [s.regs.dstWindow, s.regs.scrWindow] [s.regs.srcWindow, s.regs.offsWindow] →
    Reaches s.cfg s.regs.offsWindow →
    (∀ b < n, (s.offset b + 7 * s.regs.dstStride.toNat + 8) * bpp fmt ≤ s.regs.dstLen.toNat) →
    PayloadReady s pl → refHuffman s.cfg (s.comp pl) pl.ds = none →
    ∃ t, exec (compositeOf fmt) s = .next t ∧
      FaultedWhileRunning s t (⟨s.regs.scrAddr.toNat, pl.ds⟩ ::
        scatterWindows fmt s.regs.dstAddr.toNat s.regs.dstStride.toNat ((List.range n).map s.offset)) .hufOverrun
        pl.cs ∧
      SameWarnings s t ∧ TablesBuilt s t ∧ t.regs.hufOut = s.regs.hufOut

/-! ### The plain commands -/

/-- R110: NOP only ends; from a fresh START it leaves STATUS = 2. -/
def Obligations.NopOnlyEnds : Prop :=
  ∀ s : State, ∃ t, exec .nop s = .next t ∧ Finished s t ∧ t.regs = s.regs ∧ t.mem = s.mem ∧ SameWarnings s t ∧
    (s.status = { busy := true } → t.status.toWord = 0x00000002)

/-- R29, R142, R145: QT_BUILD builds both tables from QUALITY, read signed, and touches no memory. -/
def Obligations.QtBuildBuildsBothTables : Prop :=
  ∀ s : State, ∃ t, exec .qtBuild s = .next t ∧ Finished s t ∧ TablesBuilt s t ∧ SameWarnings s t ∧ t.mem = s.mem ∧
    t.regs.hufOut = s.regs.hufOut ∧ t.regs.animCur = s.regs.animCur

/-- R140, R141: the scale factor of each quality, and a table entry. The rounding half up of a table entry is PRESUMED by
the spec (log entry 20). -/
def Obligations.TableEntriesFollowTheQuality : Prop :=
  (∀ (p : Params) (q : Int),
    (q < 0 → qFactor p q = 5000) ∧ (q = 0 → qFactor p q = p.qAtQuality0) ∧
    (0 < q → q < 50 → (qFactor p q : Int) = 5000 / q) ∧
    (50 ≤ q → q < 100 → (qFactor p q : Int) = (100 - q) * 2) ∧ (100 ≤ q → qFactor p q = 0) ∧
    (p.qAtQuality0 ≤ 5000 → qFactor p q ≤ 5000)) ∧
  ∀ (b m : BitVec 16) (q : Nat),
    ((finalEntry b m q).toNat : Int) =
      clamp (((b.toNat : Int) * q + 50) / 100) 8 255 * m.toNat / 2 ^ 13 ∧
    (finalEntry b m q).toNat ≤ 2039

/-- R143, R146: DEQUANT_BLOCK.L and .C. Each coefficient goes to its natural place times its table entry, mod 2^32;
nothing else is written. -/
def Obligations.DequantBlockResult : Prop :=
  ∀ (sel : TableSel) (s : State), s.interfered = false → s.mem.wf →
    s.regs.dstWindow.overlaps s.regs.srcWindow = false → 256 ≤ s.regs.srcLen.toNat → 256 ≤ s.regs.dstLen.toNat →
    Reaches s.cfg ⟨s.regs.srcAddr.toNat, 256⟩ → Reaches s.cfg ⟨s.regs.dstAddr.toNat, 256⟩ →
    (∀ j k : Fin 64, s.cfg.zigzag[j.val] = s.cfg.zigzag[k.val] → j = k) →
    ∃ t, exec (dequantBlockFor sel) s = .next t ∧ StageFinished s t [⟨s.regs.dstAddr.toNat, 256⟩] ∧
      ∀ k : Fin 64,
        t.mem.int32 (s.regs.dstAddr.toNat + 4 * s.cfg.zigzag[k.val].val) =
          s.mem.int32 (s.regs.srcAddr.toNat + 4 * k.val) * (s.regs.table sel)[s.cfg.zigzag[k.val].val]

/-- R181: IDCT_BLOCK writes the transform of the block it reads, and nothing else. -/
def Obligations.IdctBlockResult : Prop :=
  ∀ s : State, s.interfered = false → s.mem.wf → s.regs.dstWindow.overlaps s.regs.srcWindow = false →
    256 ≤ s.regs.srcLen.toNat → 256 ≤ s.regs.dstLen.toNat →
    Reaches s.cfg ⟨s.regs.srcAddr.toNat, 256⟩ → Reaches s.cfg ⟨s.regs.dstAddr.toNat, 256⟩ →
    ∃ t, exec .idctBlock s = .next t ∧ StageFinished s t [⟨s.regs.dstAddr.toNat, 256⟩] ∧
      t.mem.block s.regs.dstAddr.toNat = idct2D s.cfg (s.mem.block s.regs.srcAddr.toNat)

/-- R175, R178: the transform is the kernel down the columns, then along the rows, then the descale; every output lies
in -128..128 whatever the kernel; and under the reference kernel, which is PRESUMED (log entry 5), a block with only a DC
coefficient is flat. -/
def Obligations.IdctProperties : Prop :=
  (∀ (p : Params) (blk : Block) (r x : Fin 8),
    (idct2D p blk)[r.val * 8 + x.val] =
      descale (kernel1d p (Vector.ofFn fun y : Fin 8 =>
        (kernel1d p (Vector.ofFn fun z : Fin 8 => blk[z.val * 8 + y.val]))[r.val]))[x.val]) ∧
  (∀ (p : Params) (blk : Block) (i : Fin 64), -128 ≤ (idct2D p blk)[i.val].toInt ∧ (idct2D p blk)[i.val].toInt ≤ 128) ∧
  (∀ (w : ProductBits) (d : Word), referenceKernel w #v[d, 0, 0, 0, 0, 0, 0, 0] = Vector.replicate 8 d) ∧
  ∀ (p : Params) (d : Word) (i : Fin 64), p.kernel = .reference →
    (idct2D p (Block.zero.set 0 d))[i.val].toInt = clamp (d.toInt.tdiv 16) (-128) 128

/-- R176, R179: the constants and the fixed-point multiply, exact or with the product wrapped first; and the descale,
a division by 16 truncated toward zero with the clamp to -128..128. -/
def Obligations.FixedPointSteps : Prop :=
  (kA = 92682 ∧ kB = 121095 ∧ kC = 171254 ∧ kD = 70936) ∧
  (∀ (a : Word) (k : Int), mulK .bits64 a k = wrap32 (a.toInt * k / 65536) ∧
    mulK .bits32 a k = wrap32 ((wrap32 (a.toInt * k)).toInt / 65536)) ∧
  ∀ v : Word, (descale v).toInt = clamp (v.toInt.tdiv 16) (-128) 128

/-- R194, R196, R197: COLOR_BLOCK.RGB24, .RGB565 and .ARGB32: the bytes of each of the 64 pixels, and nothing else. -/
def Obligations.ColorBlockResult : Prop :=
  ∀ (fmt : PixelFormat) (s : State), s.interfered = false → s.mem.wf →
    s.regs.dstWindow.overlaps s.regs.srcWindow = false → 768 ≤ s.regs.srcLen.toNat →
    64 * bpp fmt ≤ s.regs.dstLen.toNat → Reaches s.cfg ⟨s.regs.srcAddr.toNat, 768⟩ →
    Reaches s.cfg ⟨s.regs.dstAddr.toNat, 64 * bpp fmt⟩ →
    ∃ t, exec (colorBlockOf fmt) s = .next t ∧ StageFinished s t [⟨s.regs.dstAddr.toNat, 64 * bpp fmt⟩] ∧
      ∀ px < 64, ∀ k < bpp fmt,
        t.mem.read (s.regs.dstAddr.toNat + px * bpp fmt + k) =
          (pixelBytes fmt (color (s.mem.int32 (s.regs.srcAddr.toNat + 4 * px))
            (s.mem.int32 (s.regs.srcAddr.toNat + 256 + 4 * px))
            (s.mem.int32 (s.regs.srcAddr.toNat + 512 + 4 * px)))).getD k 0

/-- R190-R193: the conversion of any three int32 values, with its wraps; the halving truncates toward zero; Div3 is the
floor, but one less at the positive multiples of 3, which G never shows; and the conversion of every pixel the image path
can reach. That the divisions by 10 truncate toward zero is PRESUMED by the spec (log entry 20). -/
def Obligations.ColorFollowsTheRules : Prop :=
  (∀ y cb cr : Word,
    let yp := (wrap32 (y.toInt + 128)).toInt
    let d3 := (wrap32 (cb.toInt * 0x55555555 / 2 ^ 32)).toInt
    let g1 := (wrap32 (d3 - cb.toInt)).toInt.tdiv 2
    ((color y cb cr).r.toNat : Int) = clamp (wrap32 (yp + (wrap32 (2 * cb.toInt)).toInt)).toInt 0 255 ∧
    ((color y cb cr).g.toNat : Int) =
      clamp (wrap32 ((wrap32 (yp + g1)).toInt - (wrap32 (cr.toInt * 8)).toInt.tdiv 10)).toInt 0 255 ∧
    ((color y cb cr).b.toNat : Int) =
      clamp (wrap32 (yp + (wrap32 (cr.toInt * 16)).toInt.tdiv 10)).toInt 0 255) ∧
  (∀ t : Word, (half t).toInt = t.toInt.tdiv 2) ∧
  (∀ c : Word, -128 ≤ c.toInt → c.toInt ≤ 128 →
    (div3 c).toInt = (if 0 < c.toInt ∧ c.toInt % 3 = 0 then c.toInt / 3 - 1 else c.toInt / 3) ∧
    (half (div3 c - c)).toInt = (c.toInt / 3 - c.toInt).tdiv 2) ∧
  ∀ y cb cr : Word, -128 ≤ y.toInt → y.toInt ≤ 128 → -128 ≤ cb.toInt → cb.toInt ≤ 128 → -128 ≤ cr.toInt →
    cr.toInt ≤ 128 →
    ((color y cb cr).r.toNat : Int) = clamp (y.toInt + 128 + 2 * cb.toInt) 0 255 ∧
    ((color y cb cr).g.toNat : Int) =
      clamp (y.toInt + 128 + (cb.toInt / 3 - cb.toInt).tdiv 2 - (8 * cr.toInt).tdiv 10) 0 255 ∧
    ((color y cb cr).b.toNat : Int) = clamp (y.toInt + 128 + (16 * cr.toInt).tdiv 10) 0 255

/-- R194, R195: the bytes of a pixel in each format; and a pixel without chroma is gray. The layouts of RGB24, RGB565 and
ARGB32 are PRESUMED by the spec (log entry 20). -/
def Obligations.PixelsArePacked : Prop :=
  (∀ c : Rgb,
    pixelBytes .rgb24 c = [c.r, c.g, c.b] ∧
    (pixelBytes .rgb565 c).map BitVec.toNat =
      [(c.r.toNat / 8 * 2048 + c.g.toNat / 4 * 32 + c.b.toNat / 8) % 256,
        (c.r.toNat / 8 * 2048 + c.g.toNat / 4 * 32 + c.b.toNat / 8) / 256] ∧
    pixelBytes .argb32 c = [c.b, c.g, c.r, 0xFF]) ∧
  (bpp .rgb24 = 3 ∧ bpp .rgb565 = 2 ∧ bpp .argb32 = 4) ∧
  (∀ y : Word, y.toInt + 128 < 2 ^ 31 →
    (color y 0 0).r = (color y 0 0).g ∧ (color y 0 0).g = (color y 0 0).b ∧
      ((color y 0 0).r.toNat : Int) = clamp (y.toInt + 128) 0 255) ∧
  (color 10 0 0).r = 138 ∧ pack565 (color 10 0 0) = 0x8C51

/-! ### The image commands -/

/-- R205-R209: DECODE_IMAGE.RGB24, .RGB565 and .ARGB32 complete on every payload whose streams suffice, with every byte
of every pixel, the scratch bytes, the tables, HUF_OUT and the warnings as the rules give them. -/
def Obligations.DecodeImageResult : Prop :=
  ∀ (fmt : PixelFormat) (s : State) (pl : Plan) (syms : List Byte) (img : List Planes × Streams),
    let w := s.regs.width.toNat
    let h := s.regs.height.toNat
    s.Ready → badGeometry w h = false → Apart [s.regs.dstWindow, s.regs.scrWindow] [s.regs.srcWindow] →
    w * h * bpp fmt ≤ s.regs.dstLen.toNat → PayloadReady s pl →
    Reaches s.cfg ⟨s.regs.dstAddr.toNat, w * h * bpp fmt⟩ →
    refHuffman s.cfg (s.comp pl) pl.ds = some syms → s.image pl syms (w / 8 * (h / 8)) = some img →
    ∃ t, exec (decodeImageOf fmt) s = .next t ∧ Finished s t ∧ TablesBuilt s t ∧
      SymbolsStored s t s.regs.scrAddr.toNat pl.ds syms ∧
      (∀ x, x ≠ .hufShort → t.status.warned x = (s.status.warned x || decide (x ∈ img.2.seen))) ∧
      t.regs.animCur = s.regs.animCur ∧ img.1.length = w / 8 * (h / 8) ∧
      (∀ b planes, img.1[b]? = some planes → ∀ px < 64, ∀ k < bpp fmt,
        t.mem.read (rasterAddr fmt s.regs.dstAddr.toNat w b px + k) = (pixelBytes fmt (planes.pixel px)).getD k 0) ∧
      SameOutside [⟨s.regs.scrAddr.toNat, pl.ds⟩, ⟨s.regs.dstAddr.toNat, w * h * bpp fmt⟩] s t

/-- R73, R252: a payload whose DC-data is too short for its blocks ends DECODE_IMAGE and COMPOSITE in DC_OVERRUN, with
HUF_OUT and the tables as they stood then and the cursor kept. -/
def Obligations.ShortDcDataFaults : Prop :=
  (∀ (fmt : PixelFormat) (s : State) (pl : Plan) (syms : List Byte),
    let w := s.regs.width.toNat
    let h := s.regs.height.toNat
    s.Ready → badGeometry w h = false → Apart [s.regs.dstWindow, s.regs.scrWindow] [s.regs.srcWindow] →
    w * h * bpp fmt ≤ s.regs.dstLen.toNat → PayloadReady s pl →
    Reaches s.cfg ⟨s.regs.dstAddr.toNat, w * h * bpp fmt⟩ → refHuffman s.cfg (s.comp pl) pl.ds = some syms →
    (s.image pl syms (w / 8 * (h / 8)) = none ↔ pl.dcLen < 3 * (w / 8 * (h / 8))) ∧
    (pl.dcLen < 3 * (w / 8 * (h / 8)) →
      ∃ t, exec (decodeImageOf fmt) s = .next t ∧
        FaultedWhileRunning s t [⟨s.regs.scrAddr.toNat, pl.ds⟩, ⟨s.regs.dstAddr.toNat, w * h * bpp fmt⟩] .dcOverrun
          pl.dcLen ∧
        TablesBuilt s t ∧ t.regs.hufOut.toNat = syms.length)) ∧
  ∀ (fmt : PixelFormat) (s : State) (pl : Plan) (syms : List Byte),
    let n := s.regs.blockCount.toNat
    let place := fun b px => scatterAddr fmt s.regs.dstAddr.toNat s.regs.dstStride.toNat (s.offset b) px
    s.Ready → 0 < n → 8 * n ≤ 10000 →
    Apart [s.regs.dstWindow, s.regs.scrWindow] [s.regs.srcWindow, s.regs.offsWindow] →
    Reaches s.cfg s.regs.offsWindow →
    (∀ b < n, (s.offset b + 7 * s.regs.dstStride.toNat + 8) * bpp fmt ≤ s.regs.dstLen.toNat) →
    PayloadReady s pl → (∀ b < n, ∀ px < 64, ∀ k < bpp fmt, reachable s.cfg (place b px + k) = true) →
    refHuffman s.cfg (s.comp pl) pl.ds = some syms →
    (s.image pl syms n = none ↔ pl.dcLen < 3 * n) ∧
    (pl.dcLen < 3 * n →
      ∃ t, exec (compositeOf fmt) s = .next t ∧
        FaultedWhileRunning s t (⟨s.regs.scrAddr.toNat, pl.ds⟩ ::
          scatterWindows fmt s.regs.dstAddr.toNat s.regs.dstStride.toNat ((List.range n).map s.offset)) .dcOverrun
          pl.dcLen ∧
        TablesBuilt s t ∧ t.regs.hufOut.toNat = syms.length)

/-- R222-R224, R226: COMPOSITE.RGB24, .RGB565 and .ARGB32 with a frame that is not empty: each block's pixels at its
offset, where two pixels meet the last one written stays, and the cursor advances. -/
def Obligations.CompositeResult : Prop :=
  ∀ (fmt : PixelFormat) (s : State) (pl : Plan) (syms : List Byte) (img : List Planes × Streams),
    let n := s.regs.blockCount.toNat
    let place := fun b px => scatterAddr fmt s.regs.dstAddr.toNat s.regs.dstStride.toNat (s.offset b) px
    s.Ready → 0 < n → 8 * n ≤ 10000 →
    Apart [s.regs.dstWindow, s.regs.scrWindow] [s.regs.srcWindow, s.regs.offsWindow] →
    Reaches s.cfg s.regs.offsWindow →
    (∀ b < n, (s.offset b + 7 * s.regs.dstStride.toNat + 8) * bpp fmt ≤ s.regs.dstLen.toNat) →
    PayloadReady s pl → (∀ b < n, ∀ px < 64, ∀ k < bpp fmt, reachable s.cfg (place b px + k) = true) →
    refHuffman s.cfg (s.comp pl) pl.ds = some syms → s.image pl syms n = some img →
    ∃ t, exec (compositeOf fmt) s = .next t ∧ Finished s t ∧ TablesBuilt s t ∧
      SymbolsStored s t s.regs.scrAddr.toNat pl.ds syms ∧
      (∀ x, x ≠ .hufShort → t.status.warned x = (s.status.warned x || decide (x ∈ img.2.seen))) ∧
      t.regs.animCur = advance s.regs.animCount s.regs.animCur ∧ img.1.length = n ∧
      (∀ b planes, img.1[b]? = some planes → ∀ px < 64, ∀ k < bpp fmt,
        (∀ b' < n, ∀ px' < 64, ∀ k' < bpp fmt, (b < b' ∨ (b = b' ∧ px < px')) → place b' px' + k' ≠ place b px + k) →
        t.mem.read (place b px + k) = (pixelBytes fmt (planes.pixel px)).getD k 0) ∧
      SameOutside (⟨s.regs.scrAddr.toNat, pl.ds⟩ ::
        scatterWindows fmt s.regs.dstAddr.toNat s.regs.dstStride.toNat ((List.range n).map s.offset)) s t

/-- R225: an empty frame touches no memory and builds no table; it only advances the cursor. -/
def Obligations.EmptyFrameOnlyAdvances : Prop :=
  ∀ (fmt : PixelFormat) (s : State), s.regs.blockCount = 0 →
    ∃ t, exec (compositeOf fmt) s = .next t ∧ Finished s t ∧ t.mem = s.mem ∧ SameTables s t ∧ SameWarnings s t ∧
      t.regs.hufOut = s.regs.hufOut ∧ t.regs.animCur = advance s.regs.animCount s.regs.animCur

/-- R226: how the cursor advances, that N advances return to frame 0, and that only a COMPOSITE that ends without a
fault advances it. -/
def Obligations.CursorAdvances : Prop :=
  (∀ count cur : Word,
    (count = 0 → advance count cur = cur) ∧
    (count ≠ 0 → count.toNat ≤ cur.toNat + 1 → advance count cur = 0) ∧
    (cur.toNat + 1 < count.toNat → (advance count cur).toNat = cur.toNat + 1)) ∧
  (∀ (count : Word) (n : Nat), count ≠ 0 → ((advance count)^[n] 0).toNat = n % count.toNat) ∧
  ∀ (i : Instr) (s t : State), s.status.err = false → exec i s = .next t →
    t.regs.animCur =
      if isComposite i && !t.status.err then advance s.regs.animCount s.regs.animCur else s.regs.animCur

/-- R207, R208, R209: for every accepted geometry the blocks' pixels cover the image's pixels, each once. -/
def Obligations.RasterCoversTheImageOnce : Prop :=
  ∀ (fmt : PixelFormat) (dst w h : Nat), badGeometry w h = false →
    (∀ b < w / 8 * (h / 8), ∀ px < 64,
      rasterAddr fmt dst w b px =
        dst + ((b / (w / 8) * 8 + px / 8) * w + (b % (w / 8) * 8 + px % 8)) * bpp fmt ∧
      rasterAddr fmt dst w b px + bpp fmt ≤ dst + w * h * bpp fmt) ∧
    ∀ n < w * h, ∃! bp : Nat × Nat, bp.1 < w / 8 * (h / 8) ∧ bp.2 < 64 ∧
      rasterAddr fmt dst w bp.1 bp.2 = dst + n * bpp fmt

/-! ### Faults and frames -/

/-- R146, R181, R196, R124, R253, R254: the pre-checks of the stage commands and of HUF_DECODE, in their order. -/
def Obligations.StageCommandsCheckInOrder : Prop :=
  ∀ s : State, s.interfered = false →
    (∀ c ∈ [(Instr.dequantBlockL, 256, 256), (.dequantBlockC, 256, 256), (.idctBlock, 256, 256),
        (.colorBlockRgb24, 768, 192), (.colorBlockRgb565, 768, 128), (.colorBlockArgb32, 768, 256)],
      (s.regs.dstWindow.overlaps s.regs.srcWindow = true →
        ∃ t, exec c.1 s = .next t ∧ FaultedBeforeWriting s t .overlap 0) ∧
      (s.regs.dstWindow.overlaps s.regs.srcWindow = false → s.regs.srcLen.toNat < c.2.1 →
        ∃ t, exec c.1 s = .next t ∧ FaultedBeforeWriting s t .srcOverrun 0) ∧
      (s.regs.dstWindow.overlaps s.regs.srcWindow = false → c.2.1 ≤ s.regs.srcLen.toNat →
        s.regs.dstLen.toNat < c.2.2 → ∃ t, exec c.1 s = .next t ∧ FaultedBeforeWriting s t .dstOverrun 0)) ∧
    (s.regs.dstWindow.overlaps s.regs.srcWindow = true →
      ∃ t, exec .hufDecode s = .next t ∧ FaultedBeforeWriting s t .overlap 0) ∧
    (s.regs.dstWindow.overlaps s.regs.srcWindow = false → s.regs.dstLen.toNat < s.regs.hufLen.toNat →
      ∃ t, exec .hufDecode s = .next t ∧ FaultedBeforeWriting s t .dstOverrun 0)

/-- R208, R253, R254: the pre-checks of DECODE_IMAGE, in their order. -/
def Obligations.DecodeImageChecksInOrder : Prop :=
  ∀ (fmt : PixelFormat) (s : State), s.interfered = false →
    let w := s.regs.width.toNat
    let h := s.regs.height.toNat
    let badSize := w = 0 ∨ h = 0 ∨ w % 8 ≠ 0 ∨ h % 8 ≠ 0 ∨ 10000 < w ∨ 10000 < h
    let apart := Apart [s.regs.dstWindow, s.regs.scrWindow] [s.regs.srcWindow]
    let faults := fun code info =>
      ∃ t, exec (decodeImageOf fmt) s = .next t ∧ FaultedBeforeWriting s t code info
    (badSize → faults .badGeometry 0) ∧
    (¬badSize → ¬apart → faults .overlap 0) ∧
    (¬badSize → apart → s.regs.dstLen.toNat < w * h * bpp fmt → faults .dstOverrun 0) ∧
    (¬badSize → apart → w * h * bpp fmt ≤ s.regs.dstLen.toNat →
      (∀ f u, payloadParse s.cfg s = .error f u → faults f.code f.info) ∧
      ∀ pl u, payloadParse s.cfg s = .ok pl u → s.regs.scrLen.toNat < pl.ds → faults .scratchOverflow pl.ds)

/-- R224, R253, R254: the pre-checks of COMPOSITE with a frame that is not empty, in their order. -/
def Obligations.CompositeChecksInOrder : Prop :=
  ∀ (fmt : PixelFormat) (s : State), s.interfered = false →
    let n := s.regs.blockCount.toNat
    let apart := Apart [s.regs.dstWindow, s.regs.scrWindow] [s.regs.srcWindow, s.regs.offsWindow]
    let fits := fun b => (s.offset b + 7 * s.regs.dstStride.toNat + 8) * bpp fmt ≤ s.regs.dstLen.toNat
    let faults := fun code info =>
      ∃ t, exec (compositeOf fmt) s = .next t ∧ FaultedBeforeWriting s t code info
    0 < n →
    (10000 < 8 * n → faults .badGeometry 0) ∧
    (8 * n ≤ 10000 → ¬apart → faults .overlap 0) ∧
    (8 * n ≤ 10000 → apart →
      (∀ k < 4 * n, (∀ i < k, reachable s.cfg (s.regs.offsAddr.toNat + i) = true) →
        reachable s.cfg (s.regs.offsAddr.toNat + k) = false → faults .busError (s.regs.offsAddr.toNat + k)) ∧
      (Reaches s.cfg s.regs.offsWindow →
        (∀ b < n, (∀ b' < b, fits b') → ¬fits b → faults .dstOverrun b) ∧
        ((∀ b < n, fits b) →
          (∀ f u, payloadParse s.cfg s = .error f u → faults f.code f.info) ∧
          ∀ pl u, payloadParse s.cfg s = .ok pl u → s.regs.scrLen.toNat < pl.ds → faults .scratchOverflow pl.ds)))

/-- R32, R250-R253, R256: every command ends, idle and with DONE, either without a fault or with one of the faults its
row of R253 lists; a bus error names an address of one of the command's windows that the port cannot reach (R63, R251).
-/
def Obligations.EveryCommandEnds : Prop :=
  ∀ (i : Instr) (s : State), ∃ t, exec i s = .next t ∧ CommandFrame s t ∧ t.phase = .idle ∧ t.status.busy = false ∧
    t.status.done = true ∧
    ((t.status.err = s.status.err ∧ t.status.errcode = s.status.errcode ∧ t.regs.faultInfo = s.regs.faultInfo) ∨
      (t.status.err = true ∧ ∃ c ∈ faultsOf i, t.status.errcode = c.toByte ∧
        (c = .badGeometry ∨ c = .overlap → t.regs.faultInfo = 0) ∧
        (c = .busError → ∃ a, inWindows (writtenWindows s.regs i ++ readWindows s.regs i) a ∧
          reachable s.cfg a = false ∧ t.regs.faultInfo = BitVec.ofNat 32 a)))

/-- R63, R252, R253: a command writes only inside its write and scratch windows; and, when no host write interfered,
only inside its write footprint, however it ends. -/
def Obligations.CommandsWriteOnlyTheirWindows : Prop :=
  ∀ (i : Instr) (s t : State), exec i s = .next t →
    SameOutside (writtenWindows s.regs i) s t ∧
    (s.interfered = false → SameOutside (footprintOf s.cfg i s) s t)

/-- R29, R33, R42, R257: which commands change the tables, HUF_OUT and the warnings; the tables change only to those of
the current quality, and a command clears no warning. -/
def Obligations.CommandsChangeOnlyTheirRegisters : Prop :=
  ∀ (i : Instr) (s t : State), exec i s = .next t →
    (SameTables s t ∨ TablesBuilt s t) ∧ (buildsTables i = false → SameTables s t) ∧
    (decodesSymbols i = false → t.regs.hufOut = s.regs.hufOut ∧ SameWarnings s t) ∧
    ∀ w, s.status.warned w = true → t.status.warned w = true
end

