-- ==== Sys2Proof/Laws/State.lean ====
section
/-!
SUPPORT. What each named update of the state leaves in each field: one lemma per field per update, so that no proof
unfolds a record update.
-/

namespace Sys2Proof.Machine

section
variable (s : State)

@[simp] theorem State.withCfg_cfg (x : Params) : (s.withCfg x).cfg = x := rfl
@[simp] theorem State.withCfg_regs (x : Params) : (s.withCfg x).regs = s.regs := rfl
@[simp] theorem State.withCfg_status (x : Params) : (s.withCfg x).status = s.status := rfl
@[simp] theorem State.withCfg_irqEn (x : Params) : (s.withCfg x).irqEn = s.irqEn := rfl
@[simp] theorem State.withCfg_phase (x : Params) : (s.withCfg x).phase = s.phase := rfl
@[simp] theorem State.withCfg_hidden (x : Params) : (s.withCfg x).hidden = s.hidden := rfl
@[simp] theorem State.withCfg_mem (x : Params) : (s.withCfg x).mem = s.mem := rfl
@[simp] theorem State.withCfg_resetHeld (x : Params) : (s.withCfg x).resetHeld = s.resetHeld := rfl
@[simp] theorem State.withCfg_interfered (x : Params) : (s.withCfg x).interfered = s.interfered := rfl
@[simp] theorem State.withCfg_draws (x : Params) : (s.withCfg x).draws = s.draws := rfl
@[simp] theorem State.withCfg_inputs (x : Params) : (s.withCfg x).inputs = s.inputs := rfl
@[simp] theorem State.withCfg_portData (x : Params) : (s.withCfg x).portData = s.portData := rfl
@[simp] theorem State.withCfg_memData (x : Params) : (s.withCfg x).memData = s.memData := rfl

@[simp] theorem State.withRegs_cfg (x : Regs) : (s.withRegs x).cfg = s.cfg := rfl
@[simp] theorem State.withRegs_regs (x : Regs) : (s.withRegs x).regs = x := rfl
@[simp] theorem State.withRegs_status (x : Regs) : (s.withRegs x).status = s.status := rfl
@[simp] theorem State.withRegs_irqEn (x : Regs) : (s.withRegs x).irqEn = s.irqEn := rfl
@[simp] theorem State.withRegs_phase (x : Regs) : (s.withRegs x).phase = s.phase := rfl
@[simp] theorem State.withRegs_hidden (x : Regs) : (s.withRegs x).hidden = s.hidden := rfl
@[simp] theorem State.withRegs_mem (x : Regs) : (s.withRegs x).mem = s.mem := rfl
@[simp] theorem State.withRegs_resetHeld (x : Regs) : (s.withRegs x).resetHeld = s.resetHeld := rfl
@[simp] theorem State.withRegs_interfered (x : Regs) : (s.withRegs x).interfered = s.interfered := rfl
@[simp] theorem State.withRegs_draws (x : Regs) : (s.withRegs x).draws = s.draws := rfl
@[simp] theorem State.withRegs_inputs (x : Regs) : (s.withRegs x).inputs = s.inputs := rfl
@[simp] theorem State.withRegs_portData (x : Regs) : (s.withRegs x).portData = s.portData := rfl
@[simp] theorem State.withRegs_memData (x : Regs) : (s.withRegs x).memData = s.memData := rfl

@[simp] theorem State.withStatus_cfg (x : Status) : (s.withStatus x).cfg = s.cfg := rfl
@[simp] theorem State.withStatus_regs (x : Status) : (s.withStatus x).regs = s.regs := rfl
@[simp] theorem State.withStatus_status (x : Status) : (s.withStatus x).status = x := rfl
@[simp] theorem State.withStatus_irqEn (x : Status) : (s.withStatus x).irqEn = s.irqEn := rfl
@[simp] theorem State.withStatus_phase (x : Status) : (s.withStatus x).phase = s.phase := rfl
@[simp] theorem State.withStatus_hidden (x : Status) : (s.withStatus x).hidden = s.hidden := rfl
@[simp] theorem State.withStatus_mem (x : Status) : (s.withStatus x).mem = s.mem := rfl
@[simp] theorem State.withStatus_resetHeld (x : Status) : (s.withStatus x).resetHeld = s.resetHeld := rfl
@[simp] theorem State.withStatus_interfered (x : Status) : (s.withStatus x).interfered = s.interfered := rfl
@[simp] theorem State.withStatus_draws (x : Status) : (s.withStatus x).draws = s.draws := rfl
@[simp] theorem State.withStatus_inputs (x : Status) : (s.withStatus x).inputs = s.inputs := rfl
@[simp] theorem State.withStatus_portData (x : Status) : (s.withStatus x).portData = s.portData := rfl
@[simp] theorem State.withStatus_memData (x : Status) : (s.withStatus x).memData = s.memData := rfl

@[simp] theorem State.withIrqEn_cfg (x : Bool) : (s.withIrqEn x).cfg = s.cfg := rfl
@[simp] theorem State.withIrqEn_regs (x : Bool) : (s.withIrqEn x).regs = s.regs := rfl
@[simp] theorem State.withIrqEn_status (x : Bool) : (s.withIrqEn x).status = s.status := rfl
@[simp] theorem State.withIrqEn_irqEn (x : Bool) : (s.withIrqEn x).irqEn = x := rfl
@[simp] theorem State.withIrqEn_phase (x : Bool) : (s.withIrqEn x).phase = s.phase := rfl
@[simp] theorem State.withIrqEn_hidden (x : Bool) : (s.withIrqEn x).hidden = s.hidden := rfl
@[simp] theorem State.withIrqEn_mem (x : Bool) : (s.withIrqEn x).mem = s.mem := rfl
@[simp] theorem State.withIrqEn_resetHeld (x : Bool) : (s.withIrqEn x).resetHeld = s.resetHeld := rfl
@[simp] theorem State.withIrqEn_interfered (x : Bool) : (s.withIrqEn x).interfered = s.interfered := rfl
@[simp] theorem State.withIrqEn_draws (x : Bool) : (s.withIrqEn x).draws = s.draws := rfl
@[simp] theorem State.withIrqEn_inputs (x : Bool) : (s.withIrqEn x).inputs = s.inputs := rfl
@[simp] theorem State.withIrqEn_portData (x : Bool) : (s.withIrqEn x).portData = s.portData := rfl
@[simp] theorem State.withIrqEn_memData (x : Bool) : (s.withIrqEn x).memData = s.memData := rfl

@[simp] theorem State.withPhase_cfg (x : Phase) : (s.withPhase x).cfg = s.cfg := rfl
@[simp] theorem State.withPhase_regs (x : Phase) : (s.withPhase x).regs = s.regs := rfl
@[simp] theorem State.withPhase_status (x : Phase) : (s.withPhase x).status = s.status := rfl
@[simp] theorem State.withPhase_irqEn (x : Phase) : (s.withPhase x).irqEn = s.irqEn := rfl
@[simp] theorem State.withPhase_phase (x : Phase) : (s.withPhase x).phase = x := rfl
@[simp] theorem State.withPhase_hidden (x : Phase) : (s.withPhase x).hidden = s.hidden := rfl
@[simp] theorem State.withPhase_mem (x : Phase) : (s.withPhase x).mem = s.mem := rfl
@[simp] theorem State.withPhase_resetHeld (x : Phase) : (s.withPhase x).resetHeld = s.resetHeld := rfl
@[simp] theorem State.withPhase_interfered (x : Phase) : (s.withPhase x).interfered = s.interfered := rfl
@[simp] theorem State.withPhase_draws (x : Phase) : (s.withPhase x).draws = s.draws := rfl
@[simp] theorem State.withPhase_inputs (x : Phase) : (s.withPhase x).inputs = s.inputs := rfl
@[simp] theorem State.withPhase_portData (x : Phase) : (s.withPhase x).portData = s.portData := rfl
@[simp] theorem State.withPhase_memData (x : Phase) : (s.withPhase x).memData = s.memData := rfl

@[simp] theorem State.withHidden_cfg (x : Hidden) : (s.withHidden x).cfg = s.cfg := rfl
@[simp] theorem State.withHidden_regs (x : Hidden) : (s.withHidden x).regs = s.regs := rfl
@[simp] theorem State.withHidden_status (x : Hidden) : (s.withHidden x).status = s.status := rfl
@[simp] theorem State.withHidden_irqEn (x : Hidden) : (s.withHidden x).irqEn = s.irqEn := rfl
@[simp] theorem State.withHidden_phase (x : Hidden) : (s.withHidden x).phase = s.phase := rfl
@[simp] theorem State.withHidden_hidden (x : Hidden) : (s.withHidden x).hidden = x := rfl
@[simp] theorem State.withHidden_mem (x : Hidden) : (s.withHidden x).mem = s.mem := rfl
@[simp] theorem State.withHidden_resetHeld (x : Hidden) : (s.withHidden x).resetHeld = s.resetHeld := rfl
@[simp] theorem State.withHidden_interfered (x : Hidden) : (s.withHidden x).interfered = s.interfered := rfl
@[simp] theorem State.withHidden_draws (x : Hidden) : (s.withHidden x).draws = s.draws := rfl
@[simp] theorem State.withHidden_inputs (x : Hidden) : (s.withHidden x).inputs = s.inputs := rfl
@[simp] theorem State.withHidden_portData (x : Hidden) : (s.withHidden x).portData = s.portData := rfl
@[simp] theorem State.withHidden_memData (x : Hidden) : (s.withHidden x).memData = s.memData := rfl

@[simp] theorem State.withMem_cfg (x : Memory) : (s.withMem x).cfg = s.cfg := rfl
@[simp] theorem State.withMem_regs (x : Memory) : (s.withMem x).regs = s.regs := rfl
@[simp] theorem State.withMem_status (x : Memory) : (s.withMem x).status = s.status := rfl
@[simp] theorem State.withMem_irqEn (x : Memory) : (s.withMem x).irqEn = s.irqEn := rfl
@[simp] theorem State.withMem_phase (x : Memory) : (s.withMem x).phase = s.phase := rfl
@[simp] theorem State.withMem_hidden (x : Memory) : (s.withMem x).hidden = s.hidden := rfl
@[simp] theorem State.withMem_mem (x : Memory) : (s.withMem x).mem = x := rfl
@[simp] theorem State.withMem_resetHeld (x : Memory) : (s.withMem x).resetHeld = s.resetHeld := rfl
@[simp] theorem State.withMem_interfered (x : Memory) : (s.withMem x).interfered = s.interfered := rfl
@[simp] theorem State.withMem_draws (x : Memory) : (s.withMem x).draws = s.draws := rfl
@[simp] theorem State.withMem_inputs (x : Memory) : (s.withMem x).inputs = s.inputs := rfl
@[simp] theorem State.withMem_portData (x : Memory) : (s.withMem x).portData = s.portData := rfl
@[simp] theorem State.withMem_memData (x : Memory) : (s.withMem x).memData = s.memData := rfl

@[simp] theorem State.withResetHeld_cfg (x : Bool) : (s.withResetHeld x).cfg = s.cfg := rfl
@[simp] theorem State.withResetHeld_regs (x : Bool) : (s.withResetHeld x).regs = s.regs := rfl
@[simp] theorem State.withResetHeld_status (x : Bool) : (s.withResetHeld x).status = s.status := rfl
@[simp] theorem State.withResetHeld_irqEn (x : Bool) : (s.withResetHeld x).irqEn = s.irqEn := rfl
@[simp] theorem State.withResetHeld_phase (x : Bool) : (s.withResetHeld x).phase = s.phase := rfl
@[simp] theorem State.withResetHeld_hidden (x : Bool) : (s.withResetHeld x).hidden = s.hidden := rfl
@[simp] theorem State.withResetHeld_mem (x : Bool) : (s.withResetHeld x).mem = s.mem := rfl
@[simp] theorem State.withResetHeld_resetHeld (x : Bool) : (s.withResetHeld x).resetHeld = x := rfl
@[simp] theorem State.withResetHeld_interfered (x : Bool) : (s.withResetHeld x).interfered = s.interfered := rfl
@[simp] theorem State.withResetHeld_draws (x : Bool) : (s.withResetHeld x).draws = s.draws := rfl
@[simp] theorem State.withResetHeld_inputs (x : Bool) : (s.withResetHeld x).inputs = s.inputs := rfl
@[simp] theorem State.withResetHeld_portData (x : Bool) : (s.withResetHeld x).portData = s.portData := rfl
@[simp] theorem State.withResetHeld_memData (x : Bool) : (s.withResetHeld x).memData = s.memData := rfl

@[simp] theorem State.withInterfered_cfg (x : Bool) : (s.withInterfered x).cfg = s.cfg := rfl
@[simp] theorem State.withInterfered_regs (x : Bool) : (s.withInterfered x).regs = s.regs := rfl
@[simp] theorem State.withInterfered_status (x : Bool) : (s.withInterfered x).status = s.status := rfl
@[simp] theorem State.withInterfered_irqEn (x : Bool) : (s.withInterfered x).irqEn = s.irqEn := rfl
@[simp] theorem State.withInterfered_phase (x : Bool) : (s.withInterfered x).phase = s.phase := rfl
@[simp] theorem State.withInterfered_hidden (x : Bool) : (s.withInterfered x).hidden = s.hidden := rfl
@[simp] theorem State.withInterfered_mem (x : Bool) : (s.withInterfered x).mem = s.mem := rfl
@[simp] theorem State.withInterfered_resetHeld (x : Bool) : (s.withInterfered x).resetHeld = s.resetHeld := rfl
@[simp] theorem State.withInterfered_interfered (x : Bool) : (s.withInterfered x).interfered = x := rfl
@[simp] theorem State.withInterfered_draws (x : Bool) : (s.withInterfered x).draws = s.draws := rfl
@[simp] theorem State.withInterfered_inputs (x : Bool) : (s.withInterfered x).inputs = s.inputs := rfl
@[simp] theorem State.withInterfered_portData (x : Bool) : (s.withInterfered x).portData = s.portData := rfl
@[simp] theorem State.withInterfered_memData (x : Bool) : (s.withInterfered x).memData = s.memData := rfl

@[simp] theorem State.withDraws_cfg (x : Nat) : (s.withDraws x).cfg = s.cfg := rfl
@[simp] theorem State.withDraws_regs (x : Nat) : (s.withDraws x).regs = s.regs := rfl
@[simp] theorem State.withDraws_status (x : Nat) : (s.withDraws x).status = s.status := rfl
@[simp] theorem State.withDraws_irqEn (x : Nat) : (s.withDraws x).irqEn = s.irqEn := rfl
@[simp] theorem State.withDraws_phase (x : Nat) : (s.withDraws x).phase = s.phase := rfl
@[simp] theorem State.withDraws_hidden (x : Nat) : (s.withDraws x).hidden = s.hidden := rfl
@[simp] theorem State.withDraws_mem (x : Nat) : (s.withDraws x).mem = s.mem := rfl
@[simp] theorem State.withDraws_resetHeld (x : Nat) : (s.withDraws x).resetHeld = s.resetHeld := rfl
@[simp] theorem State.withDraws_interfered (x : Nat) : (s.withDraws x).interfered = s.interfered := rfl
@[simp] theorem State.withDraws_draws (x : Nat) : (s.withDraws x).draws = x := rfl
@[simp] theorem State.withDraws_inputs (x : Nat) : (s.withDraws x).inputs = s.inputs := rfl
@[simp] theorem State.withDraws_portData (x : Nat) : (s.withDraws x).portData = s.portData := rfl
@[simp] theorem State.withDraws_memData (x : Nat) : (s.withDraws x).memData = s.memData := rfl

@[simp] theorem State.withInputs_cfg (x : List HostMove) : (s.withInputs x).cfg = s.cfg := rfl
@[simp] theorem State.withInputs_regs (x : List HostMove) : (s.withInputs x).regs = s.regs := rfl
@[simp] theorem State.withInputs_status (x : List HostMove) : (s.withInputs x).status = s.status := rfl
@[simp] theorem State.withInputs_irqEn (x : List HostMove) : (s.withInputs x).irqEn = s.irqEn := rfl
@[simp] theorem State.withInputs_phase (x : List HostMove) : (s.withInputs x).phase = s.phase := rfl
@[simp] theorem State.withInputs_hidden (x : List HostMove) : (s.withInputs x).hidden = s.hidden := rfl
@[simp] theorem State.withInputs_mem (x : List HostMove) : (s.withInputs x).mem = s.mem := rfl
@[simp] theorem State.withInputs_resetHeld (x : List HostMove) : (s.withInputs x).resetHeld = s.resetHeld := rfl
@[simp] theorem State.withInputs_interfered (x : List HostMove) : (s.withInputs x).interfered = s.interfered := rfl
@[simp] theorem State.withInputs_draws (x : List HostMove) : (s.withInputs x).draws = s.draws := rfl
@[simp] theorem State.withInputs_inputs (x : List HostMove) : (s.withInputs x).inputs = x := rfl
@[simp] theorem State.withInputs_portData (x : List HostMove) : (s.withInputs x).portData = s.portData := rfl
@[simp] theorem State.withInputs_memData (x : List HostMove) : (s.withInputs x).memData = s.memData := rfl

@[simp] theorem State.withPortData_cfg (x : Word) : (s.withPortData x).cfg = s.cfg := rfl
@[simp] theorem State.withPortData_regs (x : Word) : (s.withPortData x).regs = s.regs := rfl
@[simp] theorem State.withPortData_status (x : Word) : (s.withPortData x).status = s.status := rfl
@[simp] theorem State.withPortData_irqEn (x : Word) : (s.withPortData x).irqEn = s.irqEn := rfl
@[simp] theorem State.withPortData_phase (x : Word) : (s.withPortData x).phase = s.phase := rfl
@[simp] theorem State.withPortData_hidden (x : Word) : (s.withPortData x).hidden = s.hidden := rfl
@[simp] theorem State.withPortData_mem (x : Word) : (s.withPortData x).mem = s.mem := rfl
@[simp] theorem State.withPortData_resetHeld (x : Word) : (s.withPortData x).resetHeld = s.resetHeld := rfl
@[simp] theorem State.withPortData_interfered (x : Word) : (s.withPortData x).interfered = s.interfered := rfl
@[simp] theorem State.withPortData_draws (x : Word) : (s.withPortData x).draws = s.draws := rfl
@[simp] theorem State.withPortData_inputs (x : Word) : (s.withPortData x).inputs = s.inputs := rfl
@[simp] theorem State.withPortData_portData (x : Word) : (s.withPortData x).portData = x := rfl
@[simp] theorem State.withPortData_memData (x : Word) : (s.withPortData x).memData = s.memData := rfl

@[simp] theorem State.withMemData_cfg (x : Byte) : (s.withMemData x).cfg = s.cfg := rfl
@[simp] theorem State.withMemData_regs (x : Byte) : (s.withMemData x).regs = s.regs := rfl
@[simp] theorem State.withMemData_status (x : Byte) : (s.withMemData x).status = s.status := rfl
@[simp] theorem State.withMemData_irqEn (x : Byte) : (s.withMemData x).irqEn = s.irqEn := rfl
@[simp] theorem State.withMemData_phase (x : Byte) : (s.withMemData x).phase = s.phase := rfl
@[simp] theorem State.withMemData_hidden (x : Byte) : (s.withMemData x).hidden = s.hidden := rfl
@[simp] theorem State.withMemData_mem (x : Byte) : (s.withMemData x).mem = s.mem := rfl
@[simp] theorem State.withMemData_resetHeld (x : Byte) : (s.withMemData x).resetHeld = s.resetHeld := rfl
@[simp] theorem State.withMemData_interfered (x : Byte) : (s.withMemData x).interfered = s.interfered := rfl
@[simp] theorem State.withMemData_draws (x : Byte) : (s.withMemData x).draws = s.draws := rfl
@[simp] theorem State.withMemData_inputs (x : Byte) : (s.withMemData x).inputs = s.inputs := rfl
@[simp] theorem State.withMemData_portData (x : Byte) : (s.withMemData x).portData = s.portData := rfl
@[simp] theorem State.withMemData_memData (x : Byte) : (s.withMemData x).memData = x := rfl

end

end Sys2Proof.Machine
end

