-- ==== Sys2Proof/Laws/Engine.lean ====
section
/-!
SUPPORT. What a piece of a command can do to the state, said once for each piece. `EngineRel p W R` says that a relation
between states is reflexive, transitive and holds across each primitive change the engine can make, with `W` the
addresses it may write; `Keeps R m` says that `R` holds from before `m` to after it, whether it succeeds or faults.
Invariants and frames of every command follow by choosing `R`.
-/

namespace Sys2Proof.Machine

/-- The sequencing of two pieces. -/
theorem Engine.bind_run {α β : Type} (m : Engine α) (f : α → Engine β) (s : State) :
    (m >>= f) s = match m s with
      | .ok a t => f a t
      | .error e t => .error e t := by
  simp only [bind, EStateM.bind]
  cases m s <;> rfl

theorem Engine.bind_ok {α β : Type} {m : Engine α} {f : α → Engine β} {s t : State} {a : α} (h : m s = .ok a t) :
    (m >>= f) s = f a t := by rw [Engine.bind_run, h]

theorem Engine.bind_error {α β : Type} {m : Engine α} {f : α → Engine β} {s t : State} {e : CmdFault}
    (h : m s = .error e t) : (m >>= f) s = .error e t := by rw [Engine.bind_run, h]

/-- If two pieces in sequence succeed, so does each. -/
theorem Engine.bind_eq_ok {α β : Type} {m : Engine α} {f : α → Engine β} {s u : State} {b : β}
    (h : (m >>= f) s = .ok b u) : ∃ a t, m s = .ok a t ∧ f a t = .ok b u := by
  rw [Engine.bind_run] at h
  cases hm : m s with
  | ok a t => exact ⟨a, t, rfl, by simpa [hm] using h⟩
  | error e t => simp [hm] at h

@[simp] theorem Engine.pure_run {α : Type} (a : α) (s : State) : (pure a : Engine α) s = .ok a s := rfl

@[simp] theorem Engine.raise_run {α : Type} (c : FaultCode) (n : Nat) (s : State) :
    (raise c n : Engine α) s = .error ⟨c, n⟩ s := rfl

@[simp] theorem Engine.regVal_run (f : Regs → Word) (s : State) : regVal f s = .ok (f s.regs).toNat s := rfl

@[simp] theorem Engine.getRegs_run (s : State) : getRegs s = .ok s.regs s := rfl

@[simp] theorem Engine.modifyHidden_run (f : Hidden → Hidden) (s : State) :
    modifyHidden f s = .ok () (s.withHidden (f s.hidden)) := rfl

@[simp] theorem Engine.modifyRegs_run (f : Regs → Regs) (s : State) :
    modifyRegs f s = .ok () (s.withRegs (f s.regs)) := rfl

@[simp] theorem Engine.warn_run (w : Warning) (s : State) :
    warn w s = .ok () (s.withStatus (s.status.setWarning w)) := rfl

/-- What a check does: nothing, or it raises its fault. -/
theorem Engine.faultIf_run (bad : Bool) (c : FaultCode) (n : Nat) (s : State) :
    faultIf bad c n s = if bad then .error ⟨c, n⟩ s else .ok () s := by
  unfold faultIf; split <;> rfl

/-- The state a piece ends in, whether it succeeds or faults. -/
def finalState {α : Type} : EStateM.Result CmdFault State α → State
  | .ok _ t => t
  | .error _ t => t

/-- A relation holds from before a piece to after it. -/
def Keeps {α : Type} (R : State → State → Prop) (m : Engine α) : Prop := ∀ s, R s (finalState (m s))

/-- The primitive changes the engine makes to the state. -/
structure EngineRel (p : Params) (W : Nat → Prop) (R : State → State → Prop) : Prop where
  refl : ∀ s, R s s
  trans : ∀ s t u, R s t → R t u → R s u
  hidden : ∀ s h, R s (s.withHidden h)
  warning : ∀ s w, R s (s.withStatus (s.status.setWarning w))
  byte : ∀ s a v, W a → reachable p a = true → R s (s.withMem (s.mem.write a v))
  hufOut : ∀ s v, R s (s.withRegs { s.regs with hufOut := v })

section
variable {p : Params} {W : Nat → Prop} {R : State → State → Prop} {α β : Type}

theorem Keeps.ok {m : Engine α} {s t : State} {a : α} (h : Keeps R m) (hm : m s = .ok a t) : R s t := by
  have := h s; rwa [hm] at this

theorem Keeps.error {m : Engine α} {s t : State} {e : CmdFault} (h : Keeps R m) (hm : m s = .error e t) : R s t := by
  have := h s; rwa [hm] at this

theorem keeps_pure (hR : EngineRel p W R) (a : α) : Keeps R (pure a : Engine α) := fun s => hR.refl s

theorem keeps_raise (hR : EngineRel p W R) (c : FaultCode) (n : Nat) : Keeps R (raise c n : Engine α) :=
  fun s => hR.refl s

theorem keeps_bind (hR : EngineRel p W R) {m : Engine α} {f : α → Engine β} (hm : Keeps R m)
    (hf : ∀ a, Keeps R (f a)) : Keeps R (m >>= f) := by
  intro s
  rw [Engine.bind_run]
  have h := hm s
  cases hs : m s with
  | error e t => rw [hs] at h; exact h
  | ok a t => rw [hs] at h; exact hR.trans s t _ h (hf a t)

theorem keeps_ite (c : Prop) [Decidable c] {m n : Engine α} (hm : c → Keeps R m) (hn : ¬c → Keeps R n) :
    Keeps R (if c then m else n) := by
  split
  · next h => exact hm h
  · next h => exact hn h

theorem keeps_faultIf (hR : EngineRel p W R) (b : Bool) (c : FaultCode) (n : Nat) : Keeps R (faultIf b c n) :=
  keeps_ite _ (fun _ => keeps_raise hR c n) fun _ => keeps_pure hR ()

theorem keeps_getRegs (hR : EngineRel p W R) : Keeps R getRegs := fun s => hR.refl s

theorem keeps_regVal (hR : EngineRel p W R) (f : Regs → Word) : Keeps R (regVal f) := fun s => hR.refl s

theorem keeps_modifyHidden (hR : EngineRel p W R) (f : Hidden → Hidden) : Keeps R (modifyHidden f) :=
  fun s => hR.hidden s _

theorem keeps_warn (hR : EngineRel p W R) (w : Warning) : Keeps R (warn w) := fun s => hR.warning s w

theorem keeps_warnIf (hR : EngineRel p W R) (c : Bool) (w : Warning) : Keeps R (warnIf c w) :=
  keeps_ite _ (fun _ => keeps_warn hR w) fun _ => keeps_pure hR ()

theorem keeps_readByte (hR : EngineRel p W R) (a : Nat) : Keeps R (readByte p a) := by
  intro s; unfold readByte; split <;> exact hR.refl s

theorem keeps_writeByte (hR : EngineRel p W R) (a : Nat) (v : Byte) (ha : W a) : Keeps R (writeByte p a v) := by
  intro s
  unfold writeByte
  split
  · next h => exact hR.byte s a v ha h
  · exact hR.refl s

theorem keeps_memRead (hR : EngineRel p W R) (n : Nat) : ∀ a, Keeps R (memRead p a n) := by
  induction n with
  | zero => exact fun a => keeps_pure hR 0
  | succ n ih =>
    exact fun a => keeps_bind hR (keeps_readByte hR a) fun _ =>
      keeps_bind hR (ih (a + 1)) fun _ => keeps_pure hR _

theorem keeps_writeBytes (hR : EngineRel p W R) (l : List Byte) :
    ∀ a, (∀ i < l.length, W (a + i)) → Keeps R (writeBytes p a l) := by
  induction l with
  | nil => exact fun a _ => keeps_pure hR ()
  | cons b bs ih =>
    intro a ha
    refine keeps_bind hR (keeps_writeByte hR a b ?_) fun _ => ih (a + 1) fun i hi => ?_
    · simpa using ha 0 (by simp)
    · simpa [Nat.add_assoc, Nat.add_comm 1 i] using ha (i + 1) (by simpa using hi)

@[simp] theorem bytesOf_length (n : Nat) : ∀ v, (bytesOf v n).length = n := by
  induction n with
  | zero => exact fun _ => rfl
  | succ n ih => intro v; simp [bytesOf, ih]

theorem keeps_memWrite (hR : EngineRel p W R) (a n v : Nat) (ha : ∀ i < n, W (a + i)) : Keeps R (memWrite p a n v) :=
  keeps_writeBytes hR _ a (by simpa using ha)

theorem keeps_zeroFill (hR : EngineRel p W R) (n : Nat) :
    ∀ a, (∀ i < n, W (a + i)) → Keeps R (zeroFill p a n) := by
  induction n with
  | zero => exact fun a _ => keeps_pure hR ()
  | succ n ih =>
    intro a ha
    refine keeps_bind hR (keeps_writeByte hR a 0 ?_) fun _ => ih (a + 1) fun i hi => ?_
    · simpa using ha 0 (by omega)
    · simpa [Nat.add_assoc, Nat.add_comm 1 i] using ha (i + 1) (by omega)

theorem keeps_readWords (hR : EngineRel p W R) (n : Nat) : ∀ a, Keeps R (readWords p a n) := by
  induction n with
  | zero => exact fun a => keeps_pure hR []
  | succ n ih =>
    exact fun a => keeps_bind hR (keeps_memRead hR 4 a) fun _ =>
      keeps_bind hR (ih (a + 4)) fun _ => keeps_pure hR _

theorem keeps_readBlock (hR : EngineRel p W R) (a : Nat) : Keeps R (readBlock p a) :=
  keeps_bind hR (keeps_readWords hR 64 a) fun _ => keeps_pure hR _

theorem keeps_writeWords (hR : EngineRel p W R) (l : List Word) :
    ∀ a, (∀ i < 4 * l.length, W (a + i)) → Keeps R (writeWords p a l) := by
  induction l with
  | nil => exact fun a _ => keeps_pure hR ()
  | cons w ws ih =>
    intro a ha
    simp only [List.length_cons] at ha
    refine keeps_bind hR (keeps_memWrite hR a 4 _ fun i hi => ha i (by omega)) fun _ => ih (a + 4) fun i hi => ?_
    simpa [Nat.add_assoc] using ha (4 + i) (by omega)

theorem keeps_writeBlock (hR : EngineRel p W R) (a : Nat) (b : Block) (ha : ∀ i < 256, W (a + i)) :
    Keeps R (writeBlock p a b) :=
  keeps_writeWords hR _ a (by simpa using ha)

/-! ### Huffman -/

theorem keeps_compByte (hR : EngineRel p W R) (c : Comp) (i : Nat) : Keeps R (compByte p c i) :=
  keeps_ite _ (fun _ => keeps_raise hR _ _) fun _ => keeps_readByte hR _

theorem keeps_freqRange (hR : EngineRel p W R) (c : Comp) (n : Nat) :
    ∀ s pos, Keeps R (freqRange p c n s pos) := by
  induction n with
  | zero => exact fun s pos => keeps_pure hR pos
  | succ n ih =>
    exact fun s pos => keeps_bind hR (keeps_compByte hR c pos) fun _ =>
      keeps_bind hR (keeps_modifyHidden hR _) fun _ => ih (s + 1) (pos + 1)

theorem keeps_nextHeader (hR : EngineRel p W R) (c : Comp) (pos : Nat) : Keeps R (nextHeader p c pos) :=
  keeps_bind hR (keeps_compByte hR c pos) fun _ =>
    keeps_ite _ (fun _ => keeps_pure hR _) fun _ =>
      keeps_bind hR (keeps_compByte hR c _) fun _ => keeps_pure hR _

theorem keeps_freqLoop (hR : EngineRel p W R) (c : Comp) (n : Nat) :
    ∀ first last pos, Keeps R (freqLoop p c n first last pos) := by
  induction n using Nat.strong_induction_on with
  | _ n ih =>
    intro first last pos
    match n, ih with
    | 0, _ => exact keeps_freqRange hR c _ _ _
    | 1, ih =>
      refine keeps_bind hR (keeps_freqRange hR c _ _ _) fun q => keeps_bind hR (keeps_nextHeader hR c q) ?_
      rintro ⟨q, _ | ⟨a, b⟩⟩
      · exact keeps_pure hR q
      · exact ih 0 (by omega) a b q
    | n + 2, ih =>
      refine keeps_bind hR (keeps_freqRange hR c _ _ _) fun q => keeps_bind hR (keeps_nextHeader hR c q) ?_
      rintro ⟨q, _ | ⟨a, b⟩⟩
      · exact keeps_pure hR q
      · exact ih n (by omega) a b q

theorem keeps_freqParse (hR : EngineRel p W R) (c : Comp) : Keeps R (freqParse p c) :=
  keeps_bind hR (keeps_modifyHidden hR _) fun _ =>
    keeps_bind hR (keeps_compByte hR c 0) fun _ =>
      keeps_bind hR (keeps_compByte hR c 1) fun _ => keeps_freqLoop hR c _ _ _ _

theorem keeps_hufBit (hR : EngineRel p W R) (c : Comp) (start : Nat) : Keeps R (hufBit p c start) := by
  intro s
  unfold hufBit
  dsimp only
  cases h : compByte p c (start + s.hidden.hcur / 8) s with
  | error f t => exact (keeps_compByte hR c _).error h
  | ok b t => exact hR.trans _ _ _ ((keeps_compByte hR c _).ok h) (hR.hidden t _)

theorem keeps_walk (hR : EngineRel p W R) (c : Comp) (start : Nat) (k : Nat) :
    ∀ n, Keeps R (walk p c start k n) := by
  induction k with
  | zero => exact fun n => keeps_pure hR n
  | succ k ih =>
    exact fun n => keeps_ite _ (fun _ => keeps_pure hR n) fun _ =>
      keeps_bind hR (keeps_hufBit hR c start) fun _ =>
        keeps_bind hR (fun s => hR.refl s) fun _ => ih _

theorem keeps_symbolLoop (hR : EngineRel p W R) (c : Comp) (start out : Nat) (root : Fin 513) (k : Nat) :
    ∀ n, (∀ i, n ≤ i → i < n + k → W (out + i)) → Keeps R (symbolLoop p c start out root k n) := by
  induction k with
  | zero => exact fun n _ => keeps_pure hR n
  | succ k ih =>
    intro n hW
    exact keeps_bind hR (keeps_walk hR c start 513 root) fun leaf =>
      keeps_ite _ (fun _ => keeps_pure hR n) fun _ =>
        keeps_bind hR (keeps_writeByte hR _ _ (hW n (by omega) (by omega))) fun _ =>
          ih (n + 1) fun i h1 h2 => hW i (by omega) (by omega)

theorem keeps_symbolDecode (hR : EngineRel p W R) (c : Comp) (start out ds : Nat) (hW : ∀ i < ds, W (out + i)) :
    Keeps R (symbolDecode p c start out ds) := by
  refine keeps_bind hR (fun s => hR.refl s) fun r => ?_
  cases r with
  | none => exact keeps_pure hR 0
  | some r => exact keeps_symbolLoop hR c start out r ds 0 fun i _ h => hW i (by omega)

/-- How many symbols the decode can say it produced. -/
theorem symbolLoop_le (c : Comp) (start out : Nat) (root : Fin 513) (k : Nat) :
    ∀ n s m t, symbolLoop p c start out root k n s = .ok m t → n ≤ m ∧ m ≤ n + k := by
  induction k with
  | zero =>
    intro n s m t h
    simp only [symbolLoop, Engine.pure_run, EStateM.Result.ok.injEq] at h
    omega
  | succ k ih =>
    intro n s m t h
    obtain ⟨leaf, s1, -, h⟩ := Engine.bind_eq_ok h
    split at h
    · simp only [Engine.pure_run, EStateM.Result.ok.injEq] at h; omega
    · obtain ⟨u, s2, -, h⟩ := Engine.bind_eq_ok h
      have := ih _ _ _ _ h
      omega

theorem symbolDecode_le (c : Comp) (start out ds : Nat) (s : State) (n : Nat) (t : State)
    (h : symbolDecode p c start out ds s = .ok n t) : n ≤ ds := by
  obtain ⟨r, s1, -, h⟩ := Engine.bind_eq_ok h
  cases r with
  | none => simp only [Engine.pure_run, EStateM.Result.ok.injEq] at h; omega
  | some r => have := symbolLoop_le c start out r ds _ _ _ _ h; omega

theorem keeps_huffmanPhase (hR : EngineRel p W R) (c : Comp) (out ds : Nat) (hW : ∀ i < ds, W (out + i)) :
    Keeps R (huffmanPhase p c out ds) := by
  refine keeps_bind hR (keeps_freqParse hR c) fun start => keeps_bind hR (keeps_modifyHidden hR _) fun _ => ?_
  intro s
  rw [Engine.bind_run]
  cases h : symbolDecode p c start out ds s with
  | error f t => exact (keeps_symbolDecode hR c start out ds hW).error h
  | ok n t =>
    have hn := symbolDecode_le c start out ds s n t h
    have h1 := (keeps_symbolDecode hR c start out ds hW).ok h
    have h2 : Keeps R (do
        zeroFill p (out + n) (ds - n)
        warnIf (decide (n < ds)) .hufShort
        modifyRegs fun r => { r with hufOut := BitVec.ofNat 32 n } : Engine Unit) :=
      keeps_bind hR (keeps_zeroFill hR _ _ fun i hi => by
          simpa [Nat.add_assoc] using hW (n + i) (by omega)) fun _ =>
        keeps_bind hR (keeps_warnIf hR _ _) fun _ s => hR.hufOut s _
    exact hR.trans _ _ _ h1 (h2 t)

/-! ### Streams and blocks -/

theorem keeps_bitAC (hR : EngineRel p W R) (pl : Plan) : Keeps R (bitAC p pl) := by
  intro s
  unfold bitAC
  dsimp only
  split
  · exact hR.trans _ _ _ (hR.hidden s _) (hR.warning _ _)
  · cases h : readByte p (s.regs.srcAddr.toNat + pl.acOff + s.hidden.acur / 8) s with
    | error f t => exact (keeps_readByte hR _).error h
    | ok b t => exact hR.hidden s _

theorem keeps_bitDC (hR : EngineRel p W R) (pl : Plan) : Keeps R (bitDC p pl) := by
  intro s
  unfold bitDC
  dsimp only
  split
  · exact hR.refl s
  · cases h : readByte p (s.regs.srcAddr.toNat + pl.dcOff + s.hidden.dcur / 8) s with
    | error f t => exact (keeps_readByte hR _).error h
    | ok b t => exact hR.hidden s _

theorem keeps_readBits (hR : EngineRel p W R) (next : Engine Bool) (hnext : Keeps R next) (n : Nat) :
    ∀ t v, Keeps R (readBits p next n t v) := by
  induction n with
  | zero => exact fun t v => keeps_pure hR v
  | succ n ih => exact fun t v => keeps_bind hR hnext fun b => ih _ _

theorem keeps_acCodeByte (hR : EngineRel p W R) (pl : Plan) : Keeps R (acCodeByte p pl) := by
  intro s
  unfold acCodeByte
  dsimp only
  split
  · exact hR.trans _ _ _ (hR.hidden s _) (hR.warning _ _)
  · cases h : readByte p (s.regs.scrAddr.toNat + s.hidden.j) s with
    | error f t => exact (keeps_readByte hR _).error h
    | ok b t => exact hR.hidden s _

theorem keeps_levelCode (hR : EngineRel p W R) (pl : Plan) (k len : Nat) (zz : Block) :
    Keeps R (levelCode p pl k len zz) :=
  keeps_ite _
    (fun _ => keeps_bind hR (keeps_warn hR _) fun _ => keeps_pure hR _)
    fun _ => keeps_bind hR (keeps_readBits hR _ (keeps_bitAC hR pl) _ _ _) fun _ =>
      keeps_ite _ (fun _ => keeps_bind hR (keeps_warn hR _) fun _ => keeps_pure hR _) fun _ => keeps_pure hR _

theorem keeps_acCode (hR : EngineRel p W R) (pl : Plan) (k : Nat) (zz : Block) (b : Byte) :
    Keeps R (acCode p pl k zz b) :=
  keeps_ite _ (fun _ => keeps_pure hR _) fun _ => keeps_ite _ (fun _ => keeps_pure hR _) fun _ =>
    keeps_ite _ (fun _ => keeps_bind hR (keeps_warn hR _) fun _ => keeps_pure hR _) fun _ =>
      keeps_levelCode hR pl _ _ zz

theorem keeps_acLoop (hR : EngineRel p W R) (pl : Plan) (n : Nat) :
    ∀ k zz, Keeps R (acLoop p pl n k zz) := by
  induction n with
  | zero => exact fun k zz => keeps_pure hR zz
  | succ n ih =>
    intro k zz
    refine keeps_ite _ (fun _ => keeps_pure hR zz) fun _ =>
      keeps_bind hR (keeps_acCodeByte hR pl) fun b => keeps_bind hR (keeps_acCode hR pl k zz b) ?_
    rintro ⟨zz, _ | k⟩
    · exact keeps_pure hR zz
    · exact ih k zz

theorem keeps_decodeChannel (hR : EngineRel p W R) (pl : Plan) : Keeps R (decodeChannel p pl) :=
  keeps_bind hR (keeps_readBits hR _ (keeps_bitDC hR pl) _ _ _) fun _ => keeps_acLoop hR pl _ _ _

theorem keeps_decodePlane (hR : EngineRel p W R) (pl : Plan) (ch : Channel) : Keeps R (decodePlane p pl ch) :=
  keeps_bind hR (keeps_decodeChannel hR pl) fun _ => keeps_bind hR (keeps_getRegs hR) fun _ =>
    keeps_bind hR (keeps_modifyHidden hR _) fun _ => keeps_pure hR _

@[simp] theorem pixelBytes_length (fmt : PixelFormat) (c : Rgb) : (pixelBytes fmt c).length = bpp fmt := by
  cases fmt <;> simp [pixelBytes, bpp]

theorem keeps_writePixel (hR : EngineRel p W R) (a : Nat) (fmt : PixelFormat) (c : Rgb)
    (ha : ∀ i < bpp fmt, W (a + i)) : Keeps R (writePixel p a fmt c) :=
  keeps_writeBytes hR _ a (by simpa using ha)

theorem keeps_placePixels (hR : EngineRel p W R) (fmt : PixelFormat) (place : Nat → Nat) (y cb cr : Block) (n : Nat) :
    ∀ px, (∀ q, px ≤ q → q < px + n → ∀ i < bpp fmt, W (place q + i)) →
      Keeps R (placePixels p fmt place y cb cr n px) := by
  induction n with
  | zero => exact fun px _ => keeps_pure hR ()
  | succ n ih =>
    intro px hW
    exact keeps_bind hR (keeps_writePixel hR _ fmt _ (hW px (by omega) (by omega))) fun _ =>
      ih (px + 1) fun q h1 h2 => hW q (by omega) (by omega)

theorem keeps_decodeBlock (hR : EngineRel p W R) (pl : Plan) (fmt : PixelFormat) (place : Nat → Nat)
    (hW : ∀ q < 64, ∀ i < bpp fmt, W (place q + i)) : Keeps R (decodeBlock p pl fmt place) :=
  keeps_bind hR (keeps_decodePlane hR pl _) fun _ => keeps_bind hR (keeps_decodePlane hR pl _) fun _ =>
    keeps_bind hR (keeps_decodePlane hR pl _) fun _ =>
      keeps_placePixels hR fmt place _ _ _ 64 0 fun q _ h => hW q (by omega)

theorem keeps_decodeBlocks (hR : EngineRel p W R) (pl : Plan) (fmt : PixelFormat) (place : Nat → Nat → Nat) (n : Nat) :
    ∀ b, (∀ c, b ≤ c → c < b + n → ∀ q < 64, ∀ i < bpp fmt, W (place c q + i)) →
      Keeps R (decodeBlocks p pl fmt place n b) := by
  induction n with
  | zero => exact fun b _ => keeps_pure hR ()
  | succ n ih =>
    intro b hW
    exact keeps_bind hR (keeps_decodeBlock hR pl fmt _ (hW b (by omega) (by omega))) fun _ =>
      ih (b + 1) fun c h1 h2 => hW c (by omega) (by omega)

theorem keeps_colorPixels (hR : EngineRel p W R) (fmt : PixelFormat) (src dst : Nat) (n : Nat) :
    ∀ px, (∀ q, px ≤ q → q < px + n → ∀ i < bpp fmt, W (dst + q * bpp fmt + i)) →
      Keeps R (colorPixels p fmt src dst n px) := by
  induction n with
  | zero => exact fun px _ => keeps_pure hR ()
  | succ n ih =>
    intro px hW
    exact keeps_bind hR (keeps_memRead hR 4 _) fun _ => keeps_bind hR (keeps_memRead hR 4 _) fun _ =>
      keeps_bind hR (keeps_memRead hR 4 _) fun _ =>
        keeps_bind hR (keeps_writePixel hR _ fmt _ (hW px (by omega) (by omega))) fun _ =>
          ih (px + 1) fun q h1 h2 => hW q (by omega) (by omega)

/-- A payload is decoded from a given state: its registers give the scratch window. -/
theorem keeps_decodePayload (hR : EngineRel p W R) (htab : Keeps R (qtBuildTables p)) (pl : Plan) (fmt : PixelFormat)
    (place : Nat → Nat → Nat) (blocks : Nat) (s : State) (hscr : ∀ i < pl.ds, W (s.regs.scrAddr.toNat + i))
    (hdst : ∀ c < blocks, ∀ q < 64, ∀ i < bpp fmt, W (place c q + i)) :
    R s (finalState (decodePayload p pl fmt place blocks s)) := by
  have h : Keeps R (do
      qtBuildTables p
      huffmanPhase p ⟨s.regs.srcAddr.toNat + pl.compOff, pl.cs⟩ s.regs.scrAddr.toNat pl.ds
      decodeBlocks p pl fmt place blocks 0 : Engine Unit) :=
    keeps_bind hR htab fun _ => keeps_bind hR (keeps_huffmanPhase hR _ _ _ hscr) fun _ =>
      keeps_decodeBlocks hR pl fmt place blocks 0 fun c _ h => hdst c (by omega)
  exact h s

end

/-! ### The pre-checks change nothing -/

/-- A piece that leaves the state as it was. -/
def Pure {α : Type} (m : Engine α) : Prop := ∀ s, finalState (m s) = s

section
variable {α β : Type} {p : Params}

theorem Pure.ok {m : Engine α} {s t : State} {a : α} (h : Pure m) (hm : m s = .ok a t) : t = s := by
  have := h s; rwa [hm] at this

theorem Pure.error {m : Engine α} {s t : State} {e : CmdFault} (h : Pure m) (hm : m s = .error e t) : t = s := by
  have := h s; rwa [hm] at this

theorem pure_bind' {m : Engine α} {f : α → Engine β} (hm : Pure m) (hf : ∀ a, Pure (f a)) : Pure (m >>= f) := by
  intro s
  rw [Engine.bind_run]
  cases h : m s with
  | error e t => exact hm.error h
  | ok a t =>
    obtain rfl := hm.ok h
    exact hf a t

theorem pure_pure (a : α) : Pure (pure a : Engine α) := fun _ => rfl

theorem pure_ite (c : Prop) [Decidable c] {m n : Engine α} (hm : Pure m) (hn : Pure n) : Pure (if c then m else n) := by
  split
  · exact hm
  · exact hn

theorem pure_faultIf (b : Bool) (c : FaultCode) (n : Nat) : Pure (faultIf b c n) :=
  pure_ite _ (fun _ => rfl) fun _ => rfl

theorem pure_readByte (a : Nat) : Pure (readByte p a) := by
  intro s; unfold readByte; split <;> rfl

theorem pure_memRead (n : Nat) : ∀ a, Pure (memRead p a n) := by
  induction n with
  | zero => exact fun a => pure_pure 0
  | succ n ih => exact fun a => pure_bind' (pure_readByte a) fun _ => pure_bind' (ih (a + 1)) fun _ => pure_pure _

theorem pure_getRegs : Pure getRegs := fun _ => rfl

theorem pure_regVal (f : Regs → Word) : Pure (regVal f) := fun _ => rfl

theorem pure_need (off n : Nat) : Pure (need off n) := pure_bind' (pure_regVal _) fun _ => pure_faultIf _ _ _

theorem pure_sizeField (off : Nat) : Pure (sizeField p off) :=
  pure_bind' (pure_need off 4) fun _ => pure_bind' (pure_regVal _) fun _ => pure_memRead 4 _

theorem pure_payloadParse : Pure (payloadParse p) :=
  pure_bind' (pure_sizeField 0) fun _ => pure_bind' (pure_sizeField 4) fun _ => pure_bind' (pure_need _ _) fun _ =>
    pure_bind' (pure_sizeField _) fun _ => pure_bind' (pure_need _ _) fun _ => pure_bind' (pure_sizeField _) fun _ =>
      pure_bind' (pure_need _ _) fun _ => pure_pure _

theorem pure_payloadCheck : Pure (payloadCheck p) :=
  pure_bind' pure_payloadParse fun _ => pure_bind' (pure_regVal _) fun _ => pure_bind' (pure_faultIf _ _ _) fun _ =>
    pure_pure _

theorem pure_readOffsets (n : Nat) : ∀ a, Pure (readOffsets p a n) := by
  induction n with
  | zero => exact fun a => pure_pure []
  | succ n ih => exact fun a => pure_bind' (pure_memRead 4 a) fun _ => pure_bind' (ih (a + 4)) fun _ => pure_pure _

theorem pure_checkOffsets (fmt : PixelFormat) (stride len : Nat) (l : List Nat) :
    ∀ i, Pure (checkOffsets fmt stride len l i) := by
  induction l with
  | nil => exact fun i => pure_pure ()
  | cons o os ih => exact fun i => pure_bind' (pure_faultIf _ _ _) fun _ => ih (i + 1)

theorem pure_hufDecodeCheck : Pure hufDecodeCheck :=
  pure_bind' pure_getRegs fun _ => pure_bind' (pure_faultIf _ _ _) fun _ => pure_bind' (pure_faultIf _ _ _) fun _ =>
    pure_pure _

theorem pure_blockStageCheck : Pure blockStageCheck :=
  pure_bind' pure_getRegs fun _ => pure_bind' (pure_faultIf _ _ _) fun _ => pure_bind' (pure_faultIf _ _ _) fun _ =>
    pure_bind' (pure_faultIf _ _ _) fun _ => pure_pure _

theorem pure_colorBlockCheck (fmt : PixelFormat) : Pure (colorBlockCheck fmt) :=
  pure_bind' pure_getRegs fun _ => pure_bind' (pure_faultIf _ _ _) fun _ => pure_bind' (pure_faultIf _ _ _) fun _ =>
    pure_bind' (pure_faultIf _ _ _) fun _ => pure_pure _

theorem pure_decodeImageCheck (fmt : PixelFormat) : Pure (decodeImageCheck p fmt) :=
  pure_bind' pure_getRegs fun _ => pure_bind' (pure_faultIf _ _ _) fun _ => pure_bind' (pure_faultIf _ _ _) fun _ =>
    pure_bind' (pure_faultIf _ _ _) fun _ => pure_bind' pure_payloadCheck fun _ => pure_pure _

theorem pure_compositeCheck (fmt : PixelFormat) : Pure (compositeCheck p fmt) :=
  pure_bind' pure_getRegs fun _ => pure_ite _ (pure_pure _) <|
    pure_bind' (pure_faultIf _ _ _) fun _ => pure_bind' (pure_faultIf _ _ _) fun _ =>
      pure_bind' (pure_readOffsets _ _) fun _ => pure_bind' (pure_checkOffsets _ _ _ _ _) fun _ =>
        pure_bind' pure_payloadCheck fun _ => pure_pure _

/-- The pre-checks of a command (R253), as its meaning runs them. -/
def commandCheck (p : Params) : Instr → Engine Plan
  | .nop => nopCheck
  | .qtBuild => qtBuildCheck
  | .hufDecode => hufDecodeCheck
  | .dequantBlockL | .dequantBlockC | .idctBlock => blockStageCheck
  | .colorBlockRgb24 => colorBlockCheck .rgb24
  | .colorBlockRgb565 => colorBlockCheck .rgb565
  | .colorBlockArgb32 => colorBlockCheck .argb32
  | .decodeImageRgb24 => decodeImageCheck p .rgb24
  | .decodeImageRgb565 => decodeImageCheck p .rgb565
  | .decodeImageArgb32 => decodeImageCheck p .argb32
  | .compositeRgb24 => compositeCheck p .rgb24
  | .compositeRgb565 => compositeCheck p .rgb565
  | .compositeArgb32 => compositeCheck p .argb32

/-- No pre-check of any command changes the state (R253). -/
theorem pure_commandCheck (i : Instr) : Pure (commandCheck p i) := by
  cases i <;>
    first
    | exact pure_pure _
    | exact pure_hufDecodeCheck
    | exact pure_blockStageCheck
    | exact pure_colorBlockCheck _
    | exact pure_decodeImageCheck _
    | exact pure_compositeCheck _

end

end Sys2Proof.Machine
end

