-- ==== Sys2Proof/Laws/Memory.lean ====
section
/-!
SUPPORT. The laws of memory: a read after a write, the canonical form that every memory operation keeps, and what a
havoc can change.
-/

namespace Sys2Proof.Machine

@[simp] theorem Memory.read_nil (a : Nat) : Memory.read [] a = Memory.unlisted := rfl

theorem Memory.read_cons_self (m : Memory) (a : Nat) (v : Byte) (h : ∀ c ∈ m, a < c.1) :
    (Memory.cons a v m).read a = v := by
  unfold Memory.cons
  split
  · next hv =>
    subst hv
    induction m with
    | nil => rfl
    | cons c m ih =>
      obtain ⟨b, w⟩ := c
      have hb : a < b := h (b, w) (by simp)
      simp only [Memory.read]
      rw [if_neg (by omega)]
      exact ih fun c hc => h c (by simp [hc])
  · simp [Memory.read]

theorem Memory.read_cons_other (m : Memory) (a b : Nat) (v : Byte) (h : b ≠ a) :
    (Memory.cons a v m).read b = m.read b := by
  unfold Memory.cons
  split
  · rfl
  · simp [Memory.read, Ne.symm h]

/-- An address below every listed one reads as unlisted. -/
theorem Memory.read_below (m : Memory) (a : Nat) (h : ∀ c ∈ m, a < c.1) : m.read a = Memory.unlisted := by
  induction m with
  | nil => rfl
  | cons c m ih =>
    obtain ⟨b, w⟩ := c
    have hb : a < b := h (b, w) (by simp)
    simp only [Memory.read]
    rw [if_neg (by omega)]
    exact ih fun c hc => h c (by simp [hc])

/-- The addresses a write lists: the old ones and its own. -/
theorem Memory.mem_write (m : Memory) (a : Nat) (v : Byte) (c : Host.Cell) (h : c ∈ m.write a v) :
    c ∈ m ∨ (c = (a, v) ∧ v ≠ Memory.unlisted) := by
  induction m with
  | nil =>
    simp only [Memory.write, Memory.cons] at h
    split at h
    · simp at h
    · exact .inr ⟨by simpa using h, by assumption⟩
  | cons d m ih =>
    obtain ⟨b, w⟩ := d
    simp only [Memory.write] at h
    split at h
    · simp only [Memory.cons] at h
      split at h
      · exact .inl h
      · rcases List.mem_cons.mp h with h | h
        · exact .inr ⟨h, by assumption⟩
        · exact .inl h
    · split at h
      · simp only [Memory.cons] at h
        split at h
        · exact .inl (List.mem_cons_of_mem _ h)
        · rcases List.mem_cons.mp h with h | h
          · exact .inr ⟨h, by assumption⟩
          · exact .inl (List.mem_cons_of_mem _ h)
      · rcases List.mem_cons.mp h with h | h
        · exact .inl (by simp [h])
        · rcases ih h with h | h
          · exact .inl (List.mem_cons_of_mem _ h)
          · exact .inr h

theorem Memory.wf_tail {c : Host.Cell} {m : Memory} (h : Memory.wf (c :: m)) : m.wf :=
  ⟨(List.pairwise_cons.mp h.1).2, fun d hd => h.2 d (List.mem_cons_of_mem _ hd)⟩

theorem Memory.wf_nil : Memory.wf [] := ⟨List.Pairwise.nil, by simp⟩

theorem Memory.wf_cons {a : Nat} {v : Byte} {m : Memory} (h : m.wf) (ha : ∀ c ∈ m, a < c.1) :
    (Memory.cons a v m).wf := by
  unfold Memory.cons
  split
  · exact h
  · next hv =>
    refine ⟨List.pairwise_cons.mpr ⟨ha, h.1⟩, fun c hc => ?_⟩
    rcases List.mem_cons.mp hc with rfl | hc
    · exact hv
    · exact h.2 c hc

/-- Every write keeps the canonical form. -/
theorem Memory.wf_write {m : Memory} (h : m.wf) (a : Nat) (v : Byte) : (m.write a v).wf := by
  induction m with
  | nil => exact Memory.wf_cons Memory.wf_nil (by simp)
  | cons d m ih =>
    obtain ⟨b, w⟩ := d
    have hp := List.pairwise_cons.mp h.1
    simp only [Memory.write]
    split
    · next hab =>
      refine Memory.wf_cons h fun c hc => ?_
      rcases List.mem_cons.mp hc with rfl | hc
      · exact hab
      · exact lt_trans hab (hp.1 c hc)
    · split
      · next hab => exact Memory.wf_cons (Memory.wf_tail h) fun c hc => hab ▸ hp.1 c hc
      · refine ⟨List.pairwise_cons.mpr ⟨fun c hc => ?_, (ih (Memory.wf_tail h)).1⟩, fun c hc => ?_⟩
        · rcases Memory.mem_write m a v c hc with hc | ⟨rfl, -⟩
          · exact hp.1 c hc
          · show b < a; omega
        · rcases List.mem_cons.mp hc with rfl | hc
          · exact h.2 _ (by simp)
          · exact (ih (Memory.wf_tail h)).2 c hc

/-- A read after a write to the same address gives the value written. -/
theorem Memory.read_write_self {m : Memory} (h : m.wf) (a : Nat) (v : Byte) : (m.write a v).read a = v := by
  induction m with
  | nil => exact Memory.read_cons_self [] a v (by simp)
  | cons d m ih =>
    obtain ⟨b, w⟩ := d
    have hp := List.pairwise_cons.mp h.1
    simp only [Memory.write]
    split
    · next hab =>
      refine Memory.read_cons_self _ a v fun c hc => ?_
      rcases List.mem_cons.mp hc with rfl | hc
      · exact hab
      · exact lt_trans hab (hp.1 c hc)
    · split
      · next hab => exact Memory.read_cons_self _ a v fun c hc => hab ▸ hp.1 c hc
      · next h1 h2 =>
        simp only [Memory.read]
        rw [if_neg (by omega)]
        exact ih (Memory.wf_tail h)

/-- A write leaves every other address alone. -/
theorem Memory.read_write_other {m : Memory} (a b : Nat) (v : Byte) (hab : b ≠ a) :
    (m.write a v).read b = m.read b := by
  induction m with
  | nil => exact Memory.read_cons_other [] a b v hab
  | cons d m ih =>
    obtain ⟨c, w⟩ := d
    simp only [Memory.write]
    split
    · exact Memory.read_cons_other _ a b v hab
    · split
      · next h =>
        subst h
        rw [Memory.read_cons_other _ a b v hab]
        simp [Memory.read, Ne.symm hab]
      · simp only [Memory.read, ih]

/-- Both at once. -/
theorem Memory.read_write {m : Memory} (h : m.wf) (a b : Nat) (v : Byte) :
    (m.write a v).read b = if b = a then v else m.read b := by
  split
  · next hb => rw [hb, Memory.read_write_self h]
  · next hb => exact Memory.read_write_other a b v hb

/-! ### Havoc -/

theorem Memory.wf_havocBytes (p : Params) (draw n : Nat) :
    ∀ (a : Nat) {m : Memory}, m.wf → (havocBytes p draw a n m).wf := by
  induction n with
  | zero => intro a m h; exact h
  | succ n ih =>
    intro a m h
    refine ih (a + 1) ?_
    split
    · exact Memory.wf_write h _ _
    · exact h

theorem Memory.wf_havocWindows (p : Params) (draw : Nat) (ws : List Window) :
    ∀ {m : Memory}, m.wf → (havocWindows p draw ws m).wf := by
  induction ws with
  | nil => intro m h; exact h
  | cons w ws ih => intro m h; exact ih (Memory.wf_havocBytes p draw w.len w.base h)

/-- A havoc leaves every address outside its bytes alone. -/
theorem Memory.read_havocBytes_outside (p : Params) (draw n : Nat) :
    ∀ (a : Nat) (m : Memory) (b : Nat), ¬(a ≤ b ∧ b < a + n) → (havocBytes p draw a n m).read b = m.read b := by
  induction n with
  | zero => intros; rfl
  | succ n ih =>
    intro a m b hb
    unfold havocBytes
    rw [ih (a + 1) _ b (by omega)]
    split
    · exact Memory.read_write_other a b _ (by omega)
    · rfl

theorem Memory.read_havocWindows_outside (p : Params) (draw : Nat) (ws : List Window) :
    ∀ (m : Memory) (b : Nat), (∀ w ∈ ws, w.holds b = false) → (havocWindows p draw ws m).read b = m.read b := by
  induction ws with
  | nil => intros; rfl
  | cons w ws ih =>
    intro m b hb
    unfold havocWindows
    rw [ih _ b fun w' hw => hb w' (List.mem_cons_of_mem _ hw)]
    have hw := hb w (by simp)
    simp only [Window.holds, Bool.and_eq_false_iff, decide_eq_false_iff_not] at hw
    exact Memory.read_havocBytes_outside p draw w.len w.base m b (by omega)

/-- A cell listed after a havoc was listed before or lies at an address the port reaches. -/
theorem Memory.mem_havocBytes (p : Params) (draw n : Nat) :
    ∀ (a : Nat) (m : Memory) (c : Host.Cell), c ∈ havocBytes p draw a n m → c ∈ m ∨ reachable p c.1 = true := by
  induction n with
  | zero => intro a m c h; exact .inl h
  | succ n ih =>
    intro a m c h
    rcases ih (a + 1) _ c h with h | h
    · split at h
      · next hr =>
        rcases Memory.mem_write m a _ c h with h | ⟨rfl, -⟩
        · exact .inl h
        · exact .inr hr
      · exact .inl h
    · exact .inr h

theorem Memory.mem_havocWindows (p : Params) (draw : Nat) (ws : List Window) :
    ∀ (m : Memory) (c : Host.Cell), c ∈ havocWindows p draw ws m → c ∈ m ∨ reachable p c.1 = true := by
  induction ws with
  | nil => intro m c h; exact .inl h
  | cons w ws ih =>
    intro m c h
    rcases ih _ c h with h | h
    · exact Memory.mem_havocBytes p draw w.len w.base m c h
    · exact .inr h

end Sys2Proof.Machine
end

