-- ==== Sys2Proof/Laws/Commands.lean ====
section
/-!
SUPPORT. What a whole command can do: its pre-checks inverted, its body kept by every engine relation that allows
writes in the footprint, and the three ways `perform` ends.
-/

namespace Sys2Proof.Machine

/-! ### Pre-checks inverted -/

theorem faultIf_eq_ok {b : Bool} {c : FaultCode} {n : Nat} {s t : State} {u : Unit}
    (h : faultIf b c n s = .ok u t) : b = false ∧ t = s := by
  rw [Engine.faultIf_run] at h
  cases b with
  | true => simp at h
  | false => simp only [Bool.false_eq_true, if_false, EStateM.Result.ok.injEq] at h; exact ⟨rfl, h.2.symm⟩

/-- A check in front of the rest: it passed, and the rest ran from the same state. -/
theorem faultIf_bind_ok {α : Type} {b : Bool} {c : FaultCode} {n : Nat} {f : Unit → Engine α} {s t : State} {a : α}
    (h : (faultIf b c n >>= f) s = .ok a t) : b = false ∧ f () s = .ok a t := by
  obtain ⟨u, s1, h1, h2⟩ := Engine.bind_eq_ok h
  obtain ⟨hb, rfl⟩ := faultIf_eq_ok h1
  exact ⟨hb, h2⟩

theorem payloadCheck_ok {p : Params} {s t : State} {pl : Plan} (h : payloadCheck p s = .ok pl t) :
    t = s ∧ payloadParse p s = .ok pl s ∧ pl.ds ≤ s.regs.scrLen.toNat := by
  obtain ⟨pl', s1, h1, h2⟩ := Engine.bind_eq_ok h
  obtain rfl := pure_payloadParse.ok h1
  obtain ⟨n, s2, h3, h4⟩ := Engine.bind_eq_ok h2
  simp only [Engine.regVal_run, EStateM.Result.ok.injEq] at h3
  obtain ⟨rfl, rfl⟩ := h3
  obtain ⟨hb, h5⟩ := faultIf_bind_ok h4
  simp only [Engine.pure_run, EStateM.Result.ok.injEq] at h5
  obtain ⟨rfl, rfl⟩ := h5
  exact ⟨rfl, h1, by simpa using hb⟩

/-- What the pre-checks of DEQUANT_BLOCK and IDCT_BLOCK settle (R146, R181). -/
theorem blockStageCheck_ok {s t : State} {plan : Plan} (h : blockStageCheck s = .ok plan t) :
    plan = Plan.of (blockStageFootprint s.regs) := by
  obtain ⟨r, s1, h1, h2⟩ := Engine.bind_eq_ok h
  simp only [Engine.getRegs_run, EStateM.Result.ok.injEq] at h1
  obtain ⟨rfl, rfl⟩ := h1
  obtain ⟨-, h2⟩ := faultIf_bind_ok h2
  obtain ⟨-, h2⟩ := faultIf_bind_ok h2
  obtain ⟨-, h2⟩ := faultIf_bind_ok h2
  simp only [Engine.pure_run, EStateM.Result.ok.injEq] at h2
  exact h2.1.symm

/-- What the pre-checks of COLOR_BLOCK settle (R196). -/
theorem colorBlockCheck_ok {fmt : PixelFormat} {s t : State} {plan : Plan} (h : colorBlockCheck fmt s = .ok plan t) :
    plan = Plan.of (colorBlockFootprint fmt s.regs) := by
  obtain ⟨r, s1, h1, h2⟩ := Engine.bind_eq_ok h
  simp only [Engine.getRegs_run, EStateM.Result.ok.injEq] at h1
  obtain ⟨rfl, rfl⟩ := h1
  obtain ⟨-, h2⟩ := faultIf_bind_ok h2
  obtain ⟨-, h2⟩ := faultIf_bind_ok h2
  obtain ⟨-, h2⟩ := faultIf_bind_ok h2
  simp only [Engine.pure_run, EStateM.Result.ok.injEq] at h2
  exact h2.1.symm

/-- What the pre-checks of HUF_DECODE settle (R124). -/
theorem hufDecodeCheck_ok {s t : State} {plan : Plan} (h : hufDecodeCheck s = .ok plan t) :
    plan = Plan.of (hufDecodeFootprint s.regs) := by
  obtain ⟨r, s1, h1, h2⟩ := Engine.bind_eq_ok h
  simp only [Engine.getRegs_run, EStateM.Result.ok.injEq] at h1
  obtain ⟨rfl, rfl⟩ := h1
  obtain ⟨-, h2⟩ := faultIf_bind_ok h2
  obtain ⟨-, h2⟩ := faultIf_bind_ok h2
  simp only [Engine.pure_run, EStateM.Result.ok.injEq] at h2
  exact h2.1.symm

/-- What the pre-checks of DECODE_IMAGE settle (R208). -/
theorem decodeImageCheck_ok {p : Params} {fmt : PixelFormat} {s t : State} {plan : Plan}
    (h : decodeImageCheck p fmt s = .ok plan t) :
    t = s ∧ badGeometry s.regs.width.toNat s.regs.height.toNat = false ∧
    s.regs.width.toNat * s.regs.height.toNat * bpp fmt ≤ s.regs.dstLen.toNat ∧
    plan.footprint = [⟨s.regs.scrAddr.toNat, plan.ds⟩,
      ⟨s.regs.dstAddr.toNat, s.regs.width.toNat * s.regs.height.toNat * bpp fmt⟩] ∧
    ∃ pl, payloadCheck p s = .ok pl s ∧ plan = { pl with footprint := plan.footprint } := by
  obtain ⟨r, s1, h1, h2⟩ := Engine.bind_eq_ok h
  simp only [Engine.getRegs_run, EStateM.Result.ok.injEq] at h1
  obtain ⟨rfl, rfl⟩ := h1
  obtain ⟨hg, h2⟩ := faultIf_bind_ok h2
  obtain ⟨-, h2⟩ := faultIf_bind_ok h2
  obtain ⟨hl, h2⟩ := faultIf_bind_ok h2
  obtain ⟨pl, s2, h3, h4⟩ := Engine.bind_eq_ok h2
  obtain ⟨rfl, -⟩ := payloadCheck_ok h3
  simp only [Engine.pure_run, EStateM.Result.ok.injEq] at h4
  obtain ⟨rfl, rfl⟩ := h4
  exact ⟨rfl, hg, by simpa using hl, rfl, pl, h3, rfl⟩

/-- What the pre-checks of COMPOSITE settle for a frame that is not empty (R224). -/
theorem compositeCheck_ok {p : Params} {fmt : PixelFormat} {s t : State} {plan : Plan}
    (h : compositeCheck p fmt s = .ok plan t) (hn : s.regs.blockCount.toNat ≠ 0) :
    t = s ∧ 8 * s.regs.blockCount.toNat ≤ Config.maxDim ∧
    readOffsets p s.regs.offsAddr.toNat s.regs.blockCount.toNat s = .ok plan.offsets s ∧
    checkOffsets fmt s.regs.dstStride.toNat s.regs.dstLen.toNat plan.offsets 0 s = .ok () s ∧
    plan.footprint = ⟨s.regs.scrAddr.toNat, plan.ds⟩ ::
      scatterWindows fmt s.regs.dstAddr.toNat s.regs.dstStride.toNat plan.offsets ∧
    ∃ pl, payloadCheck p s = .ok pl s ∧ plan = { pl with footprint := plan.footprint, offsets := plan.offsets } := by
  obtain ⟨r, s1, h1, h2⟩ := Engine.bind_eq_ok h
  simp only [Engine.getRegs_run, EStateM.Result.ok.injEq] at h1
  obtain ⟨rfl, rfl⟩ := h1
  simp only [hn, if_false] at h2
  obtain ⟨hg, h2⟩ := faultIf_bind_ok h2
  obtain ⟨-, h2⟩ := faultIf_bind_ok h2
  obtain ⟨offsets, s2, h3, h4⟩ := Engine.bind_eq_ok h2
  obtain rfl := (pure_readOffsets _ _).ok h3
  obtain ⟨u, s3, h5, h6⟩ := Engine.bind_eq_ok h4
  obtain rfl := (pure_checkOffsets fmt _ _ offsets 0).ok h5
  obtain ⟨pl, s4, h7, h8⟩ := Engine.bind_eq_ok h6
  obtain ⟨rfl, -⟩ := payloadCheck_ok h7
  simp only [Engine.pure_run, EStateM.Result.ok.injEq] at h8
  obtain ⟨rfl, rfl⟩ := h8
  exact ⟨rfl, by simpa using hg, h3, h5, rfl, pl, h7, rfl⟩

theorem readOffsets_length {p : Params} (n : Nat) :
    ∀ a (s t : State) l, readOffsets p a n s = .ok l t → l.length = n := by
  induction n with
  | zero =>
    intro a s t l h
    simp only [readOffsets, Engine.pure_run, EStateM.Result.ok.injEq] at h
    rw [← h.1]; rfl
  | succ n ih =>
    intro a s t l h
    obtain ⟨v, s1, -, h⟩ := Engine.bind_eq_ok h
    obtain ⟨l', s2, h1, h⟩ := Engine.bind_eq_ok h
    simp only [Engine.pure_run, EStateM.Result.ok.injEq] at h
    rw [← h.1, List.length_cons, ih _ _ _ _ h1]

/-! ### Where pixels go -/

theorem bpp_pos (fmt : PixelFormat) : 0 < bpp fmt := by cases fmt <;> decide

theorem geometry_ok {w h : Nat} (hg : badGeometry w h = false) :
    0 < w ∧ 0 < h ∧ w % 8 = 0 ∧ h % 8 = 0 ∧ w ≤ Config.maxDim ∧ h ≤ Config.maxDim := by
  simp only [badGeometry, Bool.or_eq_false_iff, beq_eq_false_iff_ne, bne_eq_false_iff_eq,
    decide_eq_false_iff_not] at hg
  omega

/-- A raster pixel lies inside the image (R207, R209). -/
theorem raster_in_image {w h b px : Nat} (hg : badGeometry w h = false) (hb : b < w / 8 * (h / 8)) (hpx : px < 64) :
    (b / (w / 8) * 8 + px / 8) * w + (b % (w / 8) * 8 + px % 8) < w * h := by
  obtain ⟨hw, hh, hw8, hh8, -, -⟩ := geometry_ok hg
  have hbl : 0 < w / 8 := by omega
  have hx : b % (w / 8) < w / 8 := Nat.mod_lt _ hbl
  have hy : b / (w / 8) < h / 8 := Nat.div_lt_of_lt_mul hb
  have hxw : b % (w / 8) * 8 + px % 8 < w := by omega
  have hyh : b / (w / 8) * 8 + px / 8 + 1 ≤ h := by omega
  calc (b / (w / 8) * 8 + px / 8) * w + (b % (w / 8) * 8 + px % 8)
      < (b / (w / 8) * 8 + px / 8) * w + w := by omega
    _ = (b / (w / 8) * 8 + px / 8 + 1) * w := by rw [Nat.add_mul _ 1, Nat.one_mul]
    _ ≤ h * w := Nat.mul_le_mul_right w hyh
    _ = w * h := Nat.mul_comm h w

/-- A pixel of index below `n` ends below byte `n * k` of the window. -/
theorem pixel_bytes_lt {a n k i : Nat} (ha : a < n) (hi : i < k) : a * k + i < n * k := by
  calc a * k + i < a * k + k := by omega
    _ = (a + 1) * k := by rw [Nat.add_mul, Nat.one_mul]
    _ ≤ n * k := Nat.mul_le_mul_right k ha

theorem Window.holds_iff (w : Window) (a : Nat) : w.holds a = true ↔ w.base ≤ a ∧ a < w.base + w.len := by
  simp [Window.holds]

theorem scatter_in_footprint (fmt : PixelFormat) (dst stride : Nat) (offsets : List Nat) (c q i : Nat)
    (hc : c < offsets.length) (hq : q < 64) (hi : i < bpp fmt) :
    inWindows (scatterWindows fmt dst stride offsets) (scatterAddr fmt dst stride (offsets.getD c 0) q + i) := by
  refine ⟨⟨scatterAddr fmt dst stride (offsets.getD c 0) (8 * (q / 8)), 8 * bpp fmt⟩, ?_, ?_⟩
  · simp only [scatterWindows, List.mem_flatMap]
    refine ⟨offsets.getD c 0, ?_, List.mem_map.mpr ⟨q / 8, List.mem_range.mpr (by omega), rfl⟩⟩
    simp [List.getD_eq_getElem?_getD, List.getElem?_eq_getElem hc]
  · rw [Window.holds_iff]
    have h1 : 8 * (q / 8) / 8 = q / 8 := by omega
    have h2 : 8 * (q / 8) % 8 = 0 := by omega
    simp only [scatterAddr, h1, h2, Nat.add_zero]
    have h3 : (offsets.getD c 0 + q / 8 * stride + q % 8) * bpp fmt =
        (offsets.getD c 0 + q / 8 * stride) * bpp fmt + q % 8 * bpp fmt := by ring
    have h4 := pixel_bytes_lt (a := q % 8) (n := 8) (k := bpp fmt) (i := i) (by omega) hi
    omega

/-! ### Bodies -/

/-- The body of a command, as its meaning runs it. -/
def commandBody (p : Params) : Instr → Plan → Engine Unit
  | .nop => fun _ => pure ()
  | .qtBuild => fun _ => qtBuildTables p
  | .hufDecode => hufDecodeBody p
  | .dequantBlockL => dequantBlockBody p .luma
  | .dequantBlockC => dequantBlockBody p .chroma
  | .idctBlock => idctBlockBody p
  | .colorBlockRgb24 => colorBlockBody p .rgb24
  | .colorBlockRgb565 => colorBlockBody p .rgb565
  | .colorBlockArgb32 => colorBlockBody p .argb32
  | .decodeImageRgb24 => decodeImageBody p .rgb24
  | .decodeImageRgb565 => decodeImageBody p .rgb565
  | .decodeImageArgb32 => decodeImageBody p .argb32
  | .compositeRgb24 => compositeBody p .rgb24
  | .compositeRgb565 => compositeBody p .rgb565
  | .compositeArgb32 => compositeBody p .argb32

/-- Every meaning is its pre-checks and its body inside the frame all commands share. -/
theorem exec_eq_perform (i : Instr) (s : State) :
    exec i s =
      .next (perform s.cfg (writtenWindows s.regs i) (commandCheck s.cfg i) (commandBody s.cfg i) s) := by
  cases i <;> rfl

section
variable {p : Params} {R : State → State → Prop} {s t : State} {plan : Plan}

theorem decodeImageBody_run (fmt : PixelFormat) :
    decodeImageBody p fmt plan s =
      decodePayload p plan fmt (rasterAddr fmt s.regs.dstAddr.toNat s.regs.width.toNat)
        (s.regs.width.toNat / 8 * (s.regs.height.toNat / 8)) s := by
  unfold decodeImageBody
  rw [Engine.bind_ok (Engine.getRegs_run s)]

theorem compositeBody_empty (fmt : PixelFormat) (hn : s.regs.blockCount.toNat = 0) :
    compositeBody p fmt plan s = advanceCursor s := by
  unfold compositeBody
  rw [Engine.bind_ok (Engine.getRegs_run s)]
  simp only [hn, if_true]

theorem compositeBody_run (fmt : PixelFormat) (hn : s.regs.blockCount.toNat ≠ 0) :
    compositeBody p fmt plan s =
      (decodePayload p plan fmt
        (fun b px => scatterAddr fmt s.regs.dstAddr.toNat s.regs.dstStride.toNat (plan.offsets.getD b 0) px)
        s.regs.blockCount.toNat >>= fun _ => advanceCursor) s := by
  unfold compositeBody
  rw [Engine.bind_ok (Engine.getRegs_run s)]
  simp only [hn, if_false]

theorem keeps_decodeImageBody (fmt : PixelFormat) (hR : EngineRel p (inWindows plan.footprint) R)
    (htab : Keeps R (qtBuildTables p)) (h : decodeImageCheck p fmt s = .ok plan t) :
    R s (finalState (decodeImageBody p fmt plan s)) := by
  obtain ⟨-, hg, -, hf, -⟩ := decodeImageCheck_ok h
  rw [hf] at hR
  rw [decodeImageBody_run]
  refine keeps_decodePayload hR htab plan fmt _ _ s (fun i hi => ?_) fun c hc q hq i hi => ?_
  · refine ⟨⟨s.regs.scrAddr.toNat, plan.ds⟩, by simp, ?_⟩
    rw [Window.holds_iff]
    exact ⟨Nat.le_add_right _ _, Nat.add_lt_add_left hi _⟩
  · refine ⟨⟨s.regs.dstAddr.toNat, s.regs.width.toNat * s.regs.height.toNat * bpp fmt⟩, by simp, ?_⟩
    rw [Window.holds_iff]
    have := pixel_bytes_lt (raster_in_image hg hc hq) hi
    simp only [rasterAddr]
    omega

theorem keeps_compositeBody (fmt : PixelFormat) (hR : EngineRel p (inWindows plan.footprint) R)
    (htab : Keeps R (qtBuildTables p)) (hcur : Keeps R advanceCursor) (h : compositeCheck p fmt s = .ok plan t) :
    R s (finalState (compositeBody p fmt plan s)) := by
  by_cases hn : s.regs.blockCount.toNat = 0
  · rw [compositeBody_empty fmt hn]; exact hcur s
  · obtain ⟨-, -, ho, -, hf, -⟩ := compositeCheck_ok h hn
    have hlen := readOffsets_length _ _ _ _ _ ho
    rw [hf] at hR
    rw [compositeBody_run fmt hn, Engine.bind_run]
    have hp := keeps_decodePayload hR htab plan fmt
      (fun b px => scatterAddr fmt s.regs.dstAddr.toNat s.regs.dstStride.toNat (plan.offsets.getD b 0) px)
      s.regs.blockCount.toNat s
      (fun i hi => ⟨⟨s.regs.scrAddr.toNat, plan.ds⟩, by simp, by
        rw [Window.holds_iff]; exact ⟨Nat.le_add_right _ _, Nat.add_lt_add_left hi _⟩⟩)
      (fun c hc q hq i hi => by
        obtain ⟨w, hw, ha⟩ := scatter_in_footprint fmt s.regs.dstAddr.toNat s.regs.dstStride.toNat plan.offsets c q i
          (by omega) hq hi
        exact ⟨w, List.mem_cons_of_mem _ hw, ha⟩)
    revert hp
    cases decodePayload p plan fmt _ s.regs.blockCount.toNat s with
    | error e u => exact fun hp => hp
    | ok _ u => exact fun hp => hR.trans _ _ _ hp (hcur u)

theorem keeps_blockStage (f : Plan → Engine Unit) (h : blockStageCheck s = .ok plan t)
    (hf : (∀ i < 256, inWindows plan.footprint (s.regs.dstAddr.toNat + i)) → R s (finalState (f plan s))) :
    R s (finalState (f plan s)) := by
  refine hf fun i hi => ⟨⟨s.regs.dstAddr.toNat, 256⟩, by simp [blockStageCheck_ok h, Plan.of, blockStageFootprint], ?_⟩
  rw [Window.holds_iff]; simp only; omega

theorem keeps_colorBlock (fmt : PixelFormat) (hR : EngineRel p (inWindows plan.footprint) R)
    (h : colorBlockCheck fmt s = .ok plan t) : R s (finalState (colorBlockBody p fmt plan s)) := by
  refine keeps_colorPixels hR fmt s.regs.srcAddr.toNat s.regs.dstAddr.toNat 64 0 (fun q _ hq i hi => ?_) s
  refine ⟨⟨s.regs.dstAddr.toNat, 64 * bpp fmt⟩, by simp [colorBlockCheck_ok h, Plan.of, colorBlockFootprint], ?_⟩
  rw [Window.holds_iff]
  have := pixel_bytes_lt (a := q) (n := 64) (k := bpp fmt) (by omega) hi
  simp only
  omega

theorem keeps_hufDecodeBody (hR : EngineRel p (inWindows plan.footprint) R) (h : hufDecodeCheck s = .ok plan t) :
    R s (finalState (hufDecodeBody p plan s)) := by
  refine keeps_huffmanPhase hR ⟨s.regs.srcAddr.toNat, s.regs.srcLen.toNat⟩ _ _ (fun i hi => ?_) s
  refine ⟨⟨s.regs.dstAddr.toNat, s.regs.hufLen.toNat⟩, by simp [hufDecodeCheck_ok h, Plan.of, hufDecodeFootprint], ?_⟩
  rw [Window.holds_iff]; simp only; omega

/-- Once its pre-checks pass, whatever a command's body does keeps every engine relation that allows writes in its
footprint, the table build and the cursor's advance. -/
theorem keeps_commandBody (i : Instr) (hR : EngineRel p (inWindows plan.footprint) R)
    (htab : Keeps R (qtBuildTables p)) (hcur : Keeps R advanceCursor) (h : commandCheck p i s = .ok plan t) :
    R s (finalState (commandBody p i plan s)) := by
  have hdeq : ∀ tb, blockStageCheck s = .ok plan t → R s (finalState (dequantBlockBody p tb plan s)) :=
    fun tb h => keeps_blockStage (dequantBlockBody p tb) h fun hw =>
      (keeps_bind hR (keeps_readBlock hR s.regs.srcAddr.toNat) fun zz =>
        keeps_writeBlock hR s.regs.dstAddr.toNat (dequant p zz (s.regs.table tb)) hw) s
  cases i with
  | nop => exact hR.refl s
  | qtBuild => exact htab s
  | hufDecode => exact keeps_hufDecodeBody hR h
  | dequantBlockL => exact hdeq _ h
  | dequantBlockC => exact hdeq _ h
  | idctBlock =>
    exact keeps_blockStage (idctBlockBody p) h fun hw =>
      (keeps_bind hR (keeps_readBlock hR s.regs.srcAddr.toNat) fun c =>
        keeps_bind hR (keeps_modifyHidden hR _) fun _ =>
          keeps_writeBlock hR s.regs.dstAddr.toNat (idct2D p c) hw) s
  | colorBlockRgb24 => exact keeps_colorBlock _ hR h
  | colorBlockRgb565 => exact keeps_colorBlock _ hR h
  | colorBlockArgb32 => exact keeps_colorBlock _ hR h
  | decodeImageRgb24 => exact keeps_decodeImageBody _ hR htab h
  | decodeImageRgb565 => exact keeps_decodeImageBody _ hR htab h
  | decodeImageArgb32 => exact keeps_decodeImageBody _ hR htab h
  | compositeRgb24 => exact keeps_compositeBody _ hR htab hcur h
  | compositeRgb565 => exact keeps_compositeBody _ hR htab hcur h
  | compositeArgb32 => exact keeps_compositeBody _ hR htab hcur h

end

/-! ### The write footprint -/

/-- The declared length of a parsed payload is the size field at offset 4 (R70). -/
theorem payloadParse_ds {p : Params} {s t : State} {pl : Plan} (h : payloadParse p s = .ok pl t) :
    sizeField p 4 s = .ok pl.ds s := by
  unfold payloadParse at h
  obtain ⟨cs, s1, h1, k1⟩ := Engine.bind_eq_ok h
  obtain rfl := (pure_sizeField 0).ok h1
  obtain ⟨ds, s2, h2, k2⟩ := Engine.bind_eq_ok k1
  obtain rfl := (pure_sizeField 4).ok h2
  obtain ⟨-, s3, -, k3⟩ := Engine.bind_eq_ok k2
  obtain ⟨ac, s4, -, k4⟩ := Engine.bind_eq_ok k3
  obtain ⟨-, s5, -, k5⟩ := Engine.bind_eq_ok k4
  obtain ⟨dc, s6, -, k6⟩ := Engine.bind_eq_ok k5
  obtain ⟨-, s7, -, k7⟩ := Engine.bind_eq_ok k6
  simp only [Engine.pure_run, EStateM.Result.ok.injEq] at k7
  rw [h2, ← k7.1]

theorem scratchFootprint_of_check {p : Params} {s t : State} {pl : Plan} (h : payloadCheck p s = .ok pl t) :
    scratchFootprint p s = ⟨s.regs.scrAddr.toNat, pl.ds⟩ := by
  simp only [scratchFootprint, payloadParse_ds (payloadCheck_ok h).2.1]

theorem compositeFootprint_of_check {p : Params} {fmt : PixelFormat} {s t : State} {plan : Plan}
    (h : compositeCheck p fmt s = .ok plan t) : compositeFootprint p fmt s = plan.footprint := by
  by_cases hn : s.regs.blockCount.toNat = 0
  · obtain ⟨r, s1, h1, h2⟩ := Engine.bind_eq_ok h
    simp only [Engine.getRegs_run, EStateM.Result.ok.injEq] at h1
    obtain ⟨rfl, rfl⟩ := h1
    simp only [hn, if_true, Engine.pure_run, EStateM.Result.ok.injEq] at h2
    simp only [compositeFootprint, hn, if_true, ← h2.1, Plan.of]
  · obtain ⟨-, -, ho, -, hf, pl, hp, he⟩ := compositeCheck_ok h hn
    have hds : plan.ds = pl.ds := by rw [he]
    rw [compositeFootprint, if_neg hn, hf, scratchFootprint_of_check hp, scatterFootprint, ho, hds]

theorem decodeImageFootprint_of_check {p : Params} {fmt : PixelFormat} {s t : State} {plan : Plan}
    (h : decodeImageCheck p fmt s = .ok plan t) :
    [scratchFootprint p s, imageFootprint fmt s.regs] = plan.footprint := by
  obtain ⟨-, -, -, hf, pl, hp, he⟩ := decodeImageCheck_ok h
  have hds : plan.ds = pl.ds := by rw [he]
  rw [hf, scratchFootprint_of_check hp, hds, imageFootprint]

/-- Where the pre-checks pass, the footprint of R253 is the one they settle for the body. -/
theorem footprintOf_of_check {p : Params} {i : Instr} {s t : State} {plan : Plan}
    (h : commandCheck p i s = .ok plan t) : footprintOf p i s = plan.footprint := by
  cases i with
  | nop | qtBuild =>
    simp only [commandCheck, nopCheck, qtBuildCheck, Engine.pure_run, EStateM.Result.ok.injEq] at h
    simp only [footprintOf, ← h.1, Plan.of]
  | hufDecode => rw [hufDecodeCheck_ok h]; rfl
  | dequantBlockL | dequantBlockC | idctBlock => rw [blockStageCheck_ok h]; rfl
  | colorBlockRgb24 | colorBlockRgb565 | colorBlockArgb32 => rw [colorBlockCheck_ok h]; rfl
  | decodeImageRgb24 | decodeImageRgb565 | decodeImageArgb32 => exact decodeImageFootprint_of_check h
  | compositeRgb24 | compositeRgb565 | compositeArgb32 => exact compositeFootprint_of_check h

/-! ### How a command ends -/

/-- The three ways a command ends (R32, R252), before what R81 adds. -/
theorem perform_cases (p : Params) (W : List Window) (check : Engine Plan) (body : Plan → Engine Unit) (s : State) :
    (∃ f s1, check s = .error f s1 ∧ perform p W check body s = settle p W (takeFault f s1)) ∨
    (∃ plan s1 f s2, check s = .ok plan s1 ∧ body plan s1 = .error f s2 ∧
      perform p W check body s = settle p W (takeFault f (havoc p plan.footprint s2))) ∨
    (∃ plan s1 s2, check s = .ok plan s1 ∧ body plan s1 = .ok () s2 ∧
      perform p W check body s = settle p W (endCommand s2)) := by
  unfold perform
  cases hc : check s with
  | error f s1 => exact .inl ⟨f, s1, rfl, rfl⟩
  | ok plan s1 =>
    cases hb : body plan s1 with
    | error f s2 => exact .inr (.inl ⟨plan, s1, f, s2, rfl, hb, by simp [hb]⟩)
    | ok u s2 => exact .inr (.inr ⟨plan, s1, s2, rfl, hb, by simp [hb]⟩)

theorem settle_clean {p : Params} {W : List Window} {s : State} (h : s.interfered = false) : settle p W s = s := by
  simp [settle, h]

end Sys2Proof.Machine
end

