-- ==== Sys2Proof/Laws/PerInstr.lean ====
section
/-!
SUPPORT. What holds of every command as syntax, one lemma for each constructor of `Instr`: the fields it is encoded with
are legal, and its word decodes to it (spec/30_encoding.md rules R92-R94).
-/

namespace Sys2Proof.Laws.EncodedLegal

/-- The command's fields are legal, and its word decodes to it. -/
def Statement (i : Instr) : Prop := i.WellFormed ∧ decode (encode i) = .command i

theorem nop : Statement .nop := ⟨by decide, by decide⟩
theorem qtBuild : Statement .qtBuild := ⟨by decide, by decide⟩
theorem hufDecode : Statement .hufDecode := ⟨by decide, by decide⟩
theorem dequantBlockL : Statement .dequantBlockL := ⟨by decide, by decide⟩
theorem dequantBlockC : Statement .dequantBlockC := ⟨by decide, by decide⟩
theorem idctBlock : Statement .idctBlock := ⟨by decide, by decide⟩
theorem colorBlockRgb24 : Statement .colorBlockRgb24 := ⟨by decide, by decide⟩
theorem colorBlockRgb565 : Statement .colorBlockRgb565 := ⟨by decide, by decide⟩
theorem colorBlockArgb32 : Statement .colorBlockArgb32 := ⟨by decide, by decide⟩
theorem decodeImageRgb24 : Statement .decodeImageRgb24 := ⟨by decide, by decide⟩
theorem decodeImageRgb565 : Statement .decodeImageRgb565 := ⟨by decide, by decide⟩
theorem decodeImageArgb32 : Statement .decodeImageArgb32 := ⟨by decide, by decide⟩
theorem compositeRgb24 : Statement .compositeRgb24 := ⟨by decide, by decide⟩
theorem compositeRgb565 : Statement .compositeRgb565 := ⟨by decide, by decide⟩
theorem compositeArgb32 : Statement .compositeArgb32 := ⟨by decide, by decide⟩

end Sys2Proof.Laws.EncodedLegal
end

