-- ==== Sys2Proof/Tests/Slice0.lean ====
section
/-!
SUPPORT. Tests of the model: the defects of a command word (the smoke test of WellFormed.lean), the words of
spec/30_encoding.md R94, and one step of each command on the programs and vectors of spec/95_test_vectors.md under its
test instance TI. The witnesses of the statements' hypotheses stand in Tests/Witnesses.lean.
-/

namespace Sys2Proof.Tests

set_option Elab.async false

open Sys2Proof.Machine

/-! ### Command words -/

theorem smoke_reservedBits : (fieldsOf 0x00000800).defects = [.reservedBits] := by decide
theorem smoke_reservedOpcode : (fieldsOf 0x00000008).defects = [.reservedOpcode] := by decide
theorem smoke_reservedFormat : (fieldsOf 0x00000306).defects = [.reservedFormat] := by decide
theorem smoke_unusedFormat : (fieldsOf 0x00000104).defects = [.unusedFormat] := by decide
theorem smoke_unusedChannel : (fieldsOf 0x00000407).defects = [.unusedChannel] := by decide
theorem smoke_refused :
    ¬CommandFields.WellFormed ⟨0x06, 3, 0, 0⟩ ∧ decode 0x00000306 = .illegal .reservedFormat ∧
      ¬CommandFields.WellFormed ⟨0x00, 0, 0, 1⟩ ∧ decode 0x00000800 = .illegal .reservedBits ∧
      ¬CommandFields.WellFormed ⟨0x08, 0, 0, 0⟩ ∧ decode 0x00000008 = .illegal .reservedOpcode ∧
      ¬CommandFields.WellFormed ⟨0x04, 1, 0, 0⟩ ∧ decode 0x00000104 = .illegal .unusedFormat ∧
      ¬CommandFields.WellFormed ⟨0x07, 0, 1, 0⟩ ∧ decode 0x00000407 = .illegal .unusedChannel := by decide

/-- R94: every word as the spec writes it, OPC in bits 7:0, FMT in 9:8, CHAN in 10. -/
theorem test_decode_words :
    [0b00000000000, 0b00000000001, 0b00000000010, 0b00000000011, 0b10000000011, 0b00000000100,
      0b00000000101, 0b00100000101, 0b01000000101, 0b00000000110, 0b00100000110, 0b01000000110,
      0b00000000111, 0b00100000111, 0b01000000111].map (decodeTableWord 32) =
    [some .nop, some .qtBuild, some .hufDecode, some .dequantBlockL, some .dequantBlockC, some .idctBlock,
      some .colorBlockRgb24, some .colorBlockRgb565, some .colorBlockArgb32,
      some .decodeImageRgb24, some .decodeImageRgb565, some .decodeImageArgb32,
      some .compositeRgb24, some .compositeRgb565, some .compositeArgb32] := by decide

/-! ### Small states -/

/-- Bytes placed in an empty memory. -/
def stored (l : List (Nat × List Byte)) : Memory :=
  l.foldl (fun m r => r.2.zipIdx.foldl (fun m b => m.write (r.1 + b.2) b.1) m) []

/-- The test instance right after reset, with operands and memory set and `i` in CMD. -/
def idle (i : Instr) (r : Regs → Regs) (m : List (Nat × List Byte)) : State :=
  { State.reset with cfg := testInstance, regs := { r Regs.reset with cmd := encode i }, mem := stored m }

/-- The same with a START accepted. -/
def started (i : Instr) (r : Regs → Regs) (m : List (Nat × List Byte)) : State := acceptStart (idle i r m)

/-- The state a step leads to. -/
def next (s : State) : State :=
  match step s with
  | .next t => t
  | .fault _ => s
  | .refused _ => s

/-- STATUS, HUF_OUT and FAULT_INFO, and the little-endian numbers of `n` bytes at some addresses. -/
def report (s : State) (n : Nat) (l : List Nat) : List Nat :=
  s.status.toWord.toNat :: s.regs.hufOut.toNat :: s.regs.faultInfo.toNat :: l.map fun a => s.mem.value a n

/-- Windows for the stage commands: 0x1000 to 0x2000, with the tables of quality 50. -/
def stageRegs (srcLen dstLen : Word) (r : Regs) : Regs :=
  { r with
    srcAddr := 0x1000, srcLen := srcLen, dstAddr := 0x2000, dstLen := dstLen
    lumaQ := Vector.replicate 64 16, chromaQ := Vector.replicate 64 17 }

/-! ### One step of each command -/

/-- R110 example. -/
theorem test_nop : report (next (started .nop id [])) 1 [] = [2, 0, 0] := by decide +kernel

/-- Program P5, first command: the word 8 ends in ILLEGAL_CMD. -/
theorem test_illegal :
    report (next ((idle .nop id []).withFetchWord 32 8)) 1 [] = [0x00000106, 0, 8] := by decide +kernel

/-- R145 example: quality 49 gives 16 in LUMA_Q, and q = 102 gives 17 in CHROMA_Q. -/
theorem test_qtBuild :
    let t := next (started .qtBuild (fun r => { r with quality := 49 }) [])
    (t.status.toWord, t.regs.lumaQ[0], t.regs.chromaQ[63]) = (2, 16, 17) := by decide +kernel

/-- Program P1, vector H4. -/
def p1State : State :=
  started .hufDecode
    (fun r => { r with srcAddr := 0x1000, srcLen := 15, dstAddr := 0x2000, dstLen := 16, hufLen := 8 })
    [(0x1000, [0, 0, 5, 0x11, 0x11, 2, 0x21, 0x21, 1, 0xF0, 0xF0, 1, 0, 0xF1, 0x4C])]

theorem test_p1 : report (next p1State) 8 [0x2000, 0x2008] = [0x00040002, 6, 0, 0xF0002111, 0] := by decide +kernel

/-- Vector B1: zz[1] = 1 with LUMA_Q = 16 gives coef[1] = 16. -/
theorem test_dequantL :
    report (next (started .dequantBlockL (stageRegs 256 256) [(0x1004, [1])])) 4 [0x2000, 0x2004, 0x2020] =
      [2, 0, 0, 0, 16, 0] := by decide +kernel

/-- R143, R144: zz[2] = -1 with CHROMA_Q = 17 gives coef[ZIGZAG[2]] = coef[8] = -17. -/
theorem test_dequantC :
    report (next (started .dequantBlockC (stageRegs 256 256) [(0x1008, [0xFF, 0xFF, 0xFF, 0xFF])])) 4
      [0x2004, 0x2008, 0x2020] = [2, 0, 0, 0, 0, 0xFFFFFFEF] := by decide +kernel

/-- Vector B7: SRC_LEN = 255. -/
theorem test_dequant_short :
    report (next (started .dequantBlockL (stageRegs 255 256) [])) 4 [0x2000] = [0x00000406, 0, 0, 0] := by
  decide +kernel

/-- R253, R281: the footprint that a cancellation havocs does not depend on the pre-checks. -/
theorem test_footprint_short :
    footprintOf testInstance .dequantBlockL (started .dequantBlockL (stageRegs 255 256) []) = [⟨0x2000, 256⟩] := by
  decide +kernel

/-- Vectors I1 and I10 together: c[1] = 160 gives each row 10, 8, 5, 1, -1, -5, -8, -10. -/
theorem test_idct :
    report (next (started .idctBlock (stageRegs 256 256) [(0x1004, [160])])) 4 [0x2000, 0x2004, 0x201C, 0x20FC] =
      [2, 0, 0, 10, 8, 0xFFFFFFF6, 0xFFFFFFF6] := by decide +kernel

/-- Vector K18, the pixel (14, -30, 50), at pixel 0 of a block. -/
def k18 : List (Nat × List Byte) := [(0x1000, [14]), (0x1100, [0xE2, 0xFF, 0xFF, 0xFF]), (0x1200, [50])]

theorem test_colorRgb565 :
    report (next (started .colorBlockRgb565 (stageRegs 768 128) k18)) 2 [0x2000, 0x207E] =
      [2, 0, 0, 0x539B, 0x8410] := by decide +kernel

/-- Vector K18 in the other formats (R196 example). -/
theorem test_pixelBytes :
    pixelBytes .rgb24 (color 14 (-30) 50) = [82, 112, 222] ∧
      pixelBytes .argb32 (color 14 (-30) 50) = [0xDE, 0x70, 0x52, 0xFF] := by decide +kernel

/-- R196: 64 pixels of 3 and of 4 bytes need 192 and 256 bytes. -/
theorem test_colorRgb24_short :
    report (next (started .colorBlockRgb24 (stageRegs 768 191) k18)) 1 [0x2000] = [0x00000506, 0, 0, 0] := by
  decide +kernel

theorem test_colorArgb32_short :
    report (next (started .colorBlockArgb32 (stageRegs 768 255) k18)) 1 [0x2000] = [0x00000506, 0, 0, 0] := by
  decide +kernel

/-- Program P2's payload and registers, for an image of one block. -/
def p2Payload : List Byte :=
  [0x06, 0, 0, 0, 0x0C, 0, 0, 0, 0, 0, 0x0C, 0, 0xFF, 0xF0, 0, 0, 0, 0, 0x0C, 0, 0, 0,
    0x50, 0, 0, 0x50, 0, 0, 0x50, 0, 0, 0x50, 0, 0]

def p2State (i : Instr) (width dstLen : Word) : State :=
  started i (fun r =>
    { r with
      width := width, height := 8, quality := 50, srcAddr := 0x1000, srcLen := 34, scrAddr := 0x3000
      scrLen := 12, dstAddr := 0x2000, dstLen := dstLen }) [(0x1000, p2Payload)]

theorem test_imageRgb565 :
    report (next (p2State .decodeImageRgb565 8 128)) 2 [0x2000, 0x207E, 0x2080] = [2, 12, 0, 0x8C51, 0x8C51, 0] := by
  decide +kernel

/-- R208: an image of 8 x 8 pixels of 3 and of 4 bytes needs 192 and 256 bytes. -/
theorem test_imageRgb24_short :
    report (next (p2State .decodeImageRgb24 8 191)) 1 [0x2000] = [0x00000506, 0, 0, 0] := by decide +kernel

theorem test_imageArgb32_short :
    report (next (p2State .decodeImageArgb32 8 255)) 1 [0x2000] = [0x00000506, 0, 0, 0] := by decide +kernel

/-- R208: a width that is no multiple of 8 ends in BAD_GEOMETRY. -/
theorem test_imageGeometry : report (next (p2State .decodeImageRgb24 12 192)) 1 [] = [0x00000206, 0, 0] := by
  decide +kernel

/-- Program P3's frame with its first block only (vector CP9's setup, with the stride of P3). -/
def p3State (i : Instr) (dstLen : Word) : State :=
  started i (fun r =>
    { r with
      animCount := 2, blockCount := 1, offsAddr := 0x1100, quality := 50, srcAddr := 0x1000, srcLen := 27
      scrAddr := 0x3000, scrLen := 6, dstAddr := 0x2000, dstLen := dstLen, dstStride := 16 })
    [(0x1000, [5, 0, 0, 0, 6, 0, 0, 0, 0, 0, 6, 0, 0xFC, 0, 0, 0, 0, 6, 0, 0, 0, 0x1F, 0, 0, 0x28, 0, 0]),
      (0x1100, [8])]

theorem test_compositeRgb565 :
    let t := next (p3State .compositeRgb565 256)
    t.regs.animCur.toNat :: report t 2 [0x200E, 0x2010, 0x201E, 0x20FE, 0x20F0, 0x20EE] =
      [1, 2, 6, 0, 0, 0x7BCF, 0x7BCF, 0x7BCF, 0x7BCF, 0] := by decide +kernel

/-- R224: the block at offset 8 with stride 16 needs (8 + 7 * 16 + 8) * bpp bytes, and a fault keeps the cursor. -/
theorem test_compositeRgb24_short :
    let t := next (p3State .compositeRgb24 383)
    t.regs.animCur.toNat :: report t 2 [0x2010] = [0, 0x00000506, 0, 0, 0] := by decide +kernel

theorem test_compositeArgb32_short :
    let t := next (p3State .compositeArgb32 511)
    t.regs.animCur.toNat :: report t 2 [0x2010] = [0, 0x00000506, 0, 0, 0] := by decide +kernel

/-- Vectors CP1 and CP4: an empty frame only advances the cursor, which wraps. -/
theorem test_compositeEmpty :
    ((next (started .compositeRgb24 (fun r => { r with animCount := 3 }) [])).regs.animCur,
      (next (started .compositeArgb32 (fun r => { r with animCount := 3, animCur := 5 }) [])).regs.animCur) = (1, 0) := by
  decide +kernel

end Sys2Proof.Tests
end

