-- ==== Sys2Proof/Tests/Witnesses.lean ====
section
/-!
SUPPORT. For each statement of Certificates/Slice0/Obligations.lean that has hypotheses, a concrete state and operands
that meet them, at a boundary of their range where there is one. The names follow the statements'.
-/

namespace Sys2Proof.Tests

set_option Elab.async false

open Sys2Proof.Machine

/-- The test instance with moves of the host pending. -/
def facing (s : State) (l : List HostMove) : State := s.withInputs l

/-- A running command whose windows lie at 0x1000 and 0x2000. -/
def running : State := started .idctBlock (stageRegs 256 256) []

/-- The idle block of the test instance. -/
def atRest : State := idle .nop id []

/-! ### Command words and the step -/

theorem witness_ReservedWords :
    (¬ReservedWord 0x00000007 ∧ ¬ReservedWord 0x00000403 ∧ ¬ReservedWord 0x00000205) ∧
      ReservedWord 0x00000008 ∧ ReservedWord 0x00000800 ∧ ReservedWord 0x00000305 ∧ ReservedWord 0x00000407 ∧
      ReservedWord 0x00000103 ∧ ReservedWord 0x00000104 ∧ ReservedWord 0x00000400 := by
  refine ⟨⟨?_, ?_, ?_⟩, ?_, ?_, ?_, ?_, ?_, ?_, ?_⟩ <;> (unfold ReservedWord; decide)

theorem witness_StepRunsTheDecodedCommand :
    decode (BitVec.ofNat 32 0x00000403) = .command .dequantBlockC ∧
      (running.phase = .run .idctBlock ∧ running.inputs = []) ∧
      (facing running [.engineTurn]).inputs = .engineTurn :: [] ∧
      (facing atRest [wr testInstance .ctrl 1]).WritesNext .ctrl 1 [] ∧ (1 : Word).getLsbD 0 = true ∧
      (1 : Word).getLsbD 1 = false ∧ atRest.status.busy = false ∧ decode atRest.regs.cmd = .command .nop :=
  ⟨by decide, ⟨by decide, rfl⟩, rfl, ⟨_, rfl, by decide, rfl⟩, by decide, by decide, rfl, by decide⟩

theorem witness_PendingMovesComeFirst :
    (∃ m rest, (facing running [.resetAssert]).inputs = m :: rest ∧ m ≠ .engineTurn) ∧
      (atRest.phase = .idle ∧ atRest.inputs = []) ∧
      ∃ rest, (facing atRest [.engineTurn]).phase = .idle ∧ (facing atRest [.engineTurn]).inputs = .engineTurn :: rest :=
  ⟨⟨_, _, rfl, by decide⟩, ⟨rfl, rfl⟩, _, rfl, rfl⟩

theorem witness_StepKeepsTheInvariant : running.Inv ∧ ∃ t, step running = .next t :=
  ⟨{ legal := by decide +kernel
     canonical := by decide
     reached := by decide
     busyRuns := by decide
     errcode := by decide
     errHasCode := by decide
     started := fun _ => ⟨rfl, rfl, rfl, fun w => by cases w <;> rfl, rfl, rfl, rfl, by decide⟩
     marked := by decide
     held := by decide
     tables := by decide +kernel }, _, rfl⟩

theorem witness_StepKeepsTheParameters : ∃ t, step running = .next t := ⟨_, rfl⟩

theorem witness_StatusBitsMoveOnlyAsTheRulesSay :
    let ends := started .nop id []
    let faults := started .idctBlock (stageRegs 255 256) []
    let starts := facing atRest [wr testInstance .ctrl 1]
    let cancels := facing running [wr testInstance .ctrl 2]
    let drops := facing running [wr testInstance .animCur 7]
    let clears := facing (next drops) [wr testInstance .status 8]
    let acks := facing (next faults) [wr testInstance .status 6]
    let restarts := facing (next faults) [wr testInstance .ctrl 1]
    let warns := p1State
    let quiets := facing (next p1State) [wr testInstance .status 0x40000]
    (ends.status.done = false ∧ (next ends).status.done = true) ∧
      (faults.status.err = false ∧ (next faults).status.err = true) ∧
      (ends.status.busy = true ∧ (next ends).status.busy = false) ∧
      (cancels.status.busy = true ∧ (next cancels).status.busy = false) ∧
      (starts.status.busy = false ∧ (next starts).status.busy = true) ∧
      (drops.status.haz = false ∧ (next drops).status.haz = true) ∧
      (clears.status.haz = true ∧ (next clears).status.haz = false) ∧
      (acks.status.done = true ∧ acks.status.err = true ∧ (next acks).status.done = false ∧
        (next acks).status.err = false) ∧
      (restarts.status.errcode = 4 ∧ (next restarts).status.errcode = 0 ∧ (next restarts).status.err = false) ∧
      (warns.status.warned .hufShort = false ∧ (next warns).status.warned .hufShort = true) ∧
      (quiets.status.warned .hufShort = true ∧ (next quiets).status.warned .hufShort = false) := by decide +kernel

/-! ### The register port -/

theorem witness_StartSetsTheEntryState :
    (facing atRest [wr testInstance .ctrl 5]).WritesNext .ctrl 5 [] ∧ (5 : Word).getLsbD 0 = true ∧
      (5 : Word).getLsbD 1 = false ∧ (facing atRest [wr testInstance .ctrl 5]).status.busy = false ∧
      decode atRest.regs.cmd = .command .nop ∧ decode 0x00000008 = .illegal .reservedOpcode :=
  ⟨⟨_, rfl, by decide, rfl⟩, by decide, by decide, rfl, by decide, by decide⟩

theorem witness_AccessesWhileBusy :
    running.status.busy = true ∧ Csr.locked .cmd = true ∧ Csr.locked .animCur = true ∧
      ((facing atRest [wr testInstance .ctrl 4]).WritesNext .ctrl 4 [] ∧ (4 : Word).getLsbD 0 = false ∧
        (4 : Word).getLsbD 1 = false) ∧
      (facing running [wr testInstance .cmd 7]).WritesNext .cmd 7 [] ∧
      (facing running [wr testInstance .animCur 7]).WritesNext .animCur 7 [] ∧
      ((facing running [wr testInstance .ctrl 5]).WritesNext .ctrl 5 [] ∧ (5 : Word).getLsbD 1 = false) ∧
      ((facing running [wr testInstance .ctrl 2]).WritesNext .ctrl 2 [] ∧ (2 : Word).getLsbD 1 = true) ∧
      (facing running [wr testInstance .status 2]).WritesNext .status 2 [] ∧
      (facing running [rd testInstance .hufOut]).ReadsNext .hufOut [] ∧
      (facing running [rd testInstance .animCur]).ReadsNext .animCur [] ∧
      (facing running [rd testInstance .faultInfo]).ReadsNext .faultInfo [] ∧
      (facing running [rd testInstance (.lumaQ 0)]).ReadsNext (.lumaQ 0) [] ∧
      (facing running [rd testInstance (.chromaQ 63)]).ReadsNext (.chromaQ 63) [] ∧
      (facing running [rd testInstance .status]).ReadsNext .status [] ∧
      ((facing atRest [rd testInstance .hufOut]).ReadsNext .hufOut [] ∧ atRest.status.busy = false) :=
  ⟨rfl, rfl, rfl, ⟨⟨_, rfl, by decide, rfl⟩, by decide, by decide⟩, ⟨_, rfl, by decide, rfl⟩,
    ⟨_, rfl, by decide, rfl⟩, ⟨⟨_, rfl, by decide, rfl⟩, by decide⟩,
    ⟨⟨_, rfl, by decide, rfl⟩, by decide⟩, ⟨_, rfl, by decide, rfl⟩, ⟨_, rfl, by decide⟩, ⟨_, rfl, by decide⟩,
    ⟨_, rfl, by decide⟩, ⟨_, rfl, by decide⟩, ⟨_, rfl, by decide⟩, ⟨_, rfl, by decide⟩, ⟨_, rfl, by decide⟩, rfl⟩

theorem witness_ReadOnlyRegistersIgnoreWrites :
    (facing atRest [rd testInstance .id]).ReadsNext .id [] ∧
      (facing atRest [wr testInstance .id 1]).WritesNext .id 1 [] ∧
      (facing atRest [wr testInstance .hufOut 1]).WritesNext .hufOut 1 [] ∧
      (facing running [wr testInstance .faultInfo 1]).WritesNext .faultInfo 1 [] ∧
      (facing atRest [wr testInstance (.lumaQ 63) 1]).WritesNext (.lumaQ 63) 1 [] ∧
      (facing running [wr testInstance (.chromaQ 0) 1]).WritesNext (.chromaQ 0) 1 [] :=
  ⟨⟨_, rfl, by decide⟩, ⟨_, rfl, by decide, rfl⟩, ⟨_, rfl, by decide, rfl⟩, ⟨_, rfl, by decide, rfl⟩,
    ⟨_, rfl, by decide, rfl⟩, ⟨_, rfl, by decide, rfl⟩⟩

theorem witness_DataRegistersReadBack :
    atRest.status.busy = false ∧ Csr.locked .quality = true ∧
      (facing atRest [wr testInstance .quality 0x80000000]).WritesNext .quality 0x80000000 [] ∧
      Csr.locked .animCur = true ∧
      (facing atRest [wr testInstance .animCur 0xFFFFFFFF]).WritesNext .animCur 0xFFFFFFFF [] :=
  ⟨rfl, rfl, ⟨_, rfl, by decide, rfl⟩, rfl, ⟨_, rfl, by decide, rfl⟩⟩

theorem witness_StatusWriteClearsTheOnes :
    (facing running [wr testInstance .status 0xFFFFFFFF]).WritesNext .status 0xFFFFFFFF [] := ⟨_, rfl, by decide, rfl⟩

theorem witness_RegisterMapFollowsTheOffsets :
    csrAt 0x000 = some .id ∧ csrAt 0x050 = some .faultInfo ∧ csrAt 0x054 = none ∧ csrAt 0x0FC = none ∧
      csrAt 0x100 = some (.lumaQ 0) ∧ csrAt 0x1FC = some (.lumaQ 63) ∧ csrAt 0x2FC = some (.chromaQ 63) ∧
      csrAt 0x300 = none ∧ csrAt 0xFFC = none := by decide

theorem witness_UnreachedRegistersReadZero :
    (portOffset testInstance 0xF0000000 = some 0 ∧ AccessSize.half ≠ .word) ∧
      (portOffset testInstance 0xF0000006 = some 6 ∧ 6 % 4 ≠ 0) ∧
      (portOffset testInstance 0xF0000FFC = some 0xFFC ∧ csrAt 0xFFC = none) ∧
      (facing atRest [.portWrite 0xF0000000 .half 1]).inputs = .portWrite 0xF0000000 .half 1 :: [] ∧
      (facing atRest [.portRead 0xF0000006 .word]).inputs = .portRead 0xF0000006 .word :: [] := by
  decide

/-! ### Reset, the interrupt and the host's memory -/

theorem witness_ResetGivesTheResetState :
    ((facing running [wr testInstance .ctrl 7]).WritesNext .ctrl 7 [] ∧ (7 : Word).getLsbD 1 = true) ∧
      (facing running [.resetAssert]).inputs = .resetAssert :: [] ∧ (∀ i, atRest.phase ≠ .run i) ∧
      (running.phase = .run .idctBlock ∧ running.interfered = false ∧ running.mem.wf) ∧
      ((running.withInterfered true).phase = .run .idctBlock ∧ (running.withInterfered true).interfered = true) ∧
      (inWindows (footprintOf running.cfg .idctBlock running) 0x20FF ∧ reachable running.cfg 0x20FF = true) ∧
      (running.withResetHeld true).resetHeld = true ∧
      (facing (running.withResetHeld true) [wr testInstance .ctrl 1]).inputs =
        .portWrite (testInstance.csrBase + BitVec.ofNat 32 4) .word 1 :: [] :=
  ⟨⟨⟨_, rfl, by decide, rfl⟩, by decide⟩, rfl, fun i => by simp [atRest, idle, State.reset], ⟨by decide, rfl, by decide⟩,
    ⟨by decide, rfl⟩, ⟨by unfold inWindows; decide, by decide⟩, rfl, rfl⟩

theorem witness_IrqFollowsEnableAndDone :
    (∃ t, exec .nop (started .nop id []) = .next t) ∧
      ((∃ t, (facing atRest [wr testInstance .ctrl 2]).WritesNext .ctrl 2 [] ∧
          step (facing atRest [wr testInstance .ctrl 2]) = .next t) ∧ (2 : Word).getLsbD 1 = true) ∧
      ((∃ t, (facing atRest [wr testInstance .ctrl 1]).WritesNext .ctrl 1 [] ∧
          step (facing atRest [wr testInstance .ctrl 1]) = .next t) ∧ (1 : Word).getLsbD 1 = false ∧
        (1 : Word).getLsbD 0 = true ∧ (1 : Word).getLsbD 2 = false ∧ atRest.status.busy = false) ∧
      ((∃ t, (facing atRest [wr testInstance .ctrl 4]).WritesNext .ctrl 4 [] ∧
          step (facing atRest [wr testInstance .ctrl 4]) = .next t) ∧ (4 : Word).getLsbD 1 = false ∧
        (4 : Word).getLsbD 0 = false ∧ (4 : Word).getLsbD 2 = true) ∧
      ∃ t, (facing atRest [wr testInstance .status 2]).WritesNext .status 2 [] ∧
        step (facing atRest [wr testInstance .status 2]) = .next t :=
  ⟨⟨_, rfl⟩, ⟨⟨_, ⟨_, rfl, by decide, rfl⟩, rfl⟩, by decide⟩, ⟨⟨_, ⟨_, rfl, by decide, rfl⟩, rfl⟩, by decide⟩,
    ⟨⟨_, ⟨_, rfl, by decide, rfl⟩, rfl⟩, by decide⟩, _, ⟨_, rfl, by decide, rfl⟩, rfl⟩

/-- A NOP has ended and the host writes ACK next. -/
def acknowledged : State := facing (next (started .nop id [])) [wr testInstance .status 0x001F000E]

theorem witness_AcknowledgedBlockIsClean :
    acknowledged.Inv ∧ acknowledged.status.busy = false ∧ acknowledged.WritesNext .status 0x001F000E [] ∧
      NoWriteTo acknowledged.regs.windows [] ∧
      (∃ t, (facing running [wr testInstance .ctrl 2]).WritesNext .ctrl 2 [] ∧ (2 : Word).getLsbD 1 = true ∧
        step (facing running [wr testInstance .ctrl 2]) = .next t) ∧
      ∃ t, (facing running [.resetAssert]).inputs = .resetAssert :: [] ∧
        step (facing running [.resetAssert]) = .next t :=
  ⟨{ legal := by decide +kernel
     canonical := by decide
     reached := by decide
     busyRuns := by decide
     errcode := by decide
     errHasCode := by decide
     started := fun h => absurd h (by decide)
     marked := by decide
     held := by decide
     tables := by decide +kernel }, rfl, ⟨_, rfl, by decide, rfl⟩, fun _ _ h => absurd h (by simp),
    ⟨_, ⟨_, rfl, by decide, rfl⟩, by decide, rfl⟩, _, rfl, rfl⟩

/-- A NOP has ended, and the host still reads a byte of memory. -/
def ended : State := facing (next (started .nop id [])) [.memRead 0x1000]

theorem witness_EndedRunStaysEnded :
    ended.Inv ∧ ended.RunEnded ∧ (∃ t, step ended = .next t) ∧ (∀ rest, ended.inputs ≠ .resetAssert :: rest) ∧
      ∀ a v rest, ended.inputs ≠ .memWrite a v :: rest :=
  ⟨{ legal := by decide +kernel
     canonical := by decide
     reached := by decide
     busyRuns := by decide
     errcode := by decide
     errHasCode := by decide
     started := fun h => absurd h (by decide)
     marked := by decide
     held := by decide
     tables := by decide +kernel }, ⟨by decide, rfl⟩, ⟨_, rfl⟩, by simp [ended, facing, State.withInputs],
    by simp [ended, facing, State.withInputs]⟩

theorem witness_HostMemoryMoves :
    running.mem.wf ∧ (facing running [.memWrite 0xFFFFF 3]).inputs = .memWrite 0xFFFFF 3 :: [] ∧
      reachable testInstance 0xFFFFF = true ∧
      (facing running [.memRead 0x20FF]).inputs = .memRead 0x20FF :: [] ∧ reachable testInstance 0x20FF = true ∧
      inWindows (facing running [.memRead 0x20FF]).outputWindows 0x20FF ∧
      ¬inWindows (facing running [.memRead 0x2100]).outputWindows 0x2100 := by
  refine ⟨by decide, rfl, by decide, rfl, by decide, ?_, ?_⟩ <;> (unfold inWindows; decide)

theorem witness_InterferenceHavocsTheWindows :
    let s := running.withInterfered true
    s.mem.wf ∧ s.interfered = true ∧ (∃ t, exec .idctBlock s = .next t) ∧
      inWindows (writtenWindows s.regs .idctBlock) 0x2000 ∧ reachable s.cfg 0x2000 = true :=
  ⟨by decide, rfl, ⟨_, rfl⟩, by unfold inWindows; decide, by decide⟩

theorem witness_DutifulHostNeverInterferes :
    let s := facing running [.memWrite 0x2100 3]
    s.interfered = false ∧ (∀ m rest, s.inputs = m :: rest → NoInterference s m) ∧ ∃ t, step s = .next t := by
  refine ⟨rfl, fun m rest h a v hm => ?_, _, rfl⟩
  obtain ⟨rfl, -⟩ := List.cons.inj h
  obtain ⟨rfl, -⟩ := HostMove.memWrite.inj hm
  unfold inWindows; decide

/-! ### Memory -/

theorem witness_MemReadIsLittleEndian :
    Reaches testInstance ⟨0xFFFFC, 4⟩ ∧ (2 < 4 ∧ (∀ i < 2, reachable testInstance (0xFFFFE + i) = true)) ∧
      reachable testInstance (0xFFFFE + 2) = false := by unfold Reaches; decide

theorem witness_MemWriteIsLittleEndian :
    running.mem.wf ∧ Reaches running.cfg ⟨0xFFFFC, 4⟩ ∧ (∀ i < 2, reachable running.cfg (0xFFFFE + i) = true) ∧
      reachable running.cfg (0xFFFFE + 2) = false := by unfold Reaches; decide

theorem witness_OverlapCheckFindsSharedBytes :
    ((Window.mk 0x100 4).holds 0x103 = true ∧ (Window.mk 0x103 1).holds 0x103 = true) ∧
      (∀ x, (Window.mk 0x100 4).holds x = true → (Window.mk 0x104 4).holds x = false) ∧
      ∀ x, (Window.mk 0x100 4).holds x = true → (Window.mk 0x101 0).holds x = false := by
  refine ⟨by decide, fun x h => ?_, fun x _ => ?_⟩
  · simp [Window.holds] at h ⊢
    omega
  · simp [Window.holds]
    try omega

theorem witness_PayloadParseFollowsTheLayout :
    Reaches testInstance (p2State .decodeImageRgb565 8 128).regs.srcWindow ∧
      (payloadAt (p2State .decodeImageRgb565 8 128).mem 0x1000).size = 34 := by
  unfold Reaches; decide +kernel

/-! ### Streams and codes -/

/-- One byte in each stream of a payload at 0x1000, and one AC-code byte in scratch at 0x3000. -/
def bytePlan : Plan := ⟨[], 1, 0, 0, 1, 0x10, 1, 0x20, []⟩

def byteState : State :=
  started .decodeImageRgb24 (fun r => { r with srcAddr := 0x1000, scrAddr := 0x3000 }) [(0x1020, [0x50])]

theorem witness_StreamReads :
    let past := byteState.withHidden { byteState.hidden with acur := 8, dcur := 8, j := 1 }
    (bytePlan.acLen ≤ past.hidden.acur / 8 ∧ bytePlan.dcLen ≤ past.hidden.dcur / 8 ∧ bytePlan.ds ≤ past.hidden.j) ∧
      byteState.hidden.acur / 8 < bytePlan.acLen ∧ byteState.hidden.dcur / 8 < bytePlan.dcLen ∧
      byteState.hidden.j < bytePlan.ds ∧ reachable byteState.cfg (0x1000 + 0x10 + 0) = true ∧
      reachable byteState.cfg (0x1000 + 0x20 + 0) = true ∧ reachable byteState.cfg (0x3000 + 0) = true := by decide

theorem witness_ReadBitsAssemblesTheBits :
    Produces (bitDC testInstance bytePlan) byteState [false, true]
      (byteState.withHidden { byteState.hidden with dcur := 2 }) :=
  ⟨byteState.withHidden { byteState.hidden with dcur := 1 }, by rfl,
    byteState.withHidden { byteState.hidden with dcur := 2 }, by rfl, rfl⟩

theorem witness_LevelIsSignExtended :
    (1 ≤ 1 ∧ 1 < 2 ^ 1 ∧ Nat.testBit 1 0 = true) ∧ (15 ≤ 15 ∧ 0x3FFF < 2 ^ 15 ∧ Nat.testBit 0x3FFF 14 = false) := by
  decide

theorem witness_ChannelBounds :
    (∃ zz t, decodeChannel byteState.cfg bytePlan byteState = .ok zz t) ∧
      byteState.cfg.fullBlockPolicy = .stopAt64 ∧
      ∃ f t, decodeChannel byteState.cfg (Plan.of []) byteState = .error f t :=
  ⟨⟨_, _, rfl⟩, rfl, _, _, rfl⟩

/-! ### Huffman -/

/-- The entry arena with a frequency on symbol 65 and on the sentinel. -/
def twoLeaves : Arena := setFreq (setFreq Hidden.entry.node 65 3) 256 1

theorem witness_MergesFollowTheRule :
    (LeastSlot twoLeaves 257 none 256 ∧ LeastSlot twoLeaves 257 (some 256) 65) ∧
      (∃ b, mergeLoop 1 twoLeaves 257 = (b, 257 + 1)) ∧ 257 < (mergeLoop 256 twoLeaves 257).2 ∧
      (¬∃ l r, LeastSlot Hidden.entry.node 257 none l ∧ LeastSlot Hidden.entry.node 257 (some l) r) ∧
      (mergeLoop 256 Hidden.entry.node 257).2 = 257 := by
  have h : (mergeLoop 1 twoLeaves 257).2 = 257 + 1 := by decide +kernel
  refine ⟨?_, ⟨(mergeLoop 1 twoLeaves 257).1, by rw [← h, Prod.mk.eta]⟩, by decide +kernel, ?_, by decide +kernel⟩
  · exact ⟨⟨by decide, by decide +kernel, by decide, by decide +kernel⟩,
      ⟨by decide, by decide +kernel, by decide, by decide +kernel⟩⟩
  · rintro ⟨l, -, h, -⟩
    simp [LeastSlot, Hidden.entry] at h

theorem witness_EveryUsedSymbolHasOneCode :
    (∀ i : Fin 513, i.val ≤ 256 → twoLeaves[i.val].freq.toNat ≤ 255) ∧ (treeBuild twoLeaves).2 = some 257 ∧
      CodeOf (treeBuild twoLeaves).1 257 [true] 65 ∧ CodeOf (treeBuild twoLeaves).1 257 [false] 256 ∧
      twoLeaves[0].freq = 0 ∧ (treeBuild Hidden.entry.node).2 = none := by
  unfold CodeOf CodeOf; decide +kernel

theorem witness_CodesDecodeToTheirSymbols :
    let codes : List (List Bool × Fin 513) := [([true], 65), ([true], 65)]
    (∀ c ∈ codes, CodeOf (treeBuild twoLeaves).1 257 c.1 c.2 ∧ c.2.val < 256) ∧ codes.length < 3 ∧
      CodeOf (treeBuild twoLeaves).1 257 [false] 256 := by
  simp only [List.forall_mem_cons, List.not_mem_nil, false_imp_iff, implies_true, and_true]
  unfold CodeOf CodeOf; decide +kernel

theorem witness_HufDecodeResult :
    p1State.Ready ∧ Apart [p1State.regs.dstWindow] [p1State.regs.srcWindow] ∧
      p1State.regs.hufLen.toNat ≤ p1State.regs.dstLen.toNat ∧ Reaches p1State.cfg p1State.regs.srcWindow ∧
      Reaches p1State.cfg ⟨p1State.regs.dstAddr.toNat, p1State.regs.hufLen.toNat⟩ ∧
      refHuffman p1State.cfg (p1State.mem.bytes p1State.regs.srcAddr.toNat p1State.regs.srcLen.toNat)
        p1State.regs.hufLen.toNat = some [0x11, 0x21, 0x00, 0xF0, 0x00, 0x00] :=
  ⟨⟨rfl, rfl, by decide +kernel⟩, by unfold Apart; decide, by decide, by unfold Reaches; decide,
    by unfold Reaches; decide, by decide +kernel⟩

/-- No compressed byte at all (R124, corner cases). -/
def noBytes : State := started .hufDecode (fun r => { r with srcAddr := 0x1000, dstAddr := 0x2000 }) []

theorem witness_HufDecodeOverrun :
    noBytes.Ready ∧ Apart [noBytes.regs.dstWindow] [noBytes.regs.srcWindow] ∧
      noBytes.regs.hufLen.toNat ≤ noBytes.regs.dstLen.toNat ∧ Reaches noBytes.cfg noBytes.regs.srcWindow ∧
      Reaches noBytes.cfg ⟨noBytes.regs.dstAddr.toNat, noBytes.regs.hufLen.toNat⟩ ∧
      refHuffman noBytes.cfg (noBytes.mem.bytes noBytes.regs.srcAddr.toNat noBytes.regs.srcLen.toNat)
        noBytes.regs.hufLen.toNat = none :=
  ⟨⟨rfl, rfl, by decide⟩, by unfold Apart; decide, by decide, by unfold Reaches; decide, by unfold Reaches; decide,
    by decide⟩

/-! ### The plain commands -/

theorem witness_NopOnlyEnds : (started .nop id []).status = { busy := true } := rfl

theorem witness_TableEntriesFollowTheQuality :
    testInstance.qAtQuality0 ≤ 5000 ∧ (-1 : Int) < 0 ∧ (0 < (49 : Int) ∧ (49 : Int) < 50) ∧
      (50 ≤ (50 : Int) ∧ (99 : Int) < 100) ∧ 100 ≤ (100 : Int) := by decide

theorem witness_DequantBlockResult :
    (running.interfered = false ∧ running.mem.wf) ∧
      running.regs.dstWindow.overlaps running.regs.srcWindow = false ∧ 256 ≤ running.regs.srcLen.toNat ∧
      256 ≤ running.regs.dstLen.toNat ∧ Reaches running.cfg ⟨running.regs.srcAddr.toNat, 256⟩ ∧
      Reaches running.cfg ⟨running.regs.dstAddr.toNat, 256⟩ ∧
      ∀ j k : Fin 64, running.cfg.zigzag[j.val] = running.cfg.zigzag[k.val] → j = k :=
  ⟨⟨rfl, by decide⟩, by decide, by decide, by decide, by unfold Reaches; decide +kernel,
    by unfold Reaches; decide +kernel, by decide +kernel⟩

theorem witness_IdctBlockResult :
    (running.interfered = false ∧ running.mem.wf) ∧
      running.regs.dstWindow.overlaps running.regs.srcWindow = false ∧ 256 ≤ running.regs.srcLen.toNat ∧
      256 ≤ running.regs.dstLen.toNat ∧ Reaches running.cfg ⟨running.regs.srcAddr.toNat, 256⟩ ∧
      Reaches running.cfg ⟨running.regs.dstAddr.toNat, 256⟩ :=
  ⟨⟨rfl, by decide⟩, by decide, by decide, by decide, by unfold Reaches; decide +kernel,
    by unfold Reaches; decide +kernel⟩

theorem witness_IdctProperties : testInstance.kernel = .reference := rfl

theorem witness_ColorBlockResult (fmt : PixelFormat) :
    let s := started (colorBlockOf fmt) (stageRegs 768 256) []
    (s.interfered = false ∧ s.mem.wf) ∧ s.regs.dstWindow.overlaps s.regs.srcWindow = false ∧
      768 ≤ s.regs.srcLen.toNat ∧ 64 * bpp fmt ≤ s.regs.dstLen.toNat ∧
      Reaches s.cfg ⟨s.regs.srcAddr.toNat, 768⟩ ∧ Reaches s.cfg ⟨s.regs.dstAddr.toNat, 64 * bpp fmt⟩ := by
  unfold Reaches; cases fmt <;> decide +kernel

theorem witness_ColorFollowsTheRules :
    (-128 ≤ (wrap32 (-128)).toInt ∧ (wrap32 (-128)).toInt ≤ 128) ∧ (wrap32 128).toInt ≤ 128 := by decide

theorem witness_PixelsArePacked : (0x7FFFFF7F : Word).toInt + 128 < 2 ^ 31 := by decide

/-! ### The image commands -/

/-- Program P2's payload for one block, with room for every format. -/
def imageState (fmt : PixelFormat) : State := p2State (decodeImageOf fmt) 8 256

/-- The streams of that payload, as its size fields say: `cs`, `ds`, `as` and `dsz` are 6, 12, 0 and 12. -/
def imagePlan : Plan := ⟨[], 12, 6, 8, 0, 18, 12, 22, []⟩

theorem imageState_payload (fmt : PixelFormat) : PayloadReady (imageState fmt) imagePlan :=
  { plan := by cases fmt <;> decide +kernel
    fits := by cases fmt <;> decide +kernel
    room := by cases fmt <;> decide +kernel
    reads := by unfold Reaches; cases fmt <;> decide +kernel
    scratch := by unfold Reaches; cases fmt <;> decide +kernel }

theorem imageState_symbols (fmt : PixelFormat) :
    refHuffman (imageState fmt).cfg ((imageState fmt).comp imagePlan) imagePlan.ds = some (List.replicate 12 0) := by
  cases fmt <;> decide +kernel

theorem witness_DecodeImageResult (fmt : PixelFormat) :
    let s := imageState fmt
    s.Ready ∧ badGeometry s.regs.width.toNat s.regs.height.toNat = false ∧
      Apart [s.regs.dstWindow, s.regs.scrWindow] [s.regs.srcWindow] ∧
      s.regs.width.toNat * s.regs.height.toNat * bpp fmt ≤ s.regs.dstLen.toNat ∧ PayloadReady s imagePlan ∧
      Reaches s.cfg ⟨s.regs.dstAddr.toNat, s.regs.width.toNat * s.regs.height.toNat * bpp fmt⟩ ∧
      refHuffman s.cfg (s.comp imagePlan) imagePlan.ds = some (List.replicate 12 0) ∧
      ∃ img, s.image imagePlan (List.replicate 12 0) 1 = some img := by
  refine ⟨⟨rfl, rfl, by cases fmt <;> decide +kernel⟩, by cases fmt <;> decide, ?_, ?_, imageState_payload fmt, ?_, imageState_symbols fmt,
    Option.isSome_iff_exists.mp ?_⟩
  · unfold Apart; cases fmt <;> decide
  · cases fmt <;> decide
  · unfold Reaches; cases fmt <;> decide +kernel
  · cases fmt <;> decide +kernel

/-- That image with the bit stream cut off: `cs` is 4, so COMP is the frequency table alone (R120). -/
def cutBytes : List Byte := [4, 0, 0, 0, 0x0C, 0, 0, 0, 0, 0, 0x0C, 0, 0, 0, 0, 0, 0, 0, 0, 0]

def cutPlan : Plan := ⟨[], 12, 4, 8, 0, 16, 0, 20, []⟩

/-- The registers of the cut image and of a frame of one block at offset 8 with the same payload. -/
def cutState (i : Instr) : State :=
  started i (fun r =>
    { r with
      width := 8, height := 8, blockCount := 1, offsAddr := 0x1100, srcAddr := 0x1000, srcLen := 20, scrAddr := 0x3000
      scrLen := 12, dstAddr := 0x2000, dstLen := 512, dstStride := 16 })
    [(0x1000, cutBytes), (0x1100, [8])]

theorem cutState_ready (fmt : PixelFormat) (i : Instr) (hi : i = decodeImageOf fmt ∨ i = compositeOf fmt) :
    (cutState i).Ready ∧ PayloadReady (cutState i) cutPlan ∧
      refHuffman (cutState i).cfg ((cutState i).comp cutPlan) cutPlan.ds = none := by
  refine ⟨⟨rfl, rfl, ?_⟩, ⟨?_, ?_, ?_, ?_, ?_⟩, ?_⟩ <;> try unfold Reaches
  all_goals obtain rfl | rfl := hi <;> cases fmt <;> decide +kernel

theorem witness_HufDecodeOverrun_image (fmt : PixelFormat) :
    let s := cutState (decodeImageOf fmt)
    s.Ready ∧ badGeometry s.regs.width.toNat s.regs.height.toNat = false ∧
      Apart [s.regs.dstWindow, s.regs.scrWindow] [s.regs.srcWindow] ∧
      s.regs.width.toNat * s.regs.height.toNat * bpp fmt ≤ s.regs.dstLen.toNat ∧ PayloadReady s cutPlan ∧
      refHuffman s.cfg (s.comp cutPlan) cutPlan.ds = none :=
  have h := cutState_ready fmt _ (.inl rfl)
  ⟨h.1, by cases fmt <;> decide, by unfold Apart; cases fmt <;> decide, by cases fmt <;> decide, h.2⟩

theorem witness_HufDecodeOverrun_frame (fmt : PixelFormat) :
    let s := cutState (compositeOf fmt)
    s.Ready ∧ s.regs.blockCount.toNat = 1 ∧
      Apart [s.regs.dstWindow, s.regs.scrWindow] [s.regs.srcWindow, s.regs.offsWindow] ∧
      Reaches s.cfg s.regs.offsWindow ∧
      (∀ b < 1, (s.offset b + 7 * s.regs.dstStride.toNat + 8) * bpp fmt ≤ s.regs.dstLen.toNat) ∧
      PayloadReady s cutPlan ∧ refHuffman s.cfg (s.comp cutPlan) cutPlan.ds = none :=
  have h := cutState_ready fmt _ (.inr rfl)
  ⟨h.1, rfl, by unfold Apart; cases fmt <;> decide, by unfold Reaches; cases fmt <;> decide,
    by cases fmt <;> decide +kernel, h.2⟩

/-- The same image with no DC-data (vector IM10's fault). -/
def shortState (fmt : PixelFormat) : State :=
  started (decodeImageOf fmt) (fun r =>
    { r with
      width := 8, height := 8, quality := 50, srcAddr := 0x1000, srcLen := 24, scrAddr := 0x3000, scrLen := 12
      dstAddr := 0x2000, dstLen := 256 })
    [(0x1000, [0x06, 0, 0, 0, 0x0C, 0, 0, 0, 0, 0, 0x0C, 0, 0xFF, 0xF0, 0, 0, 0, 0, 2, 0, 0, 0, 0x50, 0])]

theorem witness_ShortDcDataFaults (fmt : PixelFormat) :
    let s := shortState fmt
    let pl : Plan := ⟨[], 12, 6, 8, 0, 18, 2, 22, []⟩
    s.Ready ∧ badGeometry s.regs.width.toNat s.regs.height.toNat = false ∧
      Apart [s.regs.dstWindow, s.regs.scrWindow] [s.regs.srcWindow] ∧
      s.regs.width.toNat * s.regs.height.toNat * bpp fmt ≤ s.regs.dstLen.toNat ∧ PayloadReady s pl ∧
      Reaches s.cfg ⟨s.regs.dstAddr.toNat, s.regs.width.toNat * s.regs.height.toNat * bpp fmt⟩ ∧
      refHuffman s.cfg (s.comp pl) pl.ds = some (List.replicate 12 0) ∧
      pl.dcLen < 3 * (s.regs.width.toNat / 8 * (s.regs.height.toNat / 8)) := by
  refine ⟨⟨rfl, rfl, by cases fmt <;> decide +kernel⟩, by cases fmt <;> decide, ?_, ?_, ⟨?_, ?_, ?_, ?_, ?_⟩, ?_, ?_,
    by cases fmt <;> decide⟩
  · unfold Apart; cases fmt <;> decide
  · cases fmt <;> decide
  · cases fmt <;> decide +kernel
  · cases fmt <;> decide
  · cases fmt <;> decide
  · unfold Reaches; cases fmt <;> decide +kernel
  · unfold Reaches; cases fmt <;> decide +kernel
  · unfold Reaches; cases fmt <;> decide +kernel
  · cases fmt <;> decide +kernel

/-- Program P3's first block, with exactly the room the format needs. -/
def frameState (fmt : PixelFormat) : State := p3State (compositeOf fmt) (BitVec.ofNat 32 (128 * bpp fmt))

def framePlan : Plan := ⟨[], 6, 5, 8, 0, 17, 6, 21, []⟩

theorem frameState_payload (fmt : PixelFormat) : PayloadReady (frameState fmt) framePlan :=
  { plan := by cases fmt <;> decide +kernel
    fits := by cases fmt <;> decide +kernel
    room := by cases fmt <;> decide +kernel
    reads := by unfold Reaches; cases fmt <;> decide +kernel
    scratch := by unfold Reaches; cases fmt <;> decide +kernel }

theorem witness_CompositeResult (fmt : PixelFormat) :
    let s := frameState fmt
    let place := fun b px => scatterAddr fmt s.regs.dstAddr.toNat s.regs.dstStride.toNat (s.offset b) px
    s.Ready ∧ s.regs.blockCount.toNat = 1 ∧
      Apart [s.regs.dstWindow, s.regs.scrWindow] [s.regs.srcWindow, s.regs.offsWindow] ∧
      Reaches s.cfg s.regs.offsWindow ∧
      (∀ b < 1, (s.offset b + 7 * s.regs.dstStride.toNat + 8) * bpp fmt ≤ s.regs.dstLen.toNat) ∧
      PayloadReady s framePlan ∧ (∀ b < 1, ∀ px < 64, ∀ k < bpp fmt, reachable s.cfg (place b px + k) = true) ∧
      refHuffman s.cfg (s.comp framePlan) framePlan.ds = some (List.replicate 6 0) ∧
      ∃ img, s.image framePlan (List.replicate 6 0) 1 = some img := by
  refine ⟨⟨rfl, rfl, by cases fmt <;> decide +kernel⟩, rfl, ?_, ?_, ?_, frameState_payload fmt, ?_, ?_,
    Option.isSome_iff_exists.mp ?_⟩
  · unfold Apart; cases fmt <;> decide
  · unfold Reaches; cases fmt <;> decide
  · cases fmt <;> decide +kernel
  · cases fmt <;> decide +kernel
  · cases fmt <;> decide +kernel
  · cases fmt <;> decide +kernel

/-- The frame of one block with two bytes of DC-data. -/
def shortFrame (fmt : PixelFormat) : State :=
  started (compositeOf fmt) (fun r =>
    { r with
      blockCount := 1, offsAddr := 0x1100, srcAddr := 0x1000, srcLen := 24, scrAddr := 0x3000, scrLen := 12
      dstAddr := 0x2000, dstLen := 512, dstStride := 16 })
    [(0x1000, [0x06, 0, 0, 0, 0x0C, 0, 0, 0, 0, 0, 0x0C, 0, 0xFF, 0xF0, 0, 0, 0, 0, 2, 0, 0, 0, 0x50, 0]), (0x1100, [8])]

theorem witness_ShortDcDataFaults_frame (fmt : PixelFormat) :
    let s := shortFrame fmt
    let pl : Plan := ⟨[], 12, 6, 8, 0, 18, 2, 22, []⟩
    let place := fun b px => scatterAddr fmt s.regs.dstAddr.toNat s.regs.dstStride.toNat (s.offset b) px
    s.Ready ∧ s.regs.blockCount.toNat = 1 ∧
      Apart [s.regs.dstWindow, s.regs.scrWindow] [s.regs.srcWindow, s.regs.offsWindow] ∧
      Reaches s.cfg s.regs.offsWindow ∧
      (∀ b < 1, (s.offset b + 7 * s.regs.dstStride.toNat + 8) * bpp fmt ≤ s.regs.dstLen.toNat) ∧
      PayloadReady s pl ∧ (∀ b < 1, ∀ px < 64, ∀ k < bpp fmt, reachable s.cfg (place b px + k) = true) ∧
      refHuffman s.cfg (s.comp pl) pl.ds = some (List.replicate 12 0) ∧ pl.dcLen < 3 * s.regs.blockCount.toNat := by
  refine ⟨⟨rfl, rfl, by cases fmt <;> decide +kernel⟩, rfl, ?_, ?_, ?_, ⟨?_, ?_, ?_, ?_, ?_⟩, ?_, ?_,
    by cases fmt <;> decide⟩
  · unfold Apart; cases fmt <;> decide
  · unfold Reaches; cases fmt <;> decide
  · cases fmt <;> decide +kernel
  · cases fmt <;> decide +kernel
  · cases fmt <;> decide
  · cases fmt <;> decide
  · unfold Reaches; cases fmt <;> decide +kernel
  · unfold Reaches; cases fmt <;> decide +kernel
  · cases fmt <;> decide +kernel
  · cases fmt <;> decide +kernel

theorem witness_EmptyFrameOnlyAdvances (fmt : PixelFormat) :
    (started (compositeOf fmt) (fun r => { r with animCount := 3 }) []).regs.blockCount = 0 := rfl

theorem witness_CursorAdvances :
    ((3 : Word) ≠ 0 ∧ (3 : Word).toNat ≤ (2 : Word).toNat + 1) ∧ (1 : Word).toNat + 1 < (3 : Word).toNat ∧
      running.status.err = false ∧ ∃ t, exec .idctBlock running = .next t := ⟨by decide, by decide, rfl, _, rfl⟩

theorem witness_RasterCoversTheImageOnce : badGeometry 8 8 = false ∧ badGeometry 10000 10000 = false := by decide

/-! ### Faults and frames -/

theorem witness_StageCommandsCheckInOrder :
    let s := started .idctBlock
    let touching := s (fun r => { stageRegs 256 256 r with dstAddr := 0x10FF }) []
    let lone := s (fun r => { stageRegs 256 256 r with dstAddr := 0x1100 }) []
    let shortSrc := s (stageRegs 255 256) []
    let shortDst := s (stageRegs 256 255) []
    let shortOut := s (fun r => { stageRegs 256 7 r with hufLen := 8 }) []
    touching.interfered = false ∧ touching.regs.dstWindow.overlaps touching.regs.srcWindow = true ∧
      lone.regs.dstWindow.overlaps lone.regs.srcWindow = false ∧
      (shortSrc.regs.dstWindow.overlaps shortSrc.regs.srcWindow = false ∧ shortSrc.regs.srcLen.toNat < 256) ∧
      (shortDst.regs.dstWindow.overlaps shortDst.regs.srcWindow = false ∧ 256 ≤ shortDst.regs.srcLen.toNat ∧
        shortDst.regs.dstLen.toNat < 256) ∧
      shortOut.regs.dstWindow.overlaps shortOut.regs.srcWindow = false ∧
      shortOut.regs.dstLen.toNat < shortOut.regs.hufLen.toNat := by decide

theorem witness_DecodeImageChecksInOrder :
    let s := p2State .decodeImageRgb24
    (s 10008 192).regs.width.toNat > 10000 ∧ (s 12 192).regs.width.toNat % 8 ≠ 0 ∧
      ¬Apart [(s 8 0x1001).regs.dstWindow, (s 8 0x1001).regs.scrWindow] [(s 8 0x1001).regs.srcWindow] ∧
      Apart [(s 8 191).regs.dstWindow, (s 8 191).regs.scrWindow] [(s 8 191).regs.srcWindow] ∧
      (s 8 191).regs.dstLen.toNat < 8 * 8 * bpp .rgb24 ∧
      (∃ f u, payloadParse testInstance atRest = .error f u) ∧
      ∃ pl u, payloadParse testInstance ((s 8 192).withRegs { (s 8 192).regs with scrLen := 11 }) = .ok pl u ∧
        11 < pl.ds := by
  refine ⟨by decide, by decide, ?_, ?_, by decide, ⟨_, _, rfl⟩, _, _, rfl, by decide +kernel⟩ <;>
    (unfold Apart; decide)

theorem witness_CompositeChecksInOrder :
    let s := p3State .compositeRgb565
    let with' := fun (f : Regs → Regs) => (s 256).withRegs (f (s 256).regs)
    let tooMany := with' fun r => { r with blockCount := 1251 }
    let meeting := with' fun r => { r with offsAddr := 0x20FF }
    let lost := with' fun r => { r with offsAddr := 0xFFFFE }
    let shortScr := with' fun r => { r with scrLen := 5 }
    (0 < tooMany.regs.blockCount.toNat ∧ 10000 < 8 * tooMany.regs.blockCount.toNat) ∧
      (8 * meeting.regs.blockCount.toNat ≤ 10000 ∧
        ¬Apart [meeting.regs.dstWindow, meeting.regs.scrWindow] [meeting.regs.srcWindow, meeting.regs.offsWindow]) ∧
      (Apart [lost.regs.dstWindow, lost.regs.scrWindow] [lost.regs.srcWindow, lost.regs.offsWindow] ∧
        (∀ i < 2, reachable lost.cfg (lost.regs.offsAddr.toNat + i) = true) ∧
        reachable lost.cfg (lost.regs.offsAddr.toNat + 2) = false) ∧
      (Reaches testInstance (s 255).regs.offsWindow ∧
        ¬((s 255).offset 0 + 7 * (s 255).regs.dstStride.toNat + 8) * bpp .rgb565 ≤ (s 255).regs.dstLen.toNat) ∧
      ((s 256).offset 0 + 7 * (s 256).regs.dstStride.toNat + 8) * bpp .rgb565 ≤ (s 256).regs.dstLen.toNat ∧
      (∃ f u, payloadParse testInstance (with' fun r => { r with srcLen := 26 }) = .error f u) ∧
      ∃ pl u, payloadParse testInstance shortScr = .ok pl u ∧ shortScr.regs.scrLen.toNat < pl.ds := by
  refine ⟨by decide, ⟨by decide, ?_⟩, ⟨?_, by decide, by decide⟩, ⟨?_, by decide +kernel⟩, by decide +kernel,
    ⟨_, _, rfl⟩, _, _, rfl, by decide +kernel⟩
  · unfold Apart; decide
  · unfold Apart; decide
  · unfold Reaches; decide

theorem witness_CommandsEndInANextState :
    (∃ t, exec .hufDecode p1State = .next t) ∧ buildsTables .idctBlock = false ∧ decodesSymbols .idctBlock = false ∧
      running.interfered = false ∧ ∃ t, exec .idctBlock running = .next t := ⟨⟨_, rfl⟩, rfl, rfl, rfl, _, rfl⟩

end Sys2Proof.Tests
end

section
/-!
PROOF. The memory port (spec/00_scope.md rule R10, spec/20_memory.md rules R61, R65, R67): what `memRead`, `writeBytes`
and `memWrite` do when every byte can be reached, and where they stop when one cannot.
-/

namespace Sys2Proof.Machine

/-! ### One byte -/

section
variable {p : Params} {s : State} {a : Nat}

theorem readByte_of_reachable (h : reachable p a = true) : readByte p a s = .ok (s.mem.read a) s := if_pos h

theorem readByte_of_not_reachable (h : reachable p a = false) : readByte p a s = .error ⟨.busError, a⟩ s :=
  if_neg (by simp [h])

theorem writeByte_of_reachable (v : Byte) (h : reachable p a = true) :
    writeByte p a v s = .ok () (s.withMem (s.mem.write a v)) := if_pos h

theorem writeByte_of_not_reachable (v : Byte) (h : reachable p a = false) :
    writeByte p a v s = .error ⟨.busError, a⟩ s := if_neg (by simp [h])

end

/-! ### Ranges of addresses -/

/-- A property of the first `n + 1` addresses from `a`, as one of the first and one of the `n` after it. -/
theorem forall_lt_succ_shift {P : Nat → Prop} {a n : Nat} (h : ∀ i < n + 1, P (a + i)) :
    P a ∧ ∀ i < n, P (a + 1 + i) :=
  ⟨h 0 (by omega), fun i hi => by simpa [Nat.add_assoc, Nat.add_comm 1 i] using h (i + 1) (by omega)⟩

/-! ### Reads -/

theorem memRead_of_reaches (p : Params) (n : Nat) :
    ∀ (a : Nat) (s : State), Reaches p ⟨a, n⟩ → memRead p a n s = .ok (s.mem.value a n) s := by
  induction n with
  | zero => exact fun a s _ => rfl
  | succ n ih =>
    intro a s h
    obtain ⟨hfirst, hrest⟩ := forall_lt_succ_shift (P := (reachable p · = true)) h
    simp only [memRead]
    rw [Engine.bind_ok (readByte_of_reachable hfirst), Engine.bind_ok (ih (a + 1) s hrest)]
    rfl

/-- A read stops at the lowest byte that the port cannot reach. -/
theorem memRead_of_not_reachable (p : Params) (k : Nat) :
    ∀ (a n : Nat) (s : State), k < n → (∀ i < k, reachable p (a + i) = true) → reachable p (a + k) = false →
      memRead p a n s = .error ⟨.busError, a + k⟩ s := by
  induction k with
  | zero =>
    rintro a (_ | n) s hk - hbad
    · omega
    · exact Engine.bind_error (readByte_of_not_reachable hbad)
  | succ k ih =>
    rintro a (_ | n) s hk h hbad
    · omega
    · obtain ⟨hfirst, hrest⟩ := forall_lt_succ_shift (P := (reachable p · = true)) h
      have hplace : a + (k + 1) = a + 1 + k := by omega
      rw [hplace] at hbad ⊢
      simp only [memRead]
      rw [Engine.bind_ok (readByte_of_reachable hfirst), Engine.bind_error (ih (a + 1) n s (by omega) hrest hbad)]

/-- The little-endian number as a sum over its bytes (R65). -/
theorem Memory.value_eq_sum (m : Memory) (n : Nat) :
    ∀ a, m.value a n = ∑ k ∈ Finset.range n, (m.read (a + k)).toNat * 256 ^ k := by
  induction n with
  | zero => exact fun a => rfl
  | succ n ih =>
    intro a
    rw [Memory.value, ih, Finset.sum_range_succ', Finset.mul_sum, Nat.add_comm]
    congr 1
    · refine Finset.sum_congr rfl fun k _ => ?_
      rw [show a + 1 + k = a + (k + 1) by omega, pow_succ]
      ring
    · simp

/-- Settles O24: the read gives `Memory.value`, which is the sum over the bytes. -/
theorem memReadIsLittleEndian : Obligations.MemReadIsLittleEndian := by
  intro s a n
  refine ⟨fun h => ?_, fun k hk h hbad => memRead_of_not_reachable s.cfg k a n s hk h hbad⟩
  rw [memRead_of_reaches s.cfg n a s h, Memory.value_eq_sum]

/-! ### Writes -/

/-- Memory after the bytes of a list are stored at ascending addresses: what `writeBytes` leaves
(`writeBytes_of_reachable`). -/
def Memory.writeAll (m : Memory) (a : Nat) : List Byte → Memory
  | [] => m
  | b :: bs => (m.write a b).writeAll (a + 1) bs

theorem Memory.wf_writeAll (l : List Byte) : ∀ (a : Nat) {m : Memory}, m.wf → (m.writeAll a l).wf := by
  induction l with
  | nil => exact fun a m h => h
  | cons b bs ih => exact fun a m h => ih (a + 1) (Memory.wf_write h a b)

theorem Memory.read_writeAll_outside (l : List Byte) :
    ∀ (a : Nat) (m : Memory) (b : Nat), ¬(a ≤ b ∧ b < a + l.length) → (m.writeAll a l).read b = m.read b := by
  induction l with
  | nil => exact fun a m b _ => rfl
  | cons c cs ih =>
    intro a m b hb
    rw [List.length_cons] at hb
    rw [Memory.writeAll, ih (a + 1) _ b (by omega), Memory.read_write_other a b c (by omega)]

theorem Memory.read_writeAll_inside (l : List Byte) :
    ∀ (a : Nat) {m : Memory} (k : Nat) (hk : k < l.length), m.wf → (m.writeAll a l).read (a + k) = l[k] := by
  induction l with
  | nil => exact fun a m k hk _ => absurd hk (Nat.not_lt_zero k)
  | cons b bs ih =>
    intro a m k hk h
    cases k with
    | zero =>
      rw [Memory.writeAll, Memory.read_writeAll_outside bs (a + 1) _ (a + 0) (by omega)]
      exact Memory.read_write_self h a b
    | succ k =>
      rw [show a + (k + 1) = a + 1 + k by omega]
      exact ih (a + 1) k (by simpa using hk) (Memory.wf_write h a b)

theorem writeBytes_of_reachable (p : Params) (l : List Byte) :
    ∀ (a : Nat) (s : State), (∀ i < l.length, reachable p (a + i) = true) →
      writeBytes p a l s = .ok () (s.withMem (s.mem.writeAll a l)) := by
  induction l with
  | nil => exact fun a s _ => rfl
  | cons b bs ih =>
    intro a s h
    obtain ⟨hfirst, hrest⟩ := forall_lt_succ_shift (P := (reachable p · = true)) h
    simp only [writeBytes]
    rw [Engine.bind_ok (writeByte_of_reachable b hfirst), ih (a + 1) _ hrest]
    rfl

/-- A write stops at the lowest byte that the port cannot reach, with the bytes below it stored. -/
theorem writeBytes_of_not_reachable (p : Params) (l : List Byte) :
    ∀ (a k : Nat) (s : State), k < l.length → (∀ i < k, reachable p (a + i) = true) →
      reachable p (a + k) = false →
      writeBytes p a l s = .error ⟨.busError, a + k⟩ (s.withMem (s.mem.writeAll a (l.take k))) := by
  induction l with
  | nil => exact fun a k s hk => absurd hk (Nat.not_lt_zero k)
  | cons b bs ih =>
    intro a k s hk h hbad
    simp only [writeBytes]
    cases k with
    | zero => exact Engine.bind_error (writeByte_of_not_reachable b hbad)
    | succ k =>
      obtain ⟨hfirst, hrest⟩ := forall_lt_succ_shift (P := (reachable p · = true)) h
      rw [show a + (k + 1) = a + 1 + k by omega] at hbad ⊢
      rw [Engine.bind_ok (writeByte_of_reachable b hfirst), ih (a + 1) k _ (by simpa using hk) hrest hbad]
      rfl

/-- Digit `k` in base 256 (R65). -/
theorem bytesOf_getElem (n : Nat) :
    ∀ (v k : Nat) (hk : k < (bytesOf v n).length), (bytesOf v n)[k].toNat = v / 256 ^ k % 256 := by
  induction n with
  | zero => exact fun v k hk => absurd hk (Nat.not_lt_zero k)
  | succ n ih =>
    intro v k hk
    cases k with
    | zero => simp [bytesOf]
    | succ k =>
      simp only [bytesOf, List.getElem_cons_succ]
      rw [ih, Nat.div_div_eq_div_mul, pow_succ, Nat.mul_comm]

theorem sameOutside_writeAll (s : State) (a n : Nat) (l : List Byte) (hn : l.length = n) :
    SameOutside [⟨a, n⟩] s (s.withMem (s.mem.writeAll a l)) := by
  subst hn
  intro b hb
  refine Memory.read_writeAll_outside l a s.mem b fun hin => hb ⟨_, List.mem_singleton_self _, ?_⟩
  rwa [Window.holds_iff]

/-- Settles O25: both outcomes are `writeBytes` on the digits, all of them or those below the failing byte. -/
theorem memWriteIsLittleEndian : Obligations.MemWriteIsLittleEndian := by
  intro s a n v hwf
  constructor
  · intro h
    refine ⟨_, writeBytes_of_reachable s.cfg (bytesOf v n) a s (by rw [bytesOf_length]; exact h), rfl,
      Memory.wf_writeAll _ a hwf, fun k hk => ?_, sameOutside_writeAll s a n _ (bytesOf_length n v)⟩
    have hlen : k < (bytesOf v n).length := by simpa using hk
    rw [State.withMem_mem, Memory.read_writeAll_inside _ a k hlen hwf, bytesOf_getElem]
  · intro k hk h hbad
    refine ⟨_, writeBytes_of_not_reachable s.cfg (bytesOf v n) a k s (by simpa using hk) h hbad, rfl,
      Memory.wf_writeAll _ a hwf, fun i hi => ?_,
      sameOutside_writeAll s a k _ (by rw [List.length_take, bytesOf_length]; omega)⟩
    have hlen : i < ((bytesOf v n).take k).length := by rw [List.length_take, bytesOf_length]; omega
    rw [State.withMem_mem, Memory.read_writeAll_inside _ a i hlen hwf, List.getElem_take, bytesOf_getElem]

end Sys2Proof.Machine
end

section
/-!
PROOF. The step, taken apart once (spec/00_scope.md rule R13): it is one move of the outside world or the engine's turn.
With it the host's moves on its memory (R13, R81).
-/

namespace Sys2Proof.Machine

/-! ### The step -/

theorem step_hostMove {s : State} {m : HostMove} {rest : List HostMove} (hin : s.inputs = m :: rest)
    (hm : m ≠ .engineTurn) : step s = .next (hostMove s.cfg m (s.withInputs rest)) := by
  unfold step turn
  rw [hin]
  cases m with
  | engineTurn => exact absurd rfl hm
  | portWrite | portRead | memWrite | memRead | resetAssert | resetRelease => rfl

theorem step_engineTurn {s : State} {rest : List HostMove} (hin : s.inputs = .engineTurn :: rest) :
    step s = engineTurn (s.withInputs rest) := by
  unfold step turn
  rw [hin]

theorem step_noMove {s : State} (hin : s.inputs = []) : step s = engineTurn (s.withInputs []) := by
  unfold step turn
  rw [hin]
  exact congrArg engineTurn (congrArg s.withInputs hin)

/-- What a step is: a pending move, or the engine's turn. -/
theorem step_cases {s t : State} (h : step s = .next t) :
    ∃ rest, (∃ m, t = hostMove s.cfg m (s.withInputs rest)) ∨ engineTurn (s.withInputs rest) = .next t := by
  cases hin : s.inputs with
  | nil => exact ⟨[], .inr (by rw [← h, step_noMove hin])⟩
  | cons m rest =>
    refine ⟨rest, ?_⟩
    by_cases hm : m = .engineTurn
    · subst hm
      exact .inr (by rw [← h, step_engineTurn hin])
    · rw [step_hostMove hin hm] at h
      exact .inl ⟨m, (Host.Outcome.next.inj h).symm⟩

/-! ### The host's memory -/

section
variable {p : Params} {a : Word} {s : State}

theorem hostMemWrite_of_reachable (v : Byte) (h : reachable p a.toNat = true) :
    hostMemWrite p a v s = (s.withMem (s.mem.write a.toNat v)).withInterfered
      (s.interfered || s.allWindows.any fun w => w.holds a.toNat) := if_pos h

theorem hostMemWrite_of_not_reachable (v : Byte) (h : ¬reachable p a.toNat = true) : hostMemWrite p a v s = s :=
  if_neg h

/-- What a host read can do: nothing, or return a byte, for which it may draw a free value. -/
theorem hostMemRead_cases (p : Params) (a : Word) (s : State) :
    hostMemRead p a s = s ∨ ∃ b n, hostMemRead p a s = (s.withMemData b).withDraws n := by
  unfold hostMemRead
  split
  · split
    · exact .inr ⟨_, _, rfl⟩
    · exact .inr ⟨s.mem.read a.toNat, s.draws, rfl⟩
  · exact .inl rfl

end

theorem any_holds_iff (ws : List Window) (a : Nat) : (ws.any fun w => w.holds a) = true ↔ inWindows ws a :=
  List.any_eq_true

/-- Settles O21: each move is one memory operation, so the laws of a read after a write give the frame. -/
theorem hostMemoryMoves : Obligations.HostMemoryMoves := by
  constructor
  · intro s a v rest hwf hin hr
    refine ⟨_, step_hostMove hin (by simp), ?_⟩
    rw [hostMove, hostMemWrite_of_reachable v hr]
    refine ⟨Memory.read_write_self hwf _ v, fun b hb => Memory.read_write_other _ b v hb, Memory.wf_write hwf _ v,
      rfl, rfl, rfl, rfl, ?_⟩
    have hw : (s.withInputs rest).allWindows = s.allWindows := rfl
    rw [State.withInterfered_interfered, Bool.or_eq_true, any_holds_iff, hw, State.withInputs_interfered]
  · intro s a rest hin hr
    have hw : (s.withInputs rest).outputWindows = s.outputWindows := rfl
    rw [step_hostMove hin (by simp), hostMove, hostMemRead, if_pos hr, hw, ← any_holds_iff]
    exact ⟨fun h => by rw [if_neg h]; rfl, fun h => by rw [if_pos h]; rfl⟩

end Sys2Proof.Machine
end

section
/-!
PROOF. What every command keeps from its start to its end, whatever it is and however it ends: the parameters
(spec/00_scope.md rule R6), sound memory, bounded tables (spec/10_state.md rule R33), and a fault record that R250 can
write.
-/

namespace Sys2Proof.Machine

/-! ### Sound memory and bounded tables -/

/-- Memory is canonical and lists only bytes the port reaches (log entries 2 and 16). -/
def Memory.Sound (p : Params) (m : Memory) : Prop := m.wf ∧ ∀ c ∈ m, reachable p c.1 = true

theorem Memory.Sound.write {p : Params} {m : Memory} (h : m.Sound p) {a : Nat} (v : Byte)
    (ha : reachable p a = true) : (m.write a v).Sound p := by
  refine ⟨Memory.wf_write h.1 a v, fun c hc => ?_⟩
  rcases Memory.mem_write m a v c hc with hc | ⟨rfl, -⟩
  · exact h.2 c hc
  · exact ha

theorem Memory.Sound.havocWindows {p : Params} {m : Memory} (h : m.Sound p) (draw : Nat) (ws : List Window) :
    (havocWindows p draw ws m).Sound p :=
  ⟨Memory.wf_havocWindows p draw ws h.1, fun c hc =>
    (Memory.mem_havocWindows p draw ws m c hc).elim (h.2 c) id⟩

/-- R33: no table entry is above 2039. -/
def Regs.TablesBounded (r : Regs) : Prop :=
  ∀ i : Fin 64, r.lumaQ[i.val].toNat ≤ 2039 ∧ r.chromaQ[i.val].toNat ≤ 2039

/-- R141: a scaled entry is at most 255 and a multiplier below 2^16, so a final entry is at most 2039 (R33). -/
theorem finalEntry_le (base mult : BitVec 16) (q : Nat) : (finalEntry base mult q).toNat ≤ 2039 := by
  have hscaled : scaledEntry base q ≤ 255 := min_le_left _ _
  have hmult : mult.toNat ≤ 65535 := by have := mult.isLt; omega
  have hprod : scaledEntry base q * mult.toNat ≤ 255 * 65535 := Nat.mul_le_mul hscaled hmult
  rw [finalEntry, BitVec.toNat_ofNat, Nat.shiftRight_eq_div_pow]
  omega

theorem finalTable_le (base mult : Vector (BitVec 16) 64) (q : Nat) (i : Fin 64) :
    (finalTable base mult q)[i.val].toNat ≤ 2039 := by
  rw [finalTable, Vector.getElem_zipWith]
  exact finalEntry_le _ _ q

/-! ### What the engine keeps -/

/-- What every part of a command keeps, its end and its havoc among them. -/
structure SoundFrame (p : Params) (s t : State) : Prop where
  cfg : t.cfg = s.cfg
  mem : s.mem.Sound p → t.mem.Sound p
  tables : s.regs.TablesBounded → t.regs.TablesBounded

/-- What a command's body keeps: as every part of the command, and the fault record too, which only R252 writes. -/
structure EngineFrame (p : Params) (s t : State) : Prop extends SoundFrame p s t where
  err : t.status.err = s.status.err
  errcode : t.status.errcode = s.status.errcode

theorem SoundFrame.refl (p : Params) (s : State) : SoundFrame p s s := ⟨rfl, id, id⟩

theorem SoundFrame.trans {p : Params} {s t u : State} (h : SoundFrame p s t) (k : SoundFrame p t u) :
    SoundFrame p s u :=
  ⟨k.cfg.trans h.cfg, k.mem ∘ h.mem, k.tables ∘ h.tables⟩

theorem EngineFrame.refl (p : Params) (s : State) : EngineFrame p s s := ⟨.refl p s, rfl, rfl⟩

theorem EngineFrame.trans {p : Params} {s t u : State} (h : EngineFrame p s t) (k : EngineFrame p t u) :
    EngineFrame p s u :=
  ⟨h.toSoundFrame.trans k.toSoundFrame, k.err.trans h.err, k.errcode.trans h.errcode⟩

theorem setWarning_err (t : Status) (w : Warning) : (t.setWarning w).err = t.err := by cases w <;> rfl

theorem setWarning_errcode (t : Status) (w : Warning) : (t.setWarning w).errcode = t.errcode := by cases w <;> rfl

theorem engineRel_engineFrame (p : Params) (W : Nat → Prop) : EngineRel p W (EngineFrame p) where
  refl := EngineFrame.refl p
  trans _ _ _ := EngineFrame.trans
  hidden _ _ := ⟨⟨rfl, id, id⟩, rfl, rfl⟩
  warning s w := ⟨⟨rfl, id, id⟩, setWarning_err s.status w, setWarning_errcode s.status w⟩
  byte _ _ v _ hr := ⟨⟨rfl, fun h => h.write v hr, id⟩, rfl, rfl⟩
  hufOut _ _ := ⟨⟨rfl, id, id⟩, rfl, rfl⟩

theorem keeps_qtBuildTables_engineFrame (p : Params) : Keeps (EngineFrame p) (qtBuildTables p) := fun _ =>
  ⟨⟨rfl, id, fun _ i => ⟨finalTable_le _ _ _ i, finalTable_le _ _ _ i⟩⟩, rfl, rfl⟩

theorem keeps_advanceCursor_engineFrame (p : Params) : Keeps (EngineFrame p) advanceCursor := fun _ =>
  ⟨⟨rfl, id, id⟩, rfl, rfl⟩

/-! ### The end of a command -/

section
variable (p : Params) (s : State)

theorem soundFrame_havoc (ws : List Window) : SoundFrame p s (havoc p ws s) :=
  ⟨rfl, fun h => h.havocWindows s.draws ws, id⟩

theorem soundFrame_endCommand : SoundFrame p s (endCommand s) := ⟨rfl, id, id⟩

theorem soundFrame_takeFault (f : CmdFault) : SoundFrame p s (takeFault f s) := ⟨rfl, id, id⟩

theorem soundFrame_settle (W : List Window) : SoundFrame p s (settle p W s) := by
  unfold settle
  split
  · have h := soundFrame_havoc p s W
    exact ⟨h.cfg, h.mem, h.tables⟩
  · exact .refl p s

@[simp] theorem settle_status (W : List Window) : (settle p W s).status = s.status := by
  unfold settle; split <;> rfl

@[simp] theorem settle_phase (W : List Window) : (settle p W s).phase = s.phase := by
  unfold settle; split <;> rfl

/-- R81: the mark of interference does not outlive the command. -/
@[simp] theorem settle_interfered (W : List Window) : (settle p W s).interfered = false := by
  unfold settle
  split
  · rfl
  · next h => simpa using h

end

/-- R250: a fault code is one of 1..9. -/
theorem FaultCode.toByte_bounds (c : FaultCode) : c.toByte.toNat ≤ 9 ∧ c.toByte ≠ 0 := by
  cases c <;> decide

/-- The fault record after a command: as it was (R32), or one that R252 wrote. -/
def RecordsFault (old new : Status) : Prop :=
  (new.err = old.err ∧ new.errcode = old.errcode) ∨ (new.err = true ∧ ∃ c : FaultCode, new.errcode = c.toByte)

/-- What the end of a command leaves, whatever the command and however it ends (R32, R81, R252). -/
structure CommandEnd (s t : State) : Prop extends SoundFrame s.cfg s t where
  idle : t.phase = .idle
  busy : t.status.busy = false
  unmarked : t.interfered = false
  record : RecordsFault s.status t.status

/-- R32: a command that reaches its end without a fault. -/
theorem commandEnd_of_endCommand (W : List Window) {s u : State} (h : EngineFrame s.cfg s u) :
    CommandEnd s (settle s.cfg W (endCommand u)) where
  toSoundFrame := h.toSoundFrame.trans <| (soundFrame_endCommand s.cfg u).trans <| soundFrame_settle s.cfg _ W
  idle := settle_phase ..
  busy := by rw [settle_status]; rfl
  unmarked := settle_interfered ..
  record := by rw [settle_status]; exact .inl ⟨h.err, h.errcode⟩

/-- R252: a command that a fault ends. -/
theorem commandEnd_of_takeFault (W : List Window) (f : CmdFault) {s u : State} (h : SoundFrame s.cfg s u) :
    CommandEnd s (settle s.cfg W (takeFault f u)) where
  toSoundFrame := h.trans <| (soundFrame_takeFault s.cfg u f).trans <| soundFrame_settle s.cfg _ W
  idle := settle_phase ..
  busy := by rw [settle_status]; rfl
  unmarked := settle_interfered ..
  record := by rw [settle_status]; exact .inr ⟨rfl, f.code, rfl⟩

/-- A command whose pre-checks change nothing and whose body keeps the frame. -/
theorem commandEnd_perform (W : List Window) {check : Engine Plan} {body : Plan → Engine Unit} {s : State}
    (hcheck : Pure check)
    (hbody : ∀ plan, check s = .ok plan s → EngineFrame s.cfg s (finalState (body plan s))) :
    CommandEnd s (perform s.cfg W check body s) := by
  obtain ⟨f, s1, hc, he⟩ | ⟨plan, s1, f, s2, hc, hb, he⟩ | ⟨plan, s1, s2, hc, hb, he⟩ :=
    perform_cases s.cfg W check body s
  · obtain rfl := hcheck.error hc
    rw [he]
    exact commandEnd_of_takeFault W f (.refl _ _)
  · obtain rfl := hcheck.ok hc
    have h := hbody plan hc
    rw [hb] at h
    rw [he]
    exact commandEnd_of_takeFault W f (h.toSoundFrame.trans (soundFrame_havoc _ s2 plan.footprint))
  · obtain rfl := hcheck.ok hc
    have h := hbody plan hc
    rw [hb] at h
    rw [he]
    exact commandEnd_of_endCommand W h

theorem commandEnd_exec {i : Instr} {s t : State} (h : exec i s = .next t) : CommandEnd s t := by
  rw [exec_eq_perform] at h
  rw [← Host.Outcome.next.inj h]
  exact commandEnd_perform _ (pure_commandCheck i) fun plan hc =>
    keeps_commandBody i (engineRel_engineFrame s.cfg _) (keeps_qtBuildTables_engineFrame s.cfg)
      (keeps_advanceCursor_engineFrame s.cfg) hc

theorem commandEnd_illegalCommand (s : State) : CommandEnd s (illegalCommand s.cfg s) :=
  commandEnd_perform [] (fun _ => rfl) fun _ _ => .refl _ s

/-- What the engine's turn does: nothing when idle (R271), else a command from its start to its end. -/
theorem engineTurn_cases {s t : State} (h : engineTurn s = .next t) : t = s ∨ CommandEnd s t := by
  unfold engineTurn at h
  split at h
  · exact .inl (Host.Outcome.next.inj h).symm
  · exact .inr (commandEnd_exec h)
  · rw [← Host.Outcome.next.inj h]
    exact .inr (commandEnd_illegalCommand s)

end Sys2Proof.Machine
end

section
/-!
PROOF. What a move of the outside world can do (spec/10_state.md rules R20-R31, spec/70_reset_and_hazards.md rules R280,
R281), said once, and from it and the end of a command the two facts of every step: it keeps the parameters (R6) and the
machine's invariant.
-/

namespace Sys2Proof.Machine

/-! ### The moves of the outside world -/

/-- What one move of the outside world can make of a state, each change with the condition it comes under. -/
inductive HostEffect (p : Params) (s : State) : State → Prop where
  | nothing : HostEffect p s s
  | irqEn (b : Bool) : HostEffect p s (s.withIrqEn b)
  | hazard (b : Bool) : s.status.busy = true → HostEffect p s (dropWithHazard (s.withIrqEn b))
  | start (b : Bool) : s.status.busy = false → s.resetHeld = false → HostEffect p s (acceptStart (s.withIrqEn b))
  | softReset : HostEffect p s (softReset p s)
  | resetAssert : HostEffect p s ((softReset p s).withResetHeld true)
  | resetRelease : HostEffect p s (s.withResetHeld false)
  | acknowledge (v : Word) : HostEffect p s (s.withStatus (s.status.clearedBy v))
  | store (c : Csr) (v : Word) : s.status.busy = false → HostEffect p s (s.withRegs (c.store s.regs v))
  | portAnswer (w : Word) (n : Nat) : HostEffect p s ((s.withPortData w).withDraws n)
  | memWrite (a : Word) (v : Byte) : HostEffect p s (hostMemWrite p a v s)
  | memAnswer (b : Byte) (n : Nat) : HostEffect p s ((s.withMemData b).withDraws n)

section
variable (p : Params) (s : State)

theorem writeCtrl_effect (v : Word) (hheld : s.resetHeld = false) : HostEffect p s (writeCtrl p v s) := by
  unfold writeCtrl
  split
  · exact .softReset
  · dsimp only
    split
    · split
      · next hbusy => exact .hazard _ hbusy
      · next hbusy => exact .start _ (Bool.eq_false_of_not_eq_true hbusy) hheld
    · exact .irqEn _

/-- A write to a locked register (R25, R31). -/
theorem lockedStore_effect (c : Csr) (v : Word) :
    HostEffect p s (if s.status.busy then dropWithHazard s else s.withRegs (c.store s.regs v)) := by
  split
  · next hbusy => exact .hazard s.irqEn hbusy
  · next hbusy => exact .store c v (Bool.eq_false_of_not_eq_true hbusy)

theorem writeCsr_effect (c : Csr) (v : Word) (hheld : s.resetHeld = false) : HostEffect p s (writeCsr p c v s) := by
  cases c with
  | ctrl => exact writeCtrl_effect p s v hheld
  | status => exact .acknowledge v
  | id | hufOut | faultInfo | lumaQ | chromaQ => exact .nothing
  | cmd | srcAddr | srcLen | dstAddr | dstLen | scrAddr | scrLen | width | height | quality | dstStride | offsAddr
  | blockCount | hufLen | animCount | animCur => exact lockedStore_effect p s _ v

theorem portWrite_effect (a : Word) (size : AccessSize) (v : Word) : HostEffect p s (portWrite p a size v s) := by
  unfold portWrite
  split
  · exact .nothing
  · split
    · exact .nothing
    · next hopen =>
      have hheld : s.resetHeld = false := by simp only [Bool.or_eq_true, not_or] at hopen; simpa using hopen.1
      split
      · exact .nothing
      · exact writeCsr_effect p s _ v hheld

theorem readCsr_effect (c : Csr) : HostEffect p s (readCsr c s) := by
  unfold readCsr
  split
  · exact .portAnswer _ _
  · exact .portAnswer (c.read s) s.draws

theorem portRead_effect (a : Word) (size : AccessSize) : HostEffect p s (portRead p a size s) := by
  unfold portRead
  split
  · exact .nothing
  · split
    · exact .portAnswer 0 s.draws
    · split
      · exact .portAnswer 0 s.draws
      · exact readCsr_effect p s _

theorem hostMemRead_effect (a : Word) : HostEffect p s (hostMemRead p a s) := by
  obtain h | ⟨b, n, h⟩ := hostMemRead_cases p a s
  · rw [h]; exact .nothing
  · rw [h]; exact .memAnswer b n

theorem hostMove_effect (m : HostMove) : HostEffect p s (hostMove p m s) := by
  cases m with
  | portWrite a size v => exact portWrite_effect p s a size v
  | portRead a size => exact portRead_effect p s a size
  | memWrite a v => exact .memWrite a v
  | memRead a => exact hostMemRead_effect p s a
  | resetAssert => exact .resetAssert
  | resetRelease => exact .resetRelease
  | engineTurn => exact .nothing

end

/-! ### The parameters -/

theorem hostMemWrite_cfg (p : Params) (a : Word) (v : Byte) (s : State) : (hostMemWrite p a v s).cfg = s.cfg := by
  unfold hostMemWrite; split <;> rfl

/-- R281: whatever a cancelled command leaves, it is sound. -/
theorem soundFrame_cancel (p : Params) (s : State) : SoundFrame p s (cancel p s) := by
  unfold cancel
  split
  · exact soundFrame_havoc p s _
  · exact .refl p s
  · exact .refl p s

theorem softReset_cfg (p : Params) (s : State) : (softReset p s).cfg = s.cfg := (soundFrame_cancel p s).cfg

theorem HostEffect.cfg {p : Params} {s t : State} (h : HostEffect p s t) : t.cfg = s.cfg := by
  cases h with
  | memWrite a v => exact hostMemWrite_cfg p a v s
  | softReset | resetAssert => exact softReset_cfg p s
  | nothing | irqEn | hazard | start | resetRelease | acknowledge | store | portAnswer | memAnswer => rfl

theorem engineTurn_cfg {s t : State} (h : engineTurn s = .next t) : t.cfg = s.cfg := by
  obtain rfl | hend := engineTurn_cases h
  · rfl
  · exact hend.cfg

/-- Settles O8: neither a move of the outside world nor a command writes the parameters. -/
theorem stepKeepsTheParameters : Obligations.StepKeepsTheParameters := by
  intro s t h
  obtain ⟨rest, ⟨m, rfl⟩ | hturn⟩ := step_cases h
  · exact (hostMove_effect s.cfg (s.withInputs rest) m).cfg
  · exact (engineTurn_cfg hturn).trans (State.withInputs_cfg s rest)

/-! ### STATUS and the registers under the host's writes -/

theorem hazard_warned (t : Status) (w : Warning) : t.hazard.warned w = t.warned w := by cases w <;> rfl

theorem started_warned (t : Status) (w : Warning) : t.started.warned w = false := by cases w <;> rfl

/-- Clearing bits raises no warning (R28). -/
theorem clearedBy_warned {t : Status} {w : Warning} (v : Word) (h : t.warned w = false) :
    (t.clearedBy v).warned w = false := by
  cases w <;> exact Bool.and_eq_false_imp.mpr fun hold => absurd (h.symm.trans hold) (by decide)

/-- The tables are not host-writable (R29, R33). -/
theorem store_tables (c : Csr) (r : Regs) (v : Word) :
    (c.store r v).lumaQ = r.lumaQ ∧ (c.store r v).chromaQ = r.chromaQ := by
  cases c <;> exact ⟨rfl, rfl⟩

theorem phaseOf_ne_idle (w : Word) : phaseOf w ≠ .idle := by
  unfold phaseOf; split <;> simp

theorem Regs.reset_tablesBounded : Regs.reset.TablesBounded := fun i => by
  simp [Regs.reset, Block.zero]

/-! ### The invariant under each change -/

section
variable {s : State} (h : s.Inv)
include h

theorem State.Inv.sound : s.mem.Sound s.cfg := ⟨h.canonical, h.reached⟩

theorem State.Inv.idle_of_not_busy (hbusy : s.status.busy = false) : s.phase = .idle := by
  by_contra hrun
  simp [h.busyRuns.mpr hrun] at hbusy

theorem State.Inv.unmarked_of_not_busy (hbusy : s.status.busy = false) : s.interfered = false := by
  by_contra hmark
  simp [h.marked (by simpa using hmark)] at hbusy

theorem State.Inv.withInputs (l : List HostMove) : (s.withInputs l).Inv := { h with }

theorem State.Inv.withIrqEn (b : Bool) : (s.withIrqEn b).Inv := { h with }

theorem State.Inv.withDraws (n : Nat) : (s.withDraws n).Inv := { h with }

theorem State.Inv.withPortData (w : Word) : (s.withPortData w).Inv := { h with }

theorem State.Inv.withMemData (b : Byte) : (s.withMemData b).Inv := { h with }

theorem State.Inv.release : (s.withResetHeld false).Inv :=
  { h with held := fun hheld => absurd hheld Bool.false_ne_true }

theorem State.Inv.dropWithHazard : (dropWithHazard s).Inv :=
  { h with
    started := fun hbusy => by
      obtain ⟨hdone, herr, hcode, hwarn, hrest⟩ := h.started hbusy
      exact ⟨hdone, herr, hcode, fun w => (hazard_warned s.status w).trans (hwarn w), hrest⟩ }

theorem State.Inv.acknowledge (v : Word) : (s.withStatus (s.status.clearedBy v)).Inv :=
  { h with
    errHasCode := fun herr => h.errHasCode (Bool.and_eq_true_iff.mp herr).1
    started := fun hbusy => by
      obtain ⟨hdone, herr, hcode, hwarn, hrest⟩ := h.started hbusy
      exact ⟨by simp [Status.clearedBy, hdone], by simp [Status.clearedBy, herr], hcode,
        fun w => clearedBy_warned v (hwarn w), hrest⟩ }

/-- R31: registers are stored to only while BUSY = 0, when nothing ties them to a running command. -/
theorem State.Inv.store (c : Csr) (v : Word) (hbusy : s.status.busy = false) :
    (s.withRegs (c.store s.regs v)).Inv :=
  { h with
    started := fun hrun => absurd (hbusy.symm.trans hrun) Bool.false_ne_true
    tables := by
      obtain ⟨hluma, hchroma⟩ := store_tables c s.regs v
      simpa only [State.withRegs_regs, hluma, hchroma] using h.tables }

/-- R30: START brings about every clause on a running command at once. -/
theorem State.Inv.acceptStart (hheld : s.resetHeld = false) : (acceptStart s).Inv :=
  { h with
    busyRuns := ⟨fun _ => phaseOf_ne_idle s.regs.cmd, fun _ => rfl⟩
    errcode := Nat.zero_le 9
    errHasCode := fun herr => absurd herr Bool.false_ne_true
    started := fun _ => ⟨rfl, rfl, rfl, started_warned s.status, rfl, rfl, rfl, rfl⟩
    marked := fun _ => rfl
    held := fun hheld' => absurd (hheld.symm.trans hheld') Bool.false_ne_true }

/-- R280: the reset values meet every clause, and what reset leaves of a cancelled command's memory is sound. -/
theorem State.Inv.softReset : (softReset s.cfg s).Inv := by
  have hframe := soundFrame_cancel s.cfg s
  obtain ⟨hwf, hreach⟩ := hframe.mem h.sound
  exact
    { legal := by rw [softReset_cfg]; exact h.legal
      canonical := hwf
      reached := by rw [softReset_cfg]; exact hreach
      busyRuns := ⟨fun hbusy => absurd hbusy Bool.false_ne_true, fun hrun => absurd rfl hrun⟩
      errcode := Nat.zero_le 9
      errHasCode := fun herr => absurd herr Bool.false_ne_true
      started := fun hbusy => absurd hbusy Bool.false_ne_true
      marked := fun hmark => absurd hmark Bool.false_ne_true
      held := fun _ => rfl
      tables := Regs.reset_tablesBounded }

theorem State.Inv.resetAssert : ((Machine.softReset s.cfg s).withResetHeld true).Inv :=
  { h.softReset with held := fun _ => rfl }

/-- R81: only a running command has windows, so interference is marked only while BUSY = 1. -/
theorem State.Inv.busy_of_window {a : Nat} (hw : inWindows s.allWindows a) : s.status.busy = true := by
  refine h.busyRuns.mpr fun hidle => ?_
  obtain ⟨w, hmem, -⟩ := hw
  simp [State.allWindows, hidle] at hmem

theorem State.Inv.hostMemWrite (a : Word) (v : Byte) : (hostMemWrite s.cfg a v s).Inv := by
  by_cases hr : reachable s.cfg a.toNat = true
  · rw [hostMemWrite_of_reachable v hr]
    obtain ⟨hwf, hreach⟩ := h.sound.write v hr
    exact
      { h with
        canonical := hwf
        reached := hreach
        marked := fun hmark => by
          rw [State.withInterfered_interfered, Bool.or_eq_true, any_holds_iff] at hmark
          exact hmark.elim h.marked h.busy_of_window }
  · rw [hostMemWrite_of_not_reachable v hr]
    exact h

theorem State.Inv.hostEffect {t : State} (heff : HostEffect s.cfg s t) : t.Inv := by
  cases heff with
  | nothing => exact h
  | irqEn b => exact h.withIrqEn b
  | hazard b _ => exact (h.withIrqEn b).dropWithHazard
  | start b _ hheld => exact (h.withIrqEn b).acceptStart hheld
  | softReset => exact h.softReset
  | resetAssert => exact h.resetAssert
  | resetRelease => exact h.release
  | acknowledge v => exact h.acknowledge v
  | store c v hbusy => exact h.store c v hbusy
  | portAnswer w n => exact (h.withPortData w).withDraws n
  | memWrite a v => exact h.hostMemWrite a v
  | memAnswer b n => exact (h.withMemData b).withDraws n

/-- The fault record after a command is one R250 can write. -/
theorem State.Inv.record {new : Status} (hrec : RecordsFault s.status new) :
    new.errcode.toNat ≤ 9 ∧ (new.err = true → new.errcode ≠ 0) := by
  obtain ⟨herr, hcode⟩ | ⟨-, c, hcode⟩ := hrec
  · rw [herr, hcode]
    exact ⟨h.errcode, h.errHasCode⟩
  · rw [hcode]
    exact ⟨c.toByte_bounds.1, fun _ => c.toByte_bounds.2⟩

theorem State.Inv.commandEnd {t : State} (hend : CommandEnd s t) : t.Inv := by
  obtain ⟨hwf, hreach⟩ := hend.mem h.sound
  obtain ⟨hcode, herr⟩ := h.record hend.record
  exact
    { legal := hend.cfg ▸ h.legal
      canonical := hwf
      reached := hend.cfg ▸ hreach
      busyRuns := ⟨fun hbusy => absurd (hend.busy.symm.trans hbusy) Bool.false_ne_true,
        fun hrun => absurd hend.idle hrun⟩
      errcode := hcode
      errHasCode := herr
      started := fun hbusy => absurd (hend.busy.symm.trans hbusy) Bool.false_ne_true
      marked := fun hmark => absurd (hend.unmarked.symm.trans hmark) Bool.false_ne_true
      held := fun _ => hend.idle
      tables := hend.tables h.tables }

theorem State.Inv.engineTurn {t : State} (hturn : engineTurn s = .next t) : t.Inv := by
  obtain rfl | hend := engineTurn_cases hturn
  · exact h
  · exact h.commandEnd hend

end

/-- Settles O6: a step is a move of the outside world or the engine's turn, and each change either can make keeps every
clause of the invariant. -/
theorem stepKeepsTheInvariant : Obligations.StepKeepsTheInvariant := by
  intro s t h hstep
  obtain ⟨rest, ⟨m, rfl⟩ | hturn⟩ := step_cases hstep
  · exact (h.withInputs rest).hostEffect (hostMove_effect s.cfg (s.withInputs rest) m)
  · exact (h.withInputs rest).engineTurn hturn

end Sys2Proof.Machine
end

section
/-!
PROOF. The register map (spec/10_state.md rules R23, R25): which register stands at which offset of the window.
-/

namespace Sys2Proof.Machine

/-! ### The three ranges of the map -/

theorem csrAt_low {off : Nat} (h : off < 0x100) : csrAt off = csrTable.lookup off := if_pos h

theorem csrAt_lumaQ_range {off : Nat} (hlo : 0x100 ≤ off) (hhi : off < 0x200) :
    csrAt off = some (.lumaQ (Fin.ofNat 64 ((off - 0x100) / 4))) := by
  rw [csrAt, if_neg (by omega), if_pos hhi]

theorem csrAt_chromaQ_range {off : Nat} (hlo : 0x200 ≤ off) (hhi : off < 0x300) :
    csrAt off = some (.chromaQ (Fin.ofNat 64 ((off - 0x200) / 4))) := by
  rw [csrAt, if_neg (by omega), if_neg (by omega), if_pos hhi]

theorem csrAt_high {off : Nat} (h : 0x300 ≤ off) : csrAt off = none := by
  rw [csrAt, if_neg (by omega), if_neg (by omega), if_neg (by omega)]

theorem csrAt_lumaQ (i : Fin 64) : csrAt (0x100 + 4 * i.val) = some (.lumaQ i) := by
  rw [csrAt_lumaQ_range (by omega) (by omega)]
  simp

theorem csrAt_chromaQ (i : Fin 64) : csrAt (0x200 + 4 * i.val) = some (.chromaQ i) := by
  rw [csrAt_chromaQ_range (by omega) (by omega)]
  simp

/-! ### Offsets -/

/-- Every register of the map is found at its offset. -/
theorem csrAt_offset (c : Csr) : csrAt c.offset = some c := by
  cases c with
  | lumaQ i => exact csrAt_lumaQ i
  | chromaQ i => exact csrAt_chromaQ i
  | id | ctrl | cmd | status | srcAddr | srcLen | dstAddr | dstLen | scrAddr | scrLen | width | height | quality
  | dstStride | offsAddr | blockCount | hufLen | hufOut | animCount | animCur | faultInfo => rfl

theorem Csr.offset_bounds (c : Csr) : c.offset < 4096 ∧ c.offset % 4 = 0 := by
  cases c with
  | lumaQ i | chromaQ i => simp only [Csr.offset]; omega
  | id | ctrl | cmd | status | srcAddr | srcLen | dstAddr | dstLen | scrAddr | scrLen | width | height | quality
  | dstStride | offsAddr | blockCount | hufLen | hufOut | animCount | animCur | faultInfo => decide

theorem csrTable_offsets : ∀ e ∈ csrTable, e.2.offset = e.1 := by decide

theorem offset_of_csrAt {off : Nat} {c : Csr} (halign : off % 4 = 0) (h : csrAt off = some c) : c.offset = off := by
  rcases lt_or_ge off 0x100 with hlow | hlow
  · rw [csrAt_low hlow, List.lookup_eq_some_iff] at h
    obtain ⟨before, after, htable, -⟩ := h
    exact csrTable_offsets (off, c) (by simp [htable])
  rcases lt_or_ge off 0x200 with hluma | hluma
  · obtain rfl := Option.some.inj ((csrAt_lumaQ_range hlow hluma).symm.trans h)
    simp only [Csr.offset, Fin.val_ofNat]
    omega
  rcases lt_or_ge off 0x300 with hchroma | hchroma
  · obtain rfl := Option.some.inj ((csrAt_chromaQ_range hluma hchroma).symm.trans h)
    simp only [Csr.offset, Fin.val_ofNat]
    omega
  · simp [csrAt_high hchroma] at h

theorem csrAt_eq_some_iff {off : Nat} {c : Csr} (halign : off % 4 = 0) : csrAt off = some c ↔ c.offset = off :=
  ⟨offset_of_csrAt halign, fun h => h ▸ csrAt_offset c⟩

/-- R25: the reserved offsets. -/
theorem csrAt_eq_none_iff {off : Nat} (halign : off % 4 = 0) :
    csrAt off = none ↔ (0x050 < off ∧ off < 0x100) ∨ 0x300 ≤ off := by
  rcases lt_or_ge off 0x100 with hlow | hlow
  · rw [csrAt_low hlow, List.lookup_eq_none_iff]
    simp only [csrTable, List.forall_mem_cons, bne_iff_ne, List.not_mem_nil, false_imp_iff, implies_true, and_true]
    omega
  rcases lt_or_ge off 0x200 with hluma | hluma
  · simp only [csrAt_lumaQ_range hlow hluma, reduceCtorEq, false_iff]
    omega
  rcases lt_or_ge off 0x300 with hchroma | hchroma
  · simp only [csrAt_chromaQ_range hluma hchroma, reduceCtorEq, false_iff]
    omega
  · simp [csrAt_high hchroma, hchroma]

/-- Settles O15: the table below 0x100, the two ranges above it, and the register at an offset in both directions. -/
theorem registerMapFollowsTheOffsets : Obligations.RegisterMapFollowsTheOffsets :=
  ⟨rfl, fun i => ⟨csrAt_lumaQ i, csrAt_chromaQ i⟩, fun _ => csrAt_eq_none_iff, fun _ _ => csrAt_eq_some_iff,
    Csr.offset_bounds, fun c c' h => Option.some.inj <| by rw [← csrAt_offset c, h, csrAt_offset c']⟩

end Sys2Proof.Machine
end

section
/-!
PROOF. The register port (spec/10_state.md rules R23-R31): an access that reaches a register is one operation on it, and
every other access does nothing; what that operation is for each kind of register; and what a read sees after a store.
-/

namespace Sys2Proof.Machine

/-! ### Accesses that reach a register, and those that reach none -/

theorem wholeWord_eq_false_iff {size : AccessSize} {off : Nat} :
    wholeWord size off = false ↔ size ≠ .word ∨ off % 4 ≠ 0 := by
  simp only [wholeWord, Bool.and_eq_false_iff, decide_eq_false_iff_not]

theorem wholeWord_offset (c : Csr) : wholeWord .word c.offset = true := by
  simp [wholeWord, c.offset_bounds.2]

section
variable {p : Params} {a : Word} {size : AccessSize} {off : Nat} {s : State}

theorem portWrite_of_reaches {c : Csr} (v : Word) (hoff : portOffset p a = some c.offset)
    (hheld : s.resetHeld = false) : portWrite p a .word v s = writeCsr p c v s := by
  simp [portWrite, hoff, hheld, wholeWord_offset, csrAt_offset]

theorem portRead_of_reaches {c : Csr} (hoff : portOffset p a = some c.offset) :
    portRead p a .word s = readCsr c s := by
  simp [portRead, hoff, wholeWord_offset, csrAt_offset]

theorem portWrite_of_unreached (v : Word) (hoff : portOffset p a = some off)
    (h : wholeWord size off = false ∨ csrAt off = none) : portWrite p a size v s = s := by
  obtain h | h := h <;> simp [portWrite, hoff, h]

theorem portRead_of_unreached (hoff : portOffset p a = some off) (h : wholeWord size off = false ∨ csrAt off = none) :
    portRead p a size s = s.withPortData 0 := by
  obtain h | h := h <;> simp [portRead, hoff, h]

/-- R23, R24: a host write does nothing, or it is a write to the register at its offset. -/
theorem portWrite_cases (p : Params) (a : Word) (size : AccessSize) (v : Word) (s : State) :
    portWrite p a size v s = s ∨
      ∃ c, size = .word ∧ portOffset p a = some c.offset ∧ s.resetHeld = false ∧
        portWrite p a size v s = writeCsr p c v s := by
  unfold portWrite
  split
  · exact .inl rfl
  · next off hoff =>
    split
    · exact .inl rfl
    · next hopen =>
      simp only [Bool.or_eq_true, Bool.not_eq_true', not_or, Bool.not_eq_true, Bool.not_eq_false, wholeWord,
        Bool.and_eq_true, decide_eq_true_eq] at hopen
      obtain ⟨hheld, hsize, halign⟩ := hopen
      split
      · exact .inl rfl
      · next c hc => exact .inr ⟨c, hsize, by rw [hoff, offset_of_csrAt halign hc], hheld, rfl⟩

end

/-- R24: the step of a host write that reaches a register. -/
theorem State.WritesNext.step_eq {s : State} {c : Csr} {v : Word} {rest : List HostMove} (h : s.WritesNext c v rest) :
    step s = .next (writeCsr s.cfg c v (s.withInputs rest)) := by
  obtain ⟨a, hin, hoff, hheld⟩ := h
  rw [step_hostMove hin (by simp), hostMove, portWrite_of_reaches v hoff (s := s.withInputs rest) hheld]

/-- R24: the step of a host read that reaches a register. -/
theorem State.ReadsNext.step_eq {s : State} {c : Csr} {rest : List HostMove} (h : s.ReadsNext c rest) :
    step s = .next (readCsr c (s.withInputs rest)) := by
  obtain ⟨a, hin, hoff⟩ := h
  rw [step_hostMove hin (by simp), hostMove, portRead_of_reaches hoff]

/-- Settles O16: the access reaches no register, so a write is the identity and a read answers 0. -/
theorem unreachedRegistersReadZero : Obligations.UnreachedRegistersReadZero := by
  intro s a size off rest hoff h
  rw [← or_assoc, ← wholeWord_eq_false_iff] at h
  constructor
  · intro v hin
    rw [step_hostMove hin (by simp), hostMove, portWrite_of_unreached v hoff h]
  · intro hin
    rw [step_hostMove hin (by simp), hostMove, portRead_of_unreached hoff h]

/-! ### Writes -/

section
variable {p : Params} {c : Csr} {v : Word} {s : State}

theorem writeCsr_of_locked (hc : c.locked = true) :
    writeCsr p c v s = if s.status.busy then dropWithHazard s else s.withRegs (c.store s.regs v) := by
  cases c with
  | id | ctrl | status | hufOut | faultInfo | lumaQ | chromaQ => exact absurd hc Bool.false_ne_true
  | cmd | srcAddr | srcLen | dstAddr | dstLen | scrAddr | scrLen | width | height | quality | dstStride | offsAddr
  | blockCount | hufLen | animCount | animCur => rfl

/-- R23: a register that is neither CTRL nor STATUS nor locked is read-only. -/
theorem writeCsr_of_readOnly (hc : c.locked = false) (hctrl : c ≠ .ctrl) (hstatus : c ≠ .status) :
    writeCsr p c v s = s := by
  cases c with
  | ctrl => exact absurd rfl hctrl
  | status => exact absurd rfl hstatus
  | id | hufOut | faultInfo | lumaQ | chromaQ => rfl
  | cmd | srcAddr | srcLen | dstAddr | dstLen | scrAddr | scrLen | width | height | quality | dstStride | offsAddr
  | blockCount | hufLen | animCount | animCur => exact absurd hc.symm Bool.false_ne_true

theorem writeCtrl_softReset (h : v.getLsbD 1 = true) : writeCtrl p v s = softReset p s := if_pos h

theorem writeCtrl_of_not_softReset (h : v.getLsbD 1 = false) :
    writeCtrl p v s =
      if v.getLsbD 0 then
        if s.status.busy then dropWithHazard (s.withIrqEn (v.getLsbD 2)) else acceptStart (s.withIrqEn (v.getLsbD 2))
      else s.withIrqEn (v.getLsbD 2) := if_neg (ne_true_of_eq_false h)

end

/-! ### Reads -/

/-- R31: the registers that read as unspecified values while BUSY = 1, by name. -/
theorem Csr.unspecifiedWhileBusy_iff (c : Csr) :
    c.unspecifiedWhileBusy = true ↔
      c = .hufOut ∨ c = .animCur ∨ c = .faultInfo ∨ ∃ i, c = .lumaQ i ∨ c = .chromaQ i := by
  cases c <;> simp [Csr.unspecifiedWhileBusy]

theorem readCsr_of_specified {c : Csr} {s : State} (h : s.status.busy = false ∨ c.unspecifiedWhileBusy = false) :
    readCsr c s = s.withPortData (c.read s) := by
  rw [readCsr, if_neg]
  rw [Bool.not_eq_true, Bool.and_eq_false_iff]
  exact h

theorem readCsr_of_unspecified {c : Csr} {s : State} (hbusy : s.status.busy = true)
    (h : c.unspecifiedWhileBusy = true) :
    readCsr c s = (s.withPortData (Config.busyRead s.draws)).withDraws (s.draws + 1) := by
  rw [readCsr, if_pos (by simp [hbusy, h])]

/-- The pending moves are no register. -/
@[simp] theorem Csr.read_withInputs (c : Csr) (s : State) (l : List HostMove) : c.read (s.withInputs l) = c.read s := by
  cases c <;> rfl

/-- R25: a store changes what its own register reads and no other. -/
theorem Csr.read_store {c : Csr} (hc : c.locked = true) (s : State) (v : Word) (c' : Csr) :
    c'.read (s.withRegs (c.store s.regs v)) = if c' = c then v else c'.read s := by
  cases c with
  | id | ctrl | status | hufOut | faultInfo | lumaQ | chromaQ => exact absurd hc Bool.false_ne_true
  | cmd | srcAddr | srcLen | dstAddr | dstLen | scrAddr | scrLen | width | height | quality | dstStride | offsAddr
  | blockCount | hufLen | animCount | animCur => cases c' <;> rfl

/-- Settles O12: ID reads its constant whether or not BUSY is set, and the named registers are neither locked nor CTRL
nor STATUS. -/
theorem readOnlyRegistersIgnoreWrites : Obligations.ReadOnlyRegistersIgnoreWrites := by
  refine fun s rest => ⟨fun h => ?_, fun c v hc h => ?_⟩
  · rw [h.step_eq, readCsr_of_specified (.inr rfl)]
    rfl
  · rw [h.step_eq]
    obtain rfl | rfl | rfl | ⟨i, rfl | rfl⟩ := hc <;> exact congrArg _ (writeCsr_of_readOnly rfl (by simp) (by simp))

/-- Settles O13: with BUSY = 0 the write is the store, and the rest is the law of a read after a store. -/
theorem dataRegistersReadBack : Obligations.DataRegistersReadBack := by
  refine ⟨fun s => ⟨rfl, fun i => ⟨rfl, rfl⟩⟩, fun r v => rfl, fun s c v rest hbusy hc h => ?_⟩
  have hidle : ¬(s.withInputs rest).status.busy = true := by simp [hbusy]
  refine ⟨_, h.step_eq, ?_⟩
  rw [writeCsr_of_locked hc, if_neg hidle]
  refine ⟨rfl, rfl, rfl, ?_, fun c' hne => ?_, rfl, rfl, rfl, rfl, rfl⟩
  · rw [Csr.read_store hc, if_pos rfl]
  · rw [Csr.read_store hc, if_neg hne, Csr.read_withInputs]

/-- Settles O11: one law of a write or a read for each clause. -/
theorem accessesWhileBusy : Obligations.AccessesWhileBusy := by
  refine fun s rest => ⟨fun v hbusy h hstart hreset => ?_, fun c v hbusy hc h => ?_, fun v hbusy h hreset => ?_,
    fun v h hreset => ?_, fun v h => h.step_eq, fun c h hbusy hc => ?_, fun c h hspec => ?_⟩
  · rw [h.step_eq, writeCsr, writeCtrl_of_not_softReset hreset, if_neg (ne_true_of_eq_false hstart)]
  · rw [h.step_eq, writeCsr_of_locked hc, State.withInputs_status, if_pos hbusy]
    rfl
  · rw [h.step_eq, writeCsr, writeCtrl_of_not_softReset hreset, State.withInputs_status, if_pos hbusy]
    cases v.getLsbD 0 with
    | true => simp [dropWithHazard, Status.hazard]
    | false => simp [State.withStatus, State.withIrqEn, State.withInputs]
  · exact ⟨_, h.step_eq, by rw [writeCsr, writeCtrl_softReset hreset]; rfl⟩
  · rw [h.step_eq, readCsr_of_unspecified (s := s.withInputs rest) hbusy (c.unspecifiedWhileBusy_iff.mpr hc)]
    rfl
  · rw [h.step_eq, readCsr_of_specified, Csr.read_withInputs]
    refine hspec.imp_right fun hnames => ?_
    rw [← Bool.not_eq_true, c.unspecifiedWhileBusy_iff]
    simpa [not_or] using hnames

end Sys2Proof.Machine
end

section
/-!
PROOF. STATUS as a word (spec/10_state.md rules R28, R43), what an accepted START leaves (R30, R41) and the step it
leads to (R22, R83), and the values after reset (R25, R280).
-/

namespace Sys2Proof.Machine

/-! ### STATUS as a word -/

theorem bitAt_getLsbD (b : Bool) {n : Nat} (hn : n < 32) (k : Nat) : (bitAt b n).getLsbD k = (b && decide (k = n)) := by
  cases b with
  | false => simp [bitAt]
  | true =>
    rw [bitAt, if_pos rfl, BitVec.getLsbD_shiftLeft, BitVec.getLsbD_one, Bool.true_and, Bool.eq_iff_iff]
    simp only [Bool.and_eq_true, Bool.not_eq_true', decide_eq_true_eq, decide_eq_false_iff_not]
    omega

/-- R28: the place of each bit of STATUS. -/
theorem Status.toWord_getLsbD (x : Status) {k : Nat} (hk : k < 32) :
    x.toWord.getLsbD k =
      (x.busy && decide (k = 0) || x.done && decide (k = 1) || x.err && decide (k = 2) || x.haz && decide (k = 3) ||
        decide (8 ≤ k) && x.errcode.getLsbD (k - 8) ||
        x.wAcOverread && decide (k = 16) || x.wZeroLen && decide (k = 17) || x.wHufShort && decide (k = 18) ||
        x.wAccodeOverread && decide (k = 19) || x.wPosOverflow && decide (k = 20)) := by
  have herrcode : (x.errcode.zeroExtend 32 <<< 8).getLsbD k = (decide (8 ≤ k) && x.errcode.getLsbD (k - 8)) := by
    simp [hk, ← decide_not]
  simp only [Status.toWord, BitVec.getLsbD_or, herrcode]
  rw [bitAt_getLsbD, bitAt_getLsbD, bitAt_getLsbD, bitAt_getLsbD, bitAt_getLsbD, bitAt_getLsbD, bitAt_getLsbD,
    bitAt_getLsbD, bitAt_getLsbD] <;> decide

/-- R28, R43: DONE, ERR, HAZ and the five warnings, the bits a write of 1 clears. -/
theorem ackMask_getLsbD {k : Nat} (hk : k < 32) :
    (0x001F000E : Word).getLsbD k = (decide (1 ≤ k) && decide (k ≤ 3) || decide (16 ≤ k) && decide (k ≤ 20)) := by
  revert k
  decide

theorem Status.toWord_clearedBy (x : Status) (v : Word) :
    (x.clearedBy v).toWord = x.toWord &&& ~~~(v &&& 0x001F000E) := by
  refine BitVec.eq_of_getLsbD_eq fun k hk => ?_
  rw [BitVec.getLsbD_and, BitVec.getLsbD_not, BitVec.getLsbD_and, ackMask_getLsbD hk, toWord_getLsbD _ hk,
    toWord_getLsbD _ hk]
  interval_cases k <;> simp [Status.clearedBy]

/-- R23, R28: the reserved bits read 0. -/
theorem Status.toWord_reserved (x : Status) : x.toWord &&& 0xFFE000F0 = 0 := by
  refine BitVec.eq_of_getLsbD_eq fun k hk => ?_
  rw [BitVec.getLsbD_and, toWord_getLsbD _ hk]
  interval_cases k <;> simp

theorem Status.toWord_errcode (x : Status) : x.toWord.extractLsb' 8 8 = x.errcode := by
  refine BitVec.eq_of_getLsbD_eq fun k hk => ?_
  rw [BitVec.getLsbD_extractLsb', toWord_getLsbD _ (by omega)]
  interval_cases k <;> simp

/-- Settles O14: every bit of the word by its place, and a write clears the bits within the mask. -/
theorem statusWriteClearsTheOnes : Obligations.StatusWriteClearsTheOnes := by
  refine ⟨fun x => ⟨x.toWord_reserved, x.toWord_errcode, ?_, ?_⟩, fun s v rest h => ?_⟩
  · simp (disch := decide) only [Status.toWord_getLsbD]
    simp
  · simp (disch := decide) only [Status.toWord_getLsbD]
    simp
  · exact ⟨_, h.step_eq, s.status.toWord_clearedBy v, rfl, rfl, rfl, rfl, rfl⟩

/-! ### START -/

/-- R27, R30: a CTRL write that is an accepted START. -/
theorem writeCtrl_start {p : Params} {v : Word} {s : State} (hstart : v.getLsbD 0 = true)
    (hreset : v.getLsbD 1 = false) (hbusy : s.status.busy = false) :
    writeCtrl p v s = acceptStart (s.withIrqEn (v.getLsbD 2)) := by
  rw [writeCtrl_of_not_softReset hreset, if_pos hstart, if_neg (ne_true_of_eq_false hbusy)]

theorem State.WritesNext.start_eq {s : State} {v : Word} {rest : List HostMove} (h : s.WritesNext .ctrl v rest)
    (hstart : v.getLsbD 0 = true) (hreset : v.getLsbD 1 = false) (hbusy : s.status.busy = false) :
    step s = .next (acceptStart ((s.withInputs rest).withIrqEn (v.getLsbD 2))) :=
  h.step_eq.trans (congrArg _ (writeCtrl_start (s := s.withInputs rest) hstart hreset hbusy))

theorem phaseOf_command {w : Word} {i : Instr} (h : decode w = .command i) : phaseOf w = .run i := by
  rw [phaseOf, h]

theorem phaseOf_illegal {w : Word} {d : Defect} (h : decode w = .illegal d) : phaseOf w = .runIllegal := by
  rw [phaseOf, h]

/-- R41: the arena and the buffers of a fresh START hold zeros. -/
theorem Hidden.entry_zero (i : Fin 64) (ch : Channel) :
    Hidden.entry.ws[i.val] = 0 ∧ Hidden.entry.zz[ch.index][i.val] = 0 ∧ Hidden.entry.coef[ch.index][i.val] = 0 ∧
      Hidden.entry.pix[ch.index][i.val] = 0 := by
  simp [Hidden.entry, Block.zero]

theorem Hidden.entry_node (i : Fin 513) : Hidden.entry.node[i.val] = ⟨0, 0, 0⟩ := by simp [Hidden.entry]

/-- Settles O10: the CTRL write is `acceptStart`, whose hidden state is `Hidden.entry`. -/
theorem startSetsTheEntryState : Obligations.StartSetsTheEntryState := by
  intro s v rest h hstart hreset hbusy
  refine ⟨_, h.start_eq hstart hreset hbusy, rfl, rfl, rfl, rfl, rfl, rfl, fun i hi => phaseOf_command hi,
    fun d hd => phaseOf_illegal hd, rfl, rfl, rfl, rfl, rfl, Hidden.entry_node,
    fun i => ⟨(Hidden.entry_zero i .y).1, fun ch => (Hidden.entry_zero i ch).2⟩⟩

/-! ### The engine's turn -/

theorem engineTurn_of_run {s : State} {i : Instr} (h : s.phase = .run i) : engineTurn s = exec i s := by
  rw [engineTurn, h]

/-- Settles O4: a START enters RUN of what CMD decodes to, and the engine's turn runs it. -/
theorem stepRunsTheDecodedCommand : Obligations.StepRunsTheDecodedCommand := by
  refine ⟨fun s n w i h => ?_, fun s i h hin => ?_, fun s i rest h hin => ?_,
    fun s v rest i h hstart hreset hbusy hi => ?_⟩
  · have hin : (s.withFetchWord n w).inputs = .engineTurn :: s.inputs := rfl
    rw [step_engineTurn hin]
    exact engineTurn_of_run (phaseOf_command h)
  · rw [step, turn, hin]
    exact engineTurn_of_run h
  · rw [step_engineTurn hin]
    exact engineTurn_of_run h
  · exact ⟨_, h.start_eq hstart hreset hbusy, phaseOf_command hi, rfl⟩

/-! ### After reset -/

theorem Csr.read_reset (c : Csr) : c.read State.reset = if c = .id then 0x4F500001 else 0 := by
  cases c with
  | lumaQ i | chromaQ i => simp [Csr.read, State.reset, Regs.reset, Block.zero]
  | id | ctrl | cmd | status | srcAddr | srcLen | dstAddr | dstLen | scrAddr | scrLen | width | height | quality
  | dstStride | offsAddr | blockCount | hufLen | hufOut | animCount | animCur | faultInfo => decide

theorem State.reset_cleanLaunch : State.reset.CleanLaunch where
  busy := rfl
  done := rfl
  err := rfl
  haz := rfl
  quiet w := by cases w <;> rfl
  idle := rfl
  noWrite _ _ h := absurd h List.not_mem_nil

/-- Settles O18: the fields of `State.reset`, read through the map. -/
theorem resetStateValues : Obligations.ResetStateValues :=
  ⟨Csr.read_reset, State.reset_cleanLaunch, rfl, rfl⟩

end Sys2Proof.Machine
end

section
/-!
PROOF. A command from its start to its end, in two parts (spec/10_state.md rule R32, spec/60_exceptions.md rule R252):
where its algorithm leaves the state (`RunsTo`), and what ending it adds (`EndsAs`). With them what no command changes,
and which commands change the tables, HUF_OUT and the warnings (R29, R33, R257).
-/

namespace Sys2Proof.Machine

/-! ### Where the algorithm leaves the state -/

/-- The pre-checks and the body of a command lead from `s` to `u`, and `o` is the fault that stopped them, if any. -/
inductive RunsTo (check : Engine Plan) (body : Plan → Engine Unit) (s : State) : State → Option CmdFault → Prop where
  | refused {f : CmdFault} : check s = .error f s → RunsTo check body s s (some f)
  | stopped {plan : Plan} {f : CmdFault} {u : State} :
    check s = .ok plan s → body plan s = .error f u → RunsTo check body s u (some f)
  | finished {plan : Plan} {u : State} : check s = .ok plan s → body plan s = .ok () u → RunsTo check body s u none

theorem RunsTo.keeps {check : Engine Plan} {body : Plan → Engine Unit} {s u : State} {o : Option CmdFault}
    {R : State → State → Prop} (h : RunsTo check body s u o) (hrefl : R s s)
    (hbody : ∀ plan, check s = .ok plan s → R s (finalState (body plan s))) : R s u := by
  cases h with
  | refused => exact hrefl
  | stopped hc hb | finished hc hb =>
    have h := hbody _ hc
    rwa [hb] at h

/-! ### What ending the command adds -/

/-- R252: the registers once a command is over: a fault leaves its detail in FAULT_INFO. -/
def Regs.recording (r : Regs) : Option CmdFault → Regs
  | none => r
  | some f => { r with faultInfo := BitVec.ofNat 32 f.info }

/-- R32, R252: STATUS once a command is over. -/
def Status.recording (x : Status) : Option CmdFault → Status
  | none => { x with busy := false, done := true }
  | some f => { x with errcode := f.code.toByte, err := true, done := true, busy := false }

/-- What the end of a command leaves of the state its algorithm reached; only memory may differ more (R81, R252). -/
structure EndsAs (u : State) (o : Option CmdFault) (t : State) : Prop where
  cfg : t.cfg = u.cfg
  regs : t.regs = u.regs.recording o
  status : t.status = u.status.recording o
  irqEn : t.irqEn = u.irqEn
  idle : t.phase = .idle
  resetHeld : t.resetHeld = u.resetHeld
  inputs : t.inputs = u.inputs
  portData : t.portData = u.portData
  memData : t.memData = u.memData

/-- R81: what interference adds at the end of a command touches nothing but memory and the model's marks. -/
theorem settle_eq (p : Params) (W : List Window) (s : State) :
    ∃ m b n, settle p W s = ((s.withMem m).withInterfered b).withDraws n := by
  unfold settle
  split
  · exact ⟨_, _, _, rfl⟩
  · exact ⟨s.mem, s.interfered, s.draws, rfl⟩

section
variable (p : Params) (W : List Window) (u : State)

theorem endsAs_endCommand : EndsAs u none (settle p W (endCommand u)) := by
  obtain ⟨m, b, n, h⟩ := settle_eq p W (endCommand u)
  rw [h]
  constructor <;> rfl

theorem endsAs_takeFault (f : CmdFault) : EndsAs u (some f) (settle p W (takeFault f u)) := by
  obtain ⟨m, b, n, h⟩ := settle_eq p W (takeFault f u)
  rw [h]
  constructor <;> rfl

end

theorem EndsAs.of_havoc {p : Params} {ws : List Window} {u t : State} {o : Option CmdFault}
    (h : EndsAs (havoc p ws u) o t) : EndsAs u o t :=
  ⟨h.cfg, h.regs, h.status, h.irqEn, h.idle, h.resetHeld, h.inputs, h.portData, h.memData⟩

theorem perform_runs (p : Params) (W : List Window) {check : Engine Plan} (hcheck : Pure check)
    (body : Plan → Engine Unit) (s : State) :
    ∃ u o, RunsTo check body s u o ∧ EndsAs u o (perform p W check body s) := by
  obtain ⟨f, s1, hc, he⟩ | ⟨plan, s1, f, s2, hc, hb, he⟩ | ⟨plan, s1, s2, hc, hb, he⟩ :=
    perform_cases p W check body s <;> rw [he]
  · obtain rfl := hcheck.error hc
    exact ⟨s1, some f, .refused hc, endsAs_takeFault p W s1 f⟩
  · obtain rfl := hcheck.ok hc
    exact ⟨s2, some f, .stopped hc hb, (endsAs_takeFault p W _ f).of_havoc⟩
  · obtain rfl := hcheck.ok hc
    exact ⟨s2, none, .finished hc hb, endsAs_endCommand p W s2⟩

/-- A run of command `i` from `s`. -/
abbrev CommandRun (i : Instr) (s u : State) (o : Option CmdFault) : Prop :=
  RunsTo (commandCheck s.cfg i) (commandBody s.cfg i) s u o

/-- R256: every command answers a next state, its run and then its end. -/
theorem exec_runs (i : Instr) (s : State) : ∃ t, exec i s = .next t ∧ ∃ u o, CommandRun i s u o ∧ EndsAs u o t :=
  ⟨_, exec_eq_perform i s, perform_runs s.cfg (writtenWindows s.regs i) (pure_commandCheck i) _ s⟩

theorem runs_of_exec {i : Instr} {s t : State} (h : exec i s = .next t) : ∃ u o, CommandRun i s u o ∧ EndsAs u o t := by
  obtain ⟨t', h', hruns⟩ := exec_runs i s
  obtain rfl := Host.Outcome.next.inj (h'.symm.trans h)
  exact hruns

section
variable {u t : State} {o : Option CmdFault} (h : EndsAs u o t)
include h

theorem EndsAs.warned (w : Warning) : t.status.warned w = u.status.warned w := by
  rw [h.status]
  cases o <;> cases w <;> rfl

theorem EndsAs.haz : t.status.haz = u.status.haz := by rw [h.status]; cases o <;> rfl

theorem EndsAs.busy : t.status.busy = false := by rw [h.status]; cases o <;> rfl

theorem EndsAs.done : t.status.done = true := by rw [h.status]; cases o <;> rfl

theorem EndsAs.hufOut : t.regs.hufOut = u.regs.hufOut := by rw [h.regs]; cases o <;> rfl

theorem EndsAs.sameTables : SameTables u t := by rw [SameTables, h.regs]; cases o <;> exact ⟨rfl, rfl⟩

theorem EndsAs.commandFrame : CommandFrame u t where
  cfg := h.cfg
  irqEn := h.irqEn
  resetHeld := h.resetHeld
  inputs := h.inputs
  portData := h.portData
  memData := h.memData
  haz := h.haz
  operands := by rw [h.regs]; cases o <;> rfl

end

/-! ### What no command changes -/

theorem CommandFrame.refl (s : State) : CommandFrame s s := ⟨rfl, rfl, rfl, rfl, rfl, rfl, rfl, rfl⟩

theorem CommandFrame.trans {s t u : State} (h : CommandFrame s t) (k : CommandFrame t u) : CommandFrame s u where
  cfg := k.cfg.trans h.cfg
  irqEn := k.irqEn.trans h.irqEn
  resetHeld := k.resetHeld.trans h.resetHeld
  inputs := k.inputs.trans h.inputs
  portData := k.portData.trans h.portData
  memData := k.memData.trans h.memData
  haz := k.haz.trans h.haz
  operands := k.operands.trans (by rw [h.operands])

/-- QUALITY is an operand, which no command writes (R29). -/
theorem CommandFrame.quality {s t : State} (h : CommandFrame s t) : t.regs.quality = s.regs.quality := by
  rw [h.operands]

theorem SameTables.trans {s t u : State} (h : SameTables s t) (k : SameTables t u) : SameTables s u :=
  ⟨k.1.trans h.1, k.2.trans h.2⟩

theorem TablesBuilt.trans_same {s t u : State} (h : TablesBuilt s t) (k : SameTables t u) : TablesBuilt s u := by
  intro i
  rw [k.1, k.2]
  exact h i

theorem TablesBuilt.after {s t u : State} (h : CommandFrame s t) (k : TablesBuilt t u) : TablesBuilt s u := by
  intro i
  have hi := k i
  rwa [h.cfg, h.quality] at hi

/-- What the algorithm of every command keeps: the command frame, the fault record (which only R252 writes), the
warnings already raised, and the tables up to a build from the current quality. -/
structure BodyFrame (p : Params) (s t : State) : Prop extends CommandFrame s t where
  err : t.status.err = s.status.err
  errcode : t.status.errcode = s.status.errcode
  faultInfo : t.regs.faultInfo = s.regs.faultInfo
  warnings : ∀ w, s.status.warned w = true → t.status.warned w = true
  tables : s.cfg = p → SameTables s t ∨ TablesBuilt s t

theorem BodyFrame.refl (p : Params) (s : State) : BodyFrame p s s :=
  ⟨.refl s, rfl, rfl, rfl, fun _ => id, fun _ => .inl ⟨rfl, rfl⟩⟩

theorem BodyFrame.trans {p : Params} {s t u : State} (h : BodyFrame p s t) (k : BodyFrame p t u) :
    BodyFrame p s u where
  toCommandFrame := h.toCommandFrame.trans k.toCommandFrame
  err := k.err.trans h.err
  errcode := k.errcode.trans h.errcode
  faultInfo := k.faultInfo.trans h.faultInfo
  warnings w := k.warnings w ∘ h.warnings w
  tables hcfg := by
    obtain hsame | hbuilt := k.tables (h.cfg.trans hcfg)
    · exact (h.tables hcfg).imp (·.trans hsame) (·.trans_same hsame)
    · exact .inr (hbuilt.after h.toCommandFrame)

theorem setWarning_haz (x : Status) (w : Warning) : (x.setWarning w).haz = x.haz := by cases w <;> rfl

theorem setWarning_warned (x : Status) (w v : Warning) :
    (x.setWarning w).warned v = (x.warned v || decide (v = w)) := by
  cases w <;> cases v <;> simp [Status.setWarning, Status.warned]

theorem engineRel_bodyFrame (p : Params) (W : Nat → Prop) : EngineRel p W (BodyFrame p) where
  refl := BodyFrame.refl p
  trans _ _ _ := BodyFrame.trans
  hidden s _ := { BodyFrame.refl p s with }
  warning s w :=
    { BodyFrame.refl p s with
      haz := setWarning_haz s.status w
      err := setWarning_err s.status w
      errcode := setWarning_errcode s.status w
      warnings := fun v hv => by simp [setWarning_warned, hv] }
  byte s _ _ _ _ := { BodyFrame.refl p s with }
  hufOut s _ := { BodyFrame.refl p s with operands := rfl }

theorem keeps_qtBuildTables_bodyFrame (p : Params) : Keeps (BodyFrame p) (qtBuildTables p) := fun s =>
  { BodyFrame.refl p s with
    operands := rfl
    tables := by
      rintro rfl
      refine .inr fun i => ?_
      simp [qtBuildTables, finalState, finalTable, Regs.qualityInt] }

theorem keeps_advanceCursor_bodyFrame (p : Params) : Keeps (BodyFrame p) advanceCursor := fun s =>
  { BodyFrame.refl p s with operands := rfl }

theorem CommandRun.bodyFrame {i : Instr} {s u : State} {o : Option CmdFault} (h : CommandRun i s u o) :
    BodyFrame s.cfg s u :=
  RunsTo.keeps h (.refl _ s) fun _ hc =>
    keeps_commandBody i (engineRel_bodyFrame s.cfg _) (keeps_qtBuildTables_bodyFrame s.cfg)
      (keeps_advanceCursor_bodyFrame s.cfg) hc

/-! ### The commands that only move data in memory -/

/-- Nothing changed but memory and the hidden state. -/
def MemoryOnly (s t : State) : Prop := ∃ m h, t = (s.withMem m).withHidden h

theorem MemoryOnly.refl (s : State) : MemoryOnly s s := ⟨s.mem, s.hidden, rfl⟩

theorem MemoryOnly.trans {s t u : State} (h : MemoryOnly s t) (k : MemoryOnly t u) : MemoryOnly s u := by
  obtain ⟨m, d, rfl⟩ := h
  obtain ⟨m', d', rfl⟩ := k
  exact ⟨m', d', rfl⟩

theorem Pure.keeps_memoryOnly {α : Type} {m : Engine α} (h : Pure m) : Keeps MemoryOnly m := fun s => by
  rw [h s]
  exact .refl s

section
variable (p : Params)

theorem keepsMemoryOnly_bind {α β : Type} {m : Engine α} {f : α → Engine β} (hm : Keeps MemoryOnly m)
    (hf : ∀ a, Keeps MemoryOnly (f a)) : Keeps MemoryOnly (m >>= f) := by
  intro s
  rw [Engine.bind_run]
  cases hs : m s with
  | error e t => exact hm.error hs
  | ok a t => exact (hm.ok hs).trans (hf a t)

theorem writeByte_memoryOnly (a : Nat) (v : Byte) : Keeps MemoryOnly (writeByte p a v) := by
  intro s
  unfold writeByte
  split
  · exact ⟨s.mem.write a v, s.hidden, rfl⟩
  · exact .refl s

theorem writeBytes_memoryOnly (l : List Byte) : ∀ a, Keeps MemoryOnly (writeBytes p a l) := by
  induction l with
  | nil => exact fun a => .refl
  | cons b bs ih => exact fun a => keepsMemoryOnly_bind (writeByte_memoryOnly p a b) fun _ => ih (a + 1)

theorem writeWords_memoryOnly (l : List Word) : ∀ a, Keeps MemoryOnly (writeWords p a l) := by
  induction l with
  | nil => exact fun a => .refl
  | cons w ws ih => exact fun a => keepsMemoryOnly_bind (writeBytes_memoryOnly p _ a) fun _ => ih (a + 4)

theorem pure_readWords (n : Nat) : ∀ a, Pure (readWords p a n) := by
  induction n with
  | zero => exact fun a => pure_pure []
  | succ n ih => exact fun a => pure_bind' (pure_memRead 4 a) fun _ => pure_bind' (ih (a + 4)) fun _ => pure_pure _

theorem pure_readBlock (a : Nat) : Pure (readBlock p a) := pure_bind' (pure_readWords p 64 a) fun _ => pure_pure _

theorem colorPixels_memoryOnly (fmt : PixelFormat) (src dst n : Nat) :
    ∀ px, Keeps MemoryOnly (colorPixels p fmt src dst n px) := by
  have hread : ∀ a, Keeps MemoryOnly (memRead p a 4) := fun a => (pure_memRead 4 a).keeps_memoryOnly
  induction n with
  | zero => exact fun px => .refl
  | succ n ih =>
    exact fun px => keepsMemoryOnly_bind (hread _) fun _ => keepsMemoryOnly_bind (hread _) fun _ =>
      keepsMemoryOnly_bind (hread _) fun _ => keepsMemoryOnly_bind (writeBytes_memoryOnly p _ _) fun _ => ih (px + 1)

theorem dequantBlockBody_memoryOnly (sel : TableSel) (plan : Plan) :
    Keeps MemoryOnly (dequantBlockBody p sel plan) :=
  keepsMemoryOnly_bind pure_getRegs.keeps_memoryOnly fun _ =>
    keepsMemoryOnly_bind (pure_readBlock p _).keeps_memoryOnly fun _ => writeWords_memoryOnly p _ _

theorem idctBlockBody_memoryOnly (plan : Plan) : Keeps MemoryOnly (idctBlockBody p plan) :=
  keepsMemoryOnly_bind pure_getRegs.keeps_memoryOnly fun _ =>
    keepsMemoryOnly_bind (pure_readBlock p _).keeps_memoryOnly fun _ =>
      keepsMemoryOnly_bind (fun s => ⟨s.mem, _, rfl⟩) fun _ => writeWords_memoryOnly p _ _

theorem colorBlockBody_memoryOnly (fmt : PixelFormat) (plan : Plan) : Keeps MemoryOnly (colorBlockBody p fmt plan) :=
  keepsMemoryOnly_bind pure_getRegs.keeps_memoryOnly fun _ => colorPixels_memoryOnly p fmt _ _ 64 0

/-- A command that builds no tables and decodes no symbols only moves data in memory. -/
theorem commandBody_memoryOnly {i : Instr} (htab : buildsTables i = false) (hsym : decodesSymbols i = false)
    (plan : Plan) : Keeps MemoryOnly (commandBody p i plan) := by
  cases i with
  | nop => exact .refl
  | dequantBlockL | dequantBlockC => exact dequantBlockBody_memoryOnly p _ plan
  | idctBlock => exact idctBlockBody_memoryOnly p plan
  | colorBlockRgb24 | colorBlockRgb565 | colorBlockArgb32 => exact colorBlockBody_memoryOnly p _ plan
  | hufDecode => exact absurd hsym.symm Bool.false_ne_true
  | qtBuild | decodeImageRgb24 | decodeImageRgb565 | decodeImageArgb32 | compositeRgb24 | compositeRgb565
  | compositeArgb32 => exact absurd htab.symm Bool.false_ne_true

end

/-! ### The tables, HUF_OUT and the warnings -/

theorem eq_hufDecode_of_classes {i : Instr} : buildsTables i = false → decodesSymbols i ≠ false → i = .hufDecode := by
  cases i <;> decide

theorem eq_qtBuild_of_classes {i : Instr} : decodesSymbols i = false → buildsTables i ≠ false → i = .qtBuild := by
  cases i <;> decide

theorem engineRel_sameTables (p : Params) (W : Nat → Prop) : EngineRel p W SameTables where
  refl _ := ⟨rfl, rfl⟩
  trans _ _ _ := SameTables.trans
  hidden _ _ := ⟨rfl, rfl⟩
  warning _ _ := ⟨rfl, rfl⟩
  byte _ _ _ _ _ := ⟨rfl, rfl⟩
  hufOut _ _ := ⟨rfl, rfl⟩

section
variable {i : Instr} {s u : State} {o : Option CmdFault} (h : CommandRun i s u o)
include h

theorem CommandRun.memoryOnly (htab : buildsTables i = false) (hsym : decodesSymbols i = false) : MemoryOnly s u :=
  RunsTo.keeps h (.refl s) fun plan _ => commandBody_memoryOnly s.cfg htab hsym plan s

/-- R33: of the commands that build no tables, only HUF_DECODE does more than move data in memory. -/
theorem CommandRun.sameTables (htab : buildsTables i = false) : SameTables s u := by
  by_cases hsym : decodesSymbols i = false
  · obtain ⟨m, d, rfl⟩ := h.memoryOnly htab hsym
    exact ⟨rfl, rfl⟩
  · obtain rfl := eq_hufDecode_of_classes htab hsym
    exact RunsTo.keeps h ⟨rfl, rfl⟩ fun plan hc => keeps_hufDecodeBody (engineRel_sameTables s.cfg _) hc

/-- R257: of the commands that decode no symbols, only QT_BUILD does more than move data in memory. -/
theorem CommandRun.quiet (hsym : decodesSymbols i = false) : u.regs.hufOut = s.regs.hufOut ∧ SameWarnings s u := by
  by_cases htab : buildsTables i = false
  · obtain ⟨m, d, rfl⟩ := h.memoryOnly htab hsym
    exact ⟨rfl, fun _ => rfl⟩
  · obtain rfl := eq_qtBuild_of_classes hsym htab
    exact RunsTo.keeps (R := fun s u => u.regs.hufOut = s.regs.hufOut ∧ SameWarnings s u) h ⟨rfl, fun _ => rfl⟩
      fun _ _ => ⟨rfl, fun _ => rfl⟩

end

/-- Settles O58: each clause holds of the run (`CommandRun.bodyFrame`, `.sameTables`, `.quiet`), and ending the command
changes none of these registers. -/
theorem commandsChangeOnlyTheirRegisters : Obligations.CommandsChangeOnlyTheirRegisters := by
  intro i s t hexec
  obtain ⟨u, o, hrun, hend⟩ := runs_of_exec hexec
  have hbody := hrun.bodyFrame
  refine ⟨(hbody.tables rfl).imp (·.trans hend.sameTables) (·.trans_same hend.sameTables),
    fun htab => (hrun.sameTables htab).trans hend.sameTables, fun hsym => ?_, fun w hw => ?_⟩
  · obtain ⟨hhuf, hwarn⟩ := hrun.quiet hsym
    exact ⟨hend.hufOut.trans hhuf, fun w => (hend.warned w).trans (hwarn w)⟩
  · rw [hend.warned w]
    exact hbody.warnings w hw

/-- R32: a command that ends without a fault, from the state its algorithm reached. -/
theorem EndsAs.finished {s t : State} (h : EndsAs s none t) : Finished s t where
  toCommandFrame := h.commandFrame
  idle := h.idle
  busy := h.busy
  done := h.done
  err := by rw [h.status]; rfl
  errcode := by rw [h.status]; rfl
  faultInfo := by rw [h.regs]; rfl

/-- A command with no written window leaves nothing unspecified, whatever the host did (R81). -/
theorem settle_nil_mem (p : Params) (s : State) : (settle p [] s).mem = s.mem := by
  unfold settle; split <;> rfl

/-- Settles O35: NOP is the end of a command and nothing else. -/
theorem nopOnlyEnds : Obligations.NopOnlyEnds := by
  intro s
  have hend := endsAs_endCommand s.cfg [] s
  refine ⟨settle s.cfg [] (endCommand s), exec_eq_perform .nop s, hend.finished, hend.regs, settle_nil_mem ..,
    hend.warned, fun hfresh => ?_⟩
  rw [hend.status, hfresh]
  rfl

end Sys2Proof.Machine
end

section
/-!
PROOF. What each piece of a command can raise (spec/60_exceptions.md rules R251-R253): `Guarded I P m` says that from a
state with `I` the piece `m` ends with `I` again or raises a fault with `P`. A bus error comes only from an address the
piece may touch, given by `W`; every other fault from the check that names it.
-/

namespace Sys2Proof.Machine

/-! ### Guarded pieces -/

/-- A result is a state with `I` or a fault with `P`. -/
def ResultMeets {α : Type} (I : State → Prop) (P : CmdFault → Prop) : EStateM.Result CmdFault State α → Prop
  | .ok _ t => I t
  | .error f _ => P f

/-- From every state with `I`, the piece ends with `I` again, or it raises a fault with `P`. -/
def Guarded {α : Type} (I : State → Prop) (P : CmdFault → Prop) (m : Engine α) : Prop :=
  ∀ s, I s → ResultMeets I P (m s)

/-- `P` holds of a bus error at every address of `W` that the port cannot reach (R61). -/
def AllowsBus (p : Params) (W : Nat → Prop) (P : CmdFault → Prop) : Prop :=
  ∀ a, W a → reachable p a = false → P ⟨.busError, a⟩

section
variable {I : State → Prop} {P : CmdFault → Prop} {α β : Type}

theorem guarded_pure (a : α) : Guarded I P (pure a : Engine α) := fun _ h => h

theorem guarded_raise {c : FaultCode} {n : Nat} (h : P ⟨c, n⟩) : Guarded I P (raise c n : Engine α) := fun _ _ => h

/-- In sequence, with what the first piece answered at hand. -/
theorem guarded_bind_of_ok {m : Engine α} {f : α → Engine β} (hm : Guarded I P m)
    (hf : ∀ a s t, m s = .ok a t → Guarded I P (f a)) : Guarded I P (m >>= f) := by
  intro s hs
  have h := hm s hs
  rw [Engine.bind_run]
  cases hr : m s with
  | error e t => rw [hr] at h; exact h
  | ok a t => rw [hr] at h; exact hf a s t hr t h

theorem guarded_bind {m : Engine α} {f : α → Engine β} (hm : Guarded I P m) (hf : ∀ a, Guarded I P (f a)) :
    Guarded I P (m >>= f) := guarded_bind_of_ok hm fun a _ _ _ => hf a

theorem guarded_ite {c : Prop} [Decidable c] {m n : Engine α} (hm : c → Guarded I P m) (hn : ¬c → Guarded I P n) :
    Guarded I P (if c then m else n) := by
  split
  · next h => exact hm h
  · next h => exact hn h

theorem guarded_faultIf {b : Bool} {c : FaultCode} {n : Nat} (h : P ⟨c, n⟩) : Guarded I P (faultIf b c n) :=
  guarded_ite (fun _ => guarded_raise h) fun _ => guarded_pure ()

theorem guarded_getRegs : Guarded I P getRegs := fun _ h => h

theorem guarded_regVal (f : Regs → Word) : Guarded I P (regVal f) := fun _ h => h

variable {p : Params} {W : Nat → Prop}

theorem guarded_readByte (hbus : AllowsBus p W P) {a : Nat} (ha : W a) : Guarded I P (readByte p a) := by
  intro s hs
  unfold readByte
  split
  · exact hs
  · next h => exact hbus a ha (Bool.eq_false_of_not_eq_true h)

theorem guarded_memRead (hbus : AllowsBus p W P) (n : Nat) :
    ∀ a, (∀ i < n, W (a + i)) → Guarded I P (memRead p a n) := by
  induction n with
  | zero => exact fun a _ => guarded_pure 0
  | succ n ih =>
    intro a ha
    obtain ⟨hfirst, hrest⟩ := forall_lt_succ_shift ha
    exact guarded_bind (guarded_readByte hbus hfirst) fun _ => guarded_bind (ih _ hrest) fun _ => guarded_pure _

theorem guarded_readWords (hbus : AllowsBus p W P) (n : Nat) :
    ∀ a, (∀ i < 4 * n, W (a + i)) → Guarded I P (readWords p a n) := by
  induction n with
  | zero => exact fun a _ => guarded_pure []
  | succ n ih =>
    exact fun a ha => guarded_bind (guarded_memRead hbus 4 a fun i hi => ha i (by omega)) fun _ =>
      guarded_bind (ih (a + 4) fun i hi => by rw [Nat.add_assoc]; exact ha (4 + i) (by omega)) fun _ => guarded_pure _

theorem guarded_readOffsets (hbus : AllowsBus p W P) (n : Nat) :
    ∀ a, (∀ i < 4 * n, W (a + i)) → Guarded I P (readOffsets p a n) := by
  induction n with
  | zero => exact fun a _ => guarded_pure []
  | succ n ih =>
    exact fun a ha => guarded_bind (guarded_memRead hbus 4 a fun i hi => ha i (by omega)) fun _ =>
      guarded_bind (ih (a + 4) fun i hi => by rw [Nat.add_assoc]; exact ha (4 + i) (by omega)) fun _ => guarded_pure _

end

/-! ### Pieces that write -/

/-- The registers the streams are read through are those of `r`; the engine writes neither (R29). -/
structure AtPointers (r : Regs) (s : State) : Prop where
  src : s.regs.srcAddr = r.srcAddr
  scr : s.regs.scrAddr = r.scrAddr

section
variable {r : Regs} {P : CmdFault → Prop} {p : Params} {W : Nat → Prop}

theorem guarded_modifyHidden (f : Hidden → Hidden) : Guarded (AtPointers r) P (modifyHidden f) :=
  fun _ h => ⟨h.src, h.scr⟩

theorem guarded_warn (w : Warning) : Guarded (AtPointers r) P (warn w) := fun _ h => ⟨h.src, h.scr⟩

theorem guarded_warnIf (c : Bool) (w : Warning) : Guarded (AtPointers r) P (warnIf c w) :=
  guarded_ite (fun _ => guarded_warn w) fun _ => guarded_pure ()

theorem guarded_qtBuildTables : Guarded (AtPointers r) P (qtBuildTables p) := fun _ h => ⟨h.src, h.scr⟩

theorem guarded_advanceCursor : Guarded (AtPointers r) P advanceCursor := fun _ h => ⟨h.src, h.scr⟩

variable (hbus : AllowsBus p W P)
include hbus

theorem guarded_writeByte {a : Nat} (v : Byte) (ha : W a) : Guarded (AtPointers r) P (writeByte p a v) := by
  intro s hs
  unfold writeByte
  split
  · exact ⟨hs.src, hs.scr⟩
  · next h => exact hbus a ha (Bool.eq_false_of_not_eq_true h)

theorem guarded_writeBytes (l : List Byte) :
    ∀ a, (∀ i < l.length, W (a + i)) → Guarded (AtPointers r) P (writeBytes p a l) := by
  induction l with
  | nil => exact fun a _ => guarded_pure ()
  | cons b bs ih =>
    intro a ha
    obtain ⟨hfirst, hrest⟩ := forall_lt_succ_shift ha
    exact guarded_bind (guarded_writeByte hbus b hfirst) fun _ => ih (a + 1) hrest

theorem guarded_zeroFill (n : Nat) :
    ∀ a, (∀ i < n, W (a + i)) → Guarded (AtPointers r) P (zeroFill p a n) := by
  induction n with
  | zero => exact fun a _ => guarded_pure ()
  | succ n ih =>
    intro a ha
    obtain ⟨hfirst, hrest⟩ := forall_lt_succ_shift ha
    exact guarded_bind (guarded_writeByte hbus 0 hfirst) fun _ => ih (a + 1) hrest

theorem guarded_writeWords (l : List Word) :
    ∀ a, (∀ i < 4 * l.length, W (a + i)) → Guarded (AtPointers r) P (writeWords p a l) := by
  induction l with
  | nil => exact fun a _ => guarded_pure ()
  | cons w ws ih =>
    intro a ha
    rw [List.length_cons] at ha
    exact guarded_bind (guarded_writeBytes hbus _ a fun i hi => ha i (by rw [bytesOf_length] at hi; omega)) fun _ =>
      ih (a + 4) fun i hi => by rw [Nat.add_assoc]; exact ha (4 + i) (by omega)

theorem guarded_readBlock {a : Nat} (ha : ∀ i < 256, W (a + i)) : Guarded (AtPointers r) P (readBlock p a) :=
  guarded_bind (guarded_readWords hbus 64 a ha) fun _ => guarded_pure _

theorem guarded_writeBlock {a : Nat} (b : Block) (ha : ∀ i < 256, W (a + i)) :
    Guarded (AtPointers r) P (writeBlock p a b) :=
  guarded_writeWords hbus _ a fun i hi => ha i (by simpa using hi)

theorem guarded_writePixel {a : Nat} (fmt : PixelFormat) (c : Rgb) (ha : ∀ i < bpp fmt, W (a + i)) :
    Guarded (AtPointers r) P (writePixel p a fmt c) :=
  guarded_writeBytes hbus _ a (by simpa using ha)

theorem guarded_colorPixels (fmt : PixelFormat) {src dst : Nat} (hsrc : ∀ i < 768, W (src + i))
    (hdst : ∀ i < 64 * bpp fmt, W (dst + i)) (n : Nat) :
    ∀ px, px + n ≤ 64 → Guarded (AtPointers r) P (colorPixels p fmt src dst n px) := by
  induction n with
  | zero => exact fun px _ => guarded_pure ()
  | succ n ih =>
    intro px hpx
    have hread : ∀ k ≤ 512, Guarded (AtPointers r) P (memRead p (src + k + 4 * px) 4) := fun k hk =>
      guarded_memRead hbus 4 _ fun i hi => by
        rw [Nat.add_assoc, Nat.add_assoc]
        exact hsrc _ (by omega)
    refine guarded_bind (hread 0 (by omega)) fun _ => guarded_bind (hread 256 (by omega)) fun _ =>
      guarded_bind (hread 512 (by omega)) fun _ => guarded_bind (guarded_writePixel hbus fmt _ fun i hi => ?_) fun _ =>
        ih (px + 1) (by omega)
    rw [Nat.add_assoc]
    exact hdst _ (pixel_bytes_lt (by omega) hi)

/-! ### Huffman -/

section
variable {c : Comp} (hcomp : ∀ i < c.len, W (c.base + i)) (hover : ∀ n, P ⟨.hufOverrun, n⟩)
include hcomp hover

theorem guarded_compByte (i : Nat) : Guarded (AtPointers r) P (compByte p c i) :=
  guarded_ite (fun _ => guarded_raise (hover i)) fun h => guarded_readByte hbus (hcomp i (Nat.lt_of_not_le h))

theorem guarded_freqRange (n : Nat) : ∀ s pos, Guarded (AtPointers r) P (freqRange p c n s pos) := by
  induction n with
  | zero => exact fun s pos => guarded_pure pos
  | succ n ih =>
    exact fun s pos => guarded_bind (guarded_compByte hbus hcomp hover pos) fun _ =>
      guarded_bind (guarded_modifyHidden _) fun _ => ih (s + 1) (pos + 1)

theorem guarded_nextHeader (pos : Nat) : Guarded (AtPointers r) P (nextHeader p c pos) :=
  guarded_bind (guarded_compByte hbus hcomp hover pos) fun _ => guarded_ite (fun _ => guarded_pure _) fun _ =>
    guarded_bind (guarded_compByte hbus hcomp hover _) fun _ => guarded_pure _

theorem guarded_freqLoop (n first last pos : Nat) : Guarded (AtPointers r) P (freqLoop p c n first last pos) := by
  fun_induction freqLoop p c n first last pos with
  | case1 first last pos => exact guarded_freqRange hbus hcomp hover _ _ _
  | case2 first last pos ih =>
    refine guarded_bind (guarded_freqRange hbus hcomp hover _ _ _) fun q =>
      guarded_bind (guarded_nextHeader hbus hcomp hover q) ?_
    rintro ⟨q, _ | ⟨a, b⟩⟩
    · exact guarded_pure q
    · exact ih q a b
  | case3 n first last pos ih =>
    refine guarded_bind (guarded_freqRange hbus hcomp hover _ _ _) fun q =>
      guarded_bind (guarded_nextHeader hbus hcomp hover q) ?_
    rintro ⟨q, _ | ⟨a, b⟩⟩
    · exact guarded_pure q
    · exact ih q a b

theorem guarded_freqParse : Guarded (AtPointers r) P (freqParse p c) :=
  guarded_bind (guarded_modifyHidden _) fun _ => guarded_bind (guarded_compByte hbus hcomp hover 0) fun _ =>
    guarded_bind (guarded_compByte hbus hcomp hover 1) fun _ => guarded_freqLoop hbus hcomp hover _ _ _ _

theorem guarded_hufBit (start : Nat) : Guarded (AtPointers r) P (hufBit p c start) := by
  intro s hs
  have h := guarded_compByte (r := r) hbus hcomp hover (start + s.hidden.hcur / 8) s hs
  unfold hufBit
  dsimp only
  cases hr : compByte p c (start + s.hidden.hcur / 8) s with
  | error f t => rw [hr] at h; exact h
  | ok b t => rw [hr] at h; exact ⟨h.src, h.scr⟩

theorem guarded_walk (start k : Nat) : ∀ n, Guarded (AtPointers r) P (walk p c start k n) := by
  induction k with
  | zero => exact fun n => guarded_pure n
  | succ k ih =>
    exact fun n => guarded_ite (fun _ => guarded_pure n) fun _ =>
      guarded_bind (guarded_hufBit hbus hcomp hover start) fun _ => guarded_bind (fun _ h => h) fun _ => ih _

theorem guarded_symbolLoop (start : Nat) {out : Nat} (root : Fin 513) (k : Nat) :
    ∀ n, (∀ i < n + k, W (out + i)) → Guarded (AtPointers r) P (symbolLoop p c start out root k n) := by
  induction k with
  | zero => exact fun n _ => guarded_pure n
  | succ k ih =>
    exact fun n hout => guarded_bind (guarded_walk hbus hcomp hover start 513 root) fun leaf =>
      guarded_ite (fun _ => guarded_pure n) fun _ =>
        guarded_bind (guarded_writeByte hbus _ (hout n (by omega))) fun _ =>
          ih (n + 1) fun i hi => hout i (by omega)

theorem guarded_symbolDecode (start : Nat) {out ds : Nat} (hout : ∀ i < ds, W (out + i)) :
    Guarded (AtPointers r) P (symbolDecode p c start out ds) := by
  refine guarded_bind (fun _ h => h) fun root => ?_
  cases root with
  | none => exact guarded_pure 0
  | some root => exact guarded_symbolLoop hbus hcomp hover start root ds 0 (by simpa using hout)

theorem guarded_huffmanPhase {out ds : Nat} (hout : ∀ i < ds, W (out + i)) :
    Guarded (AtPointers r) P (huffmanPhase p c out ds) := by
  refine guarded_bind (guarded_freqParse hbus hcomp hover) fun start => guarded_bind (guarded_modifyHidden _) fun _ =>
    guarded_bind_of_ok (guarded_symbolDecode hbus hcomp hover start hout) fun n s t hn => ?_
  have hle := symbolDecode_le c start out ds s n t hn
  refine guarded_bind (guarded_zeroFill hbus _ _ fun i hi => ?_) fun _ => guarded_bind (guarded_warnIf _ _) fun _ =>
    fun _ h => ⟨h.src, h.scr⟩
  rw [Nat.add_assoc]
  exact hout (n + i) (by omega)

end

end

/-! ### Streams and blocks -/

/-- The streams of a payload and its scratch bytes lie at addresses of `W`. -/
structure PlanWithin (W : Nat → Prop) (r : Regs) (pl : Plan) : Prop where
  comp : ∀ i < pl.cs, W (r.srcAddr.toNat + pl.compOff + i)
  ac : ∀ i < pl.acLen, W (r.srcAddr.toNat + pl.acOff + i)
  dc : ∀ i < pl.dcLen, W (r.srcAddr.toNat + pl.dcOff + i)
  scratch : ∀ i < pl.ds, W (r.scrAddr.toNat + i)

section
variable {r : Regs} {P : CmdFault → Prop} {p : Params} {W : Nat → Prop} {pl : Plan} (hbus : AllowsBus p W P)
  (hpl : PlanWithin W r pl)
include hbus hpl

theorem guarded_bitAC : Guarded (AtPointers r) P (bitAC p pl) := by
  intro s hs
  unfold bitAC
  dsimp only
  split
  · exact ⟨hs.src, hs.scr⟩
  · next hin =>
    have hbyte := guarded_readByte (I := AtPointers r) hbus (hpl.ac _ (Nat.lt_of_not_le hin)) s hs
    rw [hs.src]
    cases hr : readByte p (r.srcAddr.toNat + pl.acOff + s.hidden.acur / 8) s with
    | error f t => rw [hr] at hbyte; exact hbyte
    | ok b t => exact ⟨hs.src, hs.scr⟩

theorem guarded_bitDC (hover : ∀ n, P ⟨.dcOverrun, n⟩) : Guarded (AtPointers r) P (bitDC p pl) := by
  intro s hs
  unfold bitDC
  dsimp only
  split
  · exact hover _
  · next hin =>
    have hbyte := guarded_readByte (I := AtPointers r) hbus (hpl.dc _ (Nat.lt_of_not_le hin)) s hs
    rw [hs.src]
    cases hr : readByte p (r.srcAddr.toNat + pl.dcOff + s.hidden.dcur / 8) s with
    | error f t => rw [hr] at hbyte; exact hbyte
    | ok b t => exact ⟨hs.src, hs.scr⟩

theorem guarded_acCodeByte : Guarded (AtPointers r) P (acCodeByte p pl) := by
  intro s hs
  unfold acCodeByte
  dsimp only
  split
  · exact ⟨hs.src, hs.scr⟩
  · next hin =>
    have hbyte := guarded_readByte (I := AtPointers r) hbus (hpl.scratch _ (Nat.lt_of_not_le hin)) s hs
    rw [hs.scr]
    cases hr : readByte p (r.scrAddr.toNat + s.hidden.j) s with
    | error f t => rw [hr] at hbyte; exact hbyte
    | ok b t => exact ⟨hs.src, hs.scr⟩

omit hbus hpl in
theorem guarded_readBits {next : Engine Bool} (hnext : Guarded (AtPointers r) P next) (n : Nat) :
    ∀ t v, Guarded (AtPointers r) P (readBits p next n t v) := by
  induction n with
  | zero => exact fun t v => guarded_pure v
  | succ n ih => exact fun t v => guarded_bind hnext fun b => ih _ _

theorem guarded_levelCode (k len : Nat) (zz : Block) : Guarded (AtPointers r) P (levelCode p pl k len zz) := by
  have hdrop : Guarded (AtPointers r) P (do warn .posOverflow; pure (zz, none) : Engine (Block × Option Nat)) :=
    guarded_bind (guarded_warn _) fun _ => guarded_pure _
  exact guarded_ite (fun _ => hdrop) fun _ => guarded_bind (guarded_readBits (guarded_bitAC hbus hpl) _ _ _) fun _ =>
    guarded_ite (fun _ => hdrop) fun _ => guarded_pure _

theorem guarded_acCode (k : Nat) (zz : Block) (b : Byte) : Guarded (AtPointers r) P (acCode p pl k zz b) :=
  guarded_ite (fun _ => guarded_pure _) fun _ => guarded_ite (fun _ => guarded_pure _) fun _ =>
    guarded_ite (fun _ => guarded_bind (guarded_warn _) fun _ => guarded_pure _) fun _ =>
      guarded_levelCode hbus hpl _ _ zz

theorem guarded_acLoop (n : Nat) : ∀ k zz, Guarded (AtPointers r) P (acLoop p pl n k zz) := by
  induction n with
  | zero => exact fun k zz => guarded_pure zz
  | succ n ih =>
    intro k zz
    refine guarded_ite (fun _ => guarded_pure zz) fun _ => guarded_bind (guarded_acCodeByte hbus hpl) fun b =>
      guarded_bind (guarded_acCode hbus hpl k zz b) ?_
    rintro ⟨zz, _ | k⟩
    · exact guarded_pure zz
    · exact ih k zz

variable (hdc : ∀ n, P ⟨.dcOverrun, n⟩)
include hdc

theorem guarded_decodePlane (ch : Channel) : Guarded (AtPointers r) P (decodePlane p pl ch) :=
  guarded_bind
    (guarded_bind (guarded_readBits (guarded_bitDC hbus hpl hdc) _ _ _) fun _ => guarded_acLoop hbus hpl _ _ _)
    fun _ => guarded_bind guarded_getRegs fun _ => guarded_bind (guarded_modifyHidden _) fun _ => guarded_pure _

omit hpl hdc in
theorem guarded_placePixels (fmt : PixelFormat) {place : Nat → Nat} (y cb cr : Block)
    (hplace : ∀ q < 64, ∀ i < bpp fmt, W (place q + i)) (n : Nat) :
    ∀ px, px + n ≤ 64 → Guarded (AtPointers r) P (placePixels p fmt place y cb cr n px) := by
  induction n with
  | zero => exact fun px _ => guarded_pure ()
  | succ n ih =>
    exact fun px hpx => guarded_bind (guarded_writePixel hbus fmt _ (hplace px (by omega))) fun _ =>
      ih (px + 1) (by omega)

theorem guarded_decodeBlocks (fmt : PixelFormat) {place : Nat → Nat → Nat} (n : Nat) :
    ∀ b, (∀ c < b + n, ∀ q < 64, ∀ i < bpp fmt, W (place c q + i)) →
      Guarded (AtPointers r) P (decodeBlocks p pl fmt place n b) := by
  have hplane := guarded_decodePlane hbus hpl hdc
  induction n with
  | zero => exact fun b _ => guarded_pure ()
  | succ n ih =>
    exact fun b hplace =>
      guarded_bind
        (guarded_bind (hplane _) fun _ => guarded_bind (hplane _) fun _ => guarded_bind (hplane _) fun _ =>
          guarded_placePixels hbus fmt _ _ _ (hplace b (by omega)) 64 0 (by omega))
        fun _ => ih (b + 1) fun c hc => hplace c (by omega)

/-- The decode of a payload faults only HUF_OVERRUN, DC_OVERRUN, or with a bus error inside its windows. -/
theorem guarded_decodePayload (hover : ∀ n, P ⟨.hufOverrun, n⟩) (fmt : PixelFormat) {place : Nat → Nat → Nat}
    {blocks : Nat} (hplace : ∀ c < blocks, ∀ q < 64, ∀ i < bpp fmt, W (place c q + i)) :
    Guarded (AtPointers r) P (decodePayload p pl fmt place blocks) := by
  intro s hs
  have hrun : decodePayload p pl fmt place blocks s =
      (do qtBuildTables p
          huffmanPhase p ⟨r.srcAddr.toNat + pl.compOff, pl.cs⟩ r.scrAddr.toNat pl.ds
          decodeBlocks p pl fmt place blocks 0 : Engine Unit) s := by
    rw [decodePayload, Engine.bind_ok (Engine.getRegs_run s), hs.src, hs.scr]
  rw [hrun]
  exact guarded_bind guarded_qtBuildTables (fun _ =>
    guarded_bind (guarded_huffmanPhase hbus hpl.comp hover hpl.scratch) fun _ =>
      guarded_decodeBlocks hbus hpl hdc fmt blocks 0 (by simpa using hplace)) s hs

end

end Sys2Proof.Machine
end

section
/-!
PROOF. Every command ends, with no fault or with one of its row of R253 (spec/60_exceptions.md rules R250-R253, R256):
the pre-checks and the body of each command are guarded by `RowFault`, the faults of its row.
-/

namespace Sys2Proof.Machine

/-! ### The faults of a row -/

/-- A fault the row of `i` lists: with detail 0 where R251 says so, and a bus error at an address of the command's
windows that the port cannot reach. -/
structure RowFault (p : Params) (i : Instr) (ws : List Window) (f : CmdFault) : Prop where
  listed : f.code ∈ faultsOf i
  plain : f.code = .badGeometry ∨ f.code = .overlap → f.info = 0
  bus : f.code = .busError → inWindows ws f.info ∧ reachable p f.info = false

theorem inWindows_add {ws : List Window} {w : Window} (hw : w ∈ ws) {i : Nat} (hi : i < w.len) :
    inWindows ws (w.base + i) :=
  ⟨w, hw, (w.holds_iff _).mpr ⟨Nat.le_add_right _ _, Nat.add_lt_add_left hi _⟩⟩

section
variable {p : Params} {i : Instr} {ws : List Window}

theorem allowsBus_rowFault (h : .busError ∈ faultsOf i) : AllowsBus p (inWindows ws) (RowFault p i ws) :=
  fun _ ha hr => ⟨h, by simp, fun _ => ⟨ha, hr⟩⟩

theorem rowFault_zero {c : FaultCode} (h : c ∈ faultsOf i) (hc : c ≠ .busError) : RowFault p i ws ⟨c, 0⟩ :=
  ⟨h, fun _ => rfl, fun hbus => absurd hbus hc⟩

theorem rowFault_detail {c : FaultCode} (n : Nat) (h : c ∈ faultsOf i)
    (hc : c ≠ .badGeometry ∧ c ≠ .overlap ∧ c ≠ .busError) : RowFault p i ws ⟨c, n⟩ :=
  ⟨h, fun hplain => absurd hplain (by simp [hc]), fun hbus => absurd hbus hc.2.2⟩

end

/-! ### The stage commands and HUF_DECODE -/

section
variable {P : CmdFault → Prop} {s t : State} {plan : Plan}

theorem guarded_hufDecodeCheck {I : State → Prop} (hlap : P ⟨.overlap, 0⟩) (hdst : P ⟨.dstOverrun, 0⟩) :
    Guarded I P hufDecodeCheck :=
  guarded_bind guarded_getRegs fun _ => guarded_bind (guarded_faultIf hlap) fun _ =>
    guarded_bind (guarded_faultIf hdst) fun _ => guarded_pure _

theorem guarded_blockStageCheck {I : State → Prop} (hlap : P ⟨.overlap, 0⟩) (hsrc : P ⟨.srcOverrun, 0⟩)
    (hdst : P ⟨.dstOverrun, 0⟩) : Guarded I P blockStageCheck :=
  guarded_bind guarded_getRegs fun _ => guarded_bind (guarded_faultIf hlap) fun _ =>
    guarded_bind (guarded_faultIf hsrc) fun _ => guarded_bind (guarded_faultIf hdst) fun _ => guarded_pure _

theorem guarded_colorBlockCheck {I : State → Prop} (fmt : PixelFormat) (hlap : P ⟨.overlap, 0⟩)
    (hsrc : P ⟨.srcOverrun, 0⟩) (hdst : P ⟨.dstOverrun, 0⟩) : Guarded I P (colorBlockCheck fmt) :=
  guarded_bind guarded_getRegs fun _ => guarded_bind (guarded_faultIf hlap) fun _ =>
    guarded_bind (guarded_faultIf hsrc) fun _ => guarded_bind (guarded_faultIf hdst) fun _ => guarded_pure _

/-- R124: the output fits the write window. -/
theorem hufDecodeCheck_fits (h : hufDecodeCheck s = .ok plan t) : s.regs.hufLen.toNat ≤ s.regs.dstLen.toNat := by
  rw [hufDecodeCheck, Engine.bind_ok (Engine.getRegs_run s)] at h
  obtain ⟨-, h⟩ := faultIf_bind_ok h
  obtain ⟨hdst, -⟩ := faultIf_bind_ok h
  simpa using hdst

/-- R146, R181: the blocks fit the windows. -/
theorem blockStageCheck_fits (h : blockStageCheck s = .ok plan t) :
    256 ≤ s.regs.srcLen.toNat ∧ 256 ≤ s.regs.dstLen.toNat := by
  rw [blockStageCheck, Engine.bind_ok (Engine.getRegs_run s)] at h
  obtain ⟨-, h⟩ := faultIf_bind_ok h
  obtain ⟨hsrc, h⟩ := faultIf_bind_ok h
  obtain ⟨hdst, -⟩ := faultIf_bind_ok h
  exact ⟨by simpa using hsrc, by simpa using hdst⟩

/-- R196: the planes and the pixels fit the windows. -/
theorem colorBlockCheck_fits {fmt : PixelFormat} (h : colorBlockCheck fmt s = .ok plan t) :
    768 ≤ s.regs.srcLen.toNat ∧ 64 * bpp fmt ≤ s.regs.dstLen.toNat := by
  rw [colorBlockCheck, Engine.bind_ok (Engine.getRegs_run s)] at h
  obtain ⟨-, h⟩ := faultIf_bind_ok h
  obtain ⟨hsrc, h⟩ := faultIf_bind_ok h
  obtain ⟨hdst, -⟩ := faultIf_bind_ok h
  exact ⟨by simpa using hsrc, by simpa using hdst⟩

/-- Every state is at its own pointers. -/
theorem atPointers_self (s : State) : AtPointers s.regs s := ⟨rfl, rfl⟩

variable {p : Params} {W : Nat → Prop} (hbus : AllowsBus p W P)
  (hsrc : ∀ i < s.regs.srcLen.toNat, W (s.regs.srcAddr.toNat + i))
  (hdst : ∀ i < s.regs.dstLen.toNat, W (s.regs.dstAddr.toNat + i))
include hbus hsrc hdst

theorem hufDecodeBody_meets (hover : ∀ n, P ⟨.hufOverrun, n⟩) (h : hufDecodeCheck s = .ok plan t) :
    ResultMeets (AtPointers s.regs) P (hufDecodeBody p plan s) :=
  guarded_huffmanPhase hbus hsrc hover (fun i hi => hdst i (hi.trans_le (hufDecodeCheck_fits h))) s (atPointers_self s)

theorem dequantBlockBody_meets (sel : TableSel) (h : blockStageCheck s = .ok plan t) :
    ResultMeets (AtPointers s.regs) P (dequantBlockBody p sel plan s) := by
  obtain ⟨hs, hd⟩ := blockStageCheck_fits h
  exact guarded_bind (guarded_readBlock hbus fun i hi => hsrc i (hi.trans_le hs)) (fun zz =>
    guarded_writeBlock hbus (dequant p zz (s.regs.table sel)) fun i hi => hdst i (hi.trans_le hd)) s (atPointers_self s)

theorem idctBlockBody_meets (h : blockStageCheck s = .ok plan t) :
    ResultMeets (AtPointers s.regs) P (idctBlockBody p plan s) := by
  obtain ⟨hs, hd⟩ := blockStageCheck_fits h
  exact guarded_bind (guarded_readBlock hbus fun i hi => hsrc i (hi.trans_le hs)) (fun c =>
    guarded_bind (guarded_modifyHidden _) fun _ =>
      guarded_writeBlock hbus (idct2D p c) fun i hi => hdst i (hi.trans_le hd)) s (atPointers_self s)

theorem colorBlockBody_meets (fmt : PixelFormat) (h : colorBlockCheck fmt s = .ok plan t) :
    ResultMeets (AtPointers s.regs) P (colorBlockBody p fmt plan s) := by
  obtain ⟨hs, hd⟩ := colorBlockCheck_fits h
  exact guarded_colorPixels hbus fmt (fun i hi => hsrc i (hi.trans_le hs)) (fun i hi => hdst i (hi.trans_le hd)) 64 0
    (by omega) s (atPointers_self s)

end

/-! ### The payload -/

section
variable {p : Params} {s t : State}

theorem need_of_fits {off n : Nat} (h : off + n ≤ s.regs.srcLen.toNat) : need off n s = .ok () s := by
  rw [need, Engine.bind_ok (Engine.regVal_run _ s), Engine.faultIf_run, if_neg (by simpa using h)]

theorem need_of_overrun {off n : Nat} (h : ¬off + n ≤ s.regs.srcLen.toNat) :
    need off n s = .error ⟨.srcOverrun, off⟩ s := by
  rw [need, Engine.bind_ok (Engine.regVal_run _ s), Engine.faultIf_run, if_pos (by simpa using h)]

/-- R70: a field that was accepted lies in the read window. -/
theorem fits_of_need_ok {off n : Nat} {u : Unit} (h : need off n s = .ok u t) : off + n ≤ s.regs.srcLen.toNat := by
  by_contra hout
  simp [need_of_overrun hout] at h

/-- R69, R70: an accepted payload lies in the read window, each stream where its size field says. -/
theorem payloadParse_layout {pl : Plan} (h : payloadParse p s = .ok pl t) :
    pl.compOff + pl.cs ≤ s.regs.srcLen.toNat ∧ pl.acOff + pl.acLen ≤ s.regs.srcLen.toNat ∧
      pl.dcOff + pl.dcLen ≤ s.regs.srcLen.toNat := by
  unfold payloadParse at h
  obtain ⟨cs, s1, h1, k1⟩ := Engine.bind_eq_ok h
  obtain rfl := (pure_sizeField 0).ok h1
  obtain ⟨ds, s2, h2, k2⟩ := Engine.bind_eq_ok k1
  obtain rfl := (pure_sizeField 4).ok h2
  obtain ⟨_, s3, hcomp, k3⟩ := Engine.bind_eq_ok k2
  obtain rfl := (pure_need _ _).ok hcomp
  obtain ⟨ac, s4, h4, k4⟩ := Engine.bind_eq_ok k3
  obtain rfl := (pure_sizeField _).ok h4
  obtain ⟨_, s5, hac, k5⟩ := Engine.bind_eq_ok k4
  obtain rfl := (pure_need _ _).ok hac
  obtain ⟨dc, s6, h6, k6⟩ := Engine.bind_eq_ok k5
  obtain rfl := (pure_sizeField _).ok h6
  obtain ⟨_, s7, hdc, k7⟩ := Engine.bind_eq_ok k6
  obtain rfl := (EStateM.Result.ok.inj k7).1
  exact ⟨fits_of_need_ok hcomp, fits_of_need_ok hac, fits_of_need_ok hdc⟩

/-- An accepted payload with room in scratch is read and written inside the two windows. -/
theorem planWithin_of_payloadCheck {W : Nat → Prop} {pl : Plan}
    (hsrc : ∀ i < s.regs.srcLen.toNat, W (s.regs.srcAddr.toNat + i))
    (hscr : ∀ i < s.regs.scrLen.toNat, W (s.regs.scrAddr.toNat + i)) (h : payloadCheck p s = .ok pl t) :
    PlanWithin W s.regs pl := by
  obtain ⟨-, hparse, hroom⟩ := payloadCheck_ok h
  obtain ⟨hcomp, hac, hdc⟩ := payloadParse_layout hparse
  have hstream : ∀ off len, off + len ≤ s.regs.srcLen.toNat → ∀ i < len, W (s.regs.srcAddr.toNat + off + i) :=
    fun off len hfit i hi => by
      rw [Nat.add_assoc]
      exact hsrc _ (by omega)
  exact ⟨hstream _ _ hcomp, hstream _ _ hac, hstream _ _ hdc, fun i hi => hscr i (hi.trans_le hroom)⟩

variable {P : CmdFault → Prop} {W : Nat → Prop} (hbus : AllowsBus p W P)
  (hsrc : ∀ i < s.regs.srcLen.toNat, W (s.regs.srcAddr.toNat + i)) (hrun : ∀ n, P ⟨.srcOverrun, n⟩)

include hrun in
theorem guarded_need (off n : Nat) : Guarded (· = s) P (need off n) := by
  intro t ht
  rw [ht]
  by_cases hfits : off + n ≤ s.regs.srcLen.toNat
  · rw [need_of_fits hfits]; rfl
  · rw [need_of_overrun hfits]; exact hrun off

include hbus hsrc hrun

theorem guarded_sizeField (off : Nat) : Guarded (· = s) P (sizeField p off) := by
  intro t ht
  rw [ht, sizeField]
  by_cases hfits : off + 4 ≤ s.regs.srcLen.toNat
  · rw [Engine.bind_ok (need_of_fits hfits), Engine.bind_ok (Engine.regVal_run _ s)]
    refine guarded_memRead hbus 4 _ (fun i hi => ?_) s rfl
    rw [Nat.add_assoc]
    exact hsrc _ (by omega)
  · rw [Engine.bind_error (need_of_overrun hfits)]
    exact hrun off

theorem guarded_payloadCheck (hroom : ∀ n, P ⟨.scratchOverflow, n⟩) : Guarded (· = s) P (payloadCheck p) := by
  have hfield := guarded_sizeField hbus hsrc hrun
  have hneed := guarded_need (s := s) hrun
  exact guarded_bind
    (guarded_bind (hfield 0) fun _ => guarded_bind (hfield 4) fun _ => guarded_bind (hneed _ _) fun _ =>
      guarded_bind (hfield _) fun _ => guarded_bind (hneed _ _) fun _ => guarded_bind (hfield _) fun _ =>
        guarded_bind (hneed _ _) fun _ => guarded_pure _)
    fun _ => guarded_bind (guarded_regVal _) fun _ => guarded_bind (guarded_faultIf (hroom _)) fun _ => guarded_pure _

end

/-! ### The image commands -/

/-- R253: the image commands have one row of faults. -/
def imageFaults : List FaultCode :=
  [.badGeometry, .overlap, .dstOverrun, .srcOverrun, .scratchOverflow, .hufOverrun, .dcOverrun, .busError]

theorem faultsOf_compositeOf (fmt : PixelFormat) : faultsOf (compositeOf fmt) = imageFaults := by cases fmt <;> rfl

/-- R224: an accepted offset list places every block in the write window. -/
theorem checkOffsets_fit {fmt : PixelFormat} {stride len : Nat} (l : List Nat) :
    ∀ {i : Nat} {s t : State} {u : Unit}, checkOffsets fmt stride len l i s = .ok u t →
      ∀ o ∈ l, (o + 7 * stride + 8) * bpp fmt ≤ len := by
  induction l with
  | nil => exact fun _ o ho => absurd ho List.not_mem_nil
  | cons o os ih =>
    intro i s t u h
    obtain ⟨hfit, h⟩ := faultIf_bind_ok h
    exact List.forall_mem_cons.mpr ⟨by simpa using hfit, ih h⟩

theorem guarded_checkOffsets {I : State → Prop} {P : CmdFault → Prop} (hdst : ∀ n, P ⟨.dstOverrun, n⟩)
    (fmt : PixelFormat) (stride len : Nat) (l : List Nat) : ∀ i, Guarded I P (checkOffsets fmt stride len l i) := by
  induction l with
  | nil => exact fun i => guarded_pure ()
  | cons o os ih => exact fun i => guarded_bind (guarded_faultIf (hdst i)) fun _ => ih (i + 1)

/-- R222: a pixel of a block that fits the write window lies in it. -/
theorem scatterAddr_lt {fmt : PixelFormat} {dst stride o q i len : Nat} (hfit : (o + 7 * stride + 8) * bpp fmt ≤ len)
    (hq : q < 64) (hi : i < bpp fmt) : ∃ k < len, scatterAddr fmt dst stride o q + i = dst + k := by
  have hrow : q / 8 * stride ≤ 7 * stride := Nat.mul_le_mul_right stride (by omega)
  have hpx := pixel_bytes_lt (a := o + q / 8 * stride + q % 8) (n := o + 7 * stride + 8) (by omega) hi
  exact ⟨_, hpx.trans_le hfit, Nat.add_assoc _ _ _⟩

section
variable {p : Params} {s t : State} {i : Instr} {ws : List Window} (hrow : faultsOf i = imageFaults)
  (hsrc : s.regs.srcWindow ∈ ws) (hdst : s.regs.dstWindow ∈ ws) (hscr : s.regs.scrWindow ∈ ws)
include hrow

theorem image_allowsBus : AllowsBus p (inWindows ws) (RowFault p i ws) := allowsBus_rowFault (by rw [hrow]; decide)

theorem image_rowFault {c : FaultCode} (n : Nat) (hc : c ∈ imageFaults)
    (hplain : c ≠ .badGeometry ∧ c ≠ .overlap ∧ c ≠ .busError) : RowFault p i ws ⟨c, n⟩ :=
  rowFault_detail n (hrow ▸ hc) hplain

include hsrc

theorem image_guarded_payloadCheck : Guarded (· = s) (RowFault p i ws) (payloadCheck p) :=
  guarded_payloadCheck (image_allowsBus hrow) (fun _ h => inWindows_add hsrc h)
    (fun n => image_rowFault hrow n (by decide) (by decide)) fun n => image_rowFault hrow n (by decide) (by decide)

theorem decodeImageCheck_meets (fmt : PixelFormat) :
    ResultMeets (· = s) (RowFault p i ws) (decodeImageCheck p fmt s) := by
  have hzero : ∀ {c}, c ∈ imageFaults → c ≠ .busError → RowFault p i ws ⟨c, 0⟩ := fun hc => rowFault_zero (hrow ▸ hc)
  exact guarded_bind guarded_getRegs (fun _ => guarded_bind (guarded_faultIf (hzero (by decide) (by decide))) fun _ =>
    guarded_bind (guarded_faultIf (hzero (by decide) (by decide))) fun _ =>
      guarded_bind (guarded_faultIf (hzero (by decide) (by decide))) fun _ =>
        guarded_bind (image_guarded_payloadCheck hrow hsrc) fun _ => guarded_pure _) s rfl

omit hsrc in
theorem compositeCheck_meets (fmt : PixelFormat)
    (hwin : s.regs.blockCount.toNat ≠ 0 → s.regs.srcWindow ∈ ws ∧ s.regs.offsWindow ∈ ws) :
    ResultMeets (· = s) (RowFault p i ws) (compositeCheck p fmt s) := by
  have hzero : ∀ {c}, c ∈ imageFaults → c ≠ .busError → RowFault p i ws ⟨c, 0⟩ := fun hc => rowFault_zero (hrow ▸ hc)
  rw [compositeCheck, Engine.bind_ok (Engine.getRegs_run s)]
  exact guarded_ite (fun _ => guarded_pure _) (fun hn =>
    guarded_bind (guarded_faultIf (hzero (by decide) (by decide))) fun _ =>
      guarded_bind (guarded_faultIf (hzero (by decide) (by decide))) fun _ =>
        guarded_bind (guarded_readOffsets (image_allowsBus hrow) _ _ fun _ h => inWindows_add (hwin hn).2 h) fun _ =>
          guarded_bind (guarded_checkOffsets (fun n => image_rowFault hrow n (by decide) (by decide)) _ _ _ _ _)
            fun _ => guarded_bind (image_guarded_payloadCheck hrow (hwin hn).1) fun _ => guarded_pure _) s rfl

include hdst hscr

/-- A payload accepted with the plan `plan` is decoded inside the windows. -/
theorem image_guarded_decodePayload (fmt : PixelFormat) {plan pl : Plan} (hcheck : payloadCheck p s = .ok pl s)
    {footprint : List Window} {offsets : List Nat}
    (hplan : plan = { pl with footprint := footprint, offsets := offsets }) {place : Nat → Nat → Nat} {blocks : Nat}
    (hplace : ∀ c < blocks, ∀ q < 64, ∀ k < bpp fmt,
      ∃ j < s.regs.dstLen.toNat, place c q + k = s.regs.dstAddr.toNat + j) :
    Guarded (AtPointers s.regs) (RowFault p i ws) (decodePayload p plan fmt place blocks) := by
  obtain ⟨hcomp, hac, hdc, hscratch⟩ := planWithin_of_payloadCheck (W := inWindows ws)
    (fun _ h => inWindows_add hsrc h) (fun _ h => inWindows_add hscr h) hcheck
  have hwithin : PlanWithin (inWindows ws) s.regs plan := by
    subst hplan
    exact ⟨hcomp, hac, hdc, hscratch⟩
  refine guarded_decodePayload (image_allowsBus hrow) hwithin
    (fun n => image_rowFault hrow n (by decide) (by decide)) (fun n => image_rowFault hrow n (by decide) (by decide))
    fmt fun c hc q hq k hk => ?_
  obtain ⟨j, hj, he⟩ := hplace c hc q hq k hk
  rw [he]
  exact inWindows_add hdst hj

theorem decodeImageBody_meets (fmt : PixelFormat) {plan : Plan} (h : decodeImageCheck p fmt s = .ok plan t) :
    ResultMeets (AtPointers s.regs) (RowFault p i ws) (decodeImageBody p fmt plan s) := by
  obtain ⟨-, hgeo, hfit, -, pl, hcheck, hplan⟩ := decodeImageCheck_ok h
  rw [decodeImageBody_run]
  refine image_guarded_decodePayload hrow hsrc hdst hscr fmt hcheck hplan (fun c hc q hq k hk => ?_) s
    (atPointers_self s)
  exact ⟨_, (pixel_bytes_lt (raster_in_image hgeo hc hq) hk).trans_le hfit, Nat.add_assoc _ _ _⟩

theorem compositeBody_meets_of_blocks (fmt : PixelFormat) {plan : Plan} (hn : s.regs.blockCount.toNat ≠ 0)
    (h : compositeCheck p fmt s = .ok plan t) :
    ResultMeets (AtPointers s.regs) (RowFault p i ws) (compositeBody p fmt plan s) := by
  obtain ⟨-, -, hread, hoffsets, -, pl, hcheck, hplan⟩ := compositeCheck_ok h hn
  rw [compositeBody_run fmt hn]
  refine guarded_bind (image_guarded_decodePayload hrow hsrc hdst hscr fmt hcheck hplan fun c hc q hq k hk => ?_)
    (fun _ => guarded_advanceCursor) s (atPointers_self s)
  have hlen : c < plan.offsets.length := by rwa [readOffsets_length _ _ _ _ _ hread]
  refine scatterAddr_lt (checkOffsets_fit _ hoffsets _ ?_) hq hk
  rw [List.getD_eq_getElem _ _ hlen]
  exact List.getElem_mem hlen

omit hsrc hdst hscr in
theorem compositeBody_meets (fmt : PixelFormat) {plan : Plan} (h : compositeCheck p fmt s = .ok plan t)
    (hwin : s.regs.blockCount.toNat ≠ 0 → s.regs.srcWindow ∈ ws ∧ s.regs.dstWindow ∈ ws ∧ s.regs.scrWindow ∈ ws) :
    ResultMeets (AtPointers s.regs) (RowFault p i ws) (compositeBody p fmt plan s) := by
  by_cases hn : s.regs.blockCount.toNat = 0
  · rw [compositeBody_empty fmt hn]
    exact guarded_advanceCursor s (atPointers_self s)
  · obtain ⟨hsrc, hdst, hscr⟩ := hwin hn
    exact compositeBody_meets_of_blocks hrow hsrc hdst hscr fmt hn h

end

/-! ### Every command -/

/-- The windows a command writes or reads (R253). -/
def commandWindows (r : Regs) (i : Instr) : List Window := writtenWindows r i ++ readWindows r i

section
variable (p : Params) (s : State)

/-- A frame that is not empty uses all four windows (R253). -/
theorem compositeWindows_mem {r : Regs} {fmt : PixelFormat} (hn : r.blockCount.toNat ≠ 0) :
    r.srcWindow ∈ commandWindows r (compositeOf fmt) ∧ r.offsWindow ∈ commandWindows r (compositeOf fmt) ∧
      r.dstWindow ∈ commandWindows r (compositeOf fmt) ∧ r.scrWindow ∈ commandWindows r (compositeOf fmt) := by
  cases fmt <;> simp [compositeOf, commandWindows, writtenWindows, readWindows, compositeWritten, hn]

/-- No pre-check raises a fault outside the command's row (R253). -/
theorem commandCheck_meets (i : Instr) :
    ResultMeets (· = s) (RowFault p i (commandWindows s.regs i)) (commandCheck p i s) := by
  have hcomposite : ∀ fmt, ResultMeets (· = s) (RowFault p (compositeOf fmt) (commandWindows s.regs (compositeOf fmt)))
      (compositeCheck p fmt s) := fun fmt =>
    compositeCheck_meets (faultsOf_compositeOf fmt) fmt fun hn =>
      ⟨(compositeWindows_mem hn).1, (compositeWindows_mem hn).2.1⟩
  cases i with
  | nop | qtBuild => rfl
  | hufDecode =>
    exact guarded_hufDecodeCheck (rowFault_zero (by decide) (by decide)) (rowFault_zero (by decide) (by decide)) s rfl
  | dequantBlockL | dequantBlockC | idctBlock =>
    exact guarded_blockStageCheck (rowFault_zero (by decide) (by decide)) (rowFault_zero (by decide) (by decide))
      (rowFault_zero (by decide) (by decide)) s rfl
  | colorBlockRgb24 | colorBlockRgb565 | colorBlockArgb32 =>
    exact guarded_colorBlockCheck _ (rowFault_zero (by decide) (by decide)) (rowFault_zero (by decide) (by decide))
      (rowFault_zero (by decide) (by decide)) s rfl
  | decodeImageRgb24 | decodeImageRgb565 | decodeImageArgb32 =>
    exact decodeImageCheck_meets rfl (by simp [commandWindows, readWindows]) _
  | compositeRgb24 => exact hcomposite .rgb24
  | compositeRgb565 => exact hcomposite .rgb565
  | compositeArgb32 => exact hcomposite .argb32

/-- The windows of a stage command or HUF_DECODE, as addresses. -/
theorem inWindows_stage {r : Regs} {i : Instr} (hwin : commandWindows r i = [r.dstWindow, r.srcWindow]) :
    (∀ k < r.srcLen.toNat, inWindows (commandWindows r i) (r.srcAddr.toNat + k)) ∧
      ∀ k < r.dstLen.toNat, inWindows (commandWindows r i) (r.dstAddr.toNat + k) := by
  rw [hwin]
  exact ⟨fun _ h => inWindows_add (w := r.srcWindow) (by simp) h,
    fun _ h => inWindows_add (w := r.dstWindow) (by simp) h⟩

/-- Once its pre-checks pass, no command's body raises a fault outside the command's row (R253). -/
theorem commandBody_meets {i : Instr} {t : State} {plan : Plan} (h : commandCheck p i s = .ok plan t) :
    ResultMeets (AtPointers s.regs) (RowFault p i (commandWindows s.regs i)) (commandBody p i plan s) := by
  have hcomposite : ∀ fmt, compositeCheck p fmt s = .ok plan t → ResultMeets (AtPointers s.regs)
      (RowFault p (compositeOf fmt) (commandWindows s.regs (compositeOf fmt))) (compositeBody p fmt plan s) :=
    fun fmt h => compositeBody_meets (faultsOf_compositeOf fmt) fmt h fun hn => by
      obtain ⟨hsrc, -, hdst, hscr⟩ := compositeWindows_mem (fmt := fmt) hn
      exact ⟨hsrc, hdst, hscr⟩
  cases i with
  | nop => exact atPointers_self s
  | qtBuild => exact guarded_qtBuildTables s (atPointers_self s)
  | hufDecode =>
    exact hufDecodeBody_meets (allowsBus_rowFault (by decide)) (inWindows_stage rfl).1 (inWindows_stage rfl).2
      (fun n => rowFault_detail n (by decide) (by decide)) h
  | dequantBlockL | dequantBlockC =>
    exact dequantBlockBody_meets (allowsBus_rowFault (by decide)) (inWindows_stage rfl).1 (inWindows_stage rfl).2 _ h
  | idctBlock =>
    exact idctBlockBody_meets (allowsBus_rowFault (by decide)) (inWindows_stage rfl).1 (inWindows_stage rfl).2 h
  | colorBlockRgb24 | colorBlockRgb565 | colorBlockArgb32 =>
    exact colorBlockBody_meets (allowsBus_rowFault (by decide)) (inWindows_stage rfl).1 (inWindows_stage rfl).2 _ h
  | decodeImageRgb24 | decodeImageRgb565 | decodeImageArgb32 =>
    exact decodeImageBody_meets rfl (by simp [commandWindows, readWindows]) (by simp [commandWindows, writtenWindows])
      (by simp [commandWindows, writtenWindows]) _ h
  | compositeRgb24 => exact hcomposite .rgb24 h
  | compositeRgb565 => exact hcomposite .rgb565 h
  | compositeArgb32 => exact hcomposite .argb32 h

end

/-- A run stops only with a fault of the command's row. -/
theorem CommandRun.rowFault {i : Instr} {s u : State} {f : CmdFault} (h : CommandRun i s u (some f)) :
    RowFault s.cfg i (commandWindows s.regs i) f := by
  cases h with
  | refused hc =>
    have hmeets := commandCheck_meets s.cfg s i
    rwa [hc] at hmeets
  | stopped hc hb =>
    have hmeets := commandBody_meets s.cfg s hc
    rwa [hb] at hmeets

/-- Settles O56: the run keeps the frame and the fault record (`CommandRun.bodyFrame`), and its end records the fault
that stopped it, one of the command's row (`CommandRun.rowFault`). -/
theorem everyCommandEnds : Obligations.EveryCommandEnds := by
  intro i s
  obtain ⟨t, hexec, u, o, hrun, hend⟩ := exec_runs i s
  have hbody := hrun.bodyFrame
  refine ⟨t, hexec, hbody.toCommandFrame.trans hend.commandFrame, hend.idle, hend.busy, hend.done, ?_⟩
  cases o with
  | none =>
    have hfin := hend.finished
    exact .inl ⟨hfin.err.trans hbody.err, hfin.errcode.trans hbody.errcode, hfin.faultInfo.trans hbody.faultInfo⟩
  | some f =>
    obtain ⟨hlisted, hplain, hbus⟩ := hrun.rowFault
    have hinfo : t.regs.faultInfo = BitVec.ofNat 32 f.info := by rw [hend.regs]; rfl
    refine .inr ⟨by rw [hend.status]; rfl, f.code, hlisted, by rw [hend.status]; rfl, fun hc => ?_, fun hc => ?_⟩
    · rw [hinfo, hplain hc]
      rfl
    · obtain ⟨hin, hunreach⟩ := hbus hc
      exact ⟨f.info, hin, hunreach, hinfo⟩

end Sys2Proof.Machine
end

section
/-!
PROOF. What a step can make of STATUS, each change with its cause (spec/10_state.md rules R27-R31,
spec/70_reset_and_hazards.md rule R281), and from it what can set and what can clear each bit.
-/

namespace Sys2Proof.Machine

/-! ### The causes -/

/-- STATUS over a command, from its start to its end (R32, R252, R257). -/
structure StatusAtEnd (old new : Status) : Prop where
  busy : new.busy = false
  done : new.done = true
  err : old.err = true → new.err = true
  haz : new.haz = old.haz
  warned : ∀ w, old.warned w = true → new.warned w = true

/-- What a step can make of STATUS, each change with the move that brings it about. -/
inductive StatusCause (s t : State) : Prop where
  | kept : t.status = s.status → StatusCause s t
  | hazard {c : Csr} {v : Word} {rest : List HostMove} : s.status.busy = true → s.WritesNext c v rest →
    c.locked = true ∨ c = .ctrl ∧ v.getLsbD 0 = true → t.status = s.status.hazard → StatusCause s t
  | cleared {v : Word} {rest : List HostMove} :
    s.WritesNext .status v rest → t.status = s.status.clearedBy v → StatusCause s t
  | started : s.StartsNext → t.status = s.status.started → StatusCause s t
  | reset : s.ResetsNext → t.status = {} → t.phase = .idle → StatusCause s t
  | ended : s.CommandEndsNext → StatusAtEnd s.status t.status → t.phase = .idle → StatusCause s t

theorem writeCtrl_cause {s : State} {v : Word} {rest : List HostMove} (h : s.WritesNext .ctrl v rest) :
    StatusCause s (writeCtrl s.cfg v (s.withInputs rest)) := by
  cases hreset : v.getLsbD 1 with
  | true =>
    rw [writeCtrl_softReset hreset]
    exact .reset (.inr ⟨v, rest, h, hreset⟩) rfl rfl
  | false =>
    rw [writeCtrl_of_not_softReset hreset]
    split
    · next hstart =>
      split
      · next hbusy => exact .hazard hbusy h (.inr ⟨rfl, hstart⟩) rfl
      · next hbusy => exact .started ⟨v, rest, h, hstart, hreset, Bool.eq_false_of_not_eq_true hbusy⟩ rfl
    · exact .kept rfl

theorem writeCsr_cause {s : State} {c : Csr} {v : Word} {rest : List HostMove} (h : s.WritesNext c v rest) :
    StatusCause s (writeCsr s.cfg c v (s.withInputs rest)) := by
  by_cases hctrl : c = .ctrl
  · subst hctrl
    exact writeCtrl_cause h
  by_cases hstatus : c = .status
  · subst hstatus
    exact .cleared h rfl
  cases hc : c.locked with
  | true =>
    rw [writeCsr_of_locked hc]
    split
    · next hbusy => exact .hazard hbusy h (.inl hc) rfl
    · exact .kept rfl
  | false =>
    rw [writeCsr_of_readOnly hc hctrl hstatus]
    exact .kept rfl

/-- A read of the register port changes only what the host was answered (R31). -/
theorem portRead_eq (p : Params) (a : Word) (size : AccessSize) (s : State) :
    ∃ w n, portRead p a size s = (s.withPortData w).withDraws n := by
  unfold portRead readCsr
  split
  · exact ⟨s.portData, s.draws, rfl⟩
  · split
    · exact ⟨0, s.draws, rfl⟩
    · split
      · exact ⟨0, s.draws, rfl⟩
      · split
        · exact ⟨_, _, rfl⟩
        · exact ⟨Csr.read s _, s.draws, rfl⟩

theorem hostMemWrite_status (p : Params) (a : Word) (v : Byte) (s : State) :
    (hostMemWrite p a v s).status = s.status := by
  unfold hostMemWrite; split <;> rfl

theorem hostMemRead_status (p : Params) (a : Word) (s : State) : (hostMemRead p a s).status = s.status := by
  obtain h | ⟨b, n, h⟩ := hostMemRead_cases p a s
  · rw [h]
  · rw [h]; rfl

theorem hostMove_cause {s : State} {m : HostMove} {rest : List HostMove} (hin : s.inputs = m :: rest) :
    StatusCause s (hostMove s.cfg m (s.withInputs rest)) := by
  cases m with
  | portWrite a size v =>
    obtain h | ⟨c, rfl, hoff, hheld, h⟩ := portWrite_cases s.cfg a size v (s.withInputs rest)
    · exact .kept (by rw [hostMove, h]; rfl)
    · rw [hostMove, h]
      exact writeCsr_cause ⟨a, hin, hoff, hheld⟩
  | portRead a size =>
    obtain ⟨w, n, h⟩ := portRead_eq s.cfg a size (s.withInputs rest)
    exact .kept (by rw [hostMove, h]; rfl)
  | memWrite a v => exact .kept (hostMemWrite_status ..)
  | memRead a => exact .kept (hostMemRead_status ..)
  | resetAssert => exact .reset (.inl ⟨rest, hin⟩) rfl rfl
  | resetRelease | engineTurn => exact .kept rfl

/-- R32, R252, R257: the end of a run, seen from the STATUS the command found. -/
theorem statusAtEnd_of_run {p : Params} {s u t : State} {o : Option CmdFault} (hrun : BodyFrame p s u)
    (hend : EndsAs u o t) : StatusAtEnd s.status t.status where
  busy := hend.busy
  done := hend.done
  err herr := by
    rw [hend.status]
    cases o with
    | none => exact hrun.err.trans herr
    | some f => rfl
  haz := hend.haz.trans hrun.haz
  warned w hw := by
    rw [hend.warned w]
    exact hrun.warnings w hw

theorem engineTurn_cause {s t : State} {rest : List HostMove} (hnext : s.EngineNext)
    (h : engineTurn (s.withInputs rest) = .next t) : StatusCause s t := by
  have hends : ∀ {u o}, s.phase ≠ .idle → BodyFrame s.cfg (s.withInputs rest) u → EndsAs u o t → StatusCause s t :=
    fun hphase hrun hend => .ended ⟨hnext, hphase⟩ (statusAtEnd_of_run (s := s.withInputs rest) hrun hend) hend.idle
  cases hphase : s.phase with
  | idle =>
    rw [engineTurn, State.withInputs_phase, hphase] at h
    exact .kept (Host.Outcome.next.inj h ▸ rfl)
  | run i =>
    rw [engineTurn_of_run (s := s.withInputs rest) hphase] at h
    obtain ⟨u, o, hrun, hend⟩ := runs_of_exec h
    exact hends (by simp [hphase]) hrun.bodyFrame hend
  | runIllegal =>
    rw [engineTurn, State.withInputs_phase, hphase] at h
    obtain rfl := Host.Outcome.next.inj h
    obtain ⟨u, o, hrun, hend⟩ := perform_runs s.cfg [] (check := illegalCheck) (fun _ => rfl) (fun _ => pure ())
      (s.withInputs rest)
    exact hends (by simp [hphase]) (hrun.keeps (.refl _ _) fun _ _ => .refl _ _) hend

theorem step_cause {s t : State} (h : step s = .next t) : StatusCause s t := by
  cases hin : s.inputs with
  | nil => exact engineTurn_cause (.inl hin) ((step_noMove hin).symm.trans h)
  | cons m rest =>
    by_cases hm : m = .engineTurn
    · subst hm
      exact engineTurn_cause (.inr ⟨rest, hin⟩) ((step_engineTurn hin).symm.trans h)
    · obtain rfl := Host.Outcome.next.inj ((step_hostMove hin hm).symm.trans h)
      exact hostMove_cause hin

/-! ### The bits -/

section
variable (x : Status) (v : Word) (w : Warning)

@[simp] theorem Status.hazard_busy : x.hazard.busy = x.busy := rfl
@[simp] theorem Status.hazard_done : x.hazard.done = x.done := rfl
@[simp] theorem Status.hazard_err : x.hazard.err = x.err := rfl
@[simp] theorem Status.hazard_haz : x.hazard.haz = true := rfl
@[simp] theorem Status.hazard_errcode : x.hazard.errcode = x.errcode := rfl

@[simp] theorem Status.started_busy : x.started.busy = true := rfl
@[simp] theorem Status.started_done : x.started.done = false := rfl
@[simp] theorem Status.started_err : x.started.err = false := rfl
@[simp] theorem Status.started_haz : x.started.haz = x.haz := rfl

@[simp] theorem Status.clearedBy_busy : (x.clearedBy v).busy = x.busy := rfl
@[simp] theorem Status.clearedBy_done : (x.clearedBy v).done = (x.done && !v.getLsbD 1) := rfl
@[simp] theorem Status.clearedBy_err : (x.clearedBy v).err = (x.err && !v.getLsbD 2) := rfl
@[simp] theorem Status.clearedBy_haz : (x.clearedBy v).haz = (x.haz && !v.getLsbD 3) := rfl
@[simp] theorem Status.clearedBy_errcode : (x.clearedBy v).errcode = x.errcode := rfl
@[simp] theorem Status.clearedBy_warned : (x.clearedBy v).warned w = (x.warned w && !v.getLsbD w.bit) := by
  cases w <;> rfl

/-- After reset no warning is set (R280); `0#8` is how `simp` spells the field's default. -/
@[simp] theorem Status.warned_reset : ({ errcode := 0#8 } : Status).warned w = false := by cases w <;> rfl

end

/-- Settles O9: cause by cause, each bit moves only as the cause allows. -/
theorem statusBitsMoveOnlyAsTheRulesSay : Obligations.StatusBitsMoveOnlyAsTheRulesSay := by
  intro s t h
  cases step_cause h with
  | kept he => simp +contextual [he]
  | hazard hbusy hw hc he =>
    have hdrop : ∃ c v rest, s.WritesNext c v rest ∧ (c.locked = true ∨ c = .ctrl ∧ v.getLsbD 0 = true) :=
      ⟨_, _, _, hw, hc⟩
    simp +contextual [he, hbusy, hazard_warned, hdrop, -BitVec.getLsbD_eq_getElem, -exists_and_right]
  | cleared hw he =>
    have hclears : ∀ n, _ → s.ClearsNext n := fun n hn => ⟨_, _, hw, hn⟩
    simp +contextual [he, hclears, -BitVec.getLsbD_eq_getElem]
  | started hs he =>
    simp +contextual [he, hs, started_warned]
  | reset hr he hidle =>
    simp +contextual [he, hr, hidle]
  | ended hc he hidle =>
    obtain ⟨hbusy, hdone, herr, hhaz, hwarned⟩ := he
    simp +contextual [hc, hidle, hbusy, hdone, herr, hhaz, hwarned]

end Sys2Proof.Machine
end

section
/-!
PROOF. Where a command writes (spec/20_memory.md rules R63, R81, spec/60_exceptions.md rules R252, R253): its body only
in its footprint, which lies in its written windows; what interference or a cancellation adds are free values.
-/

namespace Sys2Proof.Machine

/-! ### Free values in memory -/

/-- A havoc leaves its free value at every byte the port reaches (R252). -/
theorem Memory.read_havocBytes_inside (p : Params) (draw n : Nat) :
    ∀ (a : Nat) {m : Memory} {b : Nat}, m.wf → a ≤ b → b < a + n → reachable p b = true →
      (havocBytes p draw a n m).read b = Config.havocByte draw b := by
  induction n with
  | zero => intro a m b _ hlo hhi; omega
  | succ n ih =>
    intro a m b hwf hlo hhi hr
    rw [havocBytes]
    obtain rfl | hne := eq_or_ne a b
    · rw [Memory.read_havocBytes_outside _ _ _ _ _ _ (by omega), if_pos hr, Memory.read_write_self hwf]
    · have hwf' : (if reachable p a then m.write a (Config.havocByte draw a) else m).wf := by
        split
        · exact Memory.wf_write hwf _ _
        · exact hwf
      exact ih (a + 1) hwf' (by omega) (by omega) hr

theorem Memory.read_havocWindows_inside (p : Params) (draw : Nat) (ws : List Window) :
    ∀ {m : Memory} {b : Nat}, m.wf → inWindows ws b → reachable p b = true →
      (havocWindows p draw ws m).read b = Config.havocByte draw b := by
  induction ws with
  | nil => rintro m b - ⟨w, hw, -⟩; exact absurd hw List.not_mem_nil
  | cons w ws ih =>
    intro m b hwf hin hr
    rw [havocWindows]
    by_cases htail : inWindows ws b
    · exact ih (Memory.wf_havocBytes p draw w.len w.base hwf) htail hr
    · have hout : ∀ v ∈ ws, v.holds b = false := fun v hv =>
        Bool.eq_false_of_not_eq_true fun hholds => htail ⟨v, hv, hholds⟩
      obtain ⟨v, hv, hholds⟩ := hin
      obtain rfl | hv := List.mem_cons.mp hv
      · obtain ⟨hlo, hhi⟩ := (v.holds_iff b).mp hholds
        rw [Memory.read_havocWindows_outside p draw ws _ b hout]
        exact Memory.read_havocBytes_inside p draw v.len v.base hwf hlo hhi hr
      · exact absurd hholds (by simp [hout v hv])

theorem havoc_sameOutside (p : Params) (ws : List Window) (s : State) : SameOutside ws s (havoc p ws s) :=
  fun a ha => Memory.read_havocWindows_outside p s.draws ws s.mem a fun w hw =>
    Bool.eq_false_of_not_eq_true fun hholds => ha ⟨w, hw, hholds⟩

theorem havoc_free {p : Params} {ws : List Window} {s : State} {a : Nat} (hwf : s.mem.wf) (ha : inWindows ws a)
    (hr : reachable p a = true) : (havoc p ws s).mem.read a = Config.havocByte s.draws a :=
  Memory.read_havocWindows_inside p s.draws ws hwf ha hr

/-! ### What a command's body keeps -/

theorem SameOutside.mono {ws ws' : List Window} {s t : State} (h : SameOutside ws s t)
    (hsub : ∀ a, inWindows ws a → inWindows ws' a) : SameOutside ws' s t :=
  fun a ha => h a fun hin => ha (hsub a hin)

/-- From `s` to `t` memory changed only inside the windows, it stayed canonical, and the mark of interference, which is
the host's, did not move. -/
structure WritesWithin (ws : List Window) (s t : State) : Prop where
  outside : SameOutside ws s t
  wf : s.mem.wf → t.mem.wf
  interfered : t.interfered = s.interfered

theorem WritesWithin.refl (ws : List Window) (s : State) : WritesWithin ws s s := ⟨fun _ _ => rfl, id, rfl⟩

theorem WritesWithin.trans {ws : List Window} {s t u : State} (h : WritesWithin ws s t) (k : WritesWithin ws t u) :
    WritesWithin ws s u :=
  ⟨fun a ha => (k.outside a ha).trans (h.outside a ha), k.wf ∘ h.wf, k.interfered.trans h.interfered⟩

theorem WritesWithin.mono {ws ws' : List Window} {s t : State} (h : WritesWithin ws s t)
    (hsub : ∀ a, inWindows ws a → inWindows ws' a) : WritesWithin ws' s t :=
  ⟨h.outside.mono hsub, h.wf, h.interfered⟩

theorem engineRel_writesWithin (p : Params) (ws : List Window) : EngineRel p (inWindows ws) (WritesWithin ws) where
  refl := WritesWithin.refl ws
  trans _ _ _ := WritesWithin.trans
  hidden _ _ := ⟨fun _ _ => rfl, id, rfl⟩
  warning _ _ := ⟨fun _ _ => rfl, id, rfl⟩
  byte _ a v ha _ :=
    ⟨fun b hb => Memory.read_write_other a b v fun heq => hb (heq ▸ ha), fun h => Memory.wf_write h a v, rfl⟩
  hufOut _ _ := ⟨fun _ _ => rfl, id, rfl⟩

theorem keeps_qtBuildTables_writesWithin (p : Params) (ws : List Window) :
    Keeps (WritesWithin ws) (qtBuildTables p) := fun _ => ⟨fun _ _ => rfl, id, rfl⟩

theorem keeps_advanceCursor_writesWithin (ws : List Window) : Keeps (WritesWithin ws) advanceCursor :=
  fun _ => ⟨fun _ _ => rfl, id, rfl⟩

theorem writesWithin_havoc (p : Params) (ws : List Window) (s : State) : WritesWithin ws s (havoc p ws s) :=
  ⟨havoc_sameOutside p ws s, Memory.wf_havocWindows p s.draws ws, rfl⟩

theorem writesWithin_takeFault (ws : List Window) (f : CmdFault) (s : State) : WritesWithin ws s (takeFault f s) :=
  ⟨fun _ _ => rfl, id, rfl⟩

theorem writesWithin_endCommand (ws : List Window) (s : State) : WritesWithin ws s (endCommand s) :=
  ⟨fun _ _ => rfl, id, rfl⟩

/-- Up to what R81 adds at its end, a command whose body writes within `ws`, and whose footprint lies there, writes
within `ws`. -/
theorem perform_writesWithin {p : Params} {W ws : List Window} {check : Engine Plan} {body : Plan → Engine Unit}
    {s : State} (hcheck : Pure check)
    (hbody : ∀ plan, check s = .ok plan s → WritesWithin ws s (finalState (body plan s)))
    (hfoot : ∀ plan, check s = .ok plan s → ∀ a, inWindows plan.footprint a → inWindows ws a) :
    ∃ u, WritesWithin ws s u ∧ perform p W check body s = settle p W u := by
  obtain ⟨f, s1, hc, he⟩ | ⟨plan, s1, f, s2, hc, hb, he⟩ | ⟨plan, s1, s2, hc, hb, he⟩ :=
    perform_cases p W check body s
  · obtain rfl := hcheck.error hc
    exact ⟨_, writesWithin_takeFault ws f s1, he⟩
  · obtain rfl := hcheck.ok hc
    have h := hbody plan hc
    rw [hb] at h
    have hhavoc := (writesWithin_havoc p plan.footprint s2).mono (hfoot plan hc)
    exact ⟨_, (h.trans hhavoc).trans (writesWithin_takeFault ws f _), he⟩
  · obtain rfl := hcheck.ok hc
    have h := hbody plan hc
    rw [hb] at h
    exact ⟨_, h.trans (writesWithin_endCommand ws s2), he⟩

/-! ### The footprint lies in the written windows -/

theorem inWindows_cons {w : Window} {ws : List Window} {a : Nat} :
    inWindows (w :: ws) a ↔ (w.base ≤ a ∧ a < w.base + w.len) ∨ inWindows ws a := by
  simp [inWindows, Window.holds_iff]

theorem not_inWindows_nil (a : Nat) : ¬inWindows [] a := by simp [inWindows]

/-- A window that is the front part of another lies in it. -/
theorem inWindows_front {b len len' a : Nat} {ws : List Window} (hlen : len ≤ len') (hw : ⟨b, len'⟩ ∈ ws)
    (h : inWindows [⟨b, len⟩] a) : inWindows ws a := by
  simp only [inWindows_cons, not_inWindows_nil, or_false] at h
  exact ⟨_, hw, (Window.holds_iff _ _).mpr (by simp only; omega)⟩

/-- R222: the scatter pixels of blocks that fit the write window lie in it. -/
theorem scatterWindows_subset {fmt : PixelFormat} {dst stride len : Nat} {offsets : List Nat}
    (hfit : ∀ o ∈ offsets, (o + 7 * stride + 8) * bpp fmt ≤ len) {a : Nat}
    (h : inWindows (scatterWindows fmt dst stride offsets) a) : dst ≤ a ∧ a < dst + len := by
  obtain ⟨w, hw, hholds⟩ := h
  simp only [scatterWindows, List.mem_flatMap, List.mem_map, List.mem_range] at hw
  obtain ⟨o, ho, row, hrow, rfl⟩ := hw
  obtain ⟨hlo, hhi⟩ := (Window.holds_iff _ _).mp hholds
  have hdiv : 8 * row / 8 = row := by omega
  have hmod : 8 * row % 8 = 0 := by omega
  simp only [scatterAddr, hdiv, hmod, Nat.add_zero] at hlo hhi
  have hstride : row * stride ≤ 7 * stride := Nat.mul_le_mul_right stride (by omega)
  have hpixels : (o + row * stride + 8) * bpp fmt ≤ (o + 7 * stride + 8) * bpp fmt :=
    Nat.mul_le_mul_right _ (by omega)
  have hsplit : (o + row * stride + 8) * bpp fmt = (o + row * stride) * bpp fmt + 8 * bpp fmt := Nat.add_mul ..
  have := hfit o ho
  omega

section
variable {p : Params} {s t : State} {plan : Plan} {a : Nat}

theorem decodeImageFootprint_subset {fmt : PixelFormat} (h : decodeImageCheck p fmt s = .ok plan t)
    (ha : inWindows plan.footprint a) : inWindows [s.regs.dstWindow, s.regs.scrWindow] a := by
  obtain ⟨-, -, hfit, hfoot, pl, hpl, hplan⟩ := decodeImageCheck_ok h
  obtain ⟨-, -, hroom⟩ := payloadCheck_ok hpl
  have hds : plan.ds = pl.ds := by rw [hplan]
  rw [hfoot] at ha
  simp only [inWindows_cons, not_inWindows_nil, or_false, Regs.dstWindow, Regs.scrWindow] at ha ⊢
  omega

theorem compositeFootprint_subset {fmt : PixelFormat} (h : compositeCheck p fmt s = .ok plan t)
    (ha : inWindows plan.footprint a) : inWindows (compositeWritten s.regs) a := by
  by_cases hn : s.regs.blockCount.toNat = 0
  · rw [← compositeFootprint_of_check h, compositeFootprint, if_pos hn] at ha
    exact absurd ha (not_inWindows_nil a)
  · obtain ⟨-, -, -, hoffs, hfoot, pl, hpl, hplan⟩ := compositeCheck_ok h hn
    obtain ⟨-, -, hroom⟩ := payloadCheck_ok hpl
    have hds : plan.ds = pl.ds := by rw [hplan]
    rw [hfoot, inWindows_cons] at ha
    dsimp only at ha
    rw [compositeWritten, if_neg hn]
    simp only [inWindows_cons, not_inWindows_nil, or_false, Regs.dstWindow, Regs.scrWindow]
    obtain hscr | hpix := ha
    · omega
    · exact .inl (scatterWindows_subset (checkOffsets_fit plan.offsets hoffs) hpix)

/-- R253: where the pre-checks pass, the footprint lies in the written windows. -/
theorem footprint_subset_written {i : Instr} (h : commandCheck p i s = .ok plan t) (ha : inWindows plan.footprint a) :
    inWindows (writtenWindows s.regs i) a := by
  cases i with
  | nop | qtBuild =>
    obtain rfl := (EStateM.Result.ok.inj h).1
    exact absurd ha (not_inWindows_nil a)
  | hufDecode =>
    rw [hufDecodeCheck_ok h] at ha
    exact inWindows_front (hufDecodeCheck_fits h) (List.mem_singleton_self _) ha
  | dequantBlockL | dequantBlockC | idctBlock =>
    rw [blockStageCheck_ok h] at ha
    exact inWindows_front (blockStageCheck_fits h).2 (List.mem_singleton_self _) ha
  | colorBlockRgb24 | colorBlockRgb565 | colorBlockArgb32 =>
    rw [colorBlockCheck_ok h] at ha
    exact inWindows_front (colorBlockCheck_fits h).2 (List.mem_singleton_self _) ha
  | decodeImageRgb24 | decodeImageRgb565 | decodeImageArgb32 => exact decodeImageFootprint_subset h ha
  | compositeRgb24 | compositeRgb565 | compositeArgb32 => exact compositeFootprint_subset h ha

end

/-! ### Every command -/

theorem commandBody_writesWithin {i : Instr} {s t : State} {plan : Plan} (h : commandCheck s.cfg i s = .ok plan t) :
    WritesWithin plan.footprint s (finalState (commandBody s.cfg i plan s)) :=
  keeps_commandBody i (engineRel_writesWithin s.cfg plan.footprint) (keeps_qtBuildTables_writesWithin s.cfg _)
    (keeps_advanceCursor_writesWithin _) h

/-- A command writes within any windows that hold the footprint its pre-checks settle, up to what R81 adds. -/
theorem exec_writesWithin {i : Instr} {s t : State} {ws : List Window} (h : exec i s = .next t)
    (hfoot : ∀ plan, commandCheck s.cfg i s = .ok plan s → ∀ a, inWindows plan.footprint a → inWindows ws a) :
    ∃ u, WritesWithin ws s u ∧ t = settle s.cfg (writtenWindows s.regs i) u := by
  obtain ⟨u, hu, he⟩ := perform_writesWithin (p := s.cfg) (W := writtenWindows s.regs i) (pure_commandCheck i)
    (fun plan hc => (commandBody_writesWithin hc).mono (hfoot plan hc)) hfoot
  exact ⟨u, hu, (Host.Outcome.next.inj ((exec_eq_perform i s).symm.trans h)).symm.trans he⟩

/-- What R81 adds lies in the written windows. -/
theorem settle_sameOutside (p : Params) (W : List Window) (s : State) : SameOutside W s (settle p W s) := by
  unfold settle
  split
  · exact havoc_sameOutside p W s
  · exact fun _ _ => rfl

theorem exec_sameOutside_written {i : Instr} {s t : State} (h : exec i s = .next t) :
    SameOutside (writtenWindows s.regs i) s t := by
  obtain ⟨u, hu, rfl⟩ := exec_writesWithin h fun plan hc a => footprint_subset_written hc
  exact fun a ha => (settle_sameOutside s.cfg _ u a ha).trans (hu.outside a ha)

theorem exec_sameOutside_footprint {i : Instr} {s t : State} (h : exec i s = .next t) (hclean : s.interfered = false) :
    SameOutside (footprintOf s.cfg i s) s t := by
  obtain ⟨u, hu, rfl⟩ := exec_writesWithin h fun plan hc a ha => (footprintOf_of_check hc).symm ▸ ha
  rw [settle_clean (hu.interfered.trans hclean)]
  exact hu.outside

/-- Settles O57: the body writes within the footprint, the footprint lies in the written windows, and so does what R81
adds. -/
theorem commandsWriteOnlyTheirWindows : Obligations.CommandsWriteOnlyTheirWindows :=
  fun _ _ _ h => ⟨exec_sameOutside_written h, exec_sameOutside_footprint h⟩

/-- Settles O22: with the mark set, the end of the command is a havoc of the written windows. -/
theorem interferenceHavocsTheWindows : Obligations.InterferenceHavocsTheWindows := by
  intro i s t hwf hmark h
  refine ⟨(commandEnd_exec h).unmarked, exec_sameOutside_written h, ?_⟩
  obtain ⟨u, hu, rfl⟩ := exec_writesWithin h fun plan hc a => footprint_subset_written hc
  refine ⟨u.draws, fun a ha hr => ?_⟩
  rw [settle, if_pos (hu.interfered.trans hmark)]
  exact havoc_free (hu.wf hwf) ha hr

end Sys2Proof.Machine
end

section
/-!
PROOF. Reset and cancellation (spec/70_reset_and_hazards.md rules R280, R281), and the mark of interference
(spec/20_memory.md rule R81): the footprint of a cancelled command does not depend on the pending moves.
-/

namespace Sys2Proof.Machine

/-! ### Pieces that do not see the pending moves -/

/-- A result with other moves pending. -/
def withPending {α : Type} (l : List HostMove) : EStateM.Result CmdFault State α → EStateM.Result CmdFault State α
  | .ok a s => .ok a (s.withInputs l)
  | .error e s => .error e (s.withInputs l)

/-- The piece answers the same whatever moves are pending, and leaves them pending. -/
def IgnoresPending {α : Type} (m : Engine α) : Prop := ∀ s l, m (s.withInputs l) = withPending l (m s)

theorem ignoresPending_bind {α β : Type} {m : Engine α} {f : α → Engine β} (hm : IgnoresPending m)
    (hf : ∀ a, IgnoresPending (f a)) : IgnoresPending (m >>= f) := by
  intro s l
  rw [Engine.bind_run, Engine.bind_run, hm s l]
  cases m s with
  | ok a t => exact hf a t l
  | error e t => rfl

theorem ignoresPending_pure {α : Type} (a : α) : IgnoresPending (pure a : Engine α) := fun _ _ => rfl

theorem ignoresPending_regVal (f : Regs → Word) : IgnoresPending (regVal f) := fun _ _ => rfl

theorem ignoresPending_faultIf (b : Bool) (c : FaultCode) (n : Nat) : IgnoresPending (faultIf b c n) := by
  intro s l
  rw [Engine.faultIf_run, Engine.faultIf_run]
  cases b <;> rfl

section
variable (p : Params)

theorem ignoresPending_readByte (a : Nat) : IgnoresPending (readByte p a) := by
  intro s l
  unfold readByte
  split <;> rfl

theorem ignoresPending_memRead (n : Nat) : ∀ a, IgnoresPending (memRead p a n) := by
  induction n with
  | zero => exact fun a => ignoresPending_pure 0
  | succ n ih =>
    exact fun a => ignoresPending_bind (ignoresPending_readByte p a) fun _ =>
      ignoresPending_bind (ih (a + 1)) fun _ => ignoresPending_pure _

theorem ignoresPending_sizeField (off : Nat) : IgnoresPending (sizeField p off) :=
  ignoresPending_bind
    (ignoresPending_bind (ignoresPending_regVal _) fun _ => ignoresPending_faultIf _ _ _) fun _ =>
    ignoresPending_bind (ignoresPending_regVal _) fun _ => ignoresPending_memRead p 4 _

theorem ignoresPending_readOffsets (n : Nat) : ∀ a, IgnoresPending (readOffsets p a n) := by
  induction n with
  | zero => exact fun a => ignoresPending_pure []
  | succ n ih =>
    exact fun a => ignoresPending_bind (ignoresPending_memRead p 4 a) fun _ =>
      ignoresPending_bind (ih (a + 4)) fun _ => ignoresPending_pure _

variable (s : State) (l : List HostMove)

theorem scratchFootprint_withInputs : scratchFootprint p (s.withInputs l) = scratchFootprint p s := by
  unfold scratchFootprint
  rw [ignoresPending_sizeField p 4 s l]
  cases sizeField p 4 s <;> rfl

theorem scatterFootprint_withInputs (fmt : PixelFormat) :
    scatterFootprint p fmt (s.withInputs l) = scatterFootprint p fmt s := by
  unfold scatterFootprint
  rw [State.withInputs_regs, ignoresPending_readOffsets p _ _ s l]
  cases readOffsets p s.regs.offsAddr.toNat s.regs.blockCount.toNat s <;> rfl

/-- R253: the footprint is told by the registers and memory alone. -/
theorem footprintOf_withInputs (i : Instr) : footprintOf p i (s.withInputs l) = footprintOf p i s := by
  cases i with
  | nop | qtBuild | hufDecode | dequantBlockL | dequantBlockC | idctBlock | colorBlockRgb24 | colorBlockRgb565
  | colorBlockArgb32 => rfl
  | decodeImageRgb24 | decodeImageRgb565 | decodeImageArgb32 =>
    simp only [footprintOf, scratchFootprint_withInputs, State.withInputs_regs]
  | compositeRgb24 | compositeRgb565 | compositeArgb32 =>
    simp only [footprintOf, compositeFootprint, scratchFootprint_withInputs, scatterFootprint_withInputs,
      State.withInputs_regs]

end

/-! ### Reset -/

/-- R280: every register reads its reset value, whatever the block was doing. -/
theorem softReset_read (p : Params) (s : State) (c : Csr) :
    c.read (softReset p s) = if c = .id then 0x4F500001 else 0 := by
  rw [← Csr.read_reset c]
  cases c <;> rfl

theorem cancel_of_not_running {p : Params} {s : State} (h : ∀ i, s.phase ≠ .run i) : cancel p s = s := by
  unfold cancel
  split
  · next i hi => exact absurd hi (h i)
  · rfl
  · rfl

theorem cancel_inputs (p : Params) (s : State) : (cancel p s).inputs = s.inputs := by
  unfold cancel; split <;> rfl

/-- R281: the windows that a cancellation leaves unspecified. -/
def cancelledWindows (s : State) (i : Instr) : List Window :=
  footprintOf s.cfg i s ++ (if s.interfered then writtenWindows s.regs i else [])

theorem cancelledWindows_withInputs (s : State) (i : Instr) (l : List HostMove) :
    cancelledWindows (s.withInputs l) i = cancelledWindows s i := by
  rw [cancelledWindows, footprintOf_withInputs]
  rfl

theorem cancel_of_running {s : State} {i : Instr} (h : s.phase = .run i) :
    cancel s.cfg s = havoc s.cfg (cancelledWindows s i) s := by
  rw [cancel, h]
  rfl

/-- Both forms of reset are the soft reset, up to the level of the reset input (R281). -/
theorem step_of_reset {s : State} {rest : List HostMove}
    (h : (∃ v, s.WritesNext .ctrl v rest ∧ v.getLsbD 1 = true) ∨ s.inputs = .resetAssert :: rest) :
    ∃ b, step s = .next ((softReset s.cfg (s.withInputs rest)).withResetHeld b) ∧
      (s.inputs = .resetAssert :: rest → b = true) := by
  obtain ⟨v, hw, hv⟩ | hin := h
  · refine ⟨(softReset s.cfg (s.withInputs rest)).resetHeld, ?_, fun hin => ?_⟩
    · rw [hw.step_eq, writeCsr, writeCtrl_softReset hv]
      rfl
    · obtain ⟨a, hin', -⟩ := hw
      simp [hin] at hin'
  · exact ⟨true, step_hostMove hin (by simp), fun _ => rfl⟩

/-- R281: while the reset input is held, register writes are ignored. -/
theorem portWrite_of_held (p : Params) (a : Word) (size : AccessSize) (v : Word) {s : State}
    (h : s.resetHeld = true) : portWrite p a size v s = s := by
  obtain he | ⟨-, -, -, hheld, -⟩ := portWrite_cases p a size v s
  · exact he
  · exact absurd (h.symm.trans hheld) (by decide)

/-- Settles O17: the step is a soft reset, whose memory is that of the cancellation: as it was without a running
command, else a havoc of the cancelled windows. -/
theorem resetGivesTheResetState : Obligations.ResetGivesTheResetState := by
  refine ⟨fun s rest h => ?_, fun s a size v rest hheld hin => ?_⟩
  · obtain ⟨b, hstep, hb⟩ := step_of_reset h
    have hmem : ((softReset s.cfg (s.withInputs rest)).withResetHeld b).mem =
        (cancel s.cfg (s.withInputs rest)).mem := rfl
    refine ⟨_, hstep, softReset_read s.cfg (s.withInputs rest), rfl, rfl, rfl, rfl, rfl,
      softReset_cfg s.cfg (s.withInputs rest), cancel_inputs s.cfg (s.withInputs rest), fun hidle => ?_,
      fun i hrun => ?_, hb⟩
    · rw [hmem, cancel_of_not_running (s := s.withInputs rest) hidle, State.withInputs_mem]
    · have hcancel := cancel_of_running (s := s.withInputs rest) hrun
      rw [cancelledWindows_withInputs, State.withInputs_cfg] at hcancel
      simp only [SameOutside, hmem, hcancel]
      exact ⟨havoc_sameOutside s.cfg (cancelledWindows s i) (s.withInputs rest), fun hwf =>
        ⟨s.draws, fun a ha hr => havoc_free (s := s.withInputs rest) hwf ha hr⟩⟩
  · rw [step_hostMove hin (by simp), hostMove, portWrite_of_held (s := s.withInputs rest) _ _ _ _ hheld]

/-! ### Interference -/

theorem writeCsr_interfered {p : Params} {c : Csr} {v : Word} {s : State} (h : s.interfered = false) :
    (writeCsr p c v s).interfered = false := by
  by_cases hctrl : c = .ctrl
  · subst hctrl
    cases hreset : v.getLsbD 1 with
    | true => rw [writeCsr, writeCtrl_softReset hreset]; rfl
    | false =>
      rw [writeCsr, writeCtrl_of_not_softReset hreset]
      split
      · split
        · exact h
        · exact h
      · exact h
  by_cases hstatus : c = .status
  · subst hstatus
    exact h
  cases hc : c.locked with
  | true =>
    rw [writeCsr_of_locked hc]
    split
    · exact h
    · exact h
  | false => rwa [writeCsr_of_readOnly hc hctrl hstatus]

/-- R81: only a host write to memory can be interference, and only in a window of the running command. -/
theorem hostMove_interfered {p : Params} {m : HostMove} {s : State} (h : s.interfered = false)
    (hduty : NoInterference s m) : (hostMove p m s).interfered = false := by
  cases m with
  | portWrite a size v =>
    obtain he | ⟨c, -, -, -, he⟩ := portWrite_cases p a size v s
    · rwa [hostMove, he]
    · rw [hostMove, he]
      exact writeCsr_interfered h
  | portRead a size =>
    obtain ⟨w, n, he⟩ := portRead_eq p a size s
    rwa [hostMove, he]
  | memWrite a v =>
    rw [hostMove]
    by_cases hr : reachable p a.toNat = true
    · rw [hostMemWrite_of_reachable v hr, State.withInterfered_interfered, h, Bool.false_or, ← Bool.not_eq_true,
        any_holds_iff]
      exact hduty a v rfl
    · rwa [hostMemWrite_of_not_reachable v hr]
  | memRead a =>
    obtain he | ⟨b, n, he⟩ := hostMemRead_cases p a s
    · rwa [hostMove, he]
    · rwa [hostMove, he]
  | resetAssert => rfl
  | resetRelease | engineTurn => exact h

/-- Settles O23: the step is a dutiful move (`hostMove_interfered`), or a command whose end clears the mark. -/
theorem dutifulHostNeverInterferes : Obligations.DutifulHostNeverInterferes := by
  intro s t h hduty hstep
  have hturn : ∀ rest, engineTurn (s.withInputs rest) = .next t → t.interfered = false := fun rest hturn => by
    obtain rfl | hend := engineTurn_cases hturn
    · exact h
    · exact hend.unmarked
  cases hin : s.inputs with
  | nil => exact hturn [] ((step_noMove hin).symm.trans hstep)
  | cons m rest =>
    by_cases hm : m = .engineTurn
    · subst hm
      exact hturn rest ((step_engineTurn hin).symm.trans hstep)
    · obtain rfl := Host.Outcome.next.inj ((step_hostMove hin hm).symm.trans hstep)
      exact hostMove_interfered (s := s.withInputs rest) h (hduty m rest hin)

end Sys2Proof.Machine
end

section
/-!
PROOF. Windows and the payload (spec/20_memory.md rules R63, R64, R69, R70): two windows overlap when they share a byte,
and the fields of a payload are read where its size fields say.
-/

namespace Sys2Proof.Machine

/-! ### Overlap -/

theorem Window.overlaps_iff (a b : Window) :
    a.overlaps b = true ↔ ∃ x, a.holds x = true ∧ b.holds x = true := by
  simp only [Window.overlaps, Window.holds_iff, Bool.and_eq_true, decide_eq_true_eq]
  constructor
  · rintro ⟨⟨⟨ha, hb⟩, hab⟩, hba⟩
    exact ⟨max a.base b.base, by omega⟩
  · rintro ⟨x, hax, hbx⟩
    omega

theorem Window.overlaps_eq_false_iff (a b : Window) :
    a.overlaps b = false ↔ ∀ x, a.holds x = true → b.holds x = false := by
  simp [← Bool.not_eq_true, Window.overlaps_iff]

theorem someOverlap_eq_false_iff (ws : List Window) :
    someOverlap ws = false ↔ ws.Pairwise fun a b => a.overlaps b = false := by
  induction ws with
  | nil => simp [someOverlap]
  | cons w ws ih => simp [someOverlap, ih]

/-- R64: the check raises its fault exactly when the windows are not apart. -/
theorem overlapCheck_run (written read : List Window) (s : State) [Decidable (Apart written read)] :
    overlapCheck written read s = if Apart written read then .ok () s else .error ⟨.overlap, 0⟩ s := by
  have hiff : (someOverlap written || written.any fun w => read.any w.overlaps) = false ↔ Apart written read := by
    simp only [Apart, Bool.or_eq_false_iff, someOverlap_eq_false_iff, List.any_eq_false, Bool.not_eq_true]
  rw [overlapCheck, Engine.faultIf_run]
  by_cases h : Apart written read
  · rw [if_pos h, hiff.mpr h, if_neg Bool.false_ne_true]
  · rw [if_neg h, if_pos (Bool.eq_true_of_not_eq_false (mt hiff.mp h))]

/-- R64 by shared bytes: the places of the windows in the list tell them apart. -/
theorem apart_iff (written read : List Window) :
    Apart written read ↔
      (∀ i j : Nat, ∀ a b : Window, ∀ x, i < j → written[i]? = some a → written[j]? = some b → a.holds x = true →
        b.holds x = false) ∧ ∀ a ∈ written, ∀ b ∈ read, ∀ x, a.holds x = true → b.holds x = false := by
  simp only [Apart, Window.overlaps_eq_false_iff, List.pairwise_iff_getElem, List.getElem?_eq_some_iff]
  refine and_congr_left' ⟨?_, ?_⟩
  · rintro h i j a b x hij ⟨hi, rfl⟩ ⟨hj, rfl⟩
    exact h i j hi hj hij x
  · exact fun h i j hi hj hij x => h i j _ _ x hij ⟨hi, rfl⟩ ⟨hj, rfl⟩

/-- Settles O26: the check passes exactly when the windows are apart, and a shared byte says they are not. -/
theorem overlapCheckFindsSharedBytes : Obligations.OverlapCheckFindsSharedBytes := by
  classical
  refine fun written read s => ⟨fun h => ?_, fun hw hr => ?_⟩
  · rw [overlapCheck_run, if_neg]
    rw [apart_iff]
    rintro ⟨hw, hr⟩
    obtain ⟨i, j, a, b, x, hij, hi, hj, ha, hb⟩ | ⟨a, ha, b, hb, x, hax, hbx⟩ := h
    · exact Bool.false_ne_true ((hw i j a b x hij hi hj ha).symm.trans hb)
    · exact Bool.false_ne_true ((hr a ha b hb x hax).symm.trans hbx)
  · rw [overlapCheck_run, if_pos ((apart_iff written read).mpr ⟨hw, hr⟩)]

/-! ### The payload -/

section
variable {p : Params} {s : State} {off n : Nat}

theorem sizeField_of_fits (hfits : off + 4 ≤ s.regs.srcLen.toNat)
    (hreach : Reaches p ⟨s.regs.srcAddr.toNat + off, 4⟩) :
    sizeField p off s = .ok (s.mem.value (s.regs.srcAddr.toNat + off) 4) s := by
  rw [sizeField, Engine.bind_ok (need_of_fits hfits), Engine.bind_ok (Engine.regVal_run _ s),
    memRead_of_reaches p 4 _ s hreach]

theorem sizeField_of_overrun (h : ¬off + 4 ≤ s.regs.srcLen.toNat) :
    sizeField p off s = .error ⟨.srcOverrun, off⟩ s := by
  rw [sizeField, Engine.bind_error (need_of_overrun h)]

theorem need_bind {α : Type} (f : Unit → Engine α) :
    (need off n >>= f) s = if s.regs.srcLen.toNat < off + n then .error ⟨.srcOverrun, off⟩ s else f () s := by
  split
  · next h => exact Engine.bind_error (need_of_overrun (by omega))
  · next h => exact Engine.bind_ok (need_of_fits (by omega))

/-- R70: a size field, where the part of the read window that holds it can be reached. -/
theorem sizeField_bind {α : Type} (f : Nat → Engine α)
    (hreach : off + 4 ≤ s.regs.srcLen.toNat → Reaches p ⟨s.regs.srcAddr.toNat + off, 4⟩) :
    (sizeField p off >>= f) s =
      if s.regs.srcLen.toNat < off + 4 then .error ⟨.srcOverrun, off⟩ s
      else f (s.mem.value (s.regs.srcAddr.toNat + off) 4) s := by
  split
  · next h => exact Engine.bind_error (sizeField_of_overrun (by omega))
  · next h => exact Engine.bind_ok (sizeField_of_fits (by omega) (hreach (by omega)))

end

theorem Reaches.part {p : Params} {w : Window} (h : Reaches p w) {off n : Nat} (hfits : off + n ≤ w.len) :
    Reaches p ⟨w.base + off, n⟩ := fun i hi => by
  rw [Nat.add_assoc]
  exact h _ (by simp only at hi; omega)

/-- R69, R70: the parse, where the parts of the read window that hold the size fields can be reached. -/
theorem payloadParse_run {s : State}
    (hreach : ∀ off, off + 4 ≤ s.regs.srcLen.toNat → off + 4 ≤ (payloadAt s.mem s.regs.srcAddr.toNat).size →
      Reaches s.cfg ⟨s.regs.srcAddr.toNat + off, 4⟩) :
    let pl := payloadAt s.mem s.regs.srcAddr.toNat
    let len := s.regs.srcLen.toNat
    payloadParse s.cfg s =
      if len < 4 then .error ⟨.srcOverrun, 0⟩ s
      else if len < 8 then .error ⟨.srcOverrun, 4⟩ s
      else if len < 8 + pl.cs then .error ⟨.srcOverrun, 8⟩ s
      else if len < 12 + pl.cs then .error ⟨.srcOverrun, 8 + pl.cs⟩ s
      else if len < 12 + pl.cs + pl.acLen then .error ⟨.srcOverrun, 12 + pl.cs⟩ s
      else if len < 16 + pl.cs + pl.acLen then .error ⟨.srcOverrun, 12 + pl.cs + pl.acLen⟩ s
      else if len < 16 + pl.cs + pl.acLen + pl.dcLen then .error ⟨.srcOverrun, 16 + pl.cs + pl.acLen⟩ s
      else .ok pl s := by
  intro pl len
  change ∀ off, off + 4 ≤ _ → off + 4 ≤ pl.size → _ at hreach
  have hcs : pl.cs = s.mem.value (s.regs.srcAddr.toNat + 0) 4 := rfl
  have hac : pl.acLen = s.mem.value (s.regs.srcAddr.toNat + (8 + pl.cs)) 4 := rfl
  have hdc : pl.dcLen = s.mem.value (s.regs.srcAddr.toNat + (12 + pl.cs + pl.acLen)) 4 := rfl
  have hsize : pl.size = 16 + pl.cs + pl.acLen + pl.dcLen := rfl
  unfold payloadParse
  rw [sizeField_bind _ fun h => hreach 0 h (by omega), sizeField_bind _ fun h => hreach 4 h (by omega), need_bind,
    ← hcs, sizeField_bind _ fun h => hreach (8 + pl.cs) h (by omega), ← hac, need_bind,
    sizeField_bind _ fun h => hreach (12 + pl.cs + pl.acLen) h (by omega), ← hdc, need_bind]
  have h1 : 8 + pl.cs + 4 = 12 + pl.cs := by omega
  have h2 : 12 + pl.cs + pl.acLen + 4 = 16 + pl.cs + pl.acLen := by omega
  rw [h1, h2]
  rfl

/-- Settles O27: the whole read window can be reached, so every size field is read. -/
theorem payloadParseFollowsTheLayout : Obligations.PayloadParseFollowsTheLayout :=
  fun _ h => payloadParse_run fun _ hfits _ => h.part hfits

end Sys2Proof.Machine
end

section
/-!
PROOF. The stream reads at any cursor (spec/20_memory.md rules R66, R72-R74, R76), and the value `ReadBits` assembles.
-/

namespace Sys2Proof.Machine

/-! ### One bit, one byte -/

/-- R66: a bit of a byte by arithmetic on its value. -/
theorem msbBit_eq (b : Byte) (cur : Nat) : msbBit b cur = decide (b.toNat / 2 ^ (7 - cur % 8) % 2 = 1) := by
  rw [msbBit, BitVec.getLsbD, Nat.testBit_eq_decide_div_mod_eq]

section
variable {p : Params} {pl : Plan} {s : State}

theorem bitAC_past (h : pl.acLen ≤ s.hidden.acur / 8) :
    bitAC p pl s = .ok false
      ((s.withHidden { s.hidden with acur := s.hidden.acur + 1 }).withStatus (s.status.setWarning .acOverread)) :=
  if_pos h

theorem bitAC_inside (h : s.hidden.acur / 8 < pl.acLen)
    (hr : reachable p (s.regs.srcAddr.toNat + pl.acOff + s.hidden.acur / 8) = true) :
    bitAC p pl s =
      .ok (msbBit (s.mem.read (s.regs.srcAddr.toNat + pl.acOff + s.hidden.acur / 8)) s.hidden.acur)
        (s.withHidden { s.hidden with acur := s.hidden.acur + 1 }) := by
  simp only [bitAC, if_neg (Nat.not_le_of_lt h), readByte_of_reachable hr]

theorem bitDC_past (h : pl.dcLen ≤ s.hidden.dcur / 8) :
    bitDC p pl s = .error ⟨.dcOverrun, s.hidden.dcur / 8⟩ s := if_pos h

theorem bitDC_inside (h : s.hidden.dcur / 8 < pl.dcLen)
    (hr : reachable p (s.regs.srcAddr.toNat + pl.dcOff + s.hidden.dcur / 8) = true) :
    bitDC p pl s =
      .ok (msbBit (s.mem.read (s.regs.srcAddr.toNat + pl.dcOff + s.hidden.dcur / 8)) s.hidden.dcur)
        (s.withHidden { s.hidden with dcur := s.hidden.dcur + 1 }) := by
  simp only [bitDC, if_neg (Nat.not_le_of_lt h), readByte_of_reachable hr]

theorem acCodeByte_past (h : pl.ds ≤ s.hidden.j) :
    acCodeByte p pl s = .ok 0
      ((s.withHidden { s.hidden with j := s.hidden.j + 1 }).withStatus (s.status.setWarning .accodeOverread)) :=
  if_pos h

theorem acCodeByte_inside (h : s.hidden.j < pl.ds)
    (hr : reachable p (s.regs.scrAddr.toNat + s.hidden.j) = true) :
    acCodeByte p pl s = .ok (s.mem.read (s.regs.scrAddr.toNat + s.hidden.j))
      (s.withHidden { s.hidden with j := s.hidden.j + 1 }) := by
  simp only [acCodeByte, if_neg (Nat.not_le_of_lt h), readByte_of_reachable hr]

end

/-- Settles O28: past the end and inside, for each of the three streams. -/
theorem streamReads : Obligations.StreamReads :=
  fun _ _ => ⟨bitAC_past, fun h hr => by rw [bitAC_inside h hr, msbBit_eq], bitDC_past,
    fun h hr => by rw [bitDC_inside h hr, msbBit_eq], acCodeByte_past, acCodeByte_inside⟩

/-! ### ReadBits -/

/-- R74: the value after the bits `bs`, where `t` bits came before and gave `v`. -/
def assembledFrom (o : BitAssembly) (t v : Nat) (bs : List Bool) : Nat :=
  match o with
  | .lsbFirst => v + 2 ^ t * assembled .lsbFirst bs
  | .msbFirst => bs.foldl (fun v b => 2 * v + b.toNat) v

theorem assembledFrom_zero (o : BitAssembly) (bs : List Bool) : assembledFrom o 0 0 bs = assembled o bs := by
  cases o <;> simp [assembledFrom, assembled]

theorem assembledFrom_cons (o : BitAssembly) (t v : Nat) (b : Bool) (bs : List Bool) :
    assembledFrom o t v (b :: bs) = assembledFrom o (t + 1) (assemble o v t b) bs := by
  cases o with
  | lsbFirst => simp only [assembledFrom, assembled, assemble, List.foldr_cons]; ring
  | msbFirst => rfl

theorem readBits_run (p : Params) {next : Engine Bool} (bs : List Bool) :
    ∀ {s t : State} (k v : Nat), Produces next s bs t →
      readBits p next bs.length k v s = .ok (assembledFrom p.bitAssembly k v bs) t := by
  induction bs with
  | nil =>
    rintro s t k v rfl
    cases h : p.bitAssembly <;> simp [readBits, assembledFrom, assembled]
  | cons b bs ih =>
    rintro s t k v ⟨u, hnext, hrest⟩
    rw [List.length_cons, readBits, Engine.bind_ok hnext, ih _ _ hrest, assembledFrom_cons]

/-- R74, LSB_FIRST: bit `k` of the value is the bit read in place `k`. -/
theorem testBit_assembled_lsbFirst (bs : List Bool) :
    ∀ k, (assembled .lsbFirst bs).testBit k = bs.getD k false := by
  induction bs with
  | nil => simp [assembled]
  | cons b bs ih =>
    have hsplit : assembled .lsbFirst (b :: bs) = 2 * assembled .lsbFirst bs + b.toNat := Nat.add_comm ..
    have hb : b.toNat < 2 := by cases b <;> decide
    rintro (_ | k)
    · rw [hsplit, Nat.testBit_zero]
      cases b <;> simp
    · rw [hsplit, Nat.testBit_succ, show (2 * assembled .lsbFirst bs + b.toNat) / 2 = assembled .lsbFirst bs by omega,
        ih, List.getD_cons_succ]

/-- R74: the two assemblies read the bits in opposite order. -/
theorem assembled_msbFirst (bs : List Bool) : assembled .msbFirst bs = assembled .lsbFirst bs.reverse := by
  simp only [assembled, List.foldr_reverse]
  exact congrArg (fun f => bs.foldl f 0) (funext₂ fun v b => Nat.add_comm ..)

theorem assembled_lsbFirst_lt (bs : List Bool) : assembled .lsbFirst bs < 2 ^ bs.length := by
  refine Nat.lt_pow_two_of_testBit _ fun k hk => ?_
  rw [testBit_assembled_lsbFirst, List.getD_eq_default _ _ hk]

theorem assembled_lt (o : BitAssembly) (bs : List Bool) : assembled o bs < 2 ^ bs.length := by
  cases o with
  | lsbFirst => exact assembled_lsbFirst_lt bs
  | msbFirst => rw [assembled_msbFirst, ← List.length_reverse]; exact assembled_lsbFirst_lt bs.reverse

/-- R74, MSB_FIRST: bit `k` of the value is the bit read in place `k` from the end. -/
theorem testBit_assembled_msbFirst (bs : List Bool) {k : Nat} (hk : k < bs.length) :
    (assembled .msbFirst bs).testBit k = bs.getD (bs.length - 1 - k) false := by
  rw [assembled_msbFirst, testBit_assembled_lsbFirst, List.getD_eq_getElem?_getD, List.getD_eq_getElem?_getD,
    List.getElem?_reverse hk]

/-- Settles O29: the reads give `assembled`, whose bits are the bits read. -/
theorem readBitsAssemblesTheBits : Obligations.ReadBitsAssemblesTheBits := by
  intro p next s t bs h
  refine ⟨_, readBits_run p bs 0 0 h, assembledFrom_zero _ bs, ?_, fun k hk => ⟨fun ho => ?_, fun ho => ?_⟩⟩
  · rw [assembledFrom_zero]
    exact assembled_lt _ bs
  · rw [assembledFrom_zero, ho, testBit_assembled_lsbFirst]
  · rw [assembledFrom_zero, ho, testBit_assembled_msbFirst bs hk]

end Sys2Proof.Machine
end

section
/-!
PROOF. The bytes of a pixel (spec/45_color.md rules R190, R194, R195): the packed values by arithmetic, and a pixel
without chroma.
-/

namespace Sys2Proof.Machine

/-! ### Packing -/

theorem pack565_eq (c : Rgb) :
    pack565 c = c.r.toNat / 8 * 2048 + c.g.toNat / 4 * 32 + c.b.toNat / 8 := by
  have hg : c.g.toNat < 256 := c.g.isLt
  have hb : c.b.toNat < 256 := c.b.isLt
  rw [pack565, Nat.or_assoc, ← Nat.shiftLeft_add_eq_or_of_lt (i := 5), ← Nat.shiftLeft_add_eq_or_of_lt (i := 11)] <;>
    simp only [Nat.shiftLeft_eq, Nat.shiftRight_eq_div_pow] <;> omega

theorem packArgb_eq (c : Rgb) :
    packArgb c = 255 * 16777216 + c.r.toNat * 65536 + c.g.toNat * 256 + c.b.toNat := by
  have hr : c.r.toNat < 256 := c.r.isLt
  have hg : c.g.toNat < 256 := c.g.isLt
  have hb : c.b.toNat < 256 := c.b.isLt
  rw [packArgb, Nat.or_assoc, Nat.or_assoc, ← Nat.shiftLeft_add_eq_or_of_lt (i := 8),
    ← Nat.shiftLeft_add_eq_or_of_lt (i := 16), ← Nat.shiftLeft_add_eq_or_of_lt (i := 24)]
  · simp only [Nat.shiftLeft_eq]
    omega
  · simp only [Nat.shiftLeft_eq]
    omega
  · simp only [Nat.shiftLeft_eq]
    omega
  · exact hb

theorem pixelBytes_rgb565 (c : Rgb) :
    (pixelBytes .rgb565 c).map BitVec.toNat = [pack565 c % 256, pack565 c / 256] := by
  have hr : c.r.toNat < 256 := c.r.isLt
  have hg : c.g.toNat < 256 := c.g.isLt
  have hb : c.b.toNat < 256 := c.b.isLt
  have hlt : pack565 c / 256 < 256 := by rw [pack565_eq]; omega
  simp [pixelBytes, bytesOf, Nat.mod_eq_of_lt hlt]

theorem pixelBytes_argb32 (c : Rgb) : pixelBytes .argb32 c = [c.b, c.g, c.r, 0xFF] := by
  have hr : c.r.toNat < 256 := c.r.isLt
  have hg : c.g.toNat < 256 := c.g.isLt
  have hb : c.b.toNat < 256 := c.b.isLt
  have hff : (0xFF : Byte).toNat = 255 := rfl
  refine List.map_injective_iff.mpr (fun _ _ => BitVec.eq_of_toNat_eq) ?_
  simp only [pixelBytes, bytesOf, packArgb_eq, List.map_cons, List.map_nil, BitVec.toNat_ofNat, List.cons.injEq,
    and_true, hff]
  omega

/-! ### A pixel without chroma -/

theorem toByte_toNat (w : Word) : ((toByte w).toNat : Int) = clamp w.toInt 0 255 := by
  have hlo := le_clamp w.toInt 0 255 (by decide)
  have hhi := clamp_le w.toInt 0 255
  rw [toByte, BitVec.toNat_ofInt]
  omega

/-- R195: without chroma the three channels are the luma. -/
theorem color_gray (y : Word) : color y 0 0 = ⟨toByte (y + 128), toByte (y + 128), toByte (y + 128)⟩ := by
  have hg1 : half (div3 0) = 0 := by decide
  have hdiv : ∀ k : Word, wrap32 (tdiv (0 * k).toInt 10) = 0 := fun k => by rw [zero_mul]; decide
  simp only [color, hg1, hdiv, mul_zero, add_zero, sub_zero]

theorem toInt_add_128 {y : Word} (h : y.toInt + 128 < 2 ^ 31) : (y + 128).toInt = y.toInt + 128 := by
  have hlo := y.le_toInt
  rw [BitVec.toInt_add]
  exact Int.bmod_eq_of_le (by simp at hlo ⊢; omega) (by simp; omega)

/-- Settles O44: the packed values as sums of their fields, and the gray pixel. -/
theorem pixelsArePacked : Obligations.PixelsArePacked := by
  refine ⟨fun c => ⟨rfl, ?_, pixelBytes_argb32 c⟩, ⟨rfl, rfl, rfl⟩, fun y hy => ?_, by decide, by decide⟩
  · rw [pixelBytes_rgb565, pack565_eq]
  · rw [color_gray, toByte_toNat, toInt_add_128 hy]
    exact ⟨rfl, rfl, rfl⟩

end Sys2Proof.Machine
end

section
/-!
PROOF. Arrays in memory (spec/20_memory.md rules R65, R78): records of bytes stored one after the other, among them int32
arrays and blocks, and what reading them back gives.
-/

namespace Sys2Proof.Machine

/-! ### Records of equal length -/

/-- In records of `w` elements each, element `k` of record `q` stands at `q * w + k`. -/
theorem getElem?_flatMap_records {α β : Type} {f : α → List β} {w : Nat} (hf : ∀ x, (f x).length = w) {k : Nat}
    (hk : k < w) (l : List α) : ∀ q, (l.flatMap f)[q * w + k]? = l[q]?.bind fun x => (f x)[k]? := by
  induction l with
  | nil => simp
  | cons x xs ih =>
    rintro (_ | q)
    · rw [List.flatMap_cons, Nat.zero_mul, Nat.zero_add, List.getElem?_append_left (by rw [hf]; exact hk)]
      simp
    · rw [List.flatMap_cons, List.getElem?_append_right (by rw [hf, Nat.add_mul]; omega), hf,
        show (q + 1) * w + k - w = q * w + k by rw [Nat.add_mul]; omega, ih]
      simp

theorem length_flatMap_records {α β : Type} {f : α → List β} {w : Nat} (hf : ∀ x, (f x).length = w) (l : List α) :
    (l.flatMap f).length = l.length * w := by
  simp [List.length_flatMap, hf]

theorem Memory.writeAll_append (l l' : List Byte) :
    ∀ (m : Memory) (a : Nat), m.writeAll a (l ++ l') = (m.writeAll a l).writeAll (a + l.length) l' := by
  induction l with
  | nil => exact fun m a => rfl
  | cons b bs ih =>
    intro m a
    rw [List.cons_append, Memory.writeAll, ih, Memory.writeAll, List.length_cons, Nat.add_assoc, Nat.add_comm 1]

/-- A record is read back where it was stored. -/
theorem Memory.read_writeAll_records {α : Type} {f : α → List Byte} {w : Nat} (hf : ∀ x, (f x).length = w) {m : Memory}
    (hwf : m.wf) (a : Nat) {l : List α} {q k : Nat} (hq : q < l.length) (hk : k < w) :
    (m.writeAll a (l.flatMap f)).read (a + (q * w + k)) = (f l[q])[k]'(by rw [hf]; exact hk) := by
  have hlt : q * w + k < (l.flatMap f).length := by
    rw [length_flatMap_records hf]
    exact pixel_bytes_lt hq hk
  rw [Memory.read_writeAll_inside _ a _ hlt hwf]
  have hget := getElem?_flatMap_records hf hk l q
  rw [List.getElem?_eq_getElem hlt, List.getElem?_eq_getElem hq, Option.bind_some,
    List.getElem?_eq_getElem (by rw [hf]; exact hk)] at hget
  exact Option.some.inj hget

/-! ### Numbers -/

theorem Memory.value_congr {m m' : Memory} (n : Nat) :
    ∀ a, (∀ i < n, m.read (a + i) = m'.read (a + i)) → m.value a n = m'.value a n := by
  induction n with
  | zero => exact fun a _ => rfl
  | succ n ih =>
    intro a h
    obtain ⟨hfirst, hrest⟩ := forall_lt_succ_shift (P := fun b => m.read b = m'.read b) h
    rw [Memory.value, Memory.value, hfirst, ih (a + 1) hrest]

/-- R65: bytes that are the digits of a number are read as the number. -/
theorem Memory.value_of_bytesOf {m : Memory} (n : Nat) :
    ∀ a v, (∀ i (hi : i < (bytesOf v n).length), m.read (a + i) = (bytesOf v n)[i]) → m.value a n = v % 256 ^ n := by
  induction n with
  | zero => intro a v _; rw [Memory.value, Nat.pow_zero, Nat.mod_one]
  | succ n ih =>
    intro a v h
    have hfirst : m.read a = BitVec.ofNat 8 v := h 0 (by simp)
    have hrest : m.value (a + 1) n = v / 256 % 256 ^ n := ih (a + 1) (v / 256) fun i hi => by
      rw [Nat.add_assoc, Nat.add_comm 1]
      exact h (i + 1) (Nat.succ_lt_succ hi)
    rw [Memory.value, hfirst, hrest, BitVec.toNat_ofNat, pow_succ' 256 n, Nat.mod_mul (x := v)
      (a := 256)]

theorem Memory.int32_congr {m m' : Memory} {a : Nat} (h : ∀ i < 4, m.read (a + i) = m'.read (a + i)) :
    m.int32 a = m'.int32 a := congrArg _ (Memory.value_congr 4 a h)

/-! ### int32 arrays -/

/-- The bytes of an int32 array (R78). -/
def wordBytes (ws : List Word) : List Byte := ws.flatMap fun w => bytesOf w.toNat 4

theorem writeWords_eq_writeBytes (p : Params) (ws : List Word) :
    ∀ (a : Nat) (s : State), (∀ i < 4 * ws.length, reachable p (a + i) = true) →
      writeWords p a ws s = .ok () (s.withMem (s.mem.writeAll a (wordBytes ws))) := by
  induction ws with
  | nil => exact fun a s _ => rfl
  | cons w ws ih =>
    intro a s h
    rw [List.length_cons] at h
    have hword := writeBytes_of_reachable p (bytesOf w.toNat 4) a s fun i hi =>
      h i (by rw [bytesOf_length] at hi; omega)
    have hrest := ih (a + 4) (s.withMem (s.mem.writeAll a (bytesOf w.toNat 4))) fun i hi => by
      rw [Nat.add_assoc]
      exact h (4 + i) (by omega)
    have hbytes : wordBytes (w :: ws) = bytesOf w.toNat 4 ++ wordBytes ws := List.flatMap_cons
    rw [writeWords, memWrite, Engine.bind_ok hword, hrest, hbytes, Memory.writeAll_append, bytesOf_length]
    rfl

/-- R78: a stored word is read back. -/
theorem Memory.int32_writeAll_wordBytes {m : Memory} (hwf : m.wf) (a : Nat) {ws : List Word} {q : Nat}
    (hq : q < ws.length) : (m.writeAll a (wordBytes ws)).int32 (a + 4 * q) = ws[q] := by
  have hvalue : (m.writeAll a (wordBytes ws)).value (a + 4 * q) 4 = ws[q].toNat % 256 ^ 4 :=
    Memory.value_of_bytesOf 4 _ _ fun i hi => by
      rw [bytesOf_length] at hi
      rw [Nat.add_assoc, Nat.mul_comm 4]
      exact Memory.read_writeAll_records (fun _ => bytesOf_length 4 _) hwf a hq hi
  rw [Memory.int32, hvalue]
  exact BitVec.eq_of_toNat_eq (by rw [BitVec.toNat_ofNat]; omega)

theorem readWords_of_reaches (p : Params) (n : Nat) :
    ∀ (a : Nat) (s : State), Reaches p ⟨a, 4 * n⟩ →
      readWords p a n s = .ok ((List.range n).map fun k => s.mem.int32 (a + 4 * k)) s := by
  induction n with
  | zero => exact fun a s _ => rfl
  | succ n ih =>
    intro a s h
    have hword := memRead_of_reaches p 4 a s fun i hi => h i (by simp only at hi ⊢; omega)
    have hrest := ih (a + 4) s (h.part (off := 4) (n := 4 * n) (by simp only; omega))
    have hshift : (fun k => s.mem.int32 (a + 4 + 4 * k)) = (fun k => s.mem.int32 (a + 4 * k)) ∘ Nat.succ :=
      funext fun k => congrArg _ (by omega)
    rw [readWords, Engine.bind_ok hword, Engine.bind_ok hrest, Engine.pure_run, List.range_succ_eq_map, List.map_cons,
      List.map_map, hshift]
    rfl

/-! ### Blocks -/

/-- R78: a block is read as its 64 words. -/
theorem readBlock_of_reaches {p : Params} {a : Nat} {s : State} (h : Reaches p ⟨a, 256⟩) :
    readBlock p a s = .ok (s.mem.block a) s := by
  rw [readBlock, Engine.bind_ok (readWords_of_reaches p 64 a s h), Engine.pure_run]
  refine congrArg (EStateM.Result.ok · s) (Vector.ext fun i hi => ?_)
  simp [blockOf, Memory.block]

/-- Memory after a block is stored at `a`: what `writeBlock` leaves (`writeBlock_of_reaches`). -/
def Memory.writeBlock (m : Memory) (a : Nat) (b : Block) : Memory := m.writeAll a (wordBytes b.toList)

theorem writeBlock_of_reaches {p : Params} {a : Nat} {s : State} (b : Block) (h : Reaches p ⟨a, 256⟩) :
    writeBlock p a b s = .ok () (s.withMem (s.mem.writeBlock a b)) :=
  writeWords_eq_writeBytes p b.toList a s (by rw [Vector.length_toList]; exact h)

theorem Memory.int32_writeBlock {m : Memory} (hwf : m.wf) (a : Nat) (b : Block) {i : Nat} (hi : i < 64) :
    (m.writeBlock a b).int32 (a + 4 * i) = b[i] := by
  rw [Memory.writeBlock, Memory.int32_writeAll_wordBytes hwf a (by simpa using hi), Vector.getElem_toList]

theorem Memory.block_writeBlock {m : Memory} (hwf : m.wf) (a : Nat) (b : Block) : (m.writeBlock a b).block a = b := by
  refine Vector.ext fun i hi => ?_
  rw [Memory.block, Vector.getElem_ofFn]
  exact Memory.int32_writeBlock hwf a b hi

end Sys2Proof.Machine
end

section
/-!
PROOF. DEQUANT_BLOCK, IDCT_BLOCK and COLOR_BLOCK complete (spec/42_dequant.md R143, R146, spec/44_idct.md R181,
spec/45_color.md R194-R197): their pre-checks pass, their bodies store a block or 64 pixels, and nothing else moves.
-/

namespace Sys2Proof.Machine

/-! ### A stage command that completes -/

theorem State.withHidden_withMem (s : State) (d : Hidden) (m : Memory) :
    (s.withHidden d).withMem m = (s.withMem m).withHidden d := rfl

/-- A run and its end, put together: what `exec` answers. -/
theorem exec_of_run {i : Instr} {s u : State} {o : Option CmdFault} (h : CommandRun i s u o) :
    ∃ t, exec i s = .next t ∧ EndsAs u o t := by
  refine ⟨_, exec_eq_perform i s, ?_⟩
  cases h with
  | refused hc =>
    simp only [perform, hc]
    exact endsAs_takeFault ..
  | stopped hc hb =>
    simp only [perform, hc, hb]
    exact (endsAs_takeFault ..).of_havoc
  | finished hc hb =>
    simp only [perform, hc, hb]
    exact endsAs_endCommand ..

/-- A command whose body only stores to memory and the hidden state, and comes to its end. -/
theorem stage_completes {i : Instr} {s : State} {plan : Plan} {m : Memory} {d : Hidden}
    (hclean : s.interfered = false) (hcheck : commandCheck s.cfg i s = .ok plan s)
    (hbody : commandBody s.cfg i plan s = .ok () ((s.withMem m).withHidden d)) :
    ∃ t, exec i s = .next t ∧ StageFinished s t (footprintOf s.cfg i s) ∧ t.mem = m := by
  have hexec : exec i s = .next (endCommand ((s.withMem m).withHidden d)) := by
    rw [exec_eq_perform, perform, hcheck]
    simp only [hbody]
    exact congrArg _ (settle_clean hclean)
  refine ⟨_, hexec, ?_, rfl⟩
  exact
    { cfg := rfl, irqEn := rfl, resetHeld := rfl, inputs := rfl, portData := rfl, memData := rfl, haz := rfl
      operands := rfl, idle := rfl, busy := rfl, done := rfl, err := rfl, errcode := rfl, faultInfo := rfl
      warnings := fun w => by cases w <;> rfl
      hufOut := rfl, animCur := rfl, tables := ⟨rfl, rfl⟩
      outside := exec_sameOutside_footprint hexec hclean }

theorem overlapCheck_of_apart {written read : List Window} (h : Apart written read) (s : State) :
    overlapCheck written read s = .ok () s := by
  classical
  rw [overlapCheck_run, if_pos h]

theorem apart_singletons {a b : Window} (h : a.overlaps b = false) : Apart [a] [b] := by
  simp [Apart, h]

theorem faultIf_bind_of_passes {α : Type} {b : Prop} [Decidable b] (h : ¬b) {c : FaultCode} {n : Nat}
    (f : Unit → Engine α) (s : State) : (faultIf (decide b) c n >>= f) s = f () s :=
  Engine.bind_ok (by rw [Engine.faultIf_run, if_neg (by simpa using h)])

section
variable {s : State} (hlap : s.regs.dstWindow.overlaps s.regs.srcWindow = false)
include hlap

theorem blockStageCheck_passes (hsrc : 256 ≤ s.regs.srcLen.toNat) (hdst : 256 ≤ s.regs.dstLen.toNat) :
    blockStageCheck s = .ok (Plan.of (blockStageFootprint s.regs)) s := by
  rw [blockStageCheck, Engine.bind_ok (Engine.getRegs_run s),
    Engine.bind_ok (overlapCheck_of_apart (apart_singletons hlap) s), faultIf_bind_of_passes (by omega),
    faultIf_bind_of_passes (by omega)]
  rfl

theorem colorBlockCheck_passes {fmt : PixelFormat} (hsrc : 768 ≤ s.regs.srcLen.toNat)
    (hdst : 64 * bpp fmt ≤ s.regs.dstLen.toNat) :
    colorBlockCheck fmt s = .ok (Plan.of (colorBlockFootprint fmt s.regs)) s := by
  rw [colorBlockCheck, Engine.bind_ok (Engine.getRegs_run s),
    Engine.bind_ok (overlapCheck_of_apart (apart_singletons hlap) s), faultIf_bind_of_passes (by omega),
    faultIf_bind_of_passes (by omega)]
  rfl

end

/-! ### DEQUANT_BLOCK -/

/-- Storing at other indices leaves an element alone. -/
theorem foldl_set_other (l : List (Fin 64 × Word)) {k : Fin 64} (h : ∀ kv ∈ l, kv.1 ≠ k) :
    ∀ b : Block, (l.foldl (fun nat kv => nat.set kv.1.val kv.2) b)[k.val] = b[k.val] := by
  induction l with
  | nil => exact fun b => rfl
  | cons e l ih =>
    intro b
    obtain ⟨hne, hrest⟩ := List.forall_mem_cons.mp h
    rw [List.foldl_cons, ih hrest]
    exact Vector.getElem_set_ne _ _ fun heq => hne (Fin.ext heq)

/-- Where no index comes twice, each element stored is there in the end. -/
theorem foldl_set_of_mem (l : List (Fin 64 × Word)) (hkeys : l.Pairwise fun e e' => e.1 ≠ e'.1) {k : Fin 64} {v : Word}
    (h : (k, v) ∈ l) : ∀ b : Block, (l.foldl (fun nat kv => nat.set kv.1.val kv.2) b)[k.val] = v := by
  induction l with
  | nil => exact absurd h List.not_mem_nil
  | cons e l ih =>
    intro b
    obtain ⟨hhead, htail⟩ := List.pairwise_cons.mp hkeys
    rw [List.foldl_cons]
    obtain rfl | hmem := List.mem_cons.mp h
    · rw [foldl_set_other l fun e' he' heq => hhead e' he' heq.symm]
      exact Vector.getElem_set_self _
    · exact ih htail hmem _

/-- R143: a permutation takes each zig-zag coefficient to its natural place. -/
theorem toNatural_getElem {zigzag : Vector (Fin 64) 64} (hinj : ∀ j k : Fin 64, zigzag[j.val] = zigzag[k.val] → j = k)
    (zz : Block) (k : Fin 64) : (toNatural zigzag zz)[zigzag[k.val].val] = zz[k.val] := by
  refine foldl_set_of_mem _ (List.pairwise_iff_getElem.mpr fun i j hi hj hij heq => ?_) ?_ _
  · simp only [List.length_zip, Vector.length_toList] at hi hj
    simp only [List.getElem_zip, Vector.getElem_toList] at heq
    have hsame := hinj ⟨i, by omega⟩ ⟨j, by omega⟩ heq
    simp only [Fin.mk.injEq] at hsame
    omega
  · exact List.mem_iff_getElem.mpr ⟨k.val, by simp, by simp⟩

theorem dequant_getElem {p : Params} (hinj : ∀ j k : Fin 64, p.zigzag[j.val] = p.zigzag[k.val] → j = k)
    (zz table : Block) (k : Fin 64) :
    (dequant p zz table)[p.zigzag[k.val].val] = zz[k.val] * table[p.zigzag[k.val].val] := by
  rw [dequant, Vector.getElem_zipWith, toNatural_getElem hinj]

theorem Memory.block_getElem (m : Memory) (a : Nat) (k : Fin 64) : (m.block a)[k.val] = m.int32 (a + 4 * k.val) := by
  rw [Memory.block, Vector.getElem_ofFn]

section
variable {s : State} (hread : Reaches s.cfg ⟨s.regs.srcAddr.toNat, 256⟩)
  (hwrite : Reaches s.cfg ⟨s.regs.dstAddr.toNat, 256⟩)
include hread hwrite

theorem dequantBlockBody_run (sel : TableSel) (plan : Plan) :
    ∃ d, dequantBlockBody s.cfg sel plan s = .ok () ((s.withMem (s.mem.writeBlock s.regs.dstAddr.toNat
      (dequant s.cfg (s.mem.block s.regs.srcAddr.toNat) (s.regs.table sel)))).withHidden d) := by
  rw [dequantBlockBody, Engine.bind_ok (Engine.getRegs_run s), Engine.bind_ok (readBlock_of_reaches hread)]
  exact ⟨s.hidden, writeBlock_of_reaches _ hwrite⟩

theorem idctBlockBody_run (plan : Plan) :
    ∃ d, idctBlockBody s.cfg plan s = .ok () ((s.withMem (s.mem.writeBlock s.regs.dstAddr.toNat
      (idct2D s.cfg (s.mem.block s.regs.srcAddr.toNat)))).withHidden d) := by
  have hstore := fun d => writeBlock_of_reaches (s := s.withHidden d)
    (idct2D s.cfg (s.mem.block s.regs.srcAddr.toNat)) hwrite
  rw [idctBlockBody, Engine.bind_ok (Engine.getRegs_run s), Engine.bind_ok (readBlock_of_reaches hread),
    Engine.bind_ok (Engine.modifyHidden_run _ s), hstore, State.withHidden_mem, State.withHidden_withMem]
  exact ⟨_, rfl⟩

end

/-- Settles O38: the body stores the dequantized block, whose element at a natural index is read off `toNatural`. -/
theorem dequantBlockResult : Obligations.DequantBlockResult := by
  intro sel s hclean hwf hlap hsrc hdst hread hwrite hinj
  obtain ⟨d, hrun⟩ := dequantBlockBody_run hread hwrite sel (Plan.of (blockStageFootprint s.regs))
  have hcheck := blockStageCheck_passes hlap hsrc hdst
  have hcompletes : ∀ m d, dequantBlockBody s.cfg sel (Plan.of (blockStageFootprint s.regs)) s =
      .ok () ((s.withMem m).withHidden d) → ∃ t, exec (dequantBlockFor sel) s = .next t ∧
        StageFinished s t [⟨s.regs.dstAddr.toNat, 256⟩] ∧ t.mem = m := fun m d hrun => by
    cases sel <;> exact stage_completes hclean hcheck hrun
  obtain ⟨t, hexec, hfin, hmem⟩ := hcompletes _ d hrun
  refine ⟨t, hexec, hfin, fun k => ?_⟩
  rw [hmem, Memory.int32_writeBlock hwf _ _ (Fin.isLt _), dequant_getElem hinj, Memory.block_getElem]

/-- Settles O39: the body stores the transform of the block it reads. -/
theorem idctBlockResult : Obligations.IdctBlockResult := by
  intro s hclean hwf hlap hsrc hdst hread hwrite
  obtain ⟨d, hrun⟩ := idctBlockBody_run hread hwrite (Plan.of (blockStageFootprint s.regs))
  obtain ⟨t, hexec, hfin, hmem⟩ :=
    stage_completes (i := .idctBlock) hclean (blockStageCheck_passes hlap hsrc hdst) hrun
  exact ⟨t, hexec, hfin, by rw [hmem, Memory.block_writeBlock hwf]⟩

/-! ### COLOR_BLOCK -/

/-- R196: the colour of pixel `px` of the planes at `src`. -/
def Memory.pixelAt (m : Memory) (src px : Nat) : Rgb :=
  color (m.int32 (src + 4 * px)) (m.int32 (src + 256 + 4 * px)) (m.int32 (src + 512 + 4 * px))

/-- R194, R196: the bytes of `n` pixels from pixel `px` on, one pixel after the other. -/
def Memory.colorBytes (m : Memory) (fmt : PixelFormat) (src px n : Nat) : List Byte :=
  (List.range' px n).flatMap fun q => pixelBytes fmt (m.pixelAt src q)

theorem Memory.colorBytes_succ (m : Memory) (fmt : PixelFormat) (src px n : Nat) :
    m.colorBytes fmt src px (n + 1) = pixelBytes fmt (m.pixelAt src px) ++ m.colorBytes fmt src (px + 1) n := by
  rw [Memory.colorBytes, List.range'_succ, List.flatMap_cons]
  rfl

theorem Memory.read_writeAll_colorBytes {m m' : Memory} (hwf : m'.wf) (fmt : PixelFormat) (src dst n : Nat) {q k : Nat}
    (hq : q < n) (hk : k < bpp fmt) :
    (m'.writeAll dst (m.colorBytes fmt src 0 n)).read (dst + (q * bpp fmt + k)) =
      (pixelBytes fmt (m.pixelAt src q)).getD k 0 := by
  rw [Memory.colorBytes, Memory.read_writeAll_records (fun _ => pixelBytes_length fmt _) hwf _
    (l := List.range' 0 n) (by simpa using hq) hk, List.getD_eq_getElem _ _ (by rwa [pixelBytes_length])]
  simp

section
variable {p : Params} {fmt : PixelFormat} {m : Memory} {src dst : Nat} (hread : Reaches p ⟨src, 768⟩)
  (hwrite : Reaches p ⟨dst, 64 * bpp fmt⟩) (hapart : ∀ i < 768, ∀ j < 64 * bpp fmt, src + i ≠ dst + j)
include hread hwrite hapart

/-- R196, R197: pixel after pixel, the bytes of the planes' colours are stored; the planes are not written over. -/
theorem colorPixels_run (n : Nat) :
    ∀ (px : Nat) (s : State), px + n ≤ 64 → (∀ i < 768, s.mem.read (src + i) = m.read (src + i)) →
      colorPixels p fmt src dst n px s =
        .ok () (s.withMem (s.mem.writeAll (dst + px * bpp fmt) (m.colorBytes fmt src px n))) := by
  induction n with
  | zero => exact fun px s _ _ => rfl
  | succ n ih =>
    intro px s hpx hsame
    have hword : ∀ k ≤ 512, memRead p (src + k + 4 * px) 4 s = .ok (s.mem.value (src + k + 4 * px) 4) s ∧
        BitVec.ofNat 32 (s.mem.value (src + k + 4 * px) 4) = m.int32 (src + k + 4 * px) := fun k hk => by
      refine ⟨memRead_of_reaches p 4 _ s fun i hi => ?_, Memory.int32_congr fun i hi => ?_⟩ <;>
        rw [Nat.add_assoc, Nat.add_assoc]
      · exact hread _ (by simp only at hi ⊢; omega)
      · exact hsame _ (by omega)
    obtain ⟨hy, hyval⟩ := hword 0 (by omega)
    obtain ⟨hcb, hcbval⟩ := hword 256 (by omega)
    obtain ⟨hcr, hcrval⟩ := hword 512 (by omega)
    rw [Nat.add_zero] at hy hyval
    have hbytes : ∀ i < bpp fmt, px * bpp fmt + i < 64 * bpp fmt := fun i hi => pixel_bytes_lt (by omega) hi
    have hpixel := writeBytes_of_reachable p (pixelBytes fmt (m.pixelAt src px)) (dst + px * bpp fmt) s fun i hi => by
      rw [Nat.add_assoc]
      exact hwrite _ (hbytes i (by rwa [pixelBytes_length] at hi))
    have hrest := ih (px + 1) (s.withMem (s.mem.writeAll (dst + px * bpp fmt) (pixelBytes fmt (m.pixelAt src px))))
      (by omega) fun i hi => by
        rw [State.withMem_mem, Memory.read_writeAll_outside _ _ _ _ fun hin => ?_, hsame i hi]
        rw [pixelBytes_length] at hin
        have := hbytes (src + i - (dst + px * bpp fmt)) (by omega)
        exact hapart i hi (src + i - dst) (by omega) (by omega)
    have hcolor : color (m.int32 (src + 4 * px)) (m.int32 (src + 256 + 4 * px)) (m.int32 (src + 512 + 4 * px)) =
        m.pixelAt src px := rfl
    have hnext : dst + (px + 1) * bpp fmt = dst + px * bpp fmt + bpp fmt := by rw [Nat.add_mul]; omega
    rw [colorPixels, Engine.bind_ok hy, Engine.bind_ok hcb, Engine.bind_ok hcr, hyval, hcbval, hcrval, hcolor,
      writePixel, Engine.bind_ok hpixel, hrest, hnext, Memory.colorBytes_succ, Memory.writeAll_append,
      pixelBytes_length]
    rfl

end

/-- R64: windows that do not overlap, as the addresses of their front parts. -/
theorem ne_of_not_overlaps {w v : Window} (h : w.overlaps v = false) {i j : Nat} (hi : i < v.len) (hj : j < w.len) :
    v.base + i ≠ w.base + j := by
  intro heq
  have hv : v.holds (w.base + j) = true := (v.holds_iff _).mpr ⟨by omega, by omega⟩
  have hw : w.holds (w.base + j) = true := (w.holds_iff _).mpr ⟨by omega, by omega⟩
  exact Bool.false_ne_true (((Window.overlaps_eq_false_iff w v).mp h _ hw).symm.trans hv)

/-- Settles O42: the body stores the 64 colours' bytes one pixel after the other, so each is read back at its place. -/
theorem colorBlockResult : Obligations.ColorBlockResult := by
  intro fmt s hclean hwf hlap hsrc hdst hread hwrite
  have hrun := colorPixels_run hread hwrite (m := s.mem) (fun i hi j hj => ne_of_not_overlaps hlap
    (i := i) (j := j) (hi.trans_le hsrc) (hj.trans_le hdst)) 64 0 s (by omega) fun _ _ => rfl
  rw [Nat.zero_mul, Nat.add_zero] at hrun
  have hcheck := colorBlockCheck_passes hlap hsrc hdst
  have hcompletes : ∀ m, colorPixels s.cfg fmt s.regs.srcAddr.toNat s.regs.dstAddr.toNat 64 0 s = .ok () (s.withMem m) →
      ∃ t, exec (colorBlockOf fmt) s = .next t ∧ StageFinished s t [⟨s.regs.dstAddr.toNat, 64 * bpp fmt⟩] ∧
        t.mem = m := fun m hrun => by
    cases fmt <;> exact stage_completes (m := m) (d := s.hidden) hclean hcheck hrun
  obtain ⟨t, hexec, hfin, hmem⟩ := hcompletes _ hrun
  refine ⟨t, hexec, hfin, fun px hpx k hk => ?_⟩
  rw [hmem, Nat.add_assoc, Memory.read_writeAll_colorBytes hwf fmt _ _ 64 hpx hk]
  rfl

end Sys2Proof.Machine
end

section
/-!
PROOF. The shape of the tree (spec/41_huffman.md rule R117): every merge makes a node of nodes below it, so a walk from
the root only descends.
-/

namespace Sys2Proof.Machine

/-! ### The children of a node -/

theorem setFreq_children (a : Arena) (s : Nat) (f : Word) (n : Fin 513) :
    (setFreq a s f)[n.val].c0 = a[n.val].c0 ∧ (setFreq a s f)[n.val].c1 = a[n.val].c1 := by
  rw [setFreq, Vector.getElem_setIfInBounds n.isLt]
  split
  · next h => subst h; simp
  · exact ⟨rfl, rfl⟩

theorem mergeInto_children_same (a : Arena) {next : Nat} (l r : Nat × Word) {n : Fin 513} (hn : n.val = next) :
    (mergeInto a next l r)[n.val].c0 = Fin.ofNat 513 l.1 ∧ (mergeInto a next l r)[n.val].c1 = Fin.ofNat 513 r.1 := by
  have hlt : next < 513 := hn ▸ n.isLt
  rw [mergeInto, (setFreq_children _ r.1 0 n).1, (setFreq_children _ r.1 0 n).2, (setFreq_children _ l.1 0 n).1,
    (setFreq_children _ l.1 0 n).2, Vector.getElem_setIfInBounds n.isLt, if_pos hn.symm]
  exact ⟨rfl, rfl⟩

theorem mergeInto_children_other (a : Arena) {next : Nat} (l r : Nat × Word) {n : Fin 513} (hn : n.val ≠ next) :
    (mergeInto a next l r)[n.val].c0 = a[n.val].c0 ∧ (mergeInto a next l r)[n.val].c1 = a[n.val].c1 := by
  rw [mergeInto, (setFreq_children _ r.1 0 n).1, (setFreq_children _ r.1 0 n).2, (setFreq_children _ l.1 0 n).1,
    (setFreq_children _ l.1 0 n).2, Vector.getElem_setIfInBounds n.isLt, if_neg hn.symm]
  exact ⟨rfl, rfl⟩

/-! ### Merges take nodes below their own -/

theorem leastActive_lt (skip : Option Nat) (ns : List Node) :
    ∀ {i : Nat} {best : Option (Nat × Word)} {r : Nat × Word}, leastActive skip ns i best = some r →
      best = some r ∨ r.1 < i + ns.length := by
  induction ns with
  | nil => exact fun h => .inl h
  | cons n ns ih =>
    intro i best r h
    rw [List.length_cons]
    obtain hbest | hlt := ih h
    · split at hbest
      · exact .inl hbest
      · split at hbest
        · obtain rfl := Option.some.inj hbest
          exact .inr (by simp only; omega)
        · split at hbest
          · obtain rfl := Option.some.inj hbest
            exact .inr (by simp only; omega)
          · exact .inl hbest
    · exact .inr (by omega)

/-- The slot R117 selects is one of those it looks at. -/
theorem leastActive_take_lt {skip : Option Nat} {a : Arena} {next : Nat} {r : Nat × Word}
    (h : leastActive skip (a.toList.take next) 0 none = some r) : r.1 < next := by
  obtain hnone | hlt := leastActive_lt skip _ h
  · exact absurd hnone (by simp)
  · rw [List.length_take] at hlt
    omega

theorem mergePair_lt {a : Arena} {next : Nat} {l r : Nat × Word} (h : mergePair a next = some (l, r)) :
    l.1 < next ∧ r.1 < next := by
  unfold mergePair at h
  split at h
  · exact absurd h (by simp)
  · next hl =>
    split at h
    · exact absurd h (by simp)
    · next hr =>
      obtain ⟨rfl, rfl⟩ := Prod.mk.inj (Option.some.inj h)
      exact ⟨leastActive_take_lt hl, leastActive_take_lt hr⟩

/-- Below slot `next`, the children of every internal node lie below the node. -/
def DescendsBelow (a : Arena) (next : Nat) : Prop :=
  ∀ n : Fin 513, 256 < n.val → n.val < next → a[n.val].c0 < n ∧ a[n.val].c1 < n

theorem DescendsBelow.mergeInto {a : Arena} {next : Nat} {l r : Nat × Word} (h : DescendsBelow a next)
    (hl : l.1 < next) (hr : r.1 < next) : DescendsBelow (mergeInto a next l r) (next + 1) := by
  intro n hn hlt
  by_cases heq : n.val = next
  · obtain ⟨h0, h1⟩ := mergeInto_children_same a l r heq
    rw [h0, h1, Fin.lt_def, Fin.lt_def, Fin.val_ofNat, Fin.val_ofNat]
    omega
  · obtain ⟨h0, h1⟩ := mergeInto_children_other a l r heq
    rw [h0, h1]
    exact h n hn (by omega)

theorem mergeLoop_descends (room : Nat) :
    ∀ {a : Arena} {next : Nat}, next + room ≤ 513 → DescendsBelow a next →
      DescendsBelow (mergeLoop room a next).1 (mergeLoop room a next).2 ∧ (mergeLoop room a next).2 ≤ 513 := by
  induction room with
  | zero => exact fun hroom h => ⟨h, hroom⟩
  | succ room ih =>
    intro a next hroom h
    rw [mergeLoop]
    split
    · exact ⟨h, by simp only; omega⟩
    · next l r hpair =>
      obtain ⟨hl, hr⟩ := mergePair_lt hpair
      exact ih (by omega) (h.mergeInto hl hr)

/-- From the root down, the children of every internal node of the tree lie below the node. -/
theorem treeBuild_descends {a : Arena} {root : Fin 513} (h : (treeBuild a).2 = some root) :
    DescendsBelow (treeBuild a).1 (root.val + 1) := by
  have hstart : DescendsBelow a 257 := fun n hn hlt => by omega
  obtain ⟨hdesc, hbound⟩ := mergeLoop_descends 256 (by omega) hstart
  intro n hn hlt
  refine hdesc n hn ?_
  simp only [treeBuild] at h
  split at h
  · next hmerged =>
    obtain rfl := Option.some.inj h
    rw [Fin.val_ofNat] at hlt
    omega
  · obtain ⟨l, hl, rfl⟩ := Option.map_eq_some_iff.mp h
    have hleaf := leastActive_take_lt hl
    rw [Fin.val_ofNat] at hlt
    omega

end Sys2Proof.Machine
end

section
/-!
PROOF. The Huffman phase of the engine gives what the reference decoder gives (spec/41_huffman.md rules R115-R123):
where the compressed bytes hold a table and codes that suffice, the phase ends with the symbols, and then zeros, in its
output.
-/

namespace Sys2Proof.Machine

/-! ### The compressed bytes -/

/-- In state `s` the compressed bytes at `c` are `l`, and the port reaches them. -/
structure CompAt (p : Params) (c : Comp) (l : List Byte) (s : State) : Prop where
  length : l.length = c.len
  reach : ∀ i < c.len, reachable p (c.base + i) = true
  bytes : ∀ (i : Nat) (hi : i < l.length), s.mem.read (c.base + i) = l[i]

/-- A state with other arena nodes. -/
def State.withNode (s : State) (a : Arena) : State := s.withHidden { s.hidden with node := a }

/-- A state with another Huffman bit cursor. -/
def State.withCursor (s : State) (cur : Nat) : State := s.withHidden { s.hidden with hcur := cur }

/-- A state whose tree was built from the frequencies in `a`. -/
def State.withTree (s : State) (a : Arena) : State :=
  s.withHidden { s.hidden with node := (treeBuild a).1, root := (treeBuild a).2 }

section
variable {p : Params} {c : Comp} {l : List Byte} {s : State}

theorem CompAt.of_mem {t : State} (h : CompAt p c l s) (hmem : t.mem = s.mem) : CompAt p c l t :=
  ⟨h.length, h.reach, fun i hi => by rw [hmem]; exact h.bytes i hi⟩

theorem CompAt.withMem {m : Memory} (h : CompAt p c l s)
    (hm : ∀ i < c.len, m.read (c.base + i) = s.mem.read (c.base + i)) : CompAt p c l (s.withMem m) :=
  ⟨h.length, h.reach, fun i hi => (hm i (h.length ▸ hi)).trans (h.bytes i hi)⟩

theorem compByte_run (h : CompAt p c l s) {i : Nat} {b : Byte} {rest : List Byte} (hdrop : l.drop i = b :: rest) :
    compByte p c i s = .ok b s ∧ l.drop (i + 1) = rest := by
  have hlt : i < l.length := by
    by_contra hge
    simp [List.drop_eq_nil_of_le (Nat.le_of_not_lt hge)] at hdrop
  rw [List.drop_eq_getElem_cons hlt] at hdrop
  obtain ⟨hb, hrest⟩ := List.cons.inj hdrop
  have hlen := h.length
  refine ⟨?_, hrest⟩
  rw [compByte, if_neg (by omega), readByte_of_reachable (h.reach i (by omega)), h.bytes i hlt, hb]

end

/-! ### The frequency table -/

section
variable {p : Params} {c : Comp} {l : List Byte}

theorem freqRange_run (n : Nat) :
    ∀ {k pos : Nat} {s : State} {a a' : Arena} {l' : List Byte}, CompAt p c l s →
      refRange n k (l.drop pos) a = some (a', l') →
      ∃ pos', freqRange p c n k pos (s.withNode a) = .ok pos' (s.withNode a') ∧ l.drop pos' = l' := by
  induction n with
  | zero =>
    intro k pos s a a' l' _ href
    obtain ⟨rfl, rfl⟩ := Prod.mk.inj (Option.some.inj href)
    exact ⟨pos, rfl, rfl⟩
  | succ n ih =>
    intro k pos s a a' l' hcomp href
    cases hdrop : l.drop pos with
    | nil => simp [hdrop, refRange] at href
    | cons f rest =>
      obtain ⟨hbyte, hrest⟩ := compByte_run (hcomp.of_mem (t := s.withNode a) rfl) hdrop
      rw [hdrop, refRange, ← hrest] at href
      obtain ⟨pos', hrun, hpos⟩ := ih hcomp href
      refine ⟨pos', ?_, hpos⟩
      rw [freqRange, Engine.bind_ok hbyte, Engine.bind_ok (Engine.modifyHidden_run _ _)]
      exact hrun

/-- What the reference header reader answers, case by case. -/
theorem refHeader_eq_some {l l' : List Byte} {o : Option (Nat × Nat)} (h : refHeader l = some (o, l')) :
    (l = 0 :: l' ∧ o = none) ∨ ∃ f e, f ≠ 0 ∧ l = f :: e :: l' ∧ o = some (f.toNat, e.toNat) := by
  cases l with
  | nil => simp [refHeader] at h
  | cons f l =>
    by_cases hf : f = 0
    · have hrun : refHeader (f :: l) = some (none, l) := if_pos hf
      obtain ⟨rfl, rfl⟩ := Prod.mk.inj (Option.some.inj (hrun.symm.trans h))
      exact .inl ⟨by rw [hf], rfl⟩
    · cases l with
      | nil =>
        have hrun : refHeader [f] = none := if_neg hf
        exact absurd (hrun.symm.trans h) (by simp)
      | cons e l =>
        have hrun : refHeader (f :: e :: l) = some (some (f.toNat, e.toNat), l) := if_neg hf
        obtain ⟨rfl, rfl⟩ := Prod.mk.inj (Option.some.inj (hrun.symm.trans h))
        exact .inr ⟨f, e, hf, rfl, rfl⟩

theorem nextHeader_run {pos : Nat} {s : State} {o : Option (Nat × Nat)} {l' : List Byte} (hcomp : CompAt p c l s)
    (href : refHeader (l.drop pos) = some (o, l')) :
    ∃ pos', nextHeader p c pos s = .ok (pos', o) s ∧ l.drop pos' = l' := by
  obtain ⟨hdrop, rfl⟩ | ⟨f, e, hf, hdrop, rfl⟩ := refHeader_eq_some href
  · obtain ⟨hbyte, hrest⟩ := compByte_run hcomp hdrop
    exact ⟨pos + 1, by rw [nextHeader, Engine.bind_ok hbyte, if_pos rfl]; rfl, hrest⟩
  · obtain ⟨hfirst, hrest⟩ := compByte_run hcomp hdrop
    obtain ⟨hlast, hrest⟩ := compByte_run hcomp hrest
    refine ⟨pos + 2, ?_, hrest⟩
    rw [nextHeader, Engine.bind_ok hfirst, if_neg hf, Engine.bind_ok hlast]
    rfl

/-- The table ends at the zero byte (R115). -/
theorem freqLoop_end {left first last pos q q' : Nat} {s t u : State} (hleft : 0 < left)
    (hrange : freqRangeOf p c first last pos s = .ok q t) (hheader : nextHeader p c q t = .ok (q', none) u) :
    freqLoop p c left first last pos s = .ok q' u := by
  match left, hleft with
  | 1, _ | n + 2, _ =>
    exact (Engine.bind_ok hrange).trans (Engine.bind_ok hheader)

/-- After a range header comes its range, with two header bytes fewer to go (R115). -/
theorem freqLoop_next {left first last pos q q' f e : Nat} {s t u : State} (hleft : 0 < left)
    (hrange : freqRangeOf p c first last pos s = .ok q t)
    (hheader : nextHeader p c q t = .ok (q', some (f, e)) u) :
    freqLoop p c left first last pos s = freqLoop p c (left - 2) f e q' u := by
  match left, hleft with
  | 1, _ | n + 2, _ =>
    exact (Engine.bind_ok hrange).trans (Engine.bind_ok hheader)

/-- The reference loop, taken apart the same way. -/
theorem refRanges_eq_some {left first last : Nat} {l : List Byte} {a : Arena} {r : Arena × List Byte}
    (hleft : 0 < left) (h : refRanges left first last l a = some r) :
    ∃ a1 l1 o l2, refRange (last + 1 - first) first l a = some (a1, l1) ∧ refHeader l1 = some (o, l2) ∧
      ((o = none ∧ r = (a1, l2)) ∨ ∃ f e, o = some (f, e) ∧ refRanges (left - 2) f e l2 a1 = some r) := by
  match left, hleft with
  | 1, _ | n + 2, _ =>
    rw [refRanges] at h
    split at h
    · exact absurd h (by simp)
    · next a1 l1 hrange =>
      split at h
      · exact absurd h (by simp)
      · next l2 hheader =>
        exact ⟨a1, l1, _, l2, hrange, hheader, .inl ⟨rfl, (Option.some.inj h).symm⟩⟩
      · next f e l2 hheader => exact ⟨a1, l1, _, l2, hrange, hheader, .inr ⟨f, e, rfl, h⟩⟩

theorem freqLoop_run (left : Nat) :
    ∀ {first last pos : Nat} {s : State} {a a' : Arena} {l' : List Byte}, CompAt p c l s →
      refRanges left first last (l.drop pos) a = some (a', l') →
      ∃ pos', freqLoop p c left first last pos (s.withNode a) = .ok pos' (s.withNode a') ∧ l.drop pos' = l' := by
  induction left using Nat.strong_induction_on with
  | _ left ih =>
    intro first last pos s a a' l' hcomp href
    obtain rfl | hleft := Nat.eq_zero_or_pos left
    · exact freqRange_run _ hcomp href
    · obtain ⟨a1, l1, o, l2, hrange, hheader, hcase⟩ := refRanges_eq_some hleft href
      obtain ⟨q, hq, rfl⟩ := freqRange_run _ hcomp hrange
      obtain ⟨q', hq', rfl⟩ := nextHeader_run (hcomp.of_mem (t := s.withNode a1) rfl) hheader
      obtain ⟨rfl, hr⟩ | ⟨f, e, rfl, hrec⟩ := hcase
      · obtain ⟨rfl, rfl⟩ := Prod.mk.inj hr
        exact ⟨q', freqLoop_end hleft hq hq', rfl⟩
      · rw [freqLoop_next hleft hq hq']
        exact ih (left - 2) (by omega) hcomp hrec

/-- R115: the table, from an arena as START leaves it. -/
theorem freqParse_run {s : State} {a : Arena} {rest : List Byte} (hcomp : CompAt p c l s)
    (hnode : s.hidden.node = Hidden.entry.node) (href : refTable p l = some (a, rest)) :
    ∃ start, freqParse p c s = .ok start (s.withNode a) ∧ l.drop start = rest := by
  match l, href with
  | f :: e :: l', href =>
    rw [refTable, ← hnode] at href
    have hcleared : CompAt p c (f :: e :: l') (s.withNode (clearFreqs p s.hidden.node)) := hcomp.of_mem rfl
    obtain ⟨hfirst, hrest⟩ := compByte_run hcleared (i := 0) rfl
    obtain ⟨hlast, hrest⟩ := compByte_run hcleared hrest
    obtain ⟨start, hrun, hstart⟩ := freqLoop_run _ (pos := 2) hcomp href
    refine ⟨start, ?_, hstart⟩
    rw [freqParse, Engine.bind_ok (Engine.modifyHidden_run _ s)]
    exact (Engine.bind_ok hfirst).trans ((Engine.bind_ok hlast).trans hrun)

end

/-! ### Codes -/

theorem bitsOf_getElem? (l : List Byte) (cur : Nat) : (bitsOf l)[cur]? = l[cur / 8]?.map fun b => msbBit b cur := by
  have h := getElem?_flatMap_records (f := fun b : Byte => (List.range 8).map fun k => b.getLsbD (7 - k)) (w := 8)
    (by simp) (Nat.mod_lt cur (by omega)) l (cur / 8)
  rw [show cur / 8 * 8 + cur % 8 = cur by omega] at h
  rw [bitsOf, h]
  cases l[cur / 8]? with
  | none => rfl
  | some b => simp [msbBit, Nat.mod_lt]

/-- R120: the next bit of the stream that starts at byte `start`. -/
theorem hufBit_run {p : Params} {c : Comp} {l : List Byte} {s : State} {start cur : Nat} {b : Bool} {bs : List Bool}
    (hcomp : CompAt p c l s) (hdrop : (bitsOf (l.drop start)).drop cur = b :: bs) :
    hufBit p c start (s.withCursor cur) = .ok b (s.withCursor (cur + 1)) ∧
      (bitsOf (l.drop start)).drop (cur + 1) = bs := by
  have hbit : (bitsOf (l.drop start))[cur]? = some b := by rw [← List.head?_drop, hdrop]; rfl
  have hrest : (bitsOf (l.drop start)).drop (cur + 1) = bs := by rw [← List.tail_drop, hdrop]; rfl
  rw [bitsOf_getElem?, List.getElem?_drop, Option.map_eq_some_iff] at hbit
  obtain ⟨byte, hbyte, rfl⟩ := hbit
  obtain ⟨hlt, rfl⟩ := List.getElem?_eq_some_iff.mp hbyte
  obtain ⟨hrun, -⟩ := compByte_run (hcomp.of_mem (t := s.withCursor cur) rfl) (List.drop_eq_getElem_cons hlt)
  refine ⟨?_, hrest⟩
  have hcur : (s.withCursor cur).hidden.hcur = cur := rfl
  unfold hufBit
  simp only [hcur, hrun]
  rfl

theorem refCode_leaf {a : Arena} {n : Fin 513} (h : n.val ≤ 256) (bits : List Bool) :
    refCode a bits n = some (n, bits) := by
  cases bits <;> simp [refCode, h]

theorem refCode_inner {a : Arena} {n : Fin 513} (h : ¬n.val ≤ 256) {bits : List Bool} {r : Fin 513 × List Bool}
    (href : refCode a bits n = some r) :
    ∃ b bs, bits = b :: bs ∧ refCode a bs (if b then a[n.val].c1 else a[n.val].c0) = some r := by
  cases bits with
  | nil => simp [refCode, h] at href
  | cons b bs => exact ⟨b, bs, rfl, by rwa [refCode, if_neg h] at href⟩

section
variable {p : Params} {c : Comp} {l : List Byte} {start : Nat} {a : Arena} {root : Fin 513}
  (hdesc : DescendsBelow a (root.val + 1))
include hdesc

/-- R121: the walk reads the bits of one code. A walk only descends, so the fuel lasts. -/
theorem walk_run (k : Nat) :
    ∀ {s : State} {n leaf : Fin 513} {cur : Nat} {bits : List Bool}, CompAt p c l s → s.hidden.node = a → n ≤ root →
      n.val < k → refCode a ((bitsOf (l.drop start)).drop cur) n = some (leaf, bits) →
      ∃ cur', walk p c start k n (s.withCursor cur) = .ok leaf (s.withCursor cur') ∧
        (bitsOf (l.drop start)).drop cur' = bits := by
  induction k with
  | zero => exact fun _ _ _ h => absurd h (Nat.not_lt_zero _)
  | succ k ih =>
    intro s n leaf cur bits hcomp hnode hroot hk href
    rw [walk]
    by_cases hleaf : n.val ≤ 256
    · rw [refCode_leaf hleaf] at href
      obtain ⟨rfl, rfl⟩ := Prod.mk.inj (Option.some.inj href)
      exact ⟨cur, by rw [if_pos hleaf]; rfl, rfl⟩
    · obtain ⟨b, bs, hdrop, href⟩ := refCode_inner hleaf href
      obtain ⟨hbit, hrest⟩ := hufBit_run hcomp hdrop
      obtain ⟨h0, h1⟩ := hdesc n (by omega) (Nat.lt_succ_of_le hroot)
      have hchild : (if b then a[n.val].c1 else a[n.val].c0) < n := by split; exacts [h1, h0]
      rw [← hrest] at href
      obtain ⟨cur', hrun, hcur'⟩ := ih hcomp hnode (hchild.le.trans hroot) (by omega) href
      refine ⟨cur', ?_, hcur'⟩
      rw [if_neg hleaf, Engine.bind_ok hbit, ← hrun, ← hnode]
      rfl

end

/-! ### Symbols -/

/-- One symbol of the reference decoder: the sentinel ends the stream, any other leaf is stored (R121). -/
theorem refSymbols_succ_eq_some {a : Arena} {root : Fin 513} {k : Nat} {bits : List Bool} {syms : List Byte}
    (h : refSymbols a root (k + 1) bits = some syms) :
    ∃ leaf bits', refCode a bits root = some (leaf, bits') ∧
      ((leaf.val = 256 ∧ syms = []) ∨
        (leaf.val ≠ 256 ∧ ∃ tail, refSymbols a root k bits' = some tail ∧ syms = BitVec.ofNat 8 leaf.val :: tail)) := by
  rw [refSymbols] at h
  split at h
  · exact absurd h (by simp)
  · next leaf bits' hcode =>
    refine ⟨leaf, bits', hcode, ?_⟩
    split at h
    · next hend => exact .inl ⟨hend, (Option.some.inj h).symm⟩
    · next hend =>
      obtain ⟨tail, htail, rfl⟩ := Option.map_eq_some_iff.mp h
      exact .inr ⟨hend, tail, htail, rfl⟩

theorem refSymbols_length {a : Arena} {root : Fin 513} (k : Nat) :
    ∀ {bits : List Bool} {syms : List Byte}, refSymbols a root k bits = some syms → syms.length ≤ k := by
  induction k with
  | zero =>
    intro bits syms h
    obtain rfl := Option.some.inj h
    exact Nat.zero_le _
  | succ k ih =>
    intro bits syms h
    obtain ⟨leaf, bits', -, ⟨-, rfl⟩ | ⟨-, tail, htail, rfl⟩⟩ := refSymbols_succ_eq_some h
    · exact Nat.zero_le _
    · exact Nat.succ_le_succ (ih htail)

/-- What the reference decoder answers, taken apart: a table, then symbols if the tree has a root. -/
theorem refHuffman_eq_some {p : Params} {l syms : List Byte} {ds : Nat} (h : refHuffman p l ds = some syms) :
    ∃ a rest, refTable p l = some (a, rest) ∧
      (((treeBuild a).2 = none ∧ syms = []) ∨
        ∃ root, (treeBuild a).2 = some root ∧ refSymbols (treeBuild a).1 root ds (bitsOf rest) = some syms) := by
  unfold refHuffman at h
  split at h
  · exact absurd h (by simp)
  · next a rest htable =>
    refine ⟨a, rest, htable, ?_⟩
    split at h
    · next hroot => exact .inl ⟨hroot, (Option.some.inj h).symm⟩
    · next root hroot => exact .inr ⟨root, hroot, h⟩

/-- The number of symbols never exceeds the declared length (R121). -/
theorem refHuffman_length {p : Params} {l syms : List Byte} {ds : Nat} (h : refHuffman p l ds = some syms) :
    syms.length ≤ ds := by
  obtain ⟨a, rest, -, ⟨-, rfl⟩ | ⟨root, -, hsyms⟩⟩ := refHuffman_eq_some h
  · exact Nat.zero_le _
  · exact refSymbols_length ds hsyms

theorem warnIf_run (b : Bool) (w : Warning) (s : State) :
    warnIf b w s = .ok () (s.withStatus (if b then s.status.setWarning w else s.status)) := by
  cases b <;> rfl

section
variable {p : Params} {c : Comp} {l : List Byte} {out ds : Nat} (hout : ∀ i < ds, reachable p (out + i) = true)
  (hapart : ∀ i < c.len, ∀ j < ds, c.base + i ≠ out + j)
include hout hapart

theorem CompAt.store {s : State} (h : CompAt p c l s) {n : Nat} (hn : n < ds) (v : Byte) :
    writeByte p (out + n) v s = .ok () (s.withMem (s.mem.write (out + n) v)) ∧
      CompAt p c l (s.withMem (s.mem.write (out + n) v)) :=
  ⟨writeByte_of_reachable v (hout n hn),
    h.withMem fun i hi => Memory.read_write_other _ _ v (hapart i hi n hn)⟩

/-- R121: the decoded symbols are stored one after the other; they do not run into the compressed bytes. -/
theorem symbolLoop_run {start : Nat} {a : Arena} {root : Fin 513} (hdesc : DescendsBelow a (root.val + 1)) (k : Nat) :
    ∀ {s : State} {n cur : Nat} {syms : List Byte}, CompAt p c l s → s.hidden.node = a → n + k ≤ ds →
      refSymbols a root k ((bitsOf (l.drop start)).drop cur) = some syms →
      ∃ cur', symbolLoop p c start out root k n (s.withCursor cur) =
        .ok (n + syms.length) ((s.withMem (s.mem.writeAll (out + n) syms)).withCursor cur') := by
  induction k with
  | zero =>
    intro s n cur syms _ _ _ href
    obtain rfl := Option.some.inj href
    exact ⟨cur, rfl⟩
  | succ k ih =>
    intro s n cur syms hcomp hnode hn href
    obtain ⟨leaf, bits, hcode, hcase⟩ := refSymbols_succ_eq_some href
    obtain ⟨cur1, hwalk, rfl⟩ := walk_run hdesc 513 hcomp hnode le_rfl root.isLt hcode
    rw [symbolLoop, Engine.bind_ok hwalk]
    obtain ⟨hend, rfl⟩ | ⟨hend, tail, htail, rfl⟩ := hcase
    · rw [if_pos hend]
      exact ⟨cur1, rfl⟩
    · obtain ⟨hwrite, hcomp'⟩ := CompAt.store hout hapart (hcomp.of_mem (t := s.withCursor cur1) rfl)
        (show n < ds by omega) (BitVec.ofNat 8 leaf.val)
      obtain ⟨cur', hrun⟩ := ih (s := s.withMem (s.mem.write (out + n) (BitVec.ofNat 8 leaf.val))) (n := n + 1)
        (hcomp'.of_mem rfl) hnode (by omega) htail
      refine ⟨cur', ?_⟩
      rw [if_neg hend, Engine.bind_ok hwrite, List.length_cons, Nat.add_comm tail.length, ← Nat.add_assoc]
      exact hrun

/-! ### The phase -/

omit hapart in
/-- R122: the zero fill stores zeros. -/
theorem zeroFill_run {n : Nat} (hn : n ≤ ds) (s : State) :
    zeroFill p (out + n) (ds - n) s = .ok () (s.withMem (s.mem.writeAll (out + n) (List.replicate (ds - n) 0))) := by
  have heq : ∀ k a, zeroFill p a k = writeBytes p a (List.replicate k 0) := fun k => by
    induction k with
    | zero => exact fun a => rfl
    | succ k ih =>
      intro a
      rw [zeroFill, List.replicate_succ, writeBytes]
      exact congrArg _ (funext fun _ => ih (a + 1))
  rw [heq, writeBytes_of_reachable]
  intro i hi
  rw [List.length_replicate] at hi
  rw [Nat.add_assoc]
  exact hout _ (by omega)

omit hout hapart in
theorem buildTree_run (s : State) (a : Arena) : buildTree (s.withNode a) = .ok () (s.withTree a) := rfl

/-- R120-R121: the symbol decode, in a state whose tree was built from `a`. -/
theorem symbolDecode_run {s : State} {a : Arena} {start : Nat} {syms : List Byte} (hcomp : CompAt p c l s)
    (hnode : s.hidden.node = (treeBuild a).1) (hroot : s.hidden.root = (treeBuild a).2) (hcur : s.hidden.hcur = 0)
    (h : ((treeBuild a).2 = none ∧ syms = []) ∨
      ∃ root, (treeBuild a).2 = some root ∧
        refSymbols (treeBuild a).1 root ds (bitsOf (l.drop start)) = some syms) :
    ∃ cur, symbolDecode p c start out ds s =
      .ok syms.length ((s.withMem (s.mem.writeAll out syms)).withCursor cur) := by
  have hself : s = s.withCursor 0 := by rw [State.withCursor, ← hcur]; rfl
  have hread : ∀ f : Option (Fin 513) → Engine Nat,
      ((fun s => .ok s.hidden.root s : Engine (Option (Fin 513))) >>= f) s = f s.hidden.root s := fun f => rfl
  rw [symbolDecode, hread, hroot]
  obtain ⟨hnone, rfl⟩ | ⟨root, hsome, hsyms⟩ := h
  · rw [hnone]
    exact ⟨0, congrArg (EStateM.Result.ok 0) hself⟩
  · rw [hsome]
    obtain ⟨cur, hrun⟩ := symbolLoop_run hout hapart (treeBuild_descends hsome) ds (n := 0) (cur := 0) hcomp hnode
      (by omega) hsyms
    rw [← hself, Nat.zero_add] at hrun
    exact ⟨cur, hrun⟩

/-- R123: the whole phase, from the hidden state START leaves. Memory holds the symbols and then zeros, HUF_OUT their
number; besides these only the warning of R122 and the Huffman part of the hidden state move. -/
theorem huffmanPhase_run {s : State} {syms : List Byte} (hcomp : CompAt p c l s)
    (hnode : s.hidden.node = Hidden.entry.node) (hcur : s.hidden.hcur = 0) (href : refHuffman p l ds = some syms) :
    ∃ cur a root, huffmanPhase p c out ds s = .ok ()
      ((((s.withHidden { s.hidden with hcur := cur, node := a, root := root }).withMem
        (s.mem.writeAll out (padded syms ds))).withStatus
          (if syms.length < ds then s.status.setWarning .hufShort else s.status)).withRegs
            { s.regs with hufOut := BitVec.ofNat 32 syms.length }) := by
  have hlen := refHuffman_length href
  obtain ⟨a, rest, htable, hsyms⟩ := refHuffman_eq_some href
  obtain ⟨start, hparse, rfl⟩ := freqParse_run hcomp hnode htable
  obtain ⟨cur, hdecode⟩ := symbolDecode_run hout hapart (s := s.withTree a) (hcomp.of_mem rfl) rfl rfl hcur hsyms
  refine ⟨cur, (treeBuild a).1, (treeBuild a).2, ?_⟩
  rw [huffmanPhase, Engine.bind_ok hparse, Engine.bind_ok (buildTree_run s a), Engine.bind_ok hdecode,
    Engine.bind_ok (zeroFill_run hout hlen _), Engine.bind_ok (warnIf_run _ _ _), Engine.modifyRegs_run, padded,
    Memory.writeAll_append]
  simp only [decide_eq_true_eq]
  rfl

end
end Sys2Proof.Machine
end

section
/-!
PROOF. How far the DC stream is read (spec/20_memory.md rules R73, spec/43_block_decode.md R160, spec/46_image.md R205):
`ReadsDc` says that a piece of the block pipeline reads a given number of DC bits, or stops in DC_OVERRUN where the
DC-data ends; the reference decoder needs the same number.
-/

namespace Sys2Proof.Machine

/-! ### The engine -/

/-- From a cursor inside the DC-data, the piece reads `k` DC bits, which lie there too, or stops in DC_OVERRUN with the
length of the DC-data; either way the registers stay `r`. -/
def ReadsDc {α : Type} (r : Regs) (dcLen k : Nat) (m : Engine α) : Prop :=
  ∀ s : State, s.regs = r → s.hidden.dcur ≤ 8 * dcLen →
    (∃ a t, m s = .ok a t ∧ t.regs = r ∧ t.hidden.dcur = s.hidden.dcur + k ∧ t.hidden.dcur ≤ 8 * dcLen) ∨
    ∃ t, m s = .error ⟨.dcOverrun, dcLen⟩ t ∧ t.regs = r

section
variable {r : Regs} {dcLen : Nat} {α β : Type}

/-- A piece that leaves the registers and the DC cursor alone. -/
theorem readsDc_of_run {m : Engine α}
    (h : ∀ s : State, s.regs = r → ∃ a t, m s = .ok a t ∧ t.regs = r ∧ t.hidden.dcur = s.hidden.dcur) :
    ReadsDc r dcLen 0 m := by
  intro s hregs hcur
  obtain ⟨a, t, hrun, htregs, htcur⟩ := h s hregs
  exact .inl ⟨a, t, hrun, htregs, htcur, htcur ▸ hcur⟩

theorem readsDc_pure (a : α) : ReadsDc r dcLen 0 (pure a : Engine α) :=
  readsDc_of_run fun s h => ⟨a, s, rfl, h, rfl⟩

theorem readsDc_bind {k k' : Nat} {m : Engine α} {f : α → Engine β} (hm : ReadsDc r dcLen k m)
    (hf : ∀ a, ReadsDc r dcLen k' (f a)) : ReadsDc r dcLen (k + k') (m >>= f) := by
  intro s hregs hcur
  obtain ⟨a, t, hrun, htregs, htcur, htle⟩ | ⟨t, hrun, htregs⟩ := hm s hregs hcur
  · rw [Engine.bind_ok hrun, ← Nat.add_assoc, ← htcur]
    exact hf a t htregs htle
  · exact .inr ⟨t, Engine.bind_error hrun, htregs⟩

/-- In sequence with a piece that reads no DC bit. -/
theorem readsDc_bind_zero {k : Nat} {m : Engine α} {f : α → Engine β} (hm : ReadsDc r dcLen k m)
    (hf : ∀ a, ReadsDc r dcLen 0 (f a)) : ReadsDc r dcLen k (m >>= f) := readsDc_bind hm hf

theorem readsDc_ite {k : Nat} {c : Prop} [Decidable c] {m n : Engine α} (hm : ReadsDc r dcLen k m)
    (hn : ReadsDc r dcLen k n) : ReadsDc r dcLen k (if c then m else n) := by
  split
  · exact hm
  · exact hn

theorem readsDc_warn (w : Warning) : ReadsDc r dcLen 0 (warn w) := readsDc_of_run fun _ h => ⟨_, _, rfl, h, rfl⟩

theorem readsDc_getRegs : ReadsDc r dcLen 0 getRegs := readsDc_of_run fun _ h => ⟨_, _, rfl, h, rfl⟩

theorem readsDc_modifyHidden {f : Hidden → Hidden} (hf : ∀ h, (f h).dcur = h.dcur) :
    ReadsDc r dcLen 0 (modifyHidden f) := readsDc_of_run fun s h => ⟨_, _, rfl, h, hf s.hidden⟩

theorem readsDc_readBits {p : Params} {k : Nat} {next : Engine Bool} (hnext : ReadsDc r dcLen k next) (n : Nat) :
    ∀ t v, ReadsDc r dcLen (n * k) (readBits p next n t v) := by
  induction n with
  | zero => exact fun t v => by rw [Nat.zero_mul]; exact readsDc_pure v
  | succ n ih =>
    exact fun t v => by
      rw [Nat.add_mul, Nat.one_mul, Nat.add_comm]
      exact readsDc_bind hnext fun b => ih _ _

variable {p : Params} {pl : Plan} (hpl : PlanWithin (reachable p · = true) r pl)

theorem readsDc_writeBytes (l : List Byte) {a : Nat} (ha : ∀ i < l.length, reachable p (a + i) = true) :
    ReadsDc r dcLen 0 (writeBytes p a l) :=
  readsDc_of_run fun s h => ⟨_, _, writeBytes_of_reachable p l a s ha, h, rfl⟩

include hpl

theorem readsDc_bitAC : ReadsDc r dcLen 0 (bitAC p pl) := readsDc_of_run fun s h => by
  by_cases hin : s.hidden.acur / 8 < pl.acLen
  · exact ⟨_, _, bitAC_inside hin (h ▸ hpl.ac _ hin), h, rfl⟩
  · exact ⟨_, _, bitAC_past (Nat.le_of_not_lt hin), h, rfl⟩

/-- R73: a DC bit is read inside the DC-data; at its end the byte needed is the first past it. -/
theorem readsDc_bitDC : ReadsDc r pl.dcLen 1 (bitDC p pl) := by
  intro s hregs hcur
  by_cases hin : s.hidden.dcur / 8 < pl.dcLen
  · exact .inl ⟨_, _, bitDC_inside hin (hregs ▸ hpl.dc _ hin), hregs, rfl, show s.hidden.dcur + 1 ≤ _ by omega⟩
  · have hend : s.hidden.dcur / 8 = pl.dcLen := by omega
    exact .inr ⟨s, hend ▸ bitDC_past (Nat.le_of_not_lt hin), hregs⟩

theorem readsDc_acCodeByte : ReadsDc r dcLen 0 (acCodeByte p pl) := readsDc_of_run fun s h => by
  by_cases hin : s.hidden.j < pl.ds
  · exact ⟨_, _, acCodeByte_inside hin (h ▸ hpl.scratch _ hin), h, rfl⟩
  · exact ⟨_, _, acCodeByte_past (Nat.le_of_not_lt hin), h, rfl⟩

theorem readsDc_levelCode (k len : Nat) (zz : Block) : ReadsDc r dcLen 0 (levelCode p pl k len zz) := by
  have hdrop : ReadsDc r dcLen 0 (do warn .posOverflow; pure (zz, none) : Engine (Block × Option Nat)) :=
    readsDc_bind_zero (readsDc_warn _) fun _ => readsDc_pure _
  exact readsDc_ite hdrop <| readsDc_bind_zero (readsDc_readBits (readsDc_bitAC hpl) len _ _) fun _ =>
    readsDc_ite hdrop (readsDc_pure _)

theorem readsDc_acCode (k : Nat) (zz : Block) (b : Byte) : ReadsDc r dcLen 0 (acCode p pl k zz b) :=
  readsDc_ite (readsDc_pure _) <| readsDc_ite (readsDc_pure _) <|
    readsDc_ite (readsDc_bind_zero (readsDc_warn _) fun _ => readsDc_pure _) (readsDc_levelCode hpl _ _ zz)

theorem readsDc_acLoop (n : Nat) : ∀ k zz, ReadsDc r dcLen 0 (acLoop p pl n k zz) := by
  induction n with
  | zero => exact fun k zz => readsDc_pure zz
  | succ n ih =>
    refine fun k zz => readsDc_ite (readsDc_pure zz) <| readsDc_bind_zero (readsDc_acCodeByte hpl) fun b =>
      readsDc_bind_zero (readsDc_acCode hpl k zz b) ?_
    rintro ⟨zz, _ | k⟩
    · exact readsDc_pure zz
    · exact ih k zz

/-- R160, R205: a channel reads the 8 bits of its DC value. -/
theorem readsDc_decodePlane (ch : Channel) : ReadsDc r pl.dcLen 8 (decodePlane p pl ch) :=
  readsDc_bind_zero
    (readsDc_bind_zero (readsDc_readBits (readsDc_bitDC hpl) 8 0 0) fun _ => readsDc_acLoop hpl _ _ _) fun _ =>
    readsDc_bind_zero readsDc_getRegs fun _ =>
      readsDc_bind_zero (readsDc_modifyHidden fun _ => rfl) fun _ => readsDc_pure _

omit hpl in
theorem readsDc_placePixels (fmt : PixelFormat) {place : Nat → Nat} (y cb cr : Block)
    (hplace : ∀ q < 64, ∀ i < bpp fmt, reachable p (place q + i) = true) (n : Nat) :
    ∀ px, px + n ≤ 64 → ReadsDc r dcLen 0 (placePixels p fmt place y cb cr n px) := by
  induction n with
  | zero => exact fun px _ => readsDc_pure ()
  | succ n ih =>
    exact fun px hpx =>
      readsDc_bind_zero (readsDc_writeBytes _ fun i hi => hplace px (by omega) i (by rwa [pixelBytes_length] at hi))
        fun _ => ih (px + 1) (by omega)

/-- R205, R206: a block reads three DC values. -/
theorem readsDc_decodeBlock (fmt : PixelFormat) {place : Nat → Nat}
    (hplace : ∀ q < 64, ∀ i < bpp fmt, reachable p (place q + i) = true) :
    ReadsDc r pl.dcLen 24 (decodeBlock p pl fmt place) :=
  readsDc_bind (k := 8) (readsDc_decodePlane hpl _) fun _ =>
    readsDc_bind (k := 8) (readsDc_decodePlane hpl _) fun _ =>
      readsDc_bind_zero (readsDc_decodePlane hpl _) fun _ => readsDc_placePixels fmt _ _ _ hplace 64 0 (by omega)

theorem readsDc_decodeBlocks (fmt : PixelFormat) {place : Nat → Nat → Nat} (n : Nat) :
    ∀ b, (∀ c < b + n, ∀ q < 64, ∀ i < bpp fmt, reachable p (place c q + i) = true) →
      ReadsDc r pl.dcLen (24 * n) (decodeBlocks p pl fmt place n b) := by
  induction n with
  | zero => exact fun b _ => readsDc_pure ()
  | succ n ih =>
    intro b hplace
    rw [Nat.mul_add, Nat.add_comm]
    exact readsDc_bind (readsDc_decodeBlock hpl fmt (hplace b (by omega))) fun _ =>
      ih (b + 1) fun c hc => hplace c (by omega)

/-- R73: blocks that need more DC values than there are stop in DC_OVERRUN, with the registers as they were. -/
theorem decodeBlocks_dcOverrun (fmt : PixelFormat) {place : Nat → Nat → Nat} {n : Nat} (hshort : pl.dcLen < 3 * n)
    (hplace : ∀ c < n, ∀ q < 64, ∀ i < bpp fmt, reachable p (place c q + i) = true) {s : State} (hregs : s.regs = r)
    (hcur : s.hidden.dcur = 0) :
    ∃ t, decodeBlocks p pl fmt place n 0 s = .error ⟨.dcOverrun, pl.dcLen⟩ t ∧ t.regs = r := by
  obtain ⟨a, t, -, -, hend, hle⟩ | hover :=
    readsDc_decodeBlocks hpl fmt n 0 (by simpa using hplace) s hregs (by omega)
  · omega
  · exact hover

end

/-! ### The reference decoder -/

/-- The answer to streams `t`: none if they hold fewer than `k` DC bits, else one that leaves `k` fewer. -/
def TakesDc {α : Type} (k : Nat) (t : Streams) (o : Option (α × Streams)) : Prop :=
  (o = none ∧ t.dc.length < k) ∨ ∃ a u, o = some (a, u) ∧ t.dc.length = k + u.dc.length

theorem TakesDc.eq_none_iff {α : Type} {k : Nat} {t : Streams} {o : Option (α × Streams)} (h : TakesDc k t o) :
    o = none ↔ t.dc.length < k := by
  obtain ⟨rfl, hlt⟩ | ⟨a, u, rfl, hlen⟩ := h
  · simp [hlt]
  · simp [hlen]

section
variable (p : Params)

/-- R161-R164: AC codes read no DC bit. -/
theorem refCodes_dc (codes : List Byte) :
    ∀ (k : Nat) (zz : Block) (t : Streams), (refCodes p codes k zz t).2.dc = t.dc := by
  induction codes with
  | nil =>
    intro k zz t
    rw [refCodes]
    split <;> rfl
  | cons b codes ih =>
    intro k zz t
    rw [refCodes]
    split
    · rfl
    · dsimp only
      split
      · rfl
      split
      · exact ih _ _ _
      split
      · rfl
      split
      · rfl
      split
      · rfl
      · exact ih _ _ _

theorem refChannel_takesDc (t : Streams) : TakesDc 8 t (refChannel p t) := by
  unfold refChannel
  split
  · next hlt => exact .inl ⟨rfl, hlt⟩
  · next hge =>
    refine .inr ⟨_, _, rfl, ?_⟩
    rw [refCodes_dc]
    simp only [List.length_drop]
    omega

theorem refPlane_takesDc (table : Block) (t : Streams) : TakesDc 8 t (refPlane p table t) := by
  unfold refPlane
  obtain ⟨h, hlt⟩ | ⟨a, u, h, hlen⟩ := refChannel_takesDc p t
  · exact .inl ⟨by rw [h]; rfl, hlt⟩
  · exact .inr ⟨_, u, by rw [h]; rfl, hlen⟩

variable (luma chroma : Block)

theorem refBlock_takesDc (t : Streams) : TakesDc 24 t (refBlock p luma chroma t) := by
  unfold refBlock
  obtain ⟨hy, hlt⟩ | ⟨y, t1, hy, hlen⟩ := refPlane_takesDc p luma t
  · exact .inl ⟨by simp only [hy], by omega⟩
  obtain ⟨hcb, hlt⟩ | ⟨cb, t2, hcb, hlen'⟩ := refPlane_takesDc p chroma t1
  · exact .inl ⟨by simp only [hy, hcb], by omega⟩
  obtain ⟨hcr, hlt⟩ | ⟨cr, t3, hcr, hlen''⟩ := refPlane_takesDc p chroma t2
  · exact .inl ⟨by simp only [hy, hcb, hcr], by omega⟩
  · exact .inr ⟨⟨y, cb, cr⟩, t3, by simp only [hy, hcb, hcr], by omega⟩

theorem refBlocks_takesDc (n : Nat) : ∀ t, TakesDc (24 * n) t (refBlocks p luma chroma n t) := by
  induction n with
  | zero => exact fun t => .inr ⟨[], t, rfl, (Nat.zero_add _).symm⟩
  | succ n ih =>
    intro t
    rw [refBlocks]
    obtain ⟨hb, hlt⟩ | ⟨b, t1, hb, hlen⟩ := refBlock_takesDc p luma chroma t
    · exact .inl ⟨by simp only [hb], by omega⟩
    obtain ⟨hbs, hlt⟩ | ⟨bs, t2, hbs, hlen'⟩ := ih t1
    · exact .inl ⟨by simp only [hb, hbs, Option.map_none], by omega⟩
    · exact .inr ⟨b :: bs, t2, by simp only [hb, hbs, Option.map_some], by omega⟩

end

theorem bitsOf_length (l : List Byte) : (bitsOf l).length = l.length * 8 := length_flatMap_records (by simp) l

theorem Memory.bytes_length (m : Memory) (a n : Nat) : (m.bytes a n).length = n := by simp [Memory.bytes]

/-- R73, R160: the blocks of a payload decode exactly when its DC-data has three bytes for each. -/
theorem image_eq_none_iff (s : State) (pl : Plan) (syms : List Byte) (blocks : Nat) :
    s.image pl syms blocks = none ↔ pl.dcLen < 3 * blocks := by
  rw [State.image, refImage, (refBlocks_takesDc s.cfg _ _ blocks _).eq_none_iff, bitsOf_length, Memory.bytes_length]
  omega

end Sys2Proof.Machine
end

section
/-!
PROOF. DECODE_IMAGE and COMPOSITE on a payload whose symbols decode but whose DC-data is too short (spec/20_memory.md
rules R69-R73, spec/46_image.md R208, spec/47_composite.md R224, spec/60_exceptions.md R252).
-/

namespace Sys2Proof.Machine

/-! ### The pre-checks pass -/

theorem readOffsets_of_reaches (p : Params) (n : Nat) :
    ∀ (a : Nat) (s : State), Reaches p ⟨a, 4 * n⟩ →
      readOffsets p a n s = .ok ((List.range n).map fun b => s.mem.value (a + 4 * b) 4) s := by
  induction n with
  | zero => exact fun a s _ => rfl
  | succ n ih =>
    intro a s h
    have hoffset := memRead_of_reaches p 4 a s fun i hi => h i (by simp only at hi ⊢; omega)
    have hrest := ih (a + 4) s (h.part (off := 4) (n := 4 * n) (by simp only; omega))
    have hshift : (fun b => s.mem.value (a + 4 + 4 * b) 4) = (fun b => s.mem.value (a + 4 * b) 4) ∘ Nat.succ :=
      funext fun b => congrArg (s.mem.value · 4) (by omega)
    rw [readOffsets, Engine.bind_ok hoffset, Engine.bind_ok hrest, Engine.pure_run, List.range_succ_eq_map,
      List.map_cons, List.map_map, hshift]
    rfl

theorem checkOffsets_passes {fmt : PixelFormat} {stride len : Nat} (s : State) (l : List Nat) :
    ∀ i, (∀ o ∈ l, (o + 7 * stride + 8) * bpp fmt ≤ len) → checkOffsets fmt stride len l i s = .ok () s := by
  induction l with
  | nil => exact fun i _ => rfl
  | cons o os ih =>
    intro i h
    obtain ⟨hfit, hrest⟩ := List.forall_mem_cons.mp h
    rw [checkOffsets, faultIf_bind_of_passes (by omega), ih (i + 1) hrest]

section
variable {s : State} {pl : Plan} (h : PayloadReady s pl)
include h

theorem PayloadReady.parse : payloadParse s.cfg s = .ok pl s := by
  obtain ⟨rfl, hfits, -, hreads, -⟩ := h
  have hrun := payloadParse_run (s := s) fun off _ hoff => hreads.part hoff
  have hsize : (payloadAt s.mem s.regs.srcAddr.toNat).size = _ := rfl
  rw [Plan.size] at hsize hfits
  simp only at hrun
  rw [hrun, if_neg (by omega), if_neg (by omega), if_neg (by omega), if_neg (by omega), if_neg (by omega),
    if_neg (by omega), if_neg (by omega)]

theorem PayloadReady.check : payloadCheck s.cfg s = .ok pl s := by
  have hroom := h.room
  rw [payloadCheck, Engine.bind_ok h.parse, Engine.bind_ok (Engine.regVal_run _ s), faultIf_bind_of_passes (by omega)]
  rfl

/-- The streams and the scratch bytes of the payload can all be reached. -/
theorem PayloadReady.within : PlanWithin (reachable s.cfg · = true) s.regs pl := by
  obtain ⟨hplan, -, -, hreads, hscratch⟩ := h
  have hstream : ∀ off len, off + len ≤ pl.size → ∀ i < len,
      reachable s.cfg (s.regs.srcAddr.toNat + off + i) = true := fun off len hoff => hreads.part hoff
  have hplace : pl.compOff = 8 ∧ pl.acOff = 12 + pl.cs ∧ pl.dcOff = 16 + pl.cs + pl.acLen := by
    rw [hplan]
    exact ⟨rfl, rfl, rfl⟩
  obtain ⟨hcomp, hac, hdc⟩ := hplace
  rw [Plan.size] at hstream
  exact ⟨hstream _ _ (by omega), hstream _ _ (by omega), hstream _ _ (by omega), hscratch⟩

theorem decodeImageCheck_passes {fmt : PixelFormat}
    (hgeo : badGeometry s.regs.width.toNat s.regs.height.toNat = false)
    (hapart : Apart [s.regs.dstWindow, s.regs.scrWindow] [s.regs.srcWindow])
    (hdst : s.regs.width.toNat * s.regs.height.toNat * bpp fmt ≤ s.regs.dstLen.toNat) :
    decodeImageCheck s.cfg fmt s =
      .ok { pl with footprint := [⟨s.regs.scrAddr.toNat, pl.ds⟩, imageFootprint fmt s.regs] } s := by
  have hgeo' : faultIf (badGeometry s.regs.width.toNat s.regs.height.toNat) .badGeometry 0 s = .ok () s := by
    rw [hgeo]; rfl
  rw [decodeImageCheck, Engine.bind_ok (Engine.getRegs_run s), Engine.bind_ok hgeo',
    Engine.bind_ok (overlapCheck_of_apart hapart s), faultIf_bind_of_passes (by omega), Engine.bind_ok h.check]
  rfl

theorem compositeCheck_passes {fmt : PixelFormat} (hpos : 0 < s.regs.blockCount.toNat)
    (hgeo : 8 * s.regs.blockCount.toNat ≤ 10000)
    (hapart : Apart [s.regs.dstWindow, s.regs.scrWindow] [s.regs.srcWindow, s.regs.offsWindow])
    (hoffs : Reaches s.cfg s.regs.offsWindow)
    (hfit : ∀ b < s.regs.blockCount.toNat,
      (s.offset b + 7 * s.regs.dstStride.toNat + 8) * bpp fmt ≤ s.regs.dstLen.toNat) :
    let offsets := (List.range s.regs.blockCount.toNat).map s.offset
    compositeCheck s.cfg fmt s =
      .ok { pl with
        footprint := ⟨s.regs.scrAddr.toNat, pl.ds⟩ ::
          scatterWindows fmt s.regs.dstAddr.toNat s.regs.dstStride.toNat offsets
        offsets := offsets } s := by
  intro offsets
  have hread : readOffsets s.cfg s.regs.offsAddr.toNat s.regs.blockCount.toNat s = .ok offsets s :=
    readOffsets_of_reaches s.cfg _ _ s hoffs
  have hall : ∀ o ∈ offsets, (o + 7 * s.regs.dstStride.toNat + 8) * bpp fmt ≤ s.regs.dstLen.toNat := fun o ho => by
    obtain ⟨b, hb, rfl⟩ := List.mem_map.mp ho
    exact hfit b (List.mem_range.mp hb)
  rw [compositeCheck, Engine.bind_ok (Engine.getRegs_run s), if_neg (by omega),
    faultIf_bind_of_passes (by rw [Config.maxDim]; omega), Engine.bind_ok (overlapCheck_of_apart hapart s),
    Engine.bind_ok hread, Engine.bind_ok (checkOffsets_passes s offsets 0 hall), Engine.bind_ok h.check]
  rfl

/-! ### The payload stops where its DC-data ends -/

/-- The compressed bytes of the payload, as the Huffman phase finds them. -/
theorem PayloadReady.compAt : CompAt s.cfg ⟨s.regs.srcAddr.toNat + pl.compOff, pl.cs⟩ (s.comp pl) s where
  length := Memory.bytes_length ..
  reach := h.within.comp
  bytes i hi := by simp [State.comp, Memory.bytes]

theorem decodePayload_dcOverrun {syms : List Byte} (hready : s.Ready)
    (hapart : s.regs.scrWindow.overlaps s.regs.srcWindow = false)
    (hsyms : refHuffman s.cfg (s.comp pl) pl.ds = some syms) (footprint : List Window) (offsets : List Nat)
    (fmt : PixelFormat) {place : Nat → Nat → Nat} {n : Nat} (hshort : pl.dcLen < 3 * n)
    (hplace : ∀ c < n, ∀ q < 64, ∀ i < bpp fmt, reachable s.cfg (place c q + i) = true) :
    ∃ u, decodePayload s.cfg { pl with footprint := footprint, offsets := offsets } fmt place n s =
        .error ⟨.dcOverrun, pl.dcLen⟩ u ∧
      u.regs = { s.tablesBuilt.regs with hufOut := BitVec.ofNat 32 syms.length } := by
  have hbuild : qtBuildTables s.cfg s = .ok () s.tablesBuilt := rfl
  have hwithin := h.within
  have hfits : pl.compOff + pl.cs ≤ s.regs.srcLen.toNat := (payloadParse_layout h.parse).1
  have hroom := h.room
  obtain ⟨cur, a, root, hphase⟩ := huffmanPhase_run (c := ⟨s.regs.srcAddr.toNat + pl.compOff, pl.cs⟩) hwithin.scratch
    (fun i hi j hj => by
      change i < pl.cs at hi
      rw [Nat.add_assoc]
      exact ne_of_not_overlaps hapart (v := s.regs.srcWindow) (show pl.compOff + i < s.regs.srcLen.toNat by omega)
        (show j < s.regs.scrLen.toNat by omega))
    (s := s.tablesBuilt) (h.compAt.of_mem rfl) (congrArg Hidden.node hready.hidden) (congrArg Hidden.hcur hready.hidden)
    hsyms
  rw [decodePayload, Engine.bind_ok (Engine.getRegs_run s), Engine.bind_ok hbuild, Engine.bind_ok hphase]
  refine decodeBlocks_dcOverrun (pl := { pl with footprint := footprint, offsets := offsets }) ?_ fmt hshort hplace
    rfl ?_
  · exact ⟨hwithin.comp, hwithin.ac, hwithin.dc, hwithin.scratch⟩
  · exact congrArg Hidden.dcur hready.hidden

end

/-! ### The command ends in the fault -/

theorem tablesBuilt_built (s : State) : TablesBuilt s s.tablesBuilt := fun i => by
  simp [State.tablesBuilt, finalTable]

/-- R252: what a command leaves that built its tables, decoded `k` symbols and then stopped in a fault. -/
theorem exec_of_decode_fault {i : Instr} {s u : State} {c : FaultCode} {n k : Nat} (hclean : s.interfered = false)
    (hrun : CommandRun i s u (some ⟨c, n⟩))
    (hregs : u.regs = { s.tablesBuilt.regs with hufOut := BitVec.ofNat 32 k }) (hk : k < 2 ^ 32) :
    ∃ t, exec i s = .next t ∧ FaultedWhileRunning s t (footprintOf s.cfg i s) c n ∧ TablesBuilt s t ∧
      t.regs.hufOut.toNat = k := by
  obtain ⟨t, hexec, hend⟩ := exec_of_run hrun
  have htregs : t.regs = { s.tablesBuilt.regs with
      hufOut := BitVec.ofNat 32 k, faultInfo := BitVec.ofNat 32 n } := by
    rw [hend.regs, hregs]
    rfl
  have hstatus := hend.status
  refine ⟨t, hexec, ?_, fun i => ?_, ?_⟩
  · exact
      { hrun.bodyFrame.toCommandFrame.trans hend.commandFrame with
        idle := hend.idle
        busy := hend.busy
        done := hend.done
        err := by rw [hstatus]; rfl
        errcode := by rw [hstatus]; rfl
        faultInfo := by rw [htregs]
        animCur := by rw [htregs]; rfl
        outside := exec_sameOutside_footprint hexec hclean }
  · rw [htregs]
    exact tablesBuilt_built s i
  · rw [htregs]
    exact Nat.mod_eq_of_lt hk

theorem commandCheck_decodeImageOf (p : Params) (fmt : PixelFormat) :
    commandCheck p (decodeImageOf fmt) = decodeImageCheck p fmt := by cases fmt <;> rfl

theorem commandBody_decodeImageOf (p : Params) (fmt : PixelFormat) :
    commandBody p (decodeImageOf fmt) = decodeImageBody p fmt := by cases fmt <;> rfl

theorem commandCheck_compositeOf (p : Params) (fmt : PixelFormat) :
    commandCheck p (compositeOf fmt) = compositeCheck p fmt := by cases fmt <;> rfl

theorem commandBody_compositeOf (p : Params) (fmt : PixelFormat) :
    commandBody p (compositeOf fmt) = compositeBody p fmt := by cases fmt <;> rfl

/-- The number of symbols fits HUF_OUT, since the declared length fits scratch (R208). -/
theorem PayloadReady.count_lt {s : State} {pl : Plan} {syms : List Byte} (h : PayloadReady s pl)
    (hsyms : refHuffman s.cfg (s.comp pl) pl.ds = some syms) : syms.length < 2 ^ 32 :=
  ((refHuffman_length hsyms).trans h.room).trans_lt s.regs.scrLen.isLt

/-- R77: block `c` of the list the pre-checks read. -/
theorem offsets_getD (s : State) {c n : Nat} (hc : c < n) : ((List.range n).map s.offset).getD c 0 = s.offset c := by
  rw [List.getD_eq_getElem _ _ (by simpa using hc)]
  simp

/-- Settles O48: the blocks need three DC bytes each (`image_eq_none_iff`), the engine stops at the end of the DC-data
(`decodePayload_dcOverrun`), and the command records that (`exec_of_decode_fault`). -/
theorem shortDcDataFaults : Obligations.ShortDcDataFaults := by
  constructor
  · intro fmt s pl syms w h hready hgeo hapart hdst hpl hreach hsyms
    refine ⟨image_eq_none_iff s pl syms _, fun hshort => ?_⟩
    have hcheck := decodeImageCheck_passes hpl hgeo hapart hdst
    have hfoot := footprintOf_of_check ((congrFun (commandCheck_decodeImageOf s.cfg fmt) s).trans hcheck)
    have hlap : s.regs.scrWindow.overlaps s.regs.srcWindow = false := hapart.2 _ (by simp) _ (by simp)
    obtain ⟨u, hbody, hregs⟩ := decodePayload_dcOverrun hpl hready hlap hsyms
      [⟨s.regs.scrAddr.toNat, pl.ds⟩, imageFootprint fmt s.regs] pl.offsets fmt hshort
      (place := rasterAddr fmt s.regs.dstAddr.toNat w) fun c hc q hq i hi => by
        rw [rasterAddr, Nat.add_assoc]
        exact hreach _ (pixel_bytes_lt (raster_in_image hgeo hc hq) hi)
    rw [← decodeImageBody_run] at hbody
    rw [← commandCheck_decodeImageOf] at hcheck
    rw [← commandBody_decodeImageOf] at hbody
    have hresult := exec_of_decode_fault hready.interfered (.stopped hcheck hbody) hregs (hpl.count_lt hsyms)
    rwa [hfoot] at hresult
  · intro fmt s pl syms n place hready hpos hgeo hapart hoffs hfit hpl hreach hsyms
    refine ⟨image_eq_none_iff s pl syms n, fun hshort => ?_⟩
    have hcheck := compositeCheck_passes hpl hpos hgeo hapart hoffs hfit
    have hfoot := footprintOf_of_check ((congrFun (commandCheck_compositeOf s.cfg fmt) s).trans hcheck)
    have hlap : s.regs.scrWindow.overlaps s.regs.srcWindow = false := hapart.2 _ (by simp) _ (by simp)
    obtain ⟨u, hbody, hregs⟩ := decodePayload_dcOverrun hpl hready hlap hsyms
      (⟨s.regs.scrAddr.toNat, pl.ds⟩ ::
        scatterWindows fmt s.regs.dstAddr.toNat s.regs.dstStride.toNat ((List.range n).map s.offset))
      ((List.range n).map s.offset) fmt hshort
      (place := fun b px => scatterAddr fmt s.regs.dstAddr.toNat s.regs.dstStride.toNat
        (((List.range n).map s.offset).getD b 0) px) fun c hc q hq i hi => by
        rw [offsets_getD s hc]
        exact hreach c hc q hq i hi
    have hrun := (compositeBody_run (plan := _) fmt (by omega)).trans
      (Engine.bind_error (f := fun _ => advanceCursor) hbody)
    rw [← commandCheck_compositeOf] at hcheck
    rw [← commandBody_compositeOf] at hrun
    have hresult := exec_of_decode_fault hready.interfered (.stopped hcheck hrun) hregs (hpl.count_lt hsyms)
    rwa [hfoot] at hresult

end Sys2Proof.Machine
end

section
/-!
PROOF. Command words (spec/30_encoding.md rules R90-R94): a word and its fields determine each other, and what the
decoder answers fits the fields, a command only on the fields it is encoded with and a defect only where the fields
have it.
-/

namespace Sys2Proof

/-! ### A word and its fields -/

section
variable (w : Word)

theorem fieldsOf_opc_toNat : (fieldsOf w).opc.toNat = w.toNat % 256 := by simp [fieldsOf]

theorem fieldsOf_fmt_toNat : (fieldsOf w).fmt.toNat = w.toNat / 256 % 4 := by
  simp [fieldsOf, Nat.shiftRight_eq_div_pow]

theorem fieldsOf_chan_toNat : (fieldsOf w).chan.toNat = w.toNat / 1024 % 2 := by
  simp [fieldsOf, Nat.shiftRight_eq_div_pow]

theorem fieldsOf_rsv_toNat : (fieldsOf w).rsv.toNat = w.toNat / 2048 := by
  have := w.isLt
  simp only [fieldsOf, BitVec.extractLsb'_toNat, Nat.shiftRight_eq_div_pow]
  omega

end

/-- The number of the word made of two parts, the high one written first. -/
theorem append_toNat {m n : Nat} (x : BitVec m) (y : BitVec n) : (x ++ y).toNat = x.toNat * 2 ^ n + y.toNat := by
  rw [BitVec.toNat_append, ← Nat.shiftLeft_add_eq_or_of_lt y.isLt, Nat.shiftLeft_eq]

/-- R90: the four fields are the whole word. -/
theorem wordOf_fieldsOf (w : Word) : wordOf (fieldsOf w) = w := by
  apply BitVec.eq_of_toNat_eq
  rw [wordOf, append_toNat, append_toNat, append_toNat, fieldsOf_opc_toNat, fieldsOf_fmt_toNat, fieldsOf_chan_toNat,
    fieldsOf_rsv_toNat]
  omega

/-! ### Defects -/

namespace CommandFields

section
variable (f : CommandFields)

@[simp] theorem reservedBits_mem_defects : .reservedBits ∈ f.defects ↔ f.rsv ≠ 0 := by simp [defects]

@[simp] theorem reservedOpcode_mem_defects : .reservedOpcode ∈ f.defects ↔ 7 < f.opc.toNat := by
  simp [defects, BitVec.le_def]

/-- R91, by the number of the opcode. -/
theorem usesFormat_iff : f.usesFormat = true ↔ 5 ≤ f.opc.toNat ∧ f.opc.toNat ≤ 7 := by
  simp only [usesFormat, Bool.or_eq_true, beq_iff_eq, BitVec.toNat_eq, BitVec.ofNat_eq_ofNat, BitVec.toNat_ofNat]
  omega

theorem usesChannel_iff : f.usesChannel = true ↔ f.opc.toNat = 3 := by
  simp [usesChannel, BitVec.toNat_eq]

@[simp] theorem reservedFormat_mem_defects :
    .reservedFormat ∈ f.defects ↔ (5 ≤ f.opc.toNat ∧ f.opc.toNat ≤ 7) ∧ f.fmt = 3 := by
  rw [← usesFormat_iff]
  simp [defects]

@[simp] theorem unusedFormat_mem_defects :
    .unusedFormat ∈ f.defects ↔ ¬(5 ≤ f.opc.toNat ∧ f.opc.toNat ≤ 7) ∧ f.fmt ≠ 0 := by
  rw [← usesFormat_iff]
  simp [defects]

@[simp] theorem unusedChannel_mem_defects : .unusedChannel ∈ f.defects ↔ f.opc.toNat ≠ 3 ∧ f.chan ≠ 0 := by
  rw [Ne, ← usesChannel_iff]
  simp [defects]

/-- A word is legal when it has none of the five defects. -/
theorem wellFormed_iff :
    f.WellFormed ↔
      .reservedBits ∉ f.defects ∧ .reservedOpcode ∉ f.defects ∧ .reservedFormat ∉ f.defects ∧
        .unusedFormat ∉ f.defects ∧ .unusedChannel ∉ f.defects := by
  rw [WellFormed, List.eq_nil_iff_forall_not_mem]
  refine ⟨fun h => ⟨h _, h _, h _, h _, h _⟩, ?_⟩
  rintro ⟨hbits, hopcode, hformat, hunused, hchannel⟩ (_ | _ | _ | _ | _) <;> assumption

end

end CommandFields

/-- R92, R93: the reserved words are those whose fields have a defect. -/
theorem reservedWord_iff (w : Word) : Machine.ReservedWord w ↔ ¬(fieldsOf w).WellFormed := by
  rw [CommandFields.wellFormed_iff]
  simp only [CommandFields.reservedBits_mem_defects, CommandFields.reservedOpcode_mem_defects,
    CommandFields.reservedFormat_mem_defects, CommandFields.unusedFormat_mem_defects,
    CommandFields.unusedChannel_mem_defects, ne_eq, BitVec.toNat_eq, fieldsOf_opc_toNat, fieldsOf_fmt_toNat,
    fieldsOf_chan_toNat, fieldsOf_rsv_toNat, BitVec.ofNat_eq_ofNat, BitVec.toNat_ofNat, Machine.ReservedWord]
  omega

/-! ### What the decoder answers -/

/-- The value of FMT that names a format (R90). -/
def PixelFormat.code : PixelFormat → BitVec 2
  | .rgb24 => 0
  | .rgb565 => 1
  | .argb32 => 2

theorem formatOf_eq_some {b : BitVec 2} {p : PixelFormat} (h : formatOf b = some p) : b = p.code := by
  revert b p
  decide

theorem formatOf_eq_none {b : BitVec 2} (h : formatOf b = none) : b = 3 := by
  revert b
  decide

/-- What an answer of the decoder says of the fields it was given: that they are the command's own (R94), or that they
have the defect it names (R93). -/
def Decoded.Fits (f : CommandFields) : Decoded → Prop
  | .command i => f = encodeFields i
  | .illegal d => d ∈ f.defects

section
variable {f : CommandFields} {o : BitVec 8}

theorem fits_command {i : Instr} {b : BitVec 2} {c : BitVec 1} (hi : encodeFields i = ⟨o, b, c, 0⟩)
    (hopc : f.opc.toNat = o.toNat) (hfmt : f.fmt = b) (hchan : f.chan = c) (hrsv : f.rsv = 0) :
    (Decoded.command i).Fits f := by
  obtain rfl := BitVec.eq_of_toNat_eq hopc
  subst hfmt hchan
  rw [Decoded.Fits, hi, ← hrsv]

theorem fits_unusedFormat (hopc : f.opc.toNat < 5) (hfmt : f.fmt ≠ 0) : (Decoded.illegal .unusedFormat).Fits f :=
  f.unusedFormat_mem_defects.mpr ⟨by omega, hfmt⟩

theorem fits_unusedChannel (hopc : f.opc.toNat ≠ 3) (hchan : f.chan ≠ 0) : (Decoded.illegal .unusedChannel).Fits f :=
  f.unusedChannel_mem_defects.mpr ⟨hopc, hchan⟩

theorem decodePlain_fits {i : Instr} (hi : encodeFields i = ⟨o, 0, 0, 0⟩) (hopc : f.opc.toNat = o.toNat)
    (hrsv : f.rsv = 0) (hlow : f.opc.toNat < 5) (hdequant : f.opc.toNat ≠ 3) : (decodePlain f i).Fits f := by
  unfold decodePlain
  split
  · next hfmt => exact fits_unusedFormat hlow hfmt
  · next hfmt =>
    split
    · next hchan => exact fits_unusedChannel hdequant hchan
    · next hchan => exact fits_command hi hopc (not_not.mp hfmt) (not_not.mp hchan) hrsv

theorem decodeDequant_fits (hopc : f.opc.toNat = 3) (hrsv : f.rsv = 0) : (decodeDequant f).Fits f := by
  unfold decodeDequant
  split
  · next hfmt => exact fits_unusedFormat (by omega) hfmt
  · next hfmt =>
    split
    · next hchan => exact fits_command rfl hopc (not_not.mp hfmt) hchan hrsv
    · next hchan =>
      have hone : f.chan = 1 := (BitVec.eq_zero_or_eq_one f.chan).resolve_left hchan
      exact fits_command rfl hopc (not_not.mp hfmt) hone hrsv

theorem decodeFormatted_fits {k : PixelFormat → Instr} (hk : ∀ p, encodeFields (k p) = ⟨o, p.code, 0, 0⟩)
    (hopc : f.opc.toNat = o.toNat) (hrsv : f.rsv = 0) (hlo : 5 ≤ f.opc.toNat) (hhi : f.opc.toNat ≤ 7) :
    (decodeFormatted f k).Fits f := by
  unfold decodeFormatted
  split
  · next hfmt => exact f.reservedFormat_mem_defects.mpr ⟨⟨hlo, hhi⟩, formatOf_eq_none hfmt⟩
  · next p hfmt =>
    split
    · next hchan => exact fits_unusedChannel (by omega) hchan
    · next hchan => exact fits_command (hk p) hopc (formatOf_eq_some hfmt) (not_not.mp hchan) hrsv

/-- R92: the decoder's answer fits, branch by branch. -/
theorem decodeFields_fits (f : CommandFields) : (decodeFields f).Fits f := by
  unfold decodeFields
  split
  · next hrsv => exact f.reservedBits_mem_defects.mpr hrsv
  · next hrsv =>
    replace hrsv := not_not.mp hrsv
    split
    · next hopc => exact decodePlain_fits rfl hopc hrsv (by omega) (by omega)
    · next hopc => exact decodePlain_fits rfl hopc hrsv (by omega) (by omega)
    · next hopc => exact decodePlain_fits rfl hopc hrsv (by omega) (by omega)
    · next hopc => exact decodeDequant_fits hopc hrsv
    · next hopc => exact decodePlain_fits rfl hopc hrsv (by omega) (by omega)
    · next hopc => exact decodeFormatted_fits (o := 5) (by rintro ⟨⟩ <;> rfl) hopc hrsv (by omega) (by omega)
    · next hopc => exact decodeFormatted_fits (o := 6) (by rintro ⟨⟩ <;> rfl) hopc hrsv (by omega) (by omega)
    · next hopc => exact decodeFormatted_fits (o := 7) (by rintro ⟨⟩ <;> rfl) hopc hrsv (by omega) (by omega)
    · refine f.reservedOpcode_mem_defects.mpr ?_
      simp only [imp_false] at *
      omega

end

/-! ### Decode and encode -/

/-- What the laws of the single commands say, for all of them. -/
theorem encodedLegal : ∀ i, Laws.EncodedLegal.Statement i
  | .nop => Laws.EncodedLegal.nop
  | .qtBuild => Laws.EncodedLegal.qtBuild
  | .hufDecode => Laws.EncodedLegal.hufDecode
  | .dequantBlockL => Laws.EncodedLegal.dequantBlockL
  | .dequantBlockC => Laws.EncodedLegal.dequantBlockC
  | .idctBlock => Laws.EncodedLegal.idctBlock
  | .colorBlockRgb24 => Laws.EncodedLegal.colorBlockRgb24
  | .colorBlockRgb565 => Laws.EncodedLegal.colorBlockRgb565
  | .colorBlockArgb32 => Laws.EncodedLegal.colorBlockArgb32
  | .decodeImageRgb24 => Laws.EncodedLegal.decodeImageRgb24
  | .decodeImageRgb565 => Laws.EncodedLegal.decodeImageRgb565
  | .decodeImageArgb32 => Laws.EncodedLegal.decodeImageArgb32
  | .compositeRgb24 => Laws.EncodedLegal.compositeRgb24
  | .compositeRgb565 => Laws.EncodedLegal.compositeRgb565
  | .compositeArgb32 => Laws.EncodedLegal.compositeArgb32

theorem Instr.wellFormed (i : Instr) : i.WellFormed := (encodedLegal i).1

theorem decode_encode (i : Instr) : decode (encode i) = .command i := (encodedLegal i).2

theorem fieldsOf_of_decode_command {w : Word} {i : Instr} (h : decode w = .command i) :
    fieldsOf w = encodeFields i := by
  have hfits := decodeFields_fits (fieldsOf w)
  rwa [← decode, h] at hfits

/-- A rejected word has the defect it is rejected with. -/
theorem mem_defects_of_decode_illegal {w : Word} {d : Defect} (h : decode w = .illegal d) :
    d ∈ (fieldsOf w).defects := by
  have hfits := decodeFields_fits (fieldsOf w)
  rwa [← decode, h] at hfits

theorem decode_eq_command_iff {w : Word} {i : Instr} : decode w = .command i ↔ w = encode i := by
  refine ⟨fun h => ?_, fun h => h ▸ decode_encode i⟩
  rw [encode, ← fieldsOf_of_decode_command h, wordOf_fieldsOf]

/-- Settles O1: the decoder accepts only the fields a command is encoded with, and the fields make up the word. -/
theorem decodeReadsExactlyTheEncodedWords : Obligations.DecodeReadsExactlyTheEncodedWords :=
  ⟨Instr.wellFormed, fun _ _ => decode_eq_command_iff, by decide⟩

/-- Settles O2: each word is the encoding of its command. -/
theorem writtenWordsDecode : Obligations.WrittenWordsDecode :=
  ⟨decode_encode .nop, decode_encode .qtBuild, decode_encode .hufDecode, decode_encode .dequantBlockC,
    decode_encode .idctBlock, decode_encode .colorBlockRgb565, decode_encode .decodeImageArgb32,
    decode_encode .compositeRgb565⟩

/-- R92: a word that is not reserved is a command's. -/
theorem exists_command_of_not_reserved {w : Word} (h : ¬Machine.ReservedWord w) : ∃ i, decode w = .command i := by
  rw [reservedWord_iff, not_not] at h
  cases hd : decode w with
  | command i => exact ⟨i, rfl⟩
  | illegal d => exact absurd (h ▸ mem_defects_of_decode_illegal hd) List.not_mem_nil

/-- R93: a reserved word is rejected, with a defect it has. -/
theorem exists_defect_of_reserved {w : Word} (h : Machine.ReservedWord w) :
    ∃ d ∈ (fieldsOf w).defects, decode w = .illegal d := by
  rw [reservedWord_iff] at h
  cases hd : decode w with
  | command i => exact absurd (fieldsOf_of_decode_command hd ▸ i.wellFormed) h
  | illegal d => exact ⟨d, mem_defects_of_decode_illegal hd, rfl⟩

end Sys2Proof
end

section
/-!
PROOF. The run of a reserved command word (spec/30_encoding.md rules R92, R93): it ends at once in ILLEGAL_CMD.
-/

namespace Sys2Proof.Machine

/-- R252: a fault taken right away changes nothing but the fault record and the end of the command. -/
theorem faultedBeforeWriting_takeFault (f : CmdFault) (s : State) :
    FaultedBeforeWriting s (takeFault f s) f.code f.info where
  cfg := rfl
  irqEn := rfl
  resetHeld := rfl
  inputs := rfl
  portData := rfl
  memData := rfl
  haz := rfl
  operands := rfl
  idle := rfl
  busy := rfl
  done := rfl
  err := rfl
  errcode := rfl
  faultInfo := rfl
  warnings w := by cases w <;> rfl
  hufOut := rfl
  animCur := rfl
  tables := ⟨rfl, rfl⟩
  mem := rfl

theorem engineTurn_of_runIllegal {s : State} (h : s.phase = .runIllegal) :
    engineTurn s = .next (illegalCommand s.cfg s) := by
  rw [engineTurn, h]

/-- R92: with no interference to settle, the run of a reserved word is its fault. -/
theorem illegalCommand_eq {p : Params} {s : State} (h : s.interfered = false) :
    illegalCommand p s = takeFault ⟨.illegalCmd, s.regs.cmd.toNat⟩ s := settle_clean h

/-- R30, R92: the step after START on a rejected word. -/
theorem step_withFetchWord_illegal (s : State) (n : Nat) {w : Word} {d : Defect} (h : decode w = .illegal d) :
    step (s.withFetchWord n w.toNat) =
      .next (takeFault ⟨.illegalCmd, w.toNat⟩ ((s.withFetchWord n w.toNat).withInputs s.inputs)) := by
  have hin : (s.withFetchWord n w.toNat).inputs = .engineTurn :: s.inputs := rfl
  have hcmd : (s.withFetchWord n w.toNat).regs.cmd = w := BitVec.ofNat_toNat 32 w
  have hphase : ((s.withFetchWord n w.toNat).withInputs s.inputs).phase = .runIllegal :=
    (congrArg phaseOf hcmd).trans (phaseOf_illegal h)
  rw [step_engineTurn hin, engineTurn_of_runIllegal hphase, illegalCommand_eq rfl, State.withInputs_regs, hcmd]

/-- Settles O3: a word is reserved exactly when its fields have a defect, a rejected one names a defect they have, and
its run is the fault alone. -/
theorem reservedWordsRaiseIllegalCmd : Obligations.ReservedWordsRaiseIllegalCmd := by
  refine fun s w => ⟨exists_command_of_not_reserved, fun h => ?_⟩
  obtain ⟨d, hmem, hd⟩ := exists_defect_of_reserved h
  exact ⟨⟨d, hmem, hd⟩, rfl, _, step_withFetchWord_illegal s 32 hd, faultedBeforeWriting_takeFault _ _⟩

end Sys2Proof.Machine
end

section
/-!
PROOF. The clean launch (spec/70_reset_and_hazards.md rules R280, R293): reset gives one, and so does the
acknowledgement of an idle block (spec/30_encoding.md rule R97).
-/

namespace Sys2Proof.Machine

theorem reset_windows_empty : ∀ w ∈ Regs.reset.windows, w.len = 0 := by decide

/-- After reset no address lies in a window the registers name (R280). -/
theorem not_inWindows_reset (a : Nat) : ¬inWindows Regs.reset.windows a := by
  rintro ⟨w, hw, ha⟩
  rw [Window.holds_iff, reset_windows_empty w hw] at ha
  omega

/-- R280: reset gives a clean launch, whatever the block was doing and whatever moves are pending. -/
theorem softReset_cleanLaunch (p : Params) (s : State) : (softReset p s).CleanLaunch where
  busy := rfl
  done := rfl
  err := rfl
  haz := rfl
  quiet w := by cases w <;> rfl
  idle := rfl
  noWrite a _ _ := not_inWindows_reset a.toNat

theorem State.CleanLaunch.withResetHeld {s : State} (h : s.CleanLaunch) (b : Bool) :
    (s.withResetHeld b).CleanLaunch := { h with }

/-- R43, R97: ACK clears DONE, ERR, HAZ and every warning. -/
theorem State.Inv.ack_cleanLaunch {s : State} (h : s.Inv) (hbusy : s.status.busy = false)
    (hquiet : NoWriteTo s.regs.windows s.inputs) :
    (s.withStatus (s.status.clearedBy 0x001F000E)).CleanLaunch where
  busy := hbusy
  done := by simp
  err := by simp
  haz := by simp
  quiet w := by cases w <;> simp [Warning.bit]
  idle := h.idle_of_not_busy hbusy
  noWrite := hquiet

/-- Settles O20: both forms of reset are the soft reset, and a block that is not BUSY is idle, so that ACK clears what
is left. -/
theorem acknowledgedBlockIsClean : Obligations.AcknowledgedBlockIsClean := by
  refine ⟨State.reset_cleanLaunch, fun s t rest hreset hstep => ?_, fun s rest hinv hbusy hack hquiet => ?_⟩
  · obtain ⟨b, hnext, -⟩ := step_of_reset hreset
    obtain rfl := Host.Outcome.next.inj (hnext.symm.trans hstep)
    exact (softReset_cleanLaunch s.cfg (s.withInputs rest)).withResetHeld b
  · exact ⟨_, hack.step_eq, (hinv.withInputs rest).ack_cleanLaunch hbusy hquiet⟩

end Sys2Proof.Machine
end

section
/-!
PROOF. The pre-checks of the stage commands and of HUF_DECODE, in their order (spec/60_exceptions.md rules R251-R254).
-/

namespace Sys2Proof.Machine

/-- R252: a command whose pre-checks raise a fault, with no interference of the host, changes nothing else. -/
theorem exec_of_check_fault {i : Instr} {s : State} {c : FaultCode} {n : Nat} (hclean : s.interfered = false)
    (h : commandCheck s.cfg i s = .error ⟨c, n⟩ s) : ∃ t, exec i s = .next t ∧ FaultedBeforeWriting s t c n := by
  refine ⟨takeFault ⟨c, n⟩ s, ?_, faultedBeforeWriting_takeFault ⟨c, n⟩ s⟩
  rw [exec_eq_perform, perform, h]
  exact congrArg _ (settle_clean hclean)

theorem faultIf_bind_of_fails {α : Type} {b : Prop} [Decidable b] (h : b) {c : FaultCode} {n : Nat}
    (f : Unit → Engine α) (s : State) : (faultIf (decide b) c n >>= f) s = .error ⟨c, n⟩ s :=
  Engine.bind_error (by rw [Engine.faultIf_run, if_pos (by simpa using h)])

theorem overlapCheck_of_overlap {a b : Window} (h : a.overlaps b = true) (s : State) :
    overlapCheck [a] [b] s = .error ⟨.overlap, 0⟩ s := by
  classical
  rw [overlapCheck_run, if_neg]
  rintro ⟨-, hapart⟩
  simp [hapart a (by simp) b (by simp)] at h

/-- What a check in R253 order answers, for each of the three faults of a stage command that reads `n` bytes and writes
`k`. -/
structure StageChecks (check : Engine Plan) (s : State) (n k : Nat) : Prop where
  overlap : s.regs.dstWindow.overlaps s.regs.srcWindow = true → check s = .error ⟨.overlap, 0⟩ s
  src : s.regs.dstWindow.overlaps s.regs.srcWindow = false → s.regs.srcLen.toNat < n →
    check s = .error ⟨.srcOverrun, 0⟩ s
  dst : s.regs.dstWindow.overlaps s.regs.srcWindow = false → n ≤ s.regs.srcLen.toNat → s.regs.dstLen.toNat < k →
    check s = .error ⟨.dstOverrun, 0⟩ s

/-- The pre-checks of a stage command that reads `n` bytes and writes `k`: overlap, then the read window, then the write
window. -/
theorem stageChecks_of_shape (n k : Nat) (plan : Regs → Plan) (s : State) :
    StageChecks (do
      let r ← getRegs
      overlapCheck [r.dstWindow] [r.srcWindow]
      faultIf (decide (r.srcLen.toNat < n)) .srcOverrun 0
      faultIf (decide (r.dstLen.toNat < k)) .dstOverrun 0
      pure (plan r)) s n k where
  overlap h := by rw [Engine.bind_ok (Engine.getRegs_run s), Engine.bind_error (overlapCheck_of_overlap h s)]
  src h hsrc := by
    rw [Engine.bind_ok (Engine.getRegs_run s), Engine.bind_ok (overlapCheck_of_apart (apart_singletons h) s),
      faultIf_bind_of_fails hsrc]
  dst h hsrc hdst := by
    rw [Engine.bind_ok (Engine.getRegs_run s), Engine.bind_ok (overlapCheck_of_apart (apart_singletons h) s),
      faultIf_bind_of_passes (by omega), faultIf_bind_of_fails hdst]

theorem hufDecodeCheck_of_overlap {s : State} (h : s.regs.dstWindow.overlaps s.regs.srcWindow = true) :
    hufDecodeCheck s = .error ⟨.overlap, 0⟩ s := by
  rw [hufDecodeCheck, Engine.bind_ok (Engine.getRegs_run s), Engine.bind_error (overlapCheck_of_overlap h s)]

theorem hufDecodeCheck_of_short {s : State} (h : s.regs.dstWindow.overlaps s.regs.srcWindow = false)
    (hdst : s.regs.dstLen.toNat < s.regs.hufLen.toNat) : hufDecodeCheck s = .error ⟨.dstOverrun, 0⟩ s := by
  rw [hufDecodeCheck, Engine.bind_ok (Engine.getRegs_run s),
    Engine.bind_ok (overlapCheck_of_apart (apart_singletons h) s), faultIf_bind_of_fails hdst]

/-- R253: the check of each stage command, with the bytes it reads and writes. -/
theorem stageChecks_of_mem (s : State) :
    ∀ c ∈ [(Instr.dequantBlockL, 256, 256), (.dequantBlockC, 256, 256), (.idctBlock, 256, 256),
      (.colorBlockRgb24, 768, 192), (.colorBlockRgb565, 768, 128), (.colorBlockArgb32, 768, 256)],
      StageChecks (commandCheck s.cfg c.1) s c.2.1 c.2.2 := by
  have hblock : StageChecks blockStageCheck s 256 256 := stageChecks_of_shape 256 256 _ s
  have hcolor : ∀ fmt, StageChecks (colorBlockCheck fmt) s 768 (64 * bpp fmt) := fun fmt =>
    stageChecks_of_shape 768 (64 * bpp fmt) _ s
  simp only [List.forall_mem_cons]
  exact ⟨hblock, hblock, hblock, hcolor .rgb24, hcolor .rgb565, hcolor .argb32,
    fun c hc => absurd hc List.not_mem_nil⟩

/-- Settles O53: the checks raise the fault of the first condition that holds, and a pre-check's fault is all that a
command leaves. -/
theorem stageCommandsCheckInOrder : Obligations.StageCommandsCheckInOrder := by
  refine fun s hclean => ⟨fun c hc => ?_, fun h => exec_of_check_fault hclean (hufDecodeCheck_of_overlap h),
    fun h hdst => exec_of_check_fault hclean (hufDecodeCheck_of_short h hdst)⟩
  have hchecks := stageChecks_of_mem s c hc
  exact ⟨fun h => exec_of_check_fault hclean (hchecks.overlap h),
    fun h hsrc => exec_of_check_fault hclean (hchecks.src h hsrc),
    fun h hsrc hdst => exec_of_check_fault hclean (hchecks.dst h hsrc hdst)⟩

end Sys2Proof.Machine
end

section
/-!
PROOF. The reference decoder reads codes back (spec/41_huffman.md rules R119, R121).
-/

namespace Sys2Proof.Machine

/-- R121: the walk along a code of the tree ends at the code's leaf, with the bits after the code left. -/
theorem refCode_of_codeOf {a : Arena} (code : List Bool) :
    ∀ {n leaf : Fin 513} (tail : List Bool), CodeOf a n code leaf → refCode a (code ++ tail) n = some (leaf, tail) := by
  induction code with
  | nil =>
    rintro n leaf tail ⟨rfl, hleaf⟩
    exact refCode_leaf hleaf tail
  | cons b bs ih =>
    rintro n leaf tail ⟨hinner, hrest⟩
    rw [List.cons_append, refCode, if_neg (by omega)]
    exact ih tail hrest

theorem refSymbols_of_codeOf {a : Arena} {root leaf : Fin 513} {code : List Bool} (h : CodeOf a root code leaf)
    (hsym : leaf.val ≠ 256) (n : Nat) (rest : List Bool) :
    refSymbols a root (n + 1) (code ++ rest) = (refSymbols a root n rest).map (BitVec.ofNat 8 leaf.val :: ·) := by
  simp only [refSymbols, refCode_of_codeOf code rest h, if_neg hsym]

theorem refSymbols_of_sentinel {a : Arena} {root : Fin 513} {code : List Bool} (h : CodeOf a root code 256) (n : Nat)
    (rest : List Bool) : refSymbols a root (n + 1) (code ++ rest) = some [] := by
  simp only [refSymbols, refCode_of_codeOf code rest h]
  rfl

/-- The codes of byte symbols decode to the symbols in front of whatever the bits after them decode to. -/
theorem refSymbols_of_codes {a : Arena} {root : Fin 513} (codes : List (List Bool × Fin 513)) (n : Nat)
    (rest : List Bool) (h : ∀ c ∈ codes, CodeOf a root c.1 c.2 ∧ c.2.val < 256) :
    refSymbols a root (codes.length + n) (codes.flatMap Prod.fst ++ rest) =
      (refSymbols a root n rest).map ((codes.map fun c => BitVec.ofNat 8 c.2.val) ++ ·) := by
  induction codes with
  | nil => simp
  | cons c codes ih =>
    obtain ⟨⟨hcode, hbyte⟩, hrest⟩ := List.forall_mem_cons.mp h
    rw [List.length_cons, Nat.add_right_comm, List.flatMap_cons, List.append_assoc,
      refSymbols_of_codeOf hcode (by omega), ih hrest, Option.map_map]
    rfl

/-- Settles O34: after the codes of the symbols the decoder stops, at the declared length or at the sentinel. -/
theorem codesDecodeToTheirSymbols : Obligations.CodesDecodeToTheirSymbols := by
  refine fun a root codes tail h => ⟨?_, fun ds last hds hlast => ?_⟩
  · rw [← Nat.add_zero codes.length, refSymbols_of_codes codes 0 tail h]
    simp [refSymbols]
  · obtain ⟨n, rfl⟩ := Nat.exists_eq_add_of_lt hds
    rw [Nat.add_assoc, refSymbols_of_codes codes (n + 1) _ h, refSymbols_of_sentinel hlast]
    simp

end Sys2Proof.Machine
end

section
/-!
PROOF. The selection of a merge (spec/41_huffman.md rule R117): `leastActive` answers the first of the active slots in
the order of frequency, then index.
-/

namespace Sys2Proof.Machine

/-- R117: the order of the slots: by frequency, then by index. -/
def SlotLe (x y : Nat × Word) : Prop := x.2.toNat < y.2.toNat ∨ (x.2 = y.2 ∧ x.1 ≤ y.1)

theorem SlotLe.refl (x : Nat × Word) : SlotLe x x := .inr ⟨rfl, le_rfl⟩

theorem slotLe_iff (x y : Nat × Word) :
    SlotLe x y ↔ x.2.toNat < y.2.toNat ∨ (x.2.toNat = y.2.toNat ∧ x.1 ≤ y.1) := by
  rw [SlotLe, BitVec.toNat_inj]

theorem SlotLe.trans {x y z : Nat × Word} (h : SlotLe x y) (k : SlotLe y z) : SlotLe x z := by
  rw [slotLe_iff] at *
  omega

theorem SlotLe.antisymm {x y : Nat × Word} (h : SlotLe x y) (k : SlotLe y x) : x = y := by
  rw [slotLe_iff] at h k
  exact Prod.ext (by omega) (BitVec.eq_of_toNat_eq (by omega))

/-- The answer is the first of the slots in `C`, or there is none. -/
def IsFirst (C : Nat × Word → Prop) : Option (Nat × Word) → Prop
  | none => ∀ x, ¬C x
  | some x => C x ∧ ∀ y, C y → SlotLe x y

theorem IsFirst.congr {C D : Nat × Word → Prop} {o : Option (Nat × Word)} (h : IsFirst C o) (hCD : ∀ x, C x ↔ D x) :
    IsFirst D o := by
  rwa [← funext fun x => propext (hCD x)]

/-- A first slot is the only one. -/
theorem IsFirst.eq_some_iff {C : Nat × Word → Prop} {o : Option (Nat × Word)} (h : IsFirst C o) (x : Nat × Word) :
    o = some x ↔ C x ∧ ∀ y, C y → SlotLe x y := by
  cases o with
  | none => simp [h x]
  | some z =>
    obtain ⟨hz, hle⟩ := h
    rw [Option.some.injEq]
    constructor
    · rintro rfl
      exact ⟨hz, hle⟩
    · rintro ⟨hx, hlex⟩
      exact (hle x hx).antisymm (hlex z hz)

theorem IsFirst.eq_none_iff {C : Nat × Word → Prop} {o : Option (Nat × Word)} (h : IsFirst C o) :
    o = none ↔ ∀ x, ¬C x := by
  cases o with
  | none => exact iff_of_true rfl h
  | some z => simpa using ⟨z.1, z.2, h.1⟩

/-- What the selection keeps of the slot found so far and one more active slot (`leastActive_cons`). -/
def firstOf : Option (Nat × Word) → Nat × Word → Option (Nat × Word)
  | none, x => some x
  | some y, x => if x.2 < y.2 then some x else some y

theorem leastActive_cons (skip : Option Nat) (n : Node) (ns : List Node) (i : Nat) (best : Option (Nat × Word)) :
    leastActive skip (n :: ns) i best =
      leastActive skip ns (i + 1) (if n.freq = 0 || skip == some i then best else firstOf best (i, n.freq)) := by
  cases best <;> rfl

/-- One more slot, of a higher index, becomes the first only with a smaller frequency. -/
theorem IsFirst.insert {C : Nat × Word → Prop} {o : Option (Nat × Word)} (h : IsFirst C o) {i : Nat} (f : Word)
    (hlt : ∀ x, C x → x.1 < i) : IsFirst (fun x => C x ∨ x = (i, f)) (firstOf o (i, f)) := by
  cases o with
  | none => exact ⟨.inr rfl, fun y hy => hy.elim (fun hC => absurd hC (h y)) fun he => he ▸ .refl _⟩
  | some z =>
    obtain ⟨j, g⟩ := z
    obtain ⟨hz, hle⟩ := h
    have hj := hlt _ hz
    rw [firstOf]
    split
    · next hfg =>
      have hless : SlotLe (i, f) (j, g) := .inl hfg
      exact ⟨.inr rfl, fun y hy => hy.elim (fun hC => hless.trans (hle y hC)) fun he => he ▸ .refl _⟩
    · next hfg =>
      have hgf : g.toNat ≤ f.toNat := Nat.le_of_not_lt hfg
      have hless : SlotLe (j, g) (i, f) := (slotLe_iff _ _).mpr (by simp only at hj ⊢; omega)
      exact ⟨.inl hz, fun y hy => hy.elim (hle y) fun he => he ▸ hless⟩

/-- Slot `x` of a list of nodes that starts at index `i` is active, and it is not the one left out (R117). -/
def ActiveIn (skip : Option Nat) (ns : List Node) (i : Nat) (x : Nat × Word) : Prop :=
  ∃ k, x.1 = i + k ∧ ns[k]?.map Node.freq = some x.2 ∧ x.2 ≠ 0 ∧ skip ≠ some x.1

theorem activeIn_nil (skip : Option Nat) (i : Nat) (x : Nat × Word) : ¬ActiveIn skip [] i x := by
  simp [ActiveIn]

theorem activeIn_cons (skip : Option Nat) (n : Node) (ns : List Node) (i : Nat) (x : Nat × Word) :
    ActiveIn skip (n :: ns) i x ↔
      (x = (i, n.freq) ∧ n.freq ≠ 0 ∧ skip ≠ some i) ∨ ActiveIn skip ns (i + 1) x := by
  obtain ⟨j, f⟩ := x
  constructor
  · rintro ⟨_ | k, hj, hf, hne, hskip⟩
    · obtain rfl : j = i := hj
      obtain rfl : n.freq = f := Option.some.inj hf
      exact .inl ⟨rfl, hne, hskip⟩
    · exact .inr ⟨k, by simp only at hj ⊢; omega, hf, hne, hskip⟩
  · rintro (⟨he, hne, hskip⟩ | ⟨k, hj, hf, hne, hskip⟩)
    · obtain ⟨rfl, rfl⟩ := Prod.mk.inj he
      exact ⟨0, rfl, rfl, hne, hskip⟩
    · exact ⟨k + 1, by simp only at hj ⊢; omega, hf, hne, hskip⟩

/-- R117: the selection answers the first of the slots it started from and the active ones it sees. -/
theorem leastActive_isFirst (skip : Option Nat) (ns : List Node) :
    ∀ {i : Nat} {best : Option (Nat × Word)} {C : Nat × Word → Prop}, IsFirst C best → (∀ x, C x → x.1 < i) →
      IsFirst (fun x => C x ∨ ActiveIn skip ns i x) (leastActive skip ns i best) := by
  induction ns with
  | nil => exact fun h _ => h.congr fun x => by simp [activeIn_nil]
  | cons n ns ih =>
    intro i best C h hlt
    rw [leastActive_cons]
    by_cases hout : n.freq = 0 ∨ skip = some i
    · rw [if_pos (by simpa using hout)]
      refine (ih h fun x hx => Nat.lt_succ_of_lt (hlt x hx)).congr fun x => ?_
      have hn : ¬(x = (i, n.freq) ∧ n.freq ≠ 0 ∧ skip ≠ some i) := by tauto
      rw [activeIn_cons, or_iff_right hn]
    · rw [if_neg (by simpa using hout)]
      obtain ⟨hne, hskip⟩ := not_or.mp hout
      have hnext : ∀ x, C x ∨ x = (i, n.freq) → x.1 < i + 1 := by
        rintro x (hx | rfl)
        · exact Nat.lt_succ_of_lt (hlt x hx)
        · exact Nat.lt_succ_self i
      refine (ih (h.insert n.freq hlt) hnext).congr fun x => ?_
      rw [activeIn_cons, or_assoc, and_iff_left ⟨hne, hskip⟩]

/-- R117: with nothing selected before, the first of the active slots. -/
theorem leastActive_first (skip : Option Nat) (ns : List Node) :
    IsFirst (ActiveIn skip ns 0) (leastActive skip ns 0 none) :=
  (leastActive_isFirst (C := fun _ => False) skip ns (fun _ => id) (fun _ => False.elim)).congr fun x => by simp

theorem activeIn_zero (skip : Option Nat) (ns : List Node) (i : Nat) (f : Word) :
    ActiveIn skip ns 0 (i, f) ↔ ns[i]?.map Node.freq = some f ∧ f ≠ 0 ∧ skip ≠ some i := by
  simp [ActiveIn]

/-- Settles O32: the answer is the first active slot, and the first of an order is unique. -/
theorem leastActiveIsLeast : Obligations.LeastActiveIsLeast := by
  intro nodes skip active
  have hfirst := leastActive_first skip nodes
  have hactive : ∀ i f, ActiveIn skip nodes 0 (i, f) ↔ active i f := activeIn_zero skip nodes
  refine ⟨fun i f => ?_, ?_⟩
  · rw [hfirst.eq_some_iff, hactive, Prod.forall]
    simp only [hactive]
    rfl
  · rw [hfirst.eq_none_iff, Prod.forall]
    simp only [hactive]

end Sys2Proof.Machine
end

section
/-!
PROOF. The arena's updates and the merges of TreeBuild (spec/41_huffman.md rules R115, R117): what each update leaves in
each slot, when a merge happens and what it writes, and which slot is the root.
-/

namespace Sys2Proof.Machine

/-! ### Updates of the arena -/

theorem setFreq_getElem (a : Arena) (s i : Fin 513) (f : Word) :
    (setFreq a s.val f)[i.val] = if i = s then { a[s.val] with freq := f } else a[i.val] := by
  rw [setFreq, Vector.getElem_setIfInBounds i.isLt]
  simp only [Fin.val_inj, eq_comm (a := s), Vector.getElem?_eq_getElem s.isLt, Option.getD_some]

theorem clearFreqs_getElem (p : Params) (a : Arena) (i : Fin 513) :
    (clearFreqs p a)[i.val] =
      if i.val < 256 then { a[i.val] with freq := 0 }
      else if i.val = 256 then { a[i.val] with freq := p.hufSentinelFreq.zeroExtend 32 }
      else a[i.val] := by
  simp [clearFreqs]

/-! ### The slots a merge takes -/

/-- A slot as the selection answers it: its index and its frequency. -/
def slotOf (a : Arena) (i : Fin 513) : Nat × Word := (i.val, a[i.val].freq)

/-- Slot `i` is active below `next`, and it is not the one left out (R117). -/
def Active (a : Arena) (next : Nat) (skip : Option (Fin 513)) (i : Fin 513) : Prop :=
  i.val < next ∧ a[i.val].freq ≠ 0 ∧ skip ≠ some i

theorem activeIn_arena (a : Arena) (next : Nat) (skip : Option (Fin 513)) (x : Nat × Word) :
    ActiveIn (skip.map Fin.val) (a.toList.take next) 0 x ↔ ∃ i, Active a next skip i ∧ x = slotOf a i := by
  obtain ⟨j, f⟩ := x
  rw [activeIn_zero]
  constructor
  · rintro ⟨hf, hne, hskip⟩
    obtain ⟨n, hn, rfl⟩ := Option.map_eq_some_iff.mp hf
    obtain ⟨hj, rfl⟩ := List.getElem?_eq_some_iff.mp hn
    simp only [List.length_take, Vector.length_toList] at hj
    simp only [List.getElem_take, Vector.getElem_toList] at hne
    refine ⟨⟨j, by omega⟩, ⟨by simp only; omega, hne, ?_⟩, by simp [slotOf]⟩
    rintro rfl
    exact hskip rfl
  · rintro ⟨i, ⟨hlt, hne, hskip⟩, he⟩
    obtain ⟨rfl, rfl⟩ := Prod.mk.inj he
    refine ⟨?_, hne, fun h => hskip ?_⟩
    · simp [hlt]
    · obtain ⟨k, rfl, hk⟩ := Option.map_eq_some_iff.mp h
      rw [Fin.ext hk]

theorem leastSlot_iff (a : Arena) (next : Nat) (skip : Option (Fin 513)) (i : Fin 513) :
    LeastSlot a next skip i ↔ Active a next skip i ∧ ∀ j, Active a next skip j → SlotLe (slotOf a i) (slotOf a j) := by
  simp only [LeastSlot, Active, SlotLe, slotOf, Fin.le_def, and_assoc, and_imp]

/-- R117: the selection in an arena answers its least slot. -/
theorem leastActive_eq_some_iff (a : Arena) (next : Nat) (skip : Option (Fin 513)) (x : Nat × Word) :
    leastActive (skip.map Fin.val) (a.toList.take next) 0 none = some x ↔
      ∃ i, LeastSlot a next skip i ∧ x = slotOf a i := by
  rw [(leastActive_first _ _).eq_some_iff]
  simp only [activeIn_arena, leastSlot_iff]
  constructor
  · rintro ⟨⟨i, hi, rfl⟩, hle⟩
    exact ⟨i, ⟨hi, fun j hj => hle _ ⟨j, hj, rfl⟩⟩, rfl⟩
  · rintro ⟨i, ⟨hi, hle⟩, rfl⟩
    refine ⟨⟨i, hi, rfl⟩, ?_⟩
    rintro y ⟨j, hj, rfl⟩
    exact hle j hj

theorem mergePair_eq_some_iff (a : Arena) (next : Nat) (lr : (Nat × Word) × (Nat × Word)) :
    mergePair a next = some lr ↔
      ∃ l r, LeastSlot a next none l ∧ LeastSlot a next (some l) r ∧ lr = (slotOf a l, slotOf a r) := by
  have hfirst := leastActive_eq_some_iff a next none
  have hsecond := fun l => leastActive_eq_some_iff a next (some l)
  simp only [Option.map_none, Option.map_some] at hfirst hsecond
  constructor
  · intro h
    unfold mergePair at h
    split at h
    · exact absurd h (by simp)
    · next x hx =>
      obtain ⟨l, hl, rfl⟩ := (hfirst x).mp hx
      split at h
      · exact absurd h (by simp)
      · next y hy =>
        obtain ⟨r, hr, rfl⟩ := (hsecond l y).mp hy
        exact ⟨l, r, hl, hr, (Option.some.inj h).symm⟩
  · rintro ⟨l, r, hl, hr, rfl⟩
    have hx := (hfirst _).mpr ⟨l, hl, rfl⟩
    have hy : leastActive (some (slotOf a l).1) (a.toList.take next) 0 none = some (slotOf a r) :=
      (hsecond l _).mpr ⟨r, hr, rfl⟩
    simp only [mergePair, hx, hy]

theorem mergePair_eq_none_iff (a : Arena) (next : Nat) :
    mergePair a next = none ↔ ¬∃ l r, LeastSlot a next none l ∧ LeastSlot a next (some l) r := by
  simp only [Option.eq_none_iff_forall_ne_some, ne_eq, mergePair_eq_some_iff]
  constructor
  · rintro h ⟨l, r, hl, hr⟩
    exact h _ ⟨l, r, hl, hr, rfl⟩
  · rintro h _ ⟨l, r, hl, hr, -⟩
    exact h ⟨l, r, hl, hr⟩

/-! ### One merge -/

/-- R117: the arena after one merge, slot by slot. -/
theorem mergeInto_getElem (a : Arena) {next l r : Fin 513} (hl : l < next) (hr : r < next) (k : Fin 513) :
    (mergeInto a next.val (slotOf a l) (slotOf a r))[k.val] =
      if k = next then ⟨a[l.val].freq + a[r.val].freq, l, r⟩
      else if k = l ∨ k = r then { a[k.val] with freq := 0 }
      else a[k.val] := by
  have hnew : ∀ i : Fin 513, (a.setIfInBounds next.val ⟨a[l.val].freq + a[r.val].freq, l, r⟩)[i.val] =
      if i = next then ⟨a[l.val].freq + a[r.val].freq, l, r⟩ else a[i.val] := fun i => by
    rw [Vector.getElem_setIfInBounds i.isLt]
    simp only [Fin.val_inj, eq_comm]
  simp only [mergeInto, slotOf, Fin.ofNat_eq_cast, Fin.cast_val_eq_self, setFreq_getElem, hnew]
  by_cases hk : k = next
  · rw [if_neg (by omega), if_neg (by omega), if_pos hk, if_pos hk]
  · by_cases hkr : k = r
    · subst hkr
      by_cases hkl : k = l <;> simp [hk, hkl, hl.ne]
    · by_cases hkl : k = l
      · subst hkl
        simp [hk, hkr]
      · simp [hk, hkr, hkl]

theorem mergeLoop_of_none {a : Arena} {next : Nat} (h : mergePair a next = none) (room : Nat) :
    mergeLoop room a next = (a, next) := by
  cases room with
  | zero => rfl
  | succ room => rw [mergeLoop, h]

theorem mergeLoop_of_some {a : Arena} {next : Nat} {l r : Nat × Word} (h : mergePair a next = some (l, r))
    (room : Nat) : mergeLoop (room + 1) a next = mergeLoop room (mergeInto a next l r) (next + 1) := by
  rw [mergeLoop, h]

/-- R117: the merges go on from each other. -/
theorem mergeLoop_succ_of_one {a b : Arena} {next : Nat} (h : mergeLoop 1 a next = (b, next + 1)) (room : Nat) :
    mergeLoop (room + 1) a next = mergeLoop room b (next + 1) := by
  cases hpair : mergePair a next with
  | none =>
    rw [mergeLoop_of_none hpair] at h
    exact absurd (Prod.mk.inj h).2 (by omega)
  | some lr =>
    obtain ⟨l, r⟩ := lr
    rw [mergeLoop_of_some hpair] at h ⊢
    rw [(Prod.mk.inj h).1]

/-! ### The root -/

theorem mergeLoop_256_le (a : Arena) : (mergeLoop 256 a 257).2 ≤ 513 :=
  (mergeLoop_descends 256 (by omega) fun n hn hlt => by omega).2

theorem treeBuild_root_of_merged {a : Arena} (h : 257 < (mergeLoop 256 a 257).2) :
    (treeBuild a).2.map Fin.val = some ((mergeLoop 256 a 257).2 - 1) := by
  have hle := mergeLoop_256_le a
  simp only [treeBuild, if_pos h, Option.map_some, Fin.val_ofNat]
  rw [Nat.mod_eq_of_lt (by omega)]

theorem treeBuild_root_of_not_merged {a : Arena} (h : (mergeLoop 256 a 257).2 = 257) (i : Fin 513) :
    (treeBuild a).2 = some i ↔ LeastSlot (mergeLoop 256 a 257).1 257 none i := by
  have hfirst := leastActive_eq_some_iff (mergeLoop 256 a 257).1 257 none
  rw [Option.map_none] at hfirst
  simp only [treeBuild, h, lt_self_iff_false, if_false, Option.map_eq_some_iff, hfirst]
  constructor
  · rintro ⟨_, ⟨j, hj, rfl⟩, rfl⟩
    simpa [slotOf] using hj
  · exact fun hi => ⟨_, ⟨i, hi, rfl⟩, by simp [slotOf]⟩

/-- Settles O59: the updates slot by slot, a merge exactly where two slots are active, and the last slot merged as the
root. -/
theorem mergesFollowTheRule : Obligations.MergesFollowTheRule := by
  refine ⟨setFreq_getElem, fun p a i => ?_, fun a next l r hl hr => ?_, fun a next h room => ?_,
    fun room a b next h => mergeLoop_succ_of_one h room,
    fun a => ⟨rfl, treeBuild_root_of_merged, treeBuild_root_of_not_merged⟩⟩
  · rw [clearFreqs_getElem]
    refine ⟨fun h => if_pos h, fun h => ?_, fun h => ?_⟩
    · rw [if_neg (by omega), if_pos h]
      exact ⟨BitVec.toNat_setWidth_of_le (by omega), rfl, rfl⟩
    · rw [if_neg (by omega), if_neg (by omega)]
  · have hget := mergeInto_getElem a hl.1 hr.1
    have hpair := (mergePair_eq_some_iff a next.val _).mpr ⟨l, r, hl, hr, rfl⟩
    refine ⟨_, mergeLoop_of_some hpair 0, ?_, ?_, ?_, fun k hnext hkl hkr => ?_⟩
    · rw [hget, if_pos rfl]
    · rw [hget, if_neg (Fin.ne_of_lt hl.1), if_pos (.inl rfl)]
    · rw [hget, if_neg (Fin.ne_of_lt hr.1), if_pos (.inr rfl)]
    · rw [hget, if_neg hnext, if_neg (not_or.mpr ⟨hkl, hkr⟩)]
  · exact mergeLoop_of_none ((mergePair_eq_none_iff a next.val).mpr h) room

end Sys2Proof.Machine
end

section
/-!
PROOF. The tree gives each used symbol one code (spec/41_huffman.md rules R117-R119). While the merges go on, the active
slots are the roots of a forest (`Forest`): every used symbol is a leaf of exactly one of its trees. When no two slots
are active any more, one tree is left, and its root is the root.
-/

namespace Sys2Proof.Machine

/-! ### Weights -/

/-- The frequency of a slot as the selection sees it: a slot from `next` on has none. -/
def live (a : Arena) (next : Nat) (i : Fin 513) : Word := if i.val < next then a[i.val].freq else 0

theorem active_iff_live (a : Arena) (next : Nat) (i : Fin 513) : Active a next none i ↔ live a next i ≠ 0 := by
  simp [Active, live]

/-- The sum of a measure of the frequencies. -/
def total (g : Word → Nat) (a : Arena) (next : Nat) : Nat := ∑ i, g (live a next i)

/-- The measure that counts the active slots. -/
def oneIfActive (f : Word) : Nat := if f = 0 then 0 else 1

theorem sum_update_add (f : Fin 513 → Nat) (i : Fin 513) (v : Nat) :
    Finset.univ.sum (Function.update f i v) + f i = Finset.univ.sum f + v := by
  rw [Finset.sum_update_of_mem (Finset.mem_univ i), ← Finset.add_sum_erase _ f (Finset.mem_univ i),
    Finset.sdiff_singleton_eq_erase]
  omega

theorem total_le_of_leaves {g : Word → Nat} (hg : g 0 = 0) {a : Arena} {c : Nat}
    (h : ∀ i : Fin 513, i.val ≤ 256 → g a[i.val].freq ≤ c) : total g a 257 ≤ 257 * c := by
  calc total g a 257 ≤ ∑ i : Fin 513, if i.val < 257 then c else 0 := by
        refine Finset.sum_le_sum fun i _ => ?_
        unfold live
        split
        · exact h i (by omega)
        · exact hg.le
    _ = 257 * c := by simp [← Finset.sum_filter, Fin.card_filter_val_lt]

/-- Two slots weigh no more than all. -/
theorem live_add_live_le (g : Word → Nat) (a : Arena) (next : Nat) {i j : Fin 513} (h : i ≠ j) :
    g (live a next i) + g (live a next j) ≤ total g a next := by
  have hle := Finset.add_le_sum (s := Finset.univ) (f := fun k => g (live a next k)) (fun _ _ => Nat.zero_le _)
    (Finset.mem_univ i) (Finset.mem_univ j) h
  exact hle

/-! ### One merge -/

section
variable {a : Arena} {next l r : Fin 513} (hl : LeastSlot a next.val none l) (hr : LeastSlot a next.val (some l) r)
include hl hr

theorem live_mergeInto :
    live (mergeInto a next.val (slotOf a l) (slotOf a r)) (next.val + 1) =
      Function.update (Function.update (Function.update (live a next.val) next (a[l.val].freq + a[r.val].freq)) l 0)
        r 0 := by
  funext i
  have hlt : i.val < next.val + 1 ↔ i = next ∨ i.val < next.val := by omega
  have hlne : l ≠ next := Fin.ne_of_lt hl.1
  have hrne : r ≠ next := Fin.ne_of_lt hr.1
  simp only [live, mergeInto_getElem a hl.1 hr.1, hlt, Function.update_apply]
  by_cases hir : i = r
  · subst hir
    simp [hrne]
  · by_cases hil : i = l
    · subst hil
      simp [hlne]
    · by_cases hin : i = next
      · subst hin
        simp [hir, hil]
      · simp [hir, hil, hin]

/-- R117: a merge takes two weights away and puts their sum in. -/
theorem total_mergeInto {g : Word → Nat} (hg : g 0 = 0) :
    total g (mergeInto a next.val (slotOf a l) (slotOf a r)) (next.val + 1) + g a[l.val].freq + g a[r.val].freq =
      total g a next.val + g (a[l.val].freq + a[r.val].freq) := by
  have hlr : r ≠ l := fun h => hr.2.2.1 (by rw [h])
  have hlne : l ≠ next := Fin.ne_of_lt hl.1
  have hrne : r ≠ next := Fin.ne_of_lt hr.1
  have hcomp : ∀ (f : Fin 513 → Word) i v, (fun j => g (Function.update f i v j)) =
      Function.update (fun j => g (f j)) i (g v) := fun f i v => Function.comp_update g f i v
  have hnone : live a next.val next = 0 := if_neg (lt_irrefl _)
  have hlive : ∀ i : Fin 513, i.val < next.val → live a next.val i = a[i.val].freq := fun i h => if_pos h
  unfold total
  rw [live_mergeInto hl hr]
  have h1 := sum_update_add (fun j => g (live a next.val j)) next (g (a[l.val].freq + a[r.val].freq))
  have h2 := sum_update_add (Function.update (fun j => g (live a next.val j)) next
    (g (a[l.val].freq + a[r.val].freq))) l (g 0)
  have h3 := sum_update_add (Function.update (Function.update (fun j => g (live a next.val j)) next
    (g (a[l.val].freq + a[r.val].freq))) l (g 0)) r (g 0)
  rw [Function.update_of_ne hlr, Function.update_of_ne hrne, hlive r hr.1] at h3
  rw [Function.update_of_ne hlne, hlive l hl.1] at h2
  simp only [hcomp]
  rw [hnone] at h1
  omega

theorem active_mergeInto (hsum : a[l.val].freq + a[r.val].freq ≠ 0) (i : Fin 513) :
    Active (mergeInto a next.val (slotOf a l) (slotOf a r)) (next.val + 1) none i ↔
      i = next ∨ (i ≠ l ∧ i ≠ r ∧ Active a next.val none i) := by
  have hlne : next ≠ l := Fin.ne_of_gt hl.1
  have hrne : next ≠ r := Fin.ne_of_gt hr.1
  simp only [active_iff_live, live_mergeInto hl hr, Function.update_apply]
  by_cases hin : i = next
  · subst hin
    simpa [hlne, hrne] using hsum
  · simp only [hin, false_or]
    by_cases hir : i = r
    · simp [hir]
    · by_cases hil : i = l <;> simp [hir, hil]

omit hl hr in
/-- A merge leaves the codes from the slots below `next` as they were. -/
theorem codeOf_mergeInto_of_lt (hdesc : DescendsBelow a next.val) (code : List Bool) :
    ∀ {n leaf : Fin 513}, n < next →
      (CodeOf (mergeInto a next.val (slotOf a l) (slotOf a r)) n code leaf ↔ CodeOf a n code leaf) := by
  induction code with
  | nil => exact fun _ => Iff.rfl
  | cons b bs ih =>
    intro n leaf hn
    obtain ⟨h0, h1⟩ := mergeInto_children_other a (slotOf a l) (slotOf a r) (Fin.val_ne_of_ne hn.ne)
    rw [CodeOf, CodeOf, h0, h1]
    refine and_congr_right fun hinner => ih ?_
    obtain ⟨hc0, hc1⟩ := hdesc n hinner hn
    split
    · exact hc1.trans hn
    · exact hc0.trans hn

/-- The codes from the new slot are those from the two slots merged, each after one more choice (R119). -/
theorem codeOf_mergeInto_next (hdesc : DescendsBelow a next.val) (hinner : 256 < next.val) (code : List Bool)
    (leaf : Fin 513) :
    CodeOf (mergeInto a next.val (slotOf a l) (slotOf a r)) next code leaf ↔
      ∃ b bs, code = b :: bs ∧ CodeOf a (if b then r else l) bs leaf := by
  have hchild : ∀ b : Bool, (if b then r else l) < next := fun b => by split; exacts [hr.1, hl.1]
  cases code with
  | nil => simp only [CodeOf, reduceCtorEq, false_and, exists_false, iff_false]; omega
  | cons b bs =>
    rw [CodeOf, mergeInto_getElem a hl.1 hr.1, if_pos rfl, and_iff_right hinner,
      codeOf_mergeInto_of_lt hdesc bs (hchild b)]
    simp

end

/-! ### The forest -/

/-- Leaf `leaf` stands in the tree of the active slot `n`, at the end of `code`. -/
def Owns (a : Arena) (next : Nat) (n : Fin 513) (code : List Bool) (leaf : Fin 513) : Prop :=
  Active a next none n ∧ CodeOf a n code leaf

/-- A symbol, or the sentinel, that a frequency table uses (R118). -/
def Used (a : Arena) (leaf : Fin 513) : Prop := leaf.val ≤ 256 ∧ a[leaf.val].freq ≠ 0

/-- What holds while the merges go on from the arena `a₀` of a frequency table: the weights do not overflow, the merges
made and the slots still active are at most 257, and the leaves of the active slots' trees are the used symbols, each
in one place. -/
structure Forest (a₀ a : Arena) (next : Nat) : Prop where
  lo : 257 ≤ next
  hi : next ≤ 513
  descends : DescendsBelow a next
  weight : total BitVec.toNat a next ≤ 257 * 255
  count : total oneIfActive a next + next ≤ 514
  newest : ∀ n : Fin 513, 257 ≤ n.val → n.val + 1 = next → Active a next none n
  grown : ∀ n, Active a next none n → ∃ code leaf, Owns a next n code leaf
  covers : ∀ leaf, Used a₀ leaf → ∃ n code, Owns a next n code leaf
  used : ∀ n code leaf, Owns a next n code leaf → Used a₀ leaf
  unique : ∀ n n' code code' leaf, Owns a next n code leaf → Owns a next n' code' leaf → n = n' ∧ code = code'
  depth : ∀ n code leaf, Owns a next n code leaf → code.length + 257 ≤ next

/-- Before the first merge every used symbol is a tree of its own. -/
theorem owns_start {a : Arena} {n leaf : Fin 513} {code : List Bool} :
    Owns a 257 n code leaf ↔ leaf = n ∧ code = [] ∧ Used a leaf := by
  cases code with
  | nil =>
    simp only [Owns, Active, CodeOf, Used, ne_eq, reduceCtorEq, not_false_eq_true, and_true, true_and]
    constructor
    · rintro ⟨⟨-, hne⟩, rfl, hleaf⟩
      exact ⟨rfl, hleaf, hne⟩
    · rintro ⟨rfl, hleaf, hne⟩
      exact ⟨⟨by omega, hne⟩, rfl, hleaf⟩
  | cons b bs =>
    simp only [reduceCtorEq, false_and, and_false, iff_false]
    rintro ⟨⟨hlt, -⟩, hinner, -⟩
    omega

theorem forest_start {a : Arena} (h : ∀ i : Fin 513, i.val ≤ 256 → a[i.val].freq.toNat ≤ 255) : Forest a a 257 where
  lo := le_rfl
  hi := by omega
  descends n hn hlt := by omega
  weight := total_le_of_leaves rfl h
  count := by
    have := total_le_of_leaves (g := oneIfActive) (a := a) (c := 1) rfl fun i _ => by
      unfold oneIfActive; split <;> omega
    omega
  newest n hn hlt := by omega
  grown n hn := ⟨[], n, hn, rfl, by have := hn.1; omega⟩
  covers leaf hused := ⟨leaf, [], owns_start.mpr ⟨rfl, rfl, hused⟩⟩
  used n code leaf h := (owns_start.mp h).2.2
  unique n n' code code' leaf h h' := by
    obtain ⟨rfl, rfl, -⟩ := owns_start.mp h
    obtain ⟨rfl, rfl, -⟩ := owns_start.mp h'
    exact ⟨rfl, rfl⟩
  depth n code leaf h := by
    obtain ⟨-, rfl, -⟩ := owns_start.mp h
    exact le_rfl

/-- Where the end of code `c` from slot `m` stands after a merge of `l` and `r` into `next`. -/
def movedTo (next l r m : Fin 513) (c : List Bool) : Fin 513 × List Bool :=
  if m = l then (next, false :: c) else if m = r then (next, true :: c) else (m, c)

theorem movedTo_length (next l r m : Fin 513) (c : List Bool) : (movedTo next l r m c).2.length ≤ c.length + 1 := by
  unfold movedTo
  split
  · exact le_rfl
  · split
    · exact le_rfl
    · exact Nat.le_succ _

section
variable {a₀ a : Arena} {next l r : Fin 513} (h : Forest a₀ a next.val) (hl : LeastSlot a next.val none l)
  (hr : LeastSlot a next.val (some l) r)
include h hl hr

/-- The weights of two active slots add up without overflow, so the slot made of them is active. -/
theorem Forest.toNat_merged :
    (a[l.val].freq + a[r.val].freq).toNat = a[l.val].freq.toNat + a[r.val].freq.toNat := by
  have hlr : l ≠ r := fun heq => hr.2.2.1 (by rw [heq])
  have hle := live_add_live_le BitVec.toNat a next.val hlr
  rw [live, if_pos hl.1, live, if_pos hr.1] at hle
  have hweight := h.weight
  rw [BitVec.toNat_add, Nat.mod_eq_of_lt (by omega)]

theorem Forest.merged_ne_zero : a[l.val].freq + a[r.val].freq ≠ 0 := by
  have hne := hl.2.1
  simp only [ne_eq, ← BitVec.toNat_inj, h.toNat_merged hl hr, BitVec.ofNat_eq_ofNat, BitVec.toNat_ofNat,
    Nat.zero_mod] at hne ⊢
  omega

/-- R119: a merge puts the leaves of the two slots it takes one choice below the new slot, and leaves the others. -/
theorem Forest.owns_merge (n : Fin 513) (code : List Bool) (leaf : Fin 513) :
    Owns (mergeInto a next.val (slotOf a l) (slotOf a r)) (next.val + 1) n code leaf ↔
      ∃ m c, Owns a next.val m c leaf ∧ (n, code) = movedTo next l r m c := by
  have hlo := h.lo
  have hlr : r ≠ l := fun heq => hr.2.2.1 (by rw [heq])
  have hactive := active_mergeInto hl hr (h.merged_ne_zero hl hr)
  have hnext := codeOf_mergeInto_next hl hr h.descends (by omega)
  constructor
  · rintro ⟨hact, hcode⟩
    obtain rfl | ⟨hnl, hnr, hact⟩ := (hactive n).mp hact
    · obtain ⟨_ | _, bs, rfl, hbs⟩ := (hnext code leaf).mp hcode
      · exact ⟨l, bs, ⟨⟨hl.1, hl.2.1, nofun⟩, hbs⟩, (if_pos rfl).symm⟩
      · exact ⟨r, bs, ⟨⟨hr.1, hr.2.1, nofun⟩, hbs⟩, by rw [movedTo, if_neg hlr, if_pos rfl]⟩
    · exact ⟨n, code, ⟨hact, (codeOf_mergeInto_of_lt h.descends code hact.1).mp hcode⟩,
        by rw [movedTo, if_neg hnl, if_neg hnr]⟩
  · rintro ⟨m, c, ⟨hact, hcode⟩, heq⟩
    unfold movedTo at heq
    split at heq
    · next hml =>
      obtain ⟨rfl, rfl⟩ := Prod.mk.inj heq
      exact ⟨(hactive _).mpr (.inl rfl), (hnext _ _).mpr ⟨false, c, rfl, hml ▸ hcode⟩⟩
    · next hml =>
      split at heq
      · next hmr =>
        obtain ⟨rfl, rfl⟩ := Prod.mk.inj heq
        exact ⟨(hactive _).mpr (.inl rfl), (hnext _ _).mpr ⟨true, c, rfl, hmr ▸ hcode⟩⟩
      · next hmr =>
        obtain ⟨rfl, rfl⟩ := Prod.mk.inj heq
        exact ⟨(hactive _).mpr (.inr ⟨hml, hmr, hact⟩), (codeOf_mergeInto_of_lt h.descends _ hact.1).mpr hcode⟩

/-- A merge keeps the forest. -/
theorem Forest.merge : Forest a₀ (mergeInto a next.val (slotOf a l) (slotOf a r)) (next.val + 1) := by
  have howns := h.owns_merge hl hr
  have hsum := h.toNat_merged hl hr
  have hactive := active_mergeInto hl hr (h.merged_ne_zero hl hr)
  have hlr : l ≠ r := fun heq => hr.2.2.1 (by rw [heq])
  have hweight := total_mergeInto hl hr (g := BitVec.toNat) rfl
  have hcount := total_mergeInto hl hr (g := oneIfActive) rfl
  constructor
  case lo => exact Nat.le_succ_of_le h.lo
  case hi => omega
  case descends => exact h.descends.mergeInto hl.1 hr.1
  case weight => have := h.weight; omega
  case count =>
    simp only [oneIfActive, hl.2.1, hr.2.1, h.merged_ne_zero hl hr, if_false] at hcount
    have := h.count
    omega
  case newest => exact fun n _ hn => (hactive n).mpr (.inl (Fin.ext (by omega)))
  case grown =>
    intro n hn
    have hmoved : ∃ m c leaf, Owns a next.val m c leaf ∧ n = (movedTo next l r m c).1 := by
      obtain rfl | ⟨hnl, hnr, hn⟩ := (hactive n).mp hn
      · obtain ⟨c, leaf, ho⟩ := h.grown l ⟨hl.1, hl.2.1, nofun⟩
        exact ⟨l, c, leaf, ho, by rw [movedTo, if_pos rfl]⟩
      · obtain ⟨c, leaf, ho⟩ := h.grown n hn
        exact ⟨n, c, leaf, ho, by rw [movedTo, if_neg hnl, if_neg hnr]⟩
    obtain ⟨m, c, leaf, ho, rfl⟩ := hmoved
    exact ⟨_, leaf, (howns _ _ _).mpr ⟨m, c, ho, rfl⟩⟩
  case covers =>
    intro leaf hused
    obtain ⟨m, c, ho⟩ := h.covers leaf hused
    exact ⟨_, _, (howns _ _ _).mpr ⟨m, c, ho, rfl⟩⟩
  case used =>
    intro n code leaf ho
    obtain ⟨m, c, ho, -⟩ := (howns n code leaf).mp ho
    exact h.used m c leaf ho
  case unique =>
    intro n n' code code' leaf ho ho'
    obtain ⟨m, c, ho, heq⟩ := (howns n code leaf).mp ho
    obtain ⟨m', c', ho', heq'⟩ := (howns n' code' leaf).mp ho'
    obtain ⟨rfl, rfl⟩ := h.unique m m' c c' leaf ho ho'
    exact Prod.mk.inj (heq.trans heq'.symm)
  case depth =>
    intro n code leaf ho
    obtain ⟨m, c, ho, heq⟩ := (howns n code leaf).mp ho
    have hlen := movedTo_length next l r m c
    have hc := h.depth m c leaf ho
    rw [← heq] at hlen
    simp only at hlen
    omega

end

/-! ### The tree -/

/-- R117: no pair to merge means that no two slots are active. -/
theorem eq_of_active_of_no_pair {a : Arena} {next : Nat} (h : mergePair a next = none) {i j : Fin 513}
    (hi : Active a next none i) (hj : Active a next none j) : i = j := by
  have hexists : ∀ {skip k}, Active a next skip k → ∃ n, LeastSlot a next skip n := fun {skip k} hk => by
    by_contra hno
    have hnone : leastActive (skip.map Fin.val) (a.toList.take next) 0 none = none := by
      rw [Option.eq_none_iff_forall_ne_some]
      intro x hx
      obtain ⟨n, hn, -⟩ := (leastActive_eq_some_iff a next skip x).mp hx
      exact hno ⟨n, hn⟩
    exact (leastActive_first _ _).eq_none_iff.mp hnone _ ((activeIn_arena a next skip _).mpr ⟨k, hk, rfl⟩)
  obtain ⟨l, hl⟩ := hexists hi
  have hother : ∀ k, Active a next none k → k = l := fun k hk => by
    by_contra hne
    obtain ⟨r, hr⟩ := hexists (skip := some l) ⟨hk.1, hk.2.1, fun heq => hne (Option.some.inj heq).symm⟩
    exact (mergePair_eq_none_iff a next).mp h ⟨l, r, hl, hr⟩
  rw [hother i hi, hother j hj]

/-- With every internal slot taken, at most one slot is active. -/
theorem Forest.eq_of_active_of_full {a₀ a : Arena} (h : Forest a₀ a 513) {i j : Fin 513} (hi : Active a 513 none i)
    (hj : Active a 513 none j) : i = j := by
  by_contra hne
  have hle := live_add_live_le oneIfActive a 513 hne
  have hcount := h.count
  rw [active_iff_live] at hi hj
  simp only [oneIfActive, hi, hj, if_false] at hle
  omega

/-- R117: the merges keep the forest and go on until at most one slot is active. -/
theorem Forest.mergeLoop {a₀ : Arena} (room : Nat) :
    ∀ {a : Arena} {next : Nat}, next + room = 513 → Forest a₀ a next →
      Forest a₀ (mergeLoop room a next).1 (mergeLoop room a next).2 ∧
        ∀ i j, Active (mergeLoop room a next).1 (mergeLoop room a next).2 none i →
          Active (mergeLoop room a next).1 (mergeLoop room a next).2 none j → i = j := by
  induction room with
  | zero =>
    rintro a _ rfl h
    exact ⟨h, fun i j => h.eq_of_active_of_full⟩
  | succ room ih =>
    intro a next hroom h
    cases hpair : mergePair a next with
    | none =>
      rw [mergeLoop_of_none hpair]
      exact ⟨h, fun i j => eq_of_active_of_no_pair hpair⟩
    | some lr =>
      obtain ⟨l, r, hl, hr, rfl⟩ := (mergePair_eq_some_iff a next lr).mp hpair
      rw [mergeLoop_of_some hpair]
      exact ih (by omega) (Forest.merge (next := ⟨next, by omega⟩) h hl hr)

/-- R117: the root is the one slot left active. -/
theorem treeBuild_forest {a : Arena} (h : ∀ i : Fin 513, i.val ≤ 256 → a[i.val].freq.toNat ≤ 255) :
    ∃ next, Forest a (treeBuild a).1 next ∧ ∀ n, (treeBuild a).2 = some n ↔ Active (treeBuild a).1 next none n := by
  obtain ⟨hforest, hone⟩ := (forest_start h).mergeLoop 256 rfl
  refine ⟨_, hforest, fun n => ?_⟩
  change _ ↔ Active (mergeLoop 256 a 257).1 _ none n
  obtain hnot | hmerged := hforest.lo.eq_or_lt
  · rw [treeBuild_root_of_not_merged hnot.symm, leastSlot_iff, ← hnot]
    rw [← hnot] at hone
    exact ⟨And.left, fun hn => ⟨hn, fun j hj => hone n j hn hj ▸ .refl _⟩⟩
  · have hroot := treeBuild_root_of_merged hmerged
    obtain ⟨root, hsome, hval⟩ := Option.map_eq_some_iff.mp hroot
    have hactive := hforest.newest root (by omega) (by omega)
    rw [hsome, Option.some.injEq]
    constructor
    · rintro rfl
      exact hactive
    · exact hone root n hactive

/-- Settles O33: the root is the one slot the merges leave active (`treeBuild_forest`), and its tree is the forest. -/
theorem everyUsedSymbolHasOneCode : Obligations.EveryUsedSymbolHasOneCode := by
  intro a h
  obtain ⟨next, hforest, hroot⟩ := treeBuild_forest h
  constructor
  · constructor
    · intro hnone i hi
      by_contra hne
      obtain ⟨n, code, hactive, -⟩ := hforest.covers i ⟨hi, hne⟩
      exact absurd (hnone.symm.trans ((hroot n).mpr hactive)) (by simp)
    · intro hzero
      rw [Option.eq_none_iff_forall_ne_some]
      intro n hn
      obtain ⟨code, leaf, howns⟩ := hforest.grown n ((hroot n).mp hn)
      obtain ⟨hleaf, hne⟩ := hforest.used n code leaf howns
      exact hne (hzero leaf hleaf)
  · intro root hsome leaf hleaf
    have hactive := (hroot root).mp hsome
    refine ⟨fun hne => ?_, fun hzero code hcode => ?_, fun c c' hc hc' => ?_, fun c hc => ?_⟩
    · obtain ⟨n, code, hn, hcode⟩ := hforest.covers leaf ⟨hleaf, hne⟩
      obtain rfl := Option.some.inj (hsome.symm.trans ((hroot n).mpr hn))
      exact ⟨code, hcode⟩
    · exact (hforest.used root code leaf ⟨hactive, hcode⟩).2 hzero
    · exact (hforest.unique root root c c' leaf ⟨hactive, hc⟩ ⟨hactive, hc'⟩).2
    · have hdepth := hforest.depth root c leaf ⟨hactive, hc⟩
      have hhi := hforest.hi
      omega

end Sys2Proof.Machine
end

section
/-!
PROOF. HUF_DECODE completes (spec/41_huffman.md rules R115-R124): what the Huffman phase leaves, and the command around
it.
-/

namespace Sys2Proof.Machine

/-! ### A command that comes to its end, or to a fault -/

/-- R32: with no interference of the host, a command whose body finishes leaves what the body left. -/
theorem exec_of_finished {i : Instr} {s u : State} {plan : Plan} (hclean : s.interfered = false)
    (hcheck : commandCheck s.cfg i s = .ok plan s) (hbody : commandBody s.cfg i plan s = .ok () u) :
    exec i s = .next (endCommand u) := by
  have hwrites := commandBody_writesWithin hcheck
  rw [hbody] at hwrites
  rw [exec_eq_perform, perform, hcheck]
  simp only [hbody]
  exact congrArg _ (settle_clean (hwrites.interfered.trans hclean))

theorem endCommand_warned (s : State) (w : Warning) : (endCommand s).status.warned w = s.status.warned w := by
  cases w <;> rfl

theorem CommandRun.finished_endCommand {i : Instr} {s u : State} (h : CommandRun i s u none) :
    Finished s (endCommand u) :=
  have hbody := h.bodyFrame
  { hbody.toCommandFrame.trans
      (show CommandFrame u (endCommand u) from ⟨rfl, rfl, rfl, rfl, rfl, rfl, rfl, rfl⟩) with
    idle := rfl
    busy := rfl
    done := rfl
    err := hbody.err
    errcode := hbody.errcode
    faultInfo := hbody.faultInfo }

/-- R252: what a command leaves that a run-time fault stopped, with no interference of the host. -/
theorem exec_of_stopped {i : Instr} {s u : State} {f : CmdFault} (hclean : s.interfered = false)
    (hrun : CommandRun i s u (some f)) (hcur : u.regs.animCur = s.regs.animCur) :
    ∃ t, exec i s = .next t ∧ FaultedWhileRunning s t (footprintOf s.cfg i s) f.code f.info ∧
      EndsAs u (some f) t := by
  obtain ⟨t, hexec, hend⟩ := exec_of_run hrun
  have hstatus := hend.status
  have hregs := hend.regs
  exact ⟨t, hexec,
    { hrun.bodyFrame.toCommandFrame.trans hend.commandFrame with
      idle := hend.idle
      busy := hend.busy
      done := hend.done
      err := by rw [hstatus]; rfl
      errcode := by rw [hstatus]; rfl
      faultInfo := by rw [hregs]; rfl
      animCur := by rw [hregs]; exact hcur
      outside := exec_sameOutside_footprint hexec hclean }, hend⟩

/-! ### What the Huffman phase leaves -/

theorem padded_length {syms : List Byte} {ds : Nat} (h : syms.length ≤ ds) : (padded syms ds).length = ds := by
  rw [padded, List.length_append, List.length_replicate]
  omega

theorem padded_getElem (syms : List Byte) (ds : Nat) {k : Nat} (hk : k < (padded syms ds).length) :
    (padded syms ds)[k] = syms.getD k 0 := by
  rw [List.getD_eq_getElem?_getD]
  unfold padded at hk ⊢
  by_cases h : k < syms.length
  · simp [List.getElem_append_left h, h]
  · simp [List.getElem_append_right (Nat.le_of_not_lt h), List.getElem?_eq_none (Nat.le_of_not_lt h)]

/-- What the Huffman phase leaves when it ends: the symbols and then zeros in memory, their number in HUF_OUT, and the
warning; the streams of the blocks stand where they stood (R122, R123). -/
structure PhaseDone (s u : State) (out ds : Nat) (syms : List Byte) : Prop where
  cfg : u.cfg = s.cfg
  mem : u.mem = s.mem.writeAll out (padded syms ds)
  regs : u.regs = { s.regs with hufOut := BitVec.ofNat 32 syms.length }
  status : u.status = if syms.length < ds then s.status.setWarning .hufShort else s.status
  acur : u.hidden.acur = s.hidden.acur
  dcur : u.hidden.dcur = s.hidden.dcur
  j : u.hidden.j = s.hidden.j

theorem huffmanPhase_done {p : Params} {c : Comp} {l : List Byte} {out ds : Nat}
    (hout : ∀ i < ds, reachable p (out + i) = true) (hapart : ∀ i < c.len, ∀ j < ds, c.base + i ≠ out + j) {s : State}
    {syms : List Byte} (hcomp : CompAt p c l s) (hhidden : s.hidden = Hidden.entry)
    (href : refHuffman p l ds = some syms) :
    ∃ u, huffmanPhase p c out ds s = .ok () u ∧ PhaseDone s u out ds syms := by
  obtain ⟨cur, a, root, hrun⟩ := huffmanPhase_run hout hapart hcomp (congrArg Hidden.node hhidden)
    (congrArg Hidden.hcur hhidden) href
  exact ⟨_, hrun, rfl, rfl, rfl, rfl, rfl, rfl, rfl⟩

section
variable {s u : State} {out ds : Nat} {syms : List Byte} (h : PhaseDone s u out ds syms)
include h

theorem PhaseDone.warned (w : Warning) :
    u.status.warned w = (s.status.warned w || (decide (syms.length < ds) && decide (w = .hufShort))) := by
  rw [h.status]
  split
  · next hlt => rw [setWarning_warned, decide_eq_true hlt, Bool.true_and]
  · next hge => rw [decide_eq_false hge, Bool.false_and, Bool.or_false]

theorem PhaseDone.read_inside (hwf : s.mem.wf) (hlen : syms.length ≤ ds) {k : Nat} (hk : k < ds) :
    u.mem.read (out + k) = syms.getD k 0 := by
  have hlt : k < (padded syms ds).length := by rwa [padded_length hlen]
  rw [h.mem, Memory.read_writeAll_inside _ out k hlt hwf, padded_getElem]

theorem PhaseDone.read_outside (hlen : syms.length ≤ ds) {b : Nat} (hb : ¬(out ≤ b ∧ b < out + ds)) :
    u.mem.read b = s.mem.read b := by
  rw [h.mem, Memory.read_writeAll_outside _ _ _ _ (by rwa [padded_length hlen])]

theorem PhaseDone.sameTables : SameTables s u := by rw [SameTables, h.regs]; exact ⟨rfl, rfl⟩

theorem PhaseDone.animCur : u.regs.animCur = s.regs.animCur := by rw [h.regs]

/-- R122: what the phase leaves, in any later state that kept the output, HUF_OUT and the warning. -/
theorem PhaseDone.symbolsStored (hwf : s.mem.wf) (hlen : syms.length ≤ ds) (hds : ds < 2 ^ 32) {t : State}
    (hmem : ∀ k < ds, t.mem.read (out + k) = u.mem.read (out + k)) (hcount : t.regs.hufOut = u.regs.hufOut)
    (hshort : t.status.warned .hufShort = u.status.warned .hufShort) : SymbolsStored s t out ds syms where
  bytes k hk := (hmem k hk).trans (h.read_inside hwf hlen hk)
  count := by
    rw [hcount, h.regs]
    exact Nat.mod_eq_of_lt (hlen.trans_lt hds)
  short := by
    have hwarned := hshort.trans (h.warned .hufShort)
    simpa [Status.warned] using hwarned

end

/-! ### HUF_DECODE -/

theorem hufDecodeCheck_passes {s : State} (hapart : Apart [s.regs.dstWindow] [s.regs.srcWindow])
    (hdst : s.regs.hufLen.toNat ≤ s.regs.dstLen.toNat) :
    hufDecodeCheck s = .ok (Plan.of (hufDecodeFootprint s.regs)) s := by
  rw [hufDecodeCheck, Engine.bind_ok (Engine.getRegs_run s), Engine.bind_ok (overlapCheck_of_apart hapart s),
    faultIf_bind_of_passes (by omega)]
  rfl

theorem hufDecodeBody_run (p : Params) (plan : Plan) (s : State) :
    hufDecodeBody p plan s =
      huffmanPhase p ⟨s.regs.srcAddr.toNat, s.regs.srcLen.toNat⟩ s.regs.dstAddr.toNat s.regs.hufLen.toNat s := by
  rw [hufDecodeBody, Engine.bind_ok (Engine.getRegs_run s)]

/-- R115: the compressed bytes of HUF_DECODE are its read window. -/
theorem compAt_srcWindow {s : State} (h : Reaches s.cfg s.regs.srcWindow) :
    CompAt s.cfg ⟨s.regs.srcAddr.toNat, s.regs.srcLen.toNat⟩ (s.mem.bytes s.regs.srcAddr.toNat s.regs.srcLen.toNat)
      s where
  length := Memory.bytes_length ..
  reach := h
  bytes i hi := by simp [Memory.bytes]

/-- Settles O45: the pre-checks pass, the phase ends as the reference decoder says (`huffmanPhase_done`), and ending the
command changes none of what it left. -/
theorem hufDecodeResult : Obligations.HufDecodeResult := by
  intro s syms hready hapart hdst hread hwrite href
  have hlap : s.regs.dstWindow.overlaps s.regs.srcWindow = false := hapart.2 _ (by simp) _ (by simp)
  have hlen := refHuffman_length href
  obtain ⟨u, hphase, hdone⟩ := huffmanPhase_done hwrite
    (fun i hi j hj => ne_of_not_overlaps hlap (v := s.regs.srcWindow) hi (hj.trans_le hdst)) (compAt_srcWindow hread)
    hready.hidden href
  have hcheck := hufDecodeCheck_passes hapart hdst
  rw [← hufDecodeBody_run s.cfg (Plan.of (hufDecodeFootprint s.regs))] at hphase
  have hexec := exec_of_finished (i := .hufDecode) hready.interfered hcheck hphase
  have hrun : CommandRun .hufDecode s u none := .finished hcheck hphase
  refine ⟨_, hexec, hrun.finished_endCommand,
    hdone.symbolsStored hready.mem hlen s.regs.hufLen.isLt (fun _ _ => rfl) rfl rfl, fun w hw => ?_, ?_, ?_,
    exec_sameOutside_footprint hexec hready.interfered⟩
  · rw [endCommand_warned, hdone.warned, decide_eq_false hw, Bool.and_false, Bool.or_false]
  · exact hdone.sameTables
  · exact hdone.animCur

end Sys2Proof.Machine
end

section
/-!
PROOF. The Huffman phase where the compressed bytes run out (spec/41_huffman.md rules R115, R120, spec/60_exceptions.md
R251): where the reference decoder finds no byte or no bit, the engine faults HUF_OVERRUN at the first index past COMP.
-/

namespace Sys2Proof.Machine

/-! ### Pieces that run out -/

theorem memoryOnly_withMem (s : State) (m : Memory) : MemoryOnly s (s.withMem m) := ⟨m, s.hidden, rfl⟩

/-- From `s` the piece stops in HUF_OVERRUN at the first index past the compressed bytes, and nothing changed but memory
and the hidden state. -/
def Overruns {α : Type} (c : Comp) (m : Engine α) (s : State) : Prop :=
  ∃ u, m s = .error ⟨.hufOverrun, c.len⟩ u ∧ MemoryOnly s u

section
variable {α β : Type} {c : Comp} {m : Engine α} {f : α → Engine β} {s t : State}

theorem Overruns.bind (h : Overruns c m s) : Overruns c (m >>= f) s := by
  obtain ⟨u, hrun, hu⟩ := h
  exact ⟨u, Engine.bind_error hrun, hu⟩

/-- A piece that runs out after another that ended. -/
theorem Overruns.after {a : α} (hm : m s = .ok a t) (hst : MemoryOnly s t) (h : Overruns c (f a) t) :
    Overruns c (m >>= f) s := by
  obtain ⟨u, hrun, hu⟩ := h
  exact ⟨u, (Engine.bind_ok hm).trans hrun, hst.trans hu⟩

end

section
variable {p : Params} {c : Comp} {s t : State}

/-- R115 `Byte()`: the byte past the last. -/
theorem compByte_overruns {i : Nat} (h : i = c.len) : Overruns c (compByte p c i) s :=
  ⟨s, by rw [compByte, if_pos h.ge, h]; rfl, .refl s⟩

theorem lt_of_compByte_ok {i : Nat} {b : Byte} (h : compByte p c i s = .ok b t) : i < c.len := by
  by_contra hge
  rw [compByte, if_pos (Nat.le_of_not_lt hge)] at h
  simp at h

/-! ### A piece that ends has not read past the last byte -/

theorem freqRange_le (n : Nat) : ∀ {k pos q : Nat} {s t : State}, pos ≤ c.len → freqRange p c n k pos s = .ok q t →
    q ≤ c.len := by
  induction n with
  | zero =>
    intro k pos q s t hpos h
    rwa [← (EStateM.Result.ok.inj h).1]
  | succ n ih =>
    intro k pos q s t hpos h
    obtain ⟨b, s1, hbyte, h⟩ := Engine.bind_eq_ok h
    obtain ⟨_, s2, -, h⟩ := Engine.bind_eq_ok h
    exact ih (lt_of_compByte_ok hbyte) h

theorem nextHeader_le {pos q : Nat} {o : Option (Nat × Nat)} (h : nextHeader p c pos s = .ok (q, o) t) :
    q ≤ c.len := by
  obtain ⟨b, s1, hfirst, h⟩ := Engine.bind_eq_ok h
  split at h
  · obtain ⟨rfl, -⟩ := Prod.mk.inj (EStateM.Result.ok.inj h).1
    exact lt_of_compByte_ok hfirst
  · obtain ⟨e, s2, hlast, h⟩ := Engine.bind_eq_ok h
    obtain ⟨rfl, -⟩ := Prod.mk.inj (EStateM.Result.ok.inj h).1
    exact lt_of_compByte_ok hlast

theorem freqLoop_le (left first last pos : Nat) : ∀ {q : Nat} {s t : State}, pos ≤ c.len →
    freqLoop p c left first last pos s = .ok q t → q ≤ c.len := by
  fun_induction freqLoop p c left first last pos with
  | case1 first last pos => exact fun hpos h => freqRange_le _ hpos h
  | case2 first last pos ih | case3 n first last pos ih =>
    intro q s t hpos h
    obtain ⟨q1, s1, hrange, h⟩ := Engine.bind_eq_ok h
    obtain ⟨⟨q2, o⟩, s2, hheader, h⟩ := Engine.bind_eq_ok h
    cases o with
    | none =>
      obtain rfl := (EStateM.Result.ok.inj h).1
      exact nextHeader_le hheader
    | some fe => exact ih q2 fe.1 fe.2 (nextHeader_le hheader) h

theorem freqParse_le {q : Nat} (h : freqParse p c s = .ok q t) : q ≤ c.len := by
  obtain ⟨_, s1, -, h⟩ := Engine.bind_eq_ok h
  obtain ⟨f, s2, -, h⟩ := Engine.bind_eq_ok h
  obtain ⟨e, s3, hlast, h⟩ := Engine.bind_eq_ok h
  exact freqLoop_le _ _ _ _ (lt_of_compByte_ok hlast) h

/-- The bit cursor of the stream that starts at byte `start` is not past the last bit. -/
def CursorInside (c : Comp) (start : Nat) (s : State) : Prop := s.hidden.hcur ≤ 8 * (c.len - start)

theorem guarded_cursorInside_hufBit (start : Nat) :
    Guarded (CursorInside c start) (fun _ => True) (hufBit p c start) := by
  intro s _
  unfold hufBit
  dsimp only
  cases hbyte : compByte p c (start + s.hidden.hcur / 8) s with
  | error f t => trivial
  | ok b t =>
    have hlt := lt_of_compByte_ok hbyte
    change s.hidden.hcur + 1 ≤ 8 * (c.len - start)
    omega

theorem guarded_cursorInside_walk (start k : Nat) :
    ∀ n, Guarded (CursorInside c start) (fun _ => True) (walk p c start k n) := by
  induction k with
  | zero => exact fun n => guarded_pure n
  | succ k ih =>
    exact fun n => guarded_ite (fun _ => guarded_pure n) fun _ =>
      guarded_bind (guarded_cursorInside_hufBit start) fun _ => guarded_bind (fun _ h => h) fun _ => ih _

theorem walk_cursorInside {start k cur cur' : Nat} {n leaf : Fin 513} (hcur : cur ≤ 8 * (c.len - start))
    (h : walk p c start k n (s.withCursor cur) = .ok leaf (t.withCursor cur')) : cur' ≤ 8 * (c.len - start) := by
  have hguard := guarded_cursorInside_walk (p := p) start k n (s.withCursor cur) hcur
  rwa [h] at hguard

end

/-! ### The frequency table -/

section
variable {p : Params} {c : Comp} {l : List Byte}

/-- Where no byte is left, the index is the first past the last. -/
theorem CompAt.eq_len_of_drop_nil {s : State} (h : CompAt p c l s) {i : Nat} (hdrop : l.drop i = []) (hi : i ≤ c.len) :
    i = c.len := by
  have hle := List.drop_eq_nil_iff.mp hdrop
  have hlen := h.length
  omega

theorem freqRange_overruns (n : Nat) :
    ∀ {k pos : Nat} {s : State} {a : Arena}, CompAt p c l s → pos ≤ c.len →
      refRange n k (l.drop pos) a = none → Overruns c (freqRange p c n k pos) (s.withNode a) := by
  induction n with
  | zero => exact fun _ _ href => absurd href (by simp [refRange])
  | succ n ih =>
    intro k pos s a hcomp hpos href
    cases hdrop : l.drop pos with
    | nil => exact (compByte_overruns (hcomp.eq_len_of_drop_nil hdrop hpos)).bind
    | cons f rest =>
      obtain ⟨hbyte, hrest⟩ := compByte_run (hcomp.of_mem (t := s.withNode a) rfl) hdrop
      rw [hdrop, refRange, ← hrest] at href
      have hnext := ih hcomp (lt_of_compByte_ok hbyte) href
      exact .after hbyte (.refl _) (.after (Engine.modifyHidden_run _ _) ⟨s.mem, _, rfl⟩ hnext)

/-- Where the reference header reader finds no byte. -/
theorem refHeader_eq_none {l : List Byte} (h : refHeader l = none) : l = [] ∨ ∃ f, f ≠ 0 ∧ l = [f] := by
  match l with
  | [] => exact .inl rfl
  | f :: l =>
    by_cases hf : f = 0
    · exact absurd ((if_pos hf).symm.trans h) (by simp)
    · match l with
      | [] => exact .inr ⟨f, hf, rfl⟩
      | e :: l =>
        have hrun : refHeader (f :: e :: l) = some (some (f.toNat, e.toNat), l) := if_neg hf
        exact absurd (hrun.symm.trans h) (by simp)

theorem nextHeader_overruns {pos : Nat} {s : State} (hcomp : CompAt p c l s) (hpos : pos ≤ c.len)
    (href : refHeader (l.drop pos) = none) : Overruns c (nextHeader p c pos) s := by
  obtain hdrop | ⟨f, hf, hdrop⟩ := refHeader_eq_none href
  · exact (compByte_overruns (hcomp.eq_len_of_drop_nil hdrop hpos)).bind
  · obtain ⟨hfirst, hrest⟩ := compByte_run hcomp hdrop
    refine .after hfirst (.refl s) ?_
    rw [if_neg hf]
    exact (compByte_overruns (hcomp.eq_len_of_drop_nil hrest (lt_of_compByte_ok hfirst))).bind

/-- Where the reference loop finds no byte: in the range, in the header after it, or further on. -/
theorem refRanges_eq_none {left first last : Nat} {l : List Byte} {a : Arena} (hleft : 0 < left)
    (h : refRanges left first last l a = none) :
    refRange (last + 1 - first) first l a = none ∨
      ∃ a1 l1, refRange (last + 1 - first) first l a = some (a1, l1) ∧
        (refHeader l1 = none ∨
          ∃ f e l2, refHeader l1 = some (some (f, e), l2) ∧ refRanges (left - 2) f e l2 a1 = none) := by
  match left, hleft with
  | 1, _ | n + 2, _ =>
    rw [refRanges] at h
    split at h
    · next hrange => exact .inl hrange
    · next a1 l1 hrange =>
      refine .inr ⟨a1, l1, hrange, ?_⟩
      split at h
      · next hheader => exact .inl hheader
      · exact absurd h (by simp)
      · next f e l2 hheader => exact .inr ⟨f, e, l2, hheader, h⟩

theorem freqLoop_overruns_of_range {left first last pos : Nat} {s : State} (hleft : 0 < left)
    (h : Overruns c (freqRangeOf p c first last pos) s) : Overruns c (freqLoop p c left first last pos) s := by
  match left, hleft with
  | 1, _ | n + 2, _ => exact h.bind

theorem freqLoop_overruns_of_header {left first last pos q : Nat} {s t : State} (hleft : 0 < left)
    (hrange : freqRangeOf p c first last pos s = .ok q t) (hst : MemoryOnly s t)
    (h : Overruns c (nextHeader p c q) t) : Overruns c (freqLoop p c left first last pos) s := by
  match left, hleft with
  | 1, _ | n + 2, _ => exact .after hrange hst h.bind

theorem freqLoop_overruns (left : Nat) :
    ∀ {first last pos : Nat} {s : State} {a : Arena}, CompAt p c l s → pos ≤ c.len →
      refRanges left first last (l.drop pos) a = none →
      Overruns c (freqLoop p c left first last pos) (s.withNode a) := by
  induction left using Nat.strong_induction_on with
  | _ left ih =>
    intro first last pos s a hcomp hpos href
    obtain rfl | hleft := Nat.eq_zero_or_pos left
    · exact freqRange_overruns _ hcomp hpos href
    · obtain hrange | ⟨a1, l1, hrange, hcase⟩ := refRanges_eq_none hleft href
      · exact freqLoop_overruns_of_range hleft (freqRange_overruns _ hcomp hpos hrange)
      · obtain ⟨q, hq, rfl⟩ := freqRange_run _ hcomp hrange
        have hqle := freqRange_le _ hpos hq
        have hst : MemoryOnly (s.withNode a) (s.withNode a1) := ⟨s.mem, _, rfl⟩
        obtain hheader | ⟨f, e, l2, hheader, hrec⟩ := hcase
        · exact freqLoop_overruns_of_header hleft hq hst
            (nextHeader_overruns (hcomp.of_mem (t := s.withNode a1) rfl) hqle hheader)
        · obtain ⟨q', hq', rfl⟩ := nextHeader_run (hcomp.of_mem (t := s.withNode a1) rfl) hheader
          obtain ⟨u, hrun, hu⟩ := ih (left - 2) (by omega) hcomp (nextHeader_le hq') hrec
          exact ⟨u, (freqLoop_next hleft hq hq').trans hrun, hst.trans hu⟩

/-- R115: the table runs out. -/
theorem freqParse_overruns {s : State} (hcomp : CompAt p c l s) (hnode : s.hidden.node = Hidden.entry.node)
    (href : refTable p l = none) : Overruns c (freqParse p c) s := by
  have hcleared : CompAt p c l (s.withNode (clearFreqs p s.hidden.node)) := hcomp.of_mem rfl
  refine .after (Engine.modifyHidden_run _ s) ⟨s.mem, _, rfl⟩ ?_
  match l, href with
  | [], _ => exact (compByte_overruns (hcleared.eq_len_of_drop_nil (i := 0) rfl (by omega))).bind
  | [f], _ =>
    obtain ⟨hfirst, hrest⟩ := compByte_run hcleared (i := 0) rfl
    exact .after hfirst (.refl _)
      (compByte_overruns (hcleared.eq_len_of_drop_nil hrest (lt_of_compByte_ok hfirst))).bind
  | f :: e :: l', href =>
    rw [refTable, ← hnode] at href
    obtain ⟨hfirst, hrest⟩ := compByte_run hcleared (i := 0) rfl
    obtain ⟨hlast, -⟩ := compByte_run hcleared hrest
    exact .after hfirst (.refl _) (.after hlast (.refl _)
      (freqLoop_overruns _ (pos := 2) hcomp (lt_of_compByte_ok hlast) href))

end

/-! ### Codes and symbols -/

section
variable {p : Params} {c : Comp} {l : List Byte} {start : Nat}

/-- R120: a cursor inside the stream with no bit left stands at the first byte past the last. -/
theorem hufBit_overruns {s : State} {cur : Nat} (hcomp : CompAt p c l s) (hstart : start ≤ c.len)
    (hcur : cur ≤ 8 * (c.len - start)) (hdrop : (bitsOf (l.drop start)).drop cur = []) :
    Overruns c (hufBit p c start) (s.withCursor cur) := by
  have hle := List.drop_eq_nil_iff.mp hdrop
  rw [bitsOf_length, List.length_drop, hcomp.length] at hle
  obtain ⟨u, hrun, hu⟩ := compByte_overruns (p := p) (c := c) (s := s.withCursor cur) (i := start + cur / 8) (by omega)
  have hhcur : (s.withCursor cur).hidden.hcur = cur := rfl
  refine ⟨u, ?_, hu⟩
  unfold hufBit
  simp only [hhcur, hrun]

theorem refCode_eq_none {a : Arena} {bits : List Bool} {n : Fin 513} (h : refCode a bits n = none) :
    ¬n.val ≤ 256 ∧
      (bits = [] ∨ ∃ b bs, bits = b :: bs ∧ refCode a bs (if b then a[n.val].c1 else a[n.val].c0) = none) := by
  have hinner : ¬n.val ≤ 256 := fun hleaf => absurd ((refCode_leaf hleaf bits).symm.trans h) (by simp)
  refine ⟨hinner, ?_⟩
  cases bits with
  | nil => exact .inl rfl
  | cons b bs => exact .inr ⟨b, bs, rfl, by rwa [refCode, if_neg hinner] at h⟩

section
variable {a : Arena} {root : Fin 513} (hdesc : DescendsBelow a (root.val + 1))
include hdesc

theorem walk_overruns (k : Nat) :
    ∀ {s : State} {n : Fin 513} {cur : Nat}, CompAt p c l s → s.hidden.node = a → n ≤ root → n.val < k →
      start ≤ c.len → cur ≤ 8 * (c.len - start) → refCode a ((bitsOf (l.drop start)).drop cur) n = none →
      Overruns c (walk p c start k n) (s.withCursor cur) := by
  induction k with
  | zero => exact fun _ _ _ h => absurd h (Nat.not_lt_zero _)
  | succ k ih =>
    intro s n cur hcomp hnode hroot hk hstart hcur href
    obtain ⟨hinner, hcase⟩ := refCode_eq_none href
    rw [walk, if_neg hinner]
    obtain hdrop | ⟨b, bs, hdrop, href⟩ := hcase
    · exact (hufBit_overruns hcomp hstart hcur hdrop).bind
    · obtain ⟨hbit, hrest⟩ := hufBit_run hcomp hdrop
      have hcur' := guarded_cursorInside_hufBit (p := p) start (s.withCursor cur) hcur
      rw [hbit] at hcur'
      obtain ⟨h0, h1⟩ := hdesc n (by omega) (Nat.lt_succ_of_le hroot)
      have hchild : (if b then a[n.val].c1 else a[n.val].c0) < n := by split; exacts [h1, h0]
      rw [← hrest] at href
      obtain ⟨u, hrun, hu⟩ := ih hcomp hnode (hchild.le.trans hroot) (by omega) hstart hcur' href
      refine .after hbit ⟨s.mem, _, rfl⟩ ⟨u, ?_, hu⟩
      rw [← hrun, ← hnode]
      rfl

end

/-- Where the reference decoder finds no bit: in the next code, or after a symbol that is not the sentinel. -/
theorem refSymbols_succ_eq_none {a : Arena} {root : Fin 513} {k : Nat} {bits : List Bool}
    (h : refSymbols a root (k + 1) bits = none) :
    refCode a bits root = none ∨
      ∃ leaf bits', refCode a bits root = some (leaf, bits') ∧ leaf.val ≠ 256 ∧ refSymbols a root k bits' = none := by
  rw [refSymbols] at h
  split at h
  · next hcode => exact .inl hcode
  · next leaf bits' hcode =>
    refine .inr ⟨leaf, bits', hcode, ?_⟩
    split at h
    · exact absurd h (by simp)
    · next hend => exact ⟨hend, by simpa using h⟩

theorem refHuffman_eq_none {l : List Byte} {ds : Nat} (h : refHuffman p l ds = none) :
    refTable p l = none ∨
      ∃ a rest root, refTable p l = some (a, rest) ∧ (treeBuild a).2 = some root ∧
        refSymbols (treeBuild a).1 root ds (bitsOf rest) = none := by
  unfold refHuffman at h
  split at h
  · next htable => exact .inl htable
  · next a rest htable =>
    split at h
    · exact absurd h (by simp)
    · next root hroot => exact .inr ⟨a, rest, root, htable, hroot, h⟩

variable {out ds : Nat} (hout : ∀ i < ds, reachable p (out + i) = true)
  (hapart : ∀ i < c.len, ∀ j < ds, c.base + i ≠ out + j)
include hout hapart

theorem symbolLoop_overruns {a : Arena} {root : Fin 513} (hdesc : DescendsBelow a (root.val + 1))
    (hstart : start ≤ c.len) (k : Nat) :
    ∀ {s : State} {n cur : Nat}, CompAt p c l s → s.hidden.node = a → n + k ≤ ds → cur ≤ 8 * (c.len - start) →
      refSymbols a root k ((bitsOf (l.drop start)).drop cur) = none →
      Overruns c (symbolLoop p c start out root k n) (s.withCursor cur) := by
  induction k with
  | zero => exact fun _ _ _ _ href => absurd href (by simp [refSymbols])
  | succ k ih =>
    intro s n cur hcomp hnode hn hcur href
    rw [symbolLoop]
    obtain hcode | ⟨leaf, bits, hcode, hend, href⟩ := refSymbols_succ_eq_none href
    · exact (walk_overruns hdesc 513 hcomp hnode le_rfl root.isLt hstart hcur hcode).bind
    · obtain ⟨cur1, hwalk, rfl⟩ := walk_run hdesc 513 hcomp hnode le_rfl root.isLt hcode
      refine .after hwalk ⟨s.mem, _, rfl⟩ ?_
      obtain ⟨hwrite, hcomp'⟩ := CompAt.store hout hapart (hcomp.of_mem (t := s.withCursor cur1) rfl)
        (show n < ds by omega) (BitVec.ofNat 8 leaf.val)
      rw [if_neg hend]
      have hrest := ih (s := s.withMem (s.mem.write (out + n) (BitVec.ofNat 8 leaf.val))) (n := n + 1)
        (hcomp'.of_mem rfl) hnode (by omega) (walk_cursorInside hcur hwalk) href
      exact .after hwrite (memoryOnly_withMem _ _) hrest

/-! ### The phase -/

theorem symbolDecode_overruns {s : State} {a : Arena} {root : Fin 513} (hstart : start ≤ c.len)
    (hcomp : CompAt p c l s) (hnode : s.hidden.node = (treeBuild a).1) (hroot : s.hidden.root = (treeBuild a).2)
    (hcur : s.hidden.hcur = 0) (hsome : (treeBuild a).2 = some root)
    (href : refSymbols (treeBuild a).1 root ds (bitsOf (l.drop start)) = none) :
    Overruns c (symbolDecode p c start out ds) s := by
  have hself : s = s.withCursor 0 := by rw [State.withCursor, ← hcur]; rfl
  have hread : (fun s => .ok s.hidden.root s : Engine (Option (Fin 513))) s = .ok (some root) s := by
    simp only [hroot, hsome]
  have hloop := symbolLoop_overruns hout hapart (treeBuild_descends hsome) hstart ds (n := 0) (cur := 0) hcomp hnode
    (by omega) (Nat.zero_le _) href
  rw [← hself] at hloop
  exact .after hread (.refl s) hloop

/-- R115, R120: the phase where the table or the bit stream runs out. -/
theorem huffmanPhase_overruns {s : State} (hcomp : CompAt p c l s) (hhidden : s.hidden = Hidden.entry)
    (href : refHuffman p l ds = none) : Overruns c (huffmanPhase p c out ds) s := by
  have hnode : s.hidden.node = Hidden.entry.node := congrArg Hidden.node hhidden
  obtain htable | ⟨a, rest, root, htable, hroot, hsyms⟩ := refHuffman_eq_none href
  · exact (freqParse_overruns hcomp hnode htable).bind
  · obtain ⟨start, hparse, rfl⟩ := freqParse_run hcomp hnode htable
    refine .after hparse ⟨s.mem, _, rfl⟩ (.after (buildTree_run s a) ⟨s.mem, _, rfl⟩ (Overruns.bind ?_))
    exact symbolDecode_overruns hout hapart (freqParse_le hparse) (s := s.withTree a) (hcomp.of_mem rfl) rfl rfl
      (congrArg Hidden.hcur hhidden) hroot hsyms

end

/-! ### The commands -/

theorem MemoryOnly.regs {s t : State} (h : MemoryOnly s t) : t.regs = s.regs := by
  obtain ⟨m, d, rfl⟩ := h; rfl

theorem MemoryOnly.status {s t : State} (h : MemoryOnly s t) : t.status = s.status := by
  obtain ⟨m, d, rfl⟩ := h; rfl

/-- R252: a command that ran out of compressed bytes, whose body changed nothing after `s'` but memory and the hidden
state. -/
theorem exec_of_overruns {i : Instr} {s s' : State} {plan : Plan} {c : Comp} (hclean : s.interfered = false)
    (hcheck : commandCheck s.cfg i s = .ok plan s)
    (hbody : ∃ u, commandBody s.cfg i plan s = .error ⟨.hufOverrun, c.len⟩ u ∧ MemoryOnly s' u)
    (hcur : s'.regs.animCur = s.regs.animCur) (hstatus : s'.status = s.status)
    (hcount : s'.regs.hufOut = s.regs.hufOut) :
    ∃ t, exec i s = .next t ∧ FaultedWhileRunning s t plan.footprint .hufOverrun c.len ∧ SameWarnings s t ∧
      SameTables s' t ∧ t.regs.hufOut = s.regs.hufOut := by
  obtain ⟨u, hrun, hu⟩ := hbody
  obtain ⟨t, hexec, hfault, hend⟩ := exec_of_stopped hclean (.stopped hcheck hrun) (by rw [hu.regs, hcur])
  rw [footprintOf_of_check hcheck] at hfault
  refine ⟨t, hexec, hfault, fun w => ?_, ?_, ?_⟩
  · rw [hend.warned, hu.status, hstatus]
  · exact SameTables.trans ⟨congrArg Regs.lumaQ hu.regs, congrArg Regs.chromaQ hu.regs⟩ hend.sameTables
  · rw [hend.hufOut, hu.regs, hcount]

/-- The compressed bytes of a payload are not the scratch bytes (R64, R70, R208). -/
theorem PayloadReady.comp_ne_scratch {s : State} {pl : Plan} (h : PayloadReady s pl)
    (hapart : s.regs.scrWindow.overlaps s.regs.srcWindow = false) :
    ∀ i < pl.cs, ∀ j < pl.ds, s.regs.srcAddr.toNat + pl.compOff + i ≠ s.regs.scrAddr.toNat + j := by
  have hfits : pl.compOff + pl.cs ≤ s.regs.srcLen.toNat := (payloadParse_layout h.parse).1
  have hroom := h.room
  intro i hi j hj
  rw [Nat.add_assoc]
  exact ne_of_not_overlaps hapart (v := s.regs.srcWindow) (show pl.compOff + i < s.regs.srcLen.toNat by omega)
    (show j < s.regs.scrLen.toNat by omega)

theorem decodePayload_overruns {s : State} {pl : Plan} (h : PayloadReady s pl) (hhidden : s.hidden = Hidden.entry)
    (hapart : s.regs.scrWindow.overlaps s.regs.srcWindow = false)
    (href : refHuffman s.cfg (s.comp pl) pl.ds = none) (footprint : List Window) (offsets : List Nat)
    (fmt : PixelFormat) (place : Nat → Nat → Nat) (n : Nat) :
    ∃ u, decodePayload s.cfg { pl with footprint := footprint, offsets := offsets } fmt place n s =
        .error ⟨.hufOverrun, pl.cs⟩ u ∧ MemoryOnly s.tablesBuilt u := by
  have hbuild : qtBuildTables s.cfg s = .ok () s.tablesBuilt := rfl
  have hphase := huffmanPhase_overruns (c := ⟨s.regs.srcAddr.toNat + pl.compOff, pl.cs⟩) h.within.scratch
    (h.comp_ne_scratch hapart) (s := s.tablesBuilt) (h.compAt.of_mem rfl) hhidden href
  obtain ⟨u, hrun, hu⟩ := hphase.bind (f := fun _ =>
    decodeBlocks s.cfg { pl with footprint := footprint, offsets := offsets } fmt place n 0)
  exact ⟨u, by rw [decodePayload, Engine.bind_ok (Engine.getRegs_run s), Engine.bind_ok hbuild]; exact hrun, hu⟩

/-- Settles O46: the phase runs out where the reference decoder does (`huffmanPhase_overruns`), and the command records
that (`exec_of_overruns`). -/
theorem hufDecodeOverrun : Obligations.HufDecodeOverrun := by
  refine ⟨?_, ?_, ?_⟩
  · intro s hready hapart hdst hread hwrite href
    have hlap : s.regs.dstWindow.overlaps s.regs.srcWindow = false := hapart.2 _ (by simp) _ (by simp)
    have hphase := huffmanPhase_overruns hwrite
      (fun i hi j hj => ne_of_not_overlaps hlap (v := s.regs.srcWindow) hi (hj.trans_le hdst)) (compAt_srcWindow hread)
      hready.hidden href
    obtain ⟨u, hrun, hu⟩ := hphase
    rw [← hufDecodeBody_run s.cfg (Plan.of (hufDecodeFootprint s.regs))] at hrun
    exact exec_of_overruns (i := .hufDecode) (c := ⟨s.regs.srcAddr.toNat, s.regs.srcLen.toNat⟩) hready.interfered
      (hufDecodeCheck_passes hapart hdst) ⟨u, hrun, hu⟩ rfl rfl rfl
  · intro fmt s pl w h hready hgeo hapart hdst hpl href
    have hcheck := decodeImageCheck_passes hpl hgeo hapart hdst
    have hlap : s.regs.scrWindow.overlaps s.regs.srcWindow = false := hapart.2 _ (by simp) _ (by simp)
    obtain ⟨u, hrun, hu⟩ := decodePayload_overruns hpl hready.hidden hlap href
      [⟨s.regs.scrAddr.toNat, pl.ds⟩, imageFootprint fmt s.regs] pl.offsets fmt
      (rasterAddr fmt s.regs.dstAddr.toNat w) (w / 8 * (h / 8))
    rw [← decodeImageBody_run, ← commandBody_decodeImageOf] at hrun
    rw [← commandCheck_decodeImageOf] at hcheck
    obtain ⟨t, hexec, hfault, hwarn, htables, hcount⟩ :=
      exec_of_overruns (c := ⟨0, pl.cs⟩) hready.interfered hcheck ⟨u, hrun, hu⟩ rfl rfl rfl
    exact ⟨t, hexec, hfault, hwarn, (tablesBuilt_built s).trans_same htables, hcount⟩
  · intro fmt s pl n hready hpos hgeo hapart hoffs hfit hpl href
    have hcheck := compositeCheck_passes hpl hpos hgeo hapart hoffs hfit
    have hlap : s.regs.scrWindow.overlaps s.regs.srcWindow = false := hapart.2 _ (by simp) _ (by simp)
    obtain ⟨u, hrun, hu⟩ := decodePayload_overruns hpl hready.hidden hlap href
      (⟨s.regs.scrAddr.toNat, pl.ds⟩ ::
        scatterWindows fmt s.regs.dstAddr.toNat s.regs.dstStride.toNat ((List.range n).map s.offset))
      ((List.range n).map s.offset) fmt
      (fun b px => scatterAddr fmt s.regs.dstAddr.toNat s.regs.dstStride.toNat
        (((List.range n).map s.offset).getD b 0) px) n
    have hbody := (compositeBody_run (plan := _) fmt (by omega)).trans
      (Engine.bind_error (f := fun _ => advanceCursor) hrun)
    rw [← commandBody_compositeOf] at hbody
    rw [← commandCheck_compositeOf] at hcheck
    obtain ⟨t, hexec, hfault, hwarn, htables, hcount⟩ :=
      exec_of_overruns (c := ⟨0, pl.cs⟩) hready.interfered hcheck ⟨u, hbody, hu⟩ rfl rfl rfl
    exact ⟨t, hexec, hfault, hwarn, (tablesBuilt_built s).trans_same htables, hcount⟩

end Sys2Proof.Machine
end

section
/-!
PROOF. The entropy decode of the engine gives what the reference decoder gives (spec/20_memory.md rules R72-R76,
spec/43_block_decode.md R160-R167): `InStep` says that the engine's cursors stand where the reference streams begin, and
`Follows` that a piece of the engine answers what the reference answers and leaves the streams it leaves.
-/

namespace Sys2Proof.Machine

/-! ### Cursors and streams -/

/-- The cursors of `s` stand where the streams `t` begin, and the warnings of `s` are `w₀` and those `t` has seen. -/
structure InStep (pl : Plan) (w₀ : Warning → Bool) (s : State) (t : Streams) : Prop where
  codes : t.codes = (s.mem.bytes s.regs.scrAddr.toNat pl.ds).drop s.hidden.j
  ac : t.ac = (bitsOf (s.mem.bytes (s.regs.srcAddr.toNat + pl.acOff) pl.acLen)).drop s.hidden.acur
  dc : t.dc = (bitsOf (s.mem.bytes (s.regs.srcAddr.toNat + pl.dcOff) pl.dcLen)).drop s.hidden.dcur
  seen : ∀ w, s.status.warned w = (w₀ w || decide (w ∈ t.seen))
  fresh : .hufShort ∉ t.seen

/-- From a state in step with `t`, with the registers `r`, the piece answers `a` and ends in step with `t'`; registers
and memory stay. -/
def Follows {α : Type} (r : Regs) (pl : Plan) (w₀ : Warning → Bool) (t : Streams) (m : Engine α) (a : α)
    (t' : Streams) : Prop :=
  ∀ s : State, s.regs = r → InStep pl w₀ s t → ∃ u, m s = .ok a u ∧ u.regs = r ∧ u.mem = s.mem ∧ InStep pl w₀ u t'

section
variable {α β : Type} {r : Regs} {pl : Plan} {w₀ : Warning → Bool} {t t' t'' : Streams}

theorem follows_pure (a : α) : Follows r pl w₀ t (pure a) a t := fun s hregs h => ⟨s, rfl, hregs, rfl, h⟩

theorem Follows.bind {m : Engine α} {f : α → Engine β} {a : α} {b : β} (hm : Follows r pl w₀ t m a t')
    (hf : Follows r pl w₀ t' (f a) b t'') : Follows r pl w₀ t (m >>= f) b t'' := by
  intro s hregs h
  obtain ⟨u, hrun, hu, hmem, h⟩ := hm s hregs h
  obtain ⟨v, hrun', hv, hmem', h⟩ := hf u hu h
  exact ⟨v, (Engine.bind_ok hrun).trans hrun', hv, hmem'.trans hmem, h⟩

theorem follows_getRegs : Follows r pl w₀ t getRegs r t := fun s hregs h => ⟨s, by rw [← hregs]; rfl, hregs, rfl, h⟩

theorem InStep.withHidden {s : State} (h : InStep pl w₀ s t) {d : Hidden} (hj : d.j = s.hidden.j)
    (hac : d.acur = s.hidden.acur) (hdc : d.dcur = s.hidden.dcur) : InStep pl w₀ (s.withHidden d) t :=
  ⟨by rw [h.codes]; simp [hj], by rw [h.ac]; simp [hac], by rw [h.dc]; simp [hdc], h.seen, h.fresh⟩

/-- A warning on both sides. -/
theorem InStep.warn {s : State} (h : InStep pl w₀ s t) {w : Warning} (hw : w ≠ .hufShort) :
    InStep pl w₀ (s.withStatus (s.status.setWarning w)) (t.warn w) where
  codes := h.codes
  ac := h.ac
  dc := h.dc
  seen v := by
    rw [State.withStatus_status, setWarning_warned, h.seen v]
    simp only [Streams.warn, List.mem_cons, Bool.decide_or]
    rw [Bool.or_assoc, Bool.or_comm (decide (v = w))]
  fresh hmem := (List.mem_cons.mp hmem).elim (fun heq => hw heq.symm) h.fresh

theorem follows_warn {w : Warning} (hw : w ≠ .hufShort) : Follows r pl w₀ t (warn w) () (t.warn w) :=
  fun _ hregs h => ⟨_, rfl, hregs, rfl, h.warn hw⟩

/-- Streams that differ only in how often they have seen a warning. -/
theorem InStep.congr {s : State} (h : InStep pl w₀ s t) (hcodes : t'.codes = t.codes) (hac : t'.ac = t.ac)
    (hdc : t'.dc = t.dc) (hseen : ∀ w, w ∈ t'.seen ↔ w ∈ t.seen) : InStep pl w₀ s t' where
  codes := hcodes.trans h.codes
  ac := hac.trans h.ac
  dc := hdc.trans h.dc
  seen w := by rw [h.seen w, decide_eq_decide.mpr (hseen w)]
  fresh hmem := h.fresh ((hseen _).mp hmem)

theorem Memory.bytes_getElem (m : Memory) (a n : Nat) {i : Nat} (hi : i < (m.bytes a n).length) :
    (m.bytes a n)[i] = m.read (a + i) := by
  simp [Memory.bytes]

/-- The bit at a cursor inside a stream. -/
theorem bitsOf_bytes_drop (m : Memory) (a n cur : Nat) (h : cur / 8 < n) :
    (bitsOf (m.bytes a n)).drop cur = msbBit (m.read (a + cur / 8)) cur :: (bitsOf (m.bytes a n)).drop (cur + 1) := by
  have hlt : cur < (bitsOf (m.bytes a n)).length := by
    rw [bitsOf_length, Memory.bytes_length]
    omega
  rw [List.drop_eq_getElem_cons hlt]
  refine congrArg (· :: _) (Option.some.inj ?_)
  rw [← List.getElem?_eq_getElem hlt, bitsOf_getElem?,
    List.getElem?_eq_getElem (by rw [Memory.bytes_length]; exact h), Option.map_some, Memory.bytes_getElem]

theorem bitsOf_bytes_drop_past (m : Memory) (a n cur : Nat) (h : n ≤ cur / 8) :
    (bitsOf (m.bytes a n)).drop cur = [] := by
  rw [List.drop_eq_nil_iff, bitsOf_length, Memory.bytes_length]
  omega

/-! ### The AC-data and the DC-data -/

theorem acBits_length (t : Streams) (n : Nat) : (t.acBits n).length = n := by simp [Streams.acBits]

theorem acBits_succ_of_cons {b : Bool} {bs : List Bool} (h : t.ac = b :: bs) (n : Nat) :
    t.acBits (n + 1) = b :: (t.dropAc 1).acBits n := by
  have hdrop : (t.dropAc 1).ac = bs := by rw [Streams.dropAc, h]; rfl
  rw [Streams.acBits, Streams.acBits, h, hdrop, List.cons_append, List.take_succ_cons, List.replicate_succ',
    ← List.append_assoc, List.take_append_of_le_length (by simp)]

theorem acBits_succ_of_nil (h : t.ac = []) (n : Nat) : t.acBits (n + 1) = false :: (t.dropAc 1).acBits n := by
  have hdrop : (t.dropAc 1).ac = [] := by rw [Streams.dropAc, h]; rfl
  simp [Streams.acBits, h, hdrop, List.replicate_succ]

/-- Reading one AC-data bit and then `n` is reading `n + 1`, but for how often the warning is seen. -/
theorem InStep.dropAc_succ {s : State} {n : Nat} (h : InStep pl w₀ s ((t.dropAc 1).dropAc n)) :
    InStep pl w₀ s (t.dropAc (n + 1)) := by
  refine h.congr rfl ?_ rfl fun w => ?_
  · simp [Streams.dropAc]
  · simp only [Streams.dropAc, List.length_drop]
    by_cases h1 : t.ac.length < 1
    · rw [if_pos (by omega), if_pos h1]
      split <;> simp
    · have hiff : t.ac.length < n + 1 ↔ t.ac.length - 1 < n := by omega
      simp only [if_neg h1, hiff]

variable {p : Params} (hpl : PlanWithin (reachable p · = true) r pl)
include hpl

/-- R72: one AC-data bit. -/
theorem bitAC_inStep {s : State} (hregs : s.regs = r) (h : InStep pl w₀ s t) :
    ∃ b u, bitAC p pl s = .ok b u ∧ u.regs = r ∧ u.mem = s.mem ∧ InStep pl w₀ u (t.dropAc 1) ∧
      ∀ n, t.acBits (n + 1) = b :: (t.dropAc 1).acBits n := by
  have hac := h.ac
  by_cases hin : s.hidden.acur / 8 < pl.acLen
  · rw [bitsOf_bytes_drop _ _ _ _ hin] at hac
    refine ⟨_, _, bitAC_inside hin (hregs ▸ hpl.ac _ hin), hregs, rfl, ?_, acBits_succ_of_cons hac⟩
    exact ⟨h.codes, by simp [Streams.dropAc, hac], h.dc, by simpa [Streams.dropAc, hac] using h.seen,
      by simpa [Streams.dropAc, hac] using h.fresh⟩
  · have hpast := Nat.le_of_not_lt hin
    rw [bitsOf_bytes_drop_past _ _ _ _ hpast] at hac
    refine ⟨_, _, bitAC_past hpast, hregs, rfl, ?_, acBits_succ_of_nil hac⟩
    have hwarn := h.warn (w := .acOverread) (by decide)
    refine ⟨h.codes, ?_, h.dc, ?_, ?_⟩
    · simp only [Streams.dropAc, hac, List.drop_nil]
      refine (bitsOf_bytes_drop_past _ _ _ _ ?_).symm
      rw [State.withStatus_hidden, State.withHidden_hidden]
      exact hpast.trans (Nat.div_le_div_right (Nat.le_succ _))
    · simpa [Streams.dropAc, Streams.warn, hac] using hwarn.seen
    · simpa [Streams.dropAc, Streams.warn, hac] using hwarn.fresh

/-- R72, R74: `n` AC-data bits, zeros past the end. -/
theorem produces_bitAC (n : Nat) : ∀ {s : State} {t : Streams}, s.regs = r → InStep pl w₀ s t →
    ∃ u, Produces (bitAC p pl) s (t.acBits n) u ∧ u.regs = r ∧ u.mem = s.mem ∧ InStep pl w₀ u (t.dropAc n) := by
  induction n with
  | zero =>
    intro s t hregs h
    refine ⟨s, ?_, hregs, rfl, h.congr rfl rfl rfl fun w => ?_⟩
    · rw [List.eq_nil_of_length_eq_zero (acBits_length t 0)]
      rfl
    · simp [Streams.dropAc]
  | succ n ih =>
    intro s t hregs h
    obtain ⟨b, u, hbit, hu, hmem, h, hbits⟩ := bitAC_inStep hpl hregs h
    obtain ⟨v, hrest, hv, hmem', h⟩ := ih hu h
    exact ⟨v, by rw [hbits]; exact ⟨u, hbit, hrest⟩, hv, hmem'.trans hmem, h.dropAc_succ⟩

/-- R73: one DC-data bit, where there is one. -/
theorem bitDC_inStep {s : State} {b : Bool} {bs : List Bool} (hregs : s.regs = r) (h : InStep pl w₀ s t)
    (hdc : t.dc = b :: bs) :
    ∃ u, bitDC p pl s = .ok b u ∧ u.regs = r ∧ u.mem = s.mem ∧ InStep pl w₀ u { t with dc := bs } := by
  have hin : s.hidden.dcur / 8 < pl.dcLen := by
    by_contra hpast
    have hnil := bitsOf_bytes_drop_past s.mem (s.regs.srcAddr.toNat + pl.dcOff) _ _ (Nat.le_of_not_lt hpast)
    rw [← h.dc, hdc] at hnil
    exact absurd hnil (by simp)
  have hcons := h.dc
  rw [bitsOf_bytes_drop _ _ _ _ hin, hdc] at hcons
  obtain ⟨hb, hbs⟩ := List.cons.inj hcons
  refine ⟨s.withHidden { s.hidden with dcur := s.hidden.dcur + 1 }, ?_, hregs, rfl,
    ⟨h.codes, h.ac, hbs, h.seen, h.fresh⟩⟩
  rw [hb]
  exact bitDC_inside hin (hregs ▸ hpl.dc _ hin)

/-- R73, R74: DC-data bits, as far as there are. -/
theorem produces_bitDC (bs : List Bool) : ∀ {rest : List Bool} {s : State} {t : Streams}, s.regs = r →
    InStep pl w₀ s t → t.dc = bs ++ rest →
    ∃ u, Produces (bitDC p pl) s bs u ∧ u.regs = r ∧ u.mem = s.mem ∧ InStep pl w₀ u { t with dc := rest } := by
  induction bs with
  | nil => exact fun hregs h hdc => ⟨_, rfl, hregs, rfl, h.congr rfl rfl hdc.symm fun _ => Iff.rfl⟩
  | cons b bs ih =>
    intro rest s t hregs h hdc
    obtain ⟨u, hbit, hu, hmem, h⟩ := bitDC_inStep hpl hregs h hdc
    obtain ⟨v, hrest, hv, hmem', h⟩ := ih hu h rfl
    exact ⟨v, ⟨u, hbit, hrest⟩, hv, hmem'.trans hmem, h⟩

theorem follows_readBits_bitAC (n : Nat) :
    Follows r pl w₀ t (readBits p (bitAC p pl) n 0 0) (assembled p.bitAssembly (t.acBits n)) (t.dropAc n) := by
  intro s hregs h
  obtain ⟨u, hbits, hu, hmem, h⟩ := produces_bitAC hpl n hregs h
  have hrun := readBits_run p (t.acBits n) 0 0 hbits
  rw [acBits_length, assembledFrom_zero] at hrun
  exact ⟨u, hrun, hu, hmem, h⟩

theorem follows_readBits_bitDC {n : Nat} (hlen : n ≤ t.dc.length) :
    Follows r pl w₀ t (readBits p (bitDC p pl) n 0 0) (assembled p.bitAssembly (t.dc.take n))
      { t with dc := t.dc.drop n } := by
  intro s hregs h
  obtain ⟨u, hbits, hu, hmem, h⟩ := produces_bitDC hpl (t.dc.take n) hregs h (List.take_append_drop n t.dc).symm
  have hrun := readBits_run p (t.dc.take n) 0 0 hbits
  rw [List.length_take, Nat.min_eq_left hlen, assembledFrom_zero] at hrun
  exact ⟨u, hrun, hu, hmem, h⟩

/-! ### The AC codes -/

/-- R76: the next byte of the AC-code stream. -/
theorem follows_acCodeByte {b : Byte} {codes : List Byte} (hcodes : t.codes = b :: codes) :
    Follows r pl w₀ t (acCodeByte p pl) b { t with codes := codes } := by
  intro s hregs h
  have hcons := h.codes
  have hlt : s.hidden.j < (s.mem.bytes s.regs.scrAddr.toNat pl.ds).length := by
    by_contra hpast
    rw [List.drop_eq_nil_of_le (Nat.le_of_not_lt hpast), hcodes] at hcons
    exact absurd hcons (by simp)
  rw [List.drop_eq_getElem_cons hlt, Memory.bytes_getElem, hcodes] at hcons
  obtain ⟨hb, hrest⟩ := List.cons.inj hcons
  rw [Memory.bytes_length] at hlt
  refine ⟨s.withHidden { s.hidden with j := s.hidden.j + 1 }, ?_, hregs, rfl,
    ⟨hrest, h.ac, h.dc, h.seen, h.fresh⟩⟩
  rw [hb]
  exact acCodeByte_inside hlt (hregs ▸ hpl.scratch _ hlt)

omit hpl in
/-- R76: past the end of the AC-code stream a byte is 0, with a warning. -/
theorem follows_acCodeByte_past (hcodes : t.codes = []) :
    Follows r pl w₀ t (acCodeByte p pl) 0 (t.warn .accodeOverread) := by
  intro s hregs h
  have hnil := h.codes
  rw [hcodes, eq_comm, List.drop_eq_nil_iff, Memory.bytes_length] at hnil
  have hwarn := h.warn (w := .accodeOverread) (by decide)
  refine ⟨_, acCodeByte_past hnil, hregs, rfl, ?_, h.ac, h.dc, hwarn.seen, hwarn.fresh⟩
  simp only [Streams.warn, hcodes]
  exact (List.drop_eq_nil_of_le (by rw [Memory.bytes_length]; exact Nat.le_succ_of_le hnil)).symm

/-- R161-R164: one AC code of the reference decoder, in the form of the engine's `acCode` (`refCodes_cons`). -/
def refCodeStep (p : Params) (k : Nat) (zz : Block) (b : Byte) (t : Streams) : (Block × Option Nat) × Streams :=
  let len := b.toNat % 16
  let q := k + b.toNat / 16
  if b = 0x00 then ((zz, none), t)
  else if b = 0xF0 then ((zz, some (k + 16)), t)
  else if len = 0 then ((zz, none), t.warn .zeroLen)
  else if p.overflowLevelRead = .skip ∧ 63 < q then ((zz, none), t.warn .posOverflow)
  else if 63 < q then ((zz, none), (t.dropAc len).warn .posOverflow)
  else ((zz.setIfInBounds q (level (assembled p.bitAssembly (t.acBits len)) len), some (q + 1)), t.dropAc len)

omit hpl in
theorem refCodes_cons (p : Params) (b : Byte) (codes : List Byte) (k : Nat) (zz : Block) (t : Streams)
    (hgo : ¬(p.fullBlockPolicy = .stopAt64 ∧ 63 < k)) :
    refCodes p (b :: codes) k zz t =
      match refCodeStep p k zz b { t with codes := codes } with
      | ((zz, none), t) => (zz, t)
      | ((zz, some k), t) => refCodes p codes k zz t := by
  rw [refCodes, if_neg hgo]
  unfold refCodeStep
  dsimp only
  split_ifs <;> rfl

omit hpl in
/-- A code leaves the rest of the AC-code stream alone. -/
theorem refCodeStep_codes (p : Params) (k : Nat) (zz : Block) (b : Byte) (t : Streams) :
    (refCodeStep p k zz b t).2.codes = t.codes := by
  unfold refCodeStep
  dsimp only
  split_ifs <;> rfl

theorem follows_levelCode (k len : Nat) (zz : Block) :
    Follows r pl w₀ t (levelCode p pl k len zz)
      (if p.overflowLevelRead = .skip ∧ 63 < k then (zz, none)
        else if 63 < k then (zz, none)
        else (zz.setIfInBounds k (level (assembled p.bitAssembly (t.acBits len)) len), some (k + 1)))
      (if p.overflowLevelRead = .skip ∧ 63 < k then t.warn .posOverflow
        else if 63 < k then (t.dropAc len).warn .posOverflow
        else t.dropAc len) := by
  have hdrop : ∀ t, Follows r pl w₀ t (do warn .posOverflow; pure (zz, none) : Engine (Block × Option Nat)) (zz, none)
      (t.warn .posOverflow) := fun t => (follows_warn (by decide)).bind (follows_pure _)
  rw [levelCode, ← Bool.decide_and]
  by_cases hskip : p.overflowLevelRead = .skip ∧ 63 < k
  · simp only [decide_eq_true hskip, if_true, if_pos hskip]
    exact hdrop t
  · simp only [decide_eq_false hskip, Bool.false_eq_true, if_false, if_neg hskip]
    refine (follows_readBits_bitAC hpl len).bind ?_
    by_cases hpast : 63 < k
    · simp only [if_pos hpast]
      exact hdrop _
    · simp only [if_neg hpast]
      exact follows_pure _

/-- R161-R164: one AC code. -/
theorem follows_acCode (k : Nat) (zz : Block) (b : Byte) :
    Follows r pl w₀ t (acCode p pl k zz b) (refCodeStep p k zz b t).1 (refCodeStep p k zz b t).2 := by
  have hlevel := follows_levelCode (w₀ := w₀) (t := t) hpl (k + b.toNat / 16) (b.toNat % 16) zz
  unfold acCode refCodeStep
  dsimp only
  split
  · exact follows_pure _
  split
  · exact follows_pure _
  split
  · exact (follows_warn (by decide)).bind (follows_pure _)
  split at hlevel
  · next hskip => simpa only [if_pos hskip] using hlevel
  · next hskip =>
    simp only [if_neg hskip] at hlevel ⊢
    split at hlevel
    · next hpast => simpa only [if_pos hpast] using hlevel
    · next hpast => simpa only [if_neg hpast] using hlevel

/-- R161: the AC loop reads the codes that are left, and one more past their end at most. -/
theorem follows_acLoop (codes : List Byte) :
    ∀ {t : Streams} {fuel k : Nat} {zz : Block}, t.codes = codes → codes.length < fuel →
      Follows r pl w₀ t (acLoop p pl fuel k zz) (refCodes p codes k zz t).1 (refCodes p codes k zz t).2 := by
  induction codes with
  | nil =>
    intro t fuel k zz hcodes hfuel
    obtain ⟨n, rfl⟩ := Nat.exists_eq_add_of_lt hfuel
    have hself : { t with codes := [] } = t := by rw [← hcodes]
    rw [acLoop, ← Bool.decide_and, refCodes, hself]
    by_cases hfull : p.fullBlockPolicy = .stopAt64 ∧ 63 < k
    · simp only [decide_eq_true hfull, if_true, if_pos hfull]
      exact follows_pure zz
    · simp only [decide_eq_false hfull, Bool.false_eq_true, if_false, if_neg hfull]
      exact (follows_acCodeByte_past hcodes).bind ((follows_acCode hpl k zz 0).bind (follows_pure zz))
  | cons b codes ih =>
    intro t fuel k zz hcodes hfuel
    obtain ⟨n, rfl⟩ := Nat.exists_eq_add_of_lt hfuel
    rw [acLoop, ← Bool.decide_and]
    by_cases hfull : p.fullBlockPolicy = .stopAt64 ∧ 63 < k
    · have hself : { t with codes := b :: codes } = t := by rw [← hcodes]
      simp only [decide_eq_true hfull, if_true, refCodes, if_pos hfull, hself]
      exact follows_pure zz
    · simp only [decide_eq_false hfull, Bool.false_eq_true, if_false, refCodes_cons p b codes k zz t hfull]
      refine (follows_acCodeByte hpl hcodes).bind ((follows_acCode hpl k zz b).bind ?_)
      have hrest := refCodeStep_codes p k zz b { t with codes := codes }
      generalize refCodeStep p k zz b { t with codes := codes } = step at hrest ⊢
      obtain ⟨⟨zz', _ | k'⟩, t'⟩ := step
      · exact follows_pure zz'
      · exact ih hrest (by rw [List.length_cons]; omega)

/-! ### Channels and planes -/

/-- R160: one channel of one block. -/
theorem follows_decodeChannel {zz : Block} (href : refChannel p t = some (zz, t')) :
    Follows r pl w₀ t (decodeChannel p pl) zz t' := by
  unfold refChannel at href
  split at href
  · exact absurd href (by simp)
  · next hlen =>
    obtain ⟨rfl, rfl⟩ := Prod.mk.inj (Option.some.inj href)
    refine (follows_readBits_bitDC hpl (Nat.le_of_not_lt hlen)).bind fun s hregs h => ?_
    have hcodes : t.codes = _ := h.codes
    refine follows_acLoop hpl (t := { t with dc := t.dc.drop 8 }) t.codes rfl ?_ s hregs h
    rw [hcodes, List.length_drop, Memory.bytes_length]
    omega

/-- R205: one channel through the dequantizer and the IDCT, with the table of that channel. -/
theorem follows_decodePlane {ch : Channel} {pix : Block}
    (href : refPlane p (r.table ch.table) t = some (pix, t')) : Follows r pl w₀ t (decodePlane p pl ch) pix t' := by
  obtain ⟨⟨zz, t1⟩, hchannel, heq⟩ := Option.map_eq_some_iff.mp href
  obtain ⟨rfl, rfl⟩ := Prod.mk.inj heq
  refine (follows_decodeChannel hpl hchannel).bind (follows_getRegs.bind ?_)
  exact Follows.bind (t' := t1) (fun s hregs h => ⟨_, rfl, hregs, rfl, h.withHidden rfl rfl rfl⟩) (follows_pure _)

end

end Sys2Proof.Machine
end

section
/-!
PROOF. The blocks of a payload (spec/50_composition.md rules R205-R208): what memory holds after the pixels of blocks
are stored one after the other, and that the engine stores the pixels of the reference decoder's blocks.
-/

namespace Sys2Proof.Machine

/-! ### Pixels in memory -/

/-- Memory after `n` pixels of a block are stored, from pixel `px` on: what `placePixels` leaves (`placePixels_run`). -/
def Memory.placePixels (fmt : PixelFormat) (place : Nat → Nat) (b : Planes) : Memory → (n px : Nat) → Memory
  | m, 0, _ => m
  | m, n + 1, px => (m.writeAll (place px) (pixelBytes fmt (b.pixel px))).placePixels fmt place b n (px + 1)

/-- Memory after blocks are stored, from block `b` on: what `decodeBlocks` leaves (`decodeBlocks_inStep`). -/
def Memory.placeBlocks (fmt : PixelFormat) (place : Nat → Nat → Nat) : Memory → List Planes → (b : Nat) → Memory
  | m, [], _ => m
  | m, x :: xs, b => (m.placePixels fmt (place b) x 64 0).placeBlocks fmt place xs (b + 1)

section
variable {fmt : PixelFormat} {a : Nat}

theorem Memory.wf_placePixels {place : Nat → Nat} {x : Planes} (n : Nat) :
    ∀ {m : Memory} (px : Nat), m.wf → (m.placePixels fmt place x n px).wf := by
  induction n with
  | zero => exact fun _ h => h
  | succ n ih => exact fun _ h => ih _ (Memory.wf_writeAll _ _ h)

theorem Memory.read_writeAll_pixelBytes_other (m : Memory) {base : Nat} (c : Rgb)
    (ha : ∀ k < bpp fmt, a ≠ base + k) : (m.writeAll base (pixelBytes fmt c)).read a = m.read a := by
  refine Memory.read_writeAll_outside _ _ _ _ fun hin => ha (a - base) ?_ ?_
  · rw [pixelBytes_length] at hin
    omega
  · omega

theorem Memory.read_writeAll_pixelBytes {m : Memory} (hwf : m.wf) (base : Nat) (c : Rgb) {k : Nat} (hk : k < bpp fmt) :
    (m.writeAll base (pixelBytes fmt c)).read (base + k) = (pixelBytes fmt c).getD k 0 := by
  have hlt : k < (pixelBytes fmt c).length := by rwa [pixelBytes_length]
  rw [Memory.read_writeAll_inside _ base k hlt hwf, List.getD_eq_getElem _ _ hlt]

/-- An address that no pixel covers keeps its byte. -/
theorem Memory.read_placePixels_other {place : Nat → Nat} {x : Planes} (n : Nat) :
    ∀ (m : Memory) (px : Nat), (∀ q, px ≤ q → q < px + n → ∀ k < bpp fmt, a ≠ place q + k) →
      (m.placePixels fmt place x n px).read a = m.read a := by
  induction n with
  | zero => exact fun _ _ _ => rfl
  | succ n ih =>
    intro m px ha
    rw [Memory.placePixels, ih _ _ fun q hq hlt => ha q (by omega) (by omega),
      Memory.read_writeAll_pixelBytes_other m _ (ha px (Nat.le_refl px) (by omega))]

/-- A byte of a pixel is read back where no later pixel covers it. -/
theorem Memory.read_placePixels {place : Nat → Nat} {x : Planes} {q k : Nat} (hk : k < bpp fmt) (n : Nat) :
    ∀ {m : Memory} (px : Nat), m.wf → px ≤ q → q < px + n →
      (∀ q', q < q' → q' < px + n → ∀ k' < bpp fmt, place q + k ≠ place q' + k') →
      (m.placePixels fmt place x n px).read (place q + k) = (pixelBytes fmt (x.pixel q)).getD k 0 := by
  induction n with
  | zero => exact fun px _ hle hlt => absurd hlt (by omega)
  | succ n ih =>
    intro m px hwf hle hlt hlater
    obtain rfl | hpx := Nat.eq_or_lt_of_le hle
    · rw [Memory.placePixels, Memory.read_placePixels_other n _ _ fun q' hq' hlt' => hlater q' (by omega) (by omega),
        Memory.read_writeAll_pixelBytes hwf _ _ hk]
    · exact ih (px + 1) (Memory.wf_writeAll _ _ hwf) hpx (by omega) fun q' hq' hlt' => hlater q' hq' (by omega)

variable {place : Nat → Nat → Nat}

theorem Memory.read_placeBlocks_other (l : List Planes) :
    ∀ (m : Memory) (b : Nat), (∀ c, b ≤ c → c < b + l.length → ∀ q < 64, ∀ k < bpp fmt, a ≠ place c q + k) →
      (m.placeBlocks fmt place l b).read a = m.read a := by
  induction l with
  | nil => exact fun _ _ _ => rfl
  | cons x xs ih =>
    intro m b ha
    rw [List.length_cons] at ha
    rw [Memory.placeBlocks, ih _ _ fun c hc hlt => ha c (by omega) (by omega),
      Memory.read_placePixels_other _ _ _ fun q _ hq => ha b (Nat.le_refl b) (by omega) q (by omega)]

/-- A byte of a pixel of a block is read back where no pixel that comes later, in that block or after it, covers it. -/
theorem Memory.read_placeBlocks {q k : Nat} {x : Planes} (hq : q < 64) (hk : k < bpp fmt) (l : List Planes) :
    ∀ {m : Memory} (b i : Nat), m.wf → l[i]? = some x →
      (∀ c < b + l.length, ∀ q' < 64, ∀ k' < bpp fmt, (b + i < c ∨ (b + i = c ∧ q < q')) →
        place c q' + k' ≠ place (b + i) q + k) →
      (m.placeBlocks fmt place l b).read (place (b + i) q + k) = (pixelBytes fmt (x.pixel q)).getD k 0 := by
  induction l with
  | nil => exact fun b i _ hx => absurd hx (by simp)
  | cons y ys ih =>
    intro m b i hwf hx hlater
    rw [List.length_cons] at hlater
    cases i with
    | zero =>
      obtain rfl : y = x := by simpa using hx
      simp only [Nat.add_zero] at hlater ⊢
      rw [Memory.placeBlocks, Memory.read_placeBlocks_other ys _ _ fun c hc hlt q' hq' k' hk' =>
        (hlater c (by omega) q' hq' k' hk' (.inl hc)).symm]
      exact Memory.read_placePixels hk 64 0 hwf (Nat.zero_le q) (by omega) fun q' hq' hlt k' hk' =>
        (hlater b (by omega) q' (by omega) k' hk' (.inr ⟨rfl, hq'⟩)).symm
    | succ i =>
      rw [show b + (i + 1) = b + 1 + i by omega] at hlater ⊢
      exact ih (b + 1) i (Memory.wf_placePixels 64 0 hwf) (by simpa using hx) fun c hc => hlater c (by omega)

end

/-! ### The engine stores the blocks -/

theorem Memory.bytes_congr {m m' : Memory} {a n : Nat} (h : ∀ i < n, m.read (a + i) = m'.read (a + i)) :
    m.bytes a n = m'.bytes a n :=
  List.map_congr_left fun i hi => h i (List.mem_range.mp hi)

theorem PlanWithin.imp {W W' : Nat → Prop} {r : Regs} {pl : Plan} (h : PlanWithin W r pl) (hW : ∀ a, W a → W' a) :
    PlanWithin W' r pl :=
  ⟨fun i hi => hW _ (h.comp i hi), fun i hi => hW _ (h.ac i hi), fun i hi => hW _ (h.dc i hi),
    fun i hi => hW _ (h.scratch i hi)⟩

section
variable {p : Params} {r : Regs} {pl : Plan} {w₀ : Warning → Bool} {t t' : Streams} {fmt : PixelFormat}

/-- Writes that keep the bytes of the streams keep the engine in step. -/
theorem InStep.withMem {s : State} (h : InStep pl w₀ s t) {m : Memory}
    (hsame : PlanWithin (fun a => m.read a = s.mem.read a) s.regs pl) : InStep pl w₀ (s.withMem m) t where
  codes := h.codes.trans (congrArg (List.drop s.hidden.j) (Memory.bytes_congr hsame.scratch).symm)
  ac := h.ac.trans (congrArg (fun l => (bitsOf l).drop s.hidden.acur) (Memory.bytes_congr hsame.ac).symm)
  dc := h.dc.trans (congrArg (fun l => (bitsOf l).drop s.hidden.dcur) (Memory.bytes_congr hsame.dc).symm)
  seen := h.seen
  fresh := h.fresh

theorem placePixels_run {place : Nat → Nat} (x : Planes) (n : Nat) :
    ∀ (px : Nat) (s : State),
      (∀ q, px ≤ q → q < px + n → ∀ i < bpp fmt, reachable p (place q + i) = true) →
      placePixels p fmt place x.y x.cb x.cr n px s = .ok () (s.withMem (s.mem.placePixels fmt place x n px)) := by
  induction n with
  | zero => exact fun _ _ _ => rfl
  | succ n ih =>
    intro px s hreach
    have hpixel := writeBytes_of_reachable p (pixelBytes fmt (x.pixel px)) (place px) s fun i hi =>
      hreach px (Nat.le_refl px) (by omega) i (by rwa [pixelBytes_length] at hi)
    have hrest := ih (px + 1) (s.withMem (s.mem.writeAll (place px) (pixelBytes fmt (x.pixel px))))
      fun q hq hlt => hreach q (by omega) (by omega)
    exact (Engine.bind_ok hpixel).trans hrest

variable (hpl : PlanWithin (reachable p · = true) r pl)
include hpl

/-- R205, R206: the engine stores the block the reference decoder gives. -/
theorem decodeBlock_inStep {place : Nat → Nat} {x : Planes}
    (hreach : ∀ q < 64, ∀ i < bpp fmt, reachable p (place q + i) = true)
    (haway : PlanWithin (fun a => ∀ q < 64, ∀ i < bpp fmt, a ≠ place q + i) r pl)
    (href : refBlock p r.lumaQ r.chromaQ t = some (x, t')) {s : State} (hregs : s.regs = r) (h : InStep pl w₀ s t) :
    ∃ u, decodeBlock p pl fmt place s = .ok () u ∧ u.regs = r ∧ u.mem = s.mem.placePixels fmt place x 64 0 ∧
      InStep pl w₀ u t' := by
  unfold refBlock at href
  split at href
  · exact absurd href (by simp)
  next y t1 hy =>
  split at href
  · exact absurd href (by simp)
  next cb t2 hcb =>
  split at href
  · exact absurd href (by simp)
  next cr t3 hcr =>
  obtain ⟨rfl, rfl⟩ := Prod.mk.inj (Option.some.inj href)
  obtain ⟨s1, hrun1, hregs1, hmem1, h⟩ := follows_decodePlane hpl (ch := .y) hy s hregs h
  obtain ⟨s2, hrun2, hregs2, hmem2, h⟩ := follows_decodePlane hpl (ch := .cb) hcb s1 hregs1 h
  obtain ⟨s3, hrun3, hregs3, hmem3, h⟩ := follows_decodePlane hpl (ch := .cr) hcr s2 hregs2 h
  have hmem : s3.mem = s.mem := hmem3.trans (hmem2.trans hmem1)
  have hpixels := placePixels_run ⟨y, cb, cr⟩ 64 0 s3 fun q _ hq => hreach q (by omega)
  refine ⟨s3.withMem (s3.mem.placePixels fmt place ⟨y, cb, cr⟩ 64 0), ?_, hregs3, by rw [← hmem]; rfl,
    h.withMem ?_⟩
  · rw [decodeBlock, Engine.bind_ok hrun1, Engine.bind_ok hrun2, Engine.bind_ok hrun3]
    exact hpixels
  · rw [hregs3]
    exact haway.imp fun a ha => Memory.read_placePixels_other 64 _ _ fun q _ hq => ha q (by omega)

/-- R205: the engine stores the blocks the reference decoder gives. -/
theorem decodeBlocks_inStep {place : Nat → Nat → Nat} (n : Nat) :
    ∀ {b : Nat} {l : List Planes} {t t' : Streams} {s : State},
      (∀ c < b + n, ∀ q < 64, ∀ i < bpp fmt, reachable p (place c q + i) = true) →
      PlanWithin (fun a => ∀ c < b + n, ∀ q < 64, ∀ i < bpp fmt, a ≠ place c q + i) r pl →
      refBlocks p r.lumaQ r.chromaQ n t = some (l, t') → s.regs = r → InStep pl w₀ s t →
      ∃ u, decodeBlocks p pl fmt place n b s = .ok () u ∧ u.regs = r ∧ u.mem = s.mem.placeBlocks fmt place l b ∧
        InStep pl w₀ u t' := by
  induction n with
  | zero =>
    intro b l t t' s _ _ href hregs h
    obtain ⟨rfl, rfl⟩ := Prod.mk.inj (Option.some.inj href)
    exact ⟨s, rfl, hregs, rfl, h⟩
  | succ n ih =>
    intro b l t t' s hreach haway href hregs h
    unfold refBlocks at href
    split at href
    · exact absurd href (by simp)
    next x t1 hx =>
    obtain ⟨⟨xs, t2⟩, hxs, heq⟩ := Option.map_eq_some_iff.mp href
    obtain ⟨rfl, rfl⟩ := Prod.mk.inj heq
    obtain ⟨u, hrun, hu, hmem, h⟩ := decodeBlock_inStep hpl (place := place b) (hreach b (by omega))
      (haway.imp fun a ha => ha b (by omega)) hx hregs h
    obtain ⟨v, hrest, hv, hmem', h⟩ := ih (b := b + 1) (fun c hc => hreach c (by omega))
      (haway.imp fun a ha c hc => ha c (by omega)) hxs hu h
    exact ⟨v, (Engine.bind_ok hrun).trans hrest, hv, by rw [hmem', hmem]; rfl, h⟩

end

theorem refBlocks_length {p : Params} {luma chroma : Block} (n : Nat) :
    ∀ {t t' : Streams} {l : List Planes}, refBlocks p luma chroma n t = some (l, t') → l.length = n := by
  induction n with
  | zero =>
    intro t t' l href
    obtain ⟨rfl, -⟩ := Prod.mk.inj (Option.some.inj href)
    rfl
  | succ n ih =>
    intro t t' l href
    unfold refBlocks at href
    split at href
    · exact absurd href (by simp)
    next x t1 hx =>
    obtain ⟨⟨xs, t2⟩, hxs, heq⟩ := Option.map_eq_some_iff.mp href
    obtain ⟨rfl, -⟩ := Prod.mk.inj heq
    rw [List.length_cons, ih hxs]

/-! ### The payload as a whole -/

/-- What the decode of a payload leaves when it ends: the tables, the symbols in scratch, their number, the pixels of
the blocks, and the warnings. -/
structure PayloadDone (s u : State) (pl : Plan) (syms : List Byte) (img : List Planes × Streams) (fmt : PixelFormat)
    (place : Nat → Nat → Nat) : Prop where
  regs : u.regs = { s.tablesBuilt.regs with hufOut := BitVec.ofNat 32 syms.length }
  mem : u.mem = (s.mem.writeAll s.regs.scrAddr.toNat (padded syms pl.ds)).placeBlocks fmt place img.1 0
  warned : ∀ w, u.status.warned w =
    (s.status.warned w || (decide (syms.length < pl.ds) && decide (w = .hufShort)) || decide (w ∈ img.2.seen))
  fresh : .hufShort ∉ img.2.seen

section
variable {s : State} {pl : Plan} (h : PayloadReady s pl)
include h

/-- The Huffman phase leaves the engine in step with the streams the blocks are decoded from. -/
theorem PayloadReady.inStep {u : State} {syms : List Byte} (hready : s.Ready)
    (hapart : s.regs.scrWindow.overlaps s.regs.srcWindow = false) (hlen : syms.length ≤ pl.ds)
    (hdone : PhaseDone s.tablesBuilt u s.regs.scrAddr.toNat pl.ds syms) :
    InStep pl u.status.warned u
      { codes := padded syms pl.ds
        ac := bitsOf (s.mem.bytes (s.regs.srcAddr.toNat + pl.acOff) pl.acLen)
        dc := bitsOf (s.mem.bytes (s.regs.srcAddr.toNat + pl.dcOff) pl.dcLen)
        seen := [] } := by
  obtain ⟨-, hacfit, hdcfit⟩ := payloadParse_layout h.parse
  have hroom := h.room
  have hsrc : ∀ off len, off + len ≤ s.regs.srcLen.toNat →
      u.mem.bytes (s.regs.srcAddr.toNat + off) len = s.mem.bytes (s.regs.srcAddr.toNat + off) len := by
    refine fun off len hfit => Memory.bytes_congr fun i hi => hdone.read_outside hlen fun hin => ?_
    exact ne_of_not_overlaps hapart (v := s.regs.srcWindow) (i := off + i)
      (j := s.regs.srcAddr.toNat + off + i - s.regs.scrAddr.toNat)
      (show off + i < s.regs.srcLen.toNat by omega) (show _ < s.regs.scrLen.toNat by omega)
      (show s.regs.srcAddr.toNat + (off + i) = s.regs.scrAddr.toNat + _ by omega)
  have hscr : u.mem.bytes s.regs.scrAddr.toNat pl.ds = padded syms pl.ds := by
    refine List.ext_getElem ((Memory.bytes_length ..).trans (padded_length hlen).symm) fun k hk hk' => ?_
    rw [Memory.bytes_getElem, padded_getElem, hdone.read_inside hready.mem hlen (by rwa [padded_length hlen] at hk')]
  have hregs := hdone.regs
  have hentry : u.hidden.j = 0 ∧ u.hidden.acur = 0 ∧ u.hidden.dcur = 0 := by
    rw [hdone.j, hdone.acur, hdone.dcur]
    exact ⟨congrArg Hidden.j hready.hidden, congrArg Hidden.acur hready.hidden, congrArg Hidden.dcur hready.hidden⟩
  obtain ⟨hj, hac, hdc⟩ := hentry
  refine ⟨?_, ?_, ?_, fun w => by simp, by simp⟩
  · rw [hj, hregs]
    exact hscr.symm
  · rw [hac, hregs]
    exact congrArg bitsOf (hsrc _ _ hacfit).symm
  · rw [hdc, hregs]
    exact congrArg bitsOf (hsrc _ _ hdcfit).symm

/-- R208: where the reference decoder gives the symbols and the blocks, the decode of the payload ends and leaves
them. -/
theorem decodePayload_done {syms : List Byte} {img : List Planes × Streams} (hready : s.Ready)
    (hapart : s.regs.scrWindow.overlaps s.regs.srcWindow = false)
    (hsyms : refHuffman s.cfg (s.comp pl) pl.ds = some syms) (footprint : List Window) (offsets : List Nat)
    {fmt : PixelFormat} {place : Nat → Nat → Nat} {n : Nat} (himg : s.image pl syms n = some img)
    (hreach : ∀ c < n, ∀ q < 64, ∀ i < bpp fmt, reachable s.cfg (place c q + i) = true)
    (haway : PlanWithin (fun a => ∀ c < n, ∀ q < 64, ∀ i < bpp fmt, a ≠ place c q + i) s.regs pl) :
    ∃ u, decodePayload s.cfg { pl with footprint := footprint, offsets := offsets } fmt place n s = .ok () u ∧
      PayloadDone s u pl syms img fmt place := by
  have hbuild : qtBuildTables s.cfg s = .ok () s.tablesBuilt := rfl
  obtain ⟨v, hphase, hdone⟩ := huffmanPhase_done (c := ⟨s.regs.srcAddr.toNat + pl.compOff, pl.cs⟩) h.within.scratch
    (h.comp_ne_scratch hapart) (s := s.tablesBuilt) (h.compAt.of_mem rfl) hready.hidden hsyms
  have hstep := h.inStep hready hapart (refHuffman_length hsyms) hdone
  obtain ⟨hcomp, hac, hdc, hscratch⟩ := h.within
  obtain ⟨hcompAway, hacAway, hdcAway, hscratchAway⟩ := haway
  obtain ⟨u, hrun, hregs, hmem, hend⟩ := decodeBlocks_inStep (fmt := fmt) (place := place)
    (pl := { pl with footprint := footprint, offsets := offsets }) (w₀ := v.status.warned)
    (r := { s.tablesBuilt.regs with hufOut := BitVec.ofNat 32 syms.length }) ⟨hcomp, hac, hdc, hscratch⟩ n (b := 0)
    (by rwa [Nat.zero_add]) (by rw [Nat.zero_add]; exact ⟨hcompAway, hacAway, hdcAway, hscratchAway⟩) himg hdone.regs
    ⟨hstep.codes, hstep.ac, hstep.dc, hstep.seen, hstep.fresh⟩
  refine ⟨u, ?_, hregs, ?_, fun w => ?_, hend.fresh⟩
  · rw [decodePayload, Engine.bind_ok (Engine.getRegs_run s), Engine.bind_ok hbuild, Engine.bind_ok hphase]
    exact hrun
  · rw [hmem, hdone.mem]
    rfl
  · rw [hend.seen, hdone.warned]
    rfl

end

end Sys2Proof.Machine
end

section
/-!
PROOF. DECODE_IMAGE completes (spec/50_composition.md rules R205-R209): what the decode of a payload leaves, read back
byte by byte, and the places of the pixels in a raster image.
-/

namespace Sys2Proof.Machine

/-! ### What the decode of a payload leaves -/

section
variable {s u : State} {pl : Plan} {syms : List Byte} {img : List Planes × Streams} {fmt : PixelFormat}
  {place : Nat → Nat → Nat} (h : PayloadDone s u pl syms img fmt place)
include h

theorem PayloadDone.tablesBuilt : TablesBuilt s u := by
  have hbuilt := tablesBuilt_built s
  rwa [TablesBuilt, h.regs]

theorem PayloadDone.animCur : u.regs.animCur = s.regs.animCur := by rw [h.regs]; rfl

theorem PayloadDone.warned_of_ne {w : Warning} (hw : w ≠ .hufShort) :
    u.status.warned w = (s.status.warned w || decide (w ∈ img.2.seen)) := by
  rw [h.warned, decide_eq_false hw, Bool.and_false, Bool.or_false]

/-- R122: the pixels leave the symbols in scratch. -/
theorem PayloadDone.symbolsStored (hwf : s.mem.wf) (hlen : syms.length ≤ pl.ds) (hds : pl.ds < 2 ^ 32)
    (haway : ∀ k < pl.ds, ∀ c < img.1.length, ∀ q < 64, ∀ i < bpp fmt, s.regs.scrAddr.toNat + k ≠ place c q + i) :
    SymbolsStored s u s.regs.scrAddr.toNat pl.ds syms where
  bytes k hk := by
    have hlt : k < (padded syms pl.ds).length := by rwa [padded_length hlen]
    rw [h.mem, Memory.read_placeBlocks_other _ _ _ fun c _ hc => haway k hk c (by omega),
      Memory.read_writeAll_inside _ _ k hlt hwf, padded_getElem]
  count := by
    rw [h.regs]
    exact Nat.mod_eq_of_lt (hlen.trans_lt hds)
  short := by
    have hwarned := h.warned .hufShort
    rw [decide_eq_false h.fresh, Bool.or_false] at hwarned
    simpa [Status.warned] using hwarned

/-- R205: a byte of a pixel, where no later pixel covers it. -/
theorem PayloadDone.read_pixel (hwf : s.mem.wf) {b px k : Nat} {planes : Planes} (hb : img.1[b]? = some planes)
    (hpx : px < 64) (hk : k < bpp fmt)
    (hlater : ∀ c < img.1.length, ∀ q < 64, ∀ i < bpp fmt, (b < c ∨ (b = c ∧ px < q)) →
      place c q + i ≠ place b px + k) :
    u.mem.read (place b px + k) = (pixelBytes fmt (planes.pixel px)).getD k 0 := by
  have hread := Memory.read_placeBlocks (place := place) hpx hk img.1 0 b
    (Memory.wf_writeAll (padded syms pl.ds) s.regs.scrAddr.toNat hwf) hb (by simpa only [Nat.zero_add] using hlater)
  rwa [Nat.zero_add, ← h.mem] at hread

end

/-- Pixels inside the write window lie away from the payload and from scratch. -/
theorem PayloadReady.away {s : State} {pl : Plan} (h : PayloadReady s pl)
    (hscr : s.regs.dstWindow.overlaps s.regs.scrWindow = false)
    (hsrc : s.regs.dstWindow.overlaps s.regs.srcWindow = false) {fmt : PixelFormat} {place : Nat → Nat → Nat} {n : Nat}
    (hplace : ∀ c < n, ∀ q < 64, ∀ i < bpp fmt,
      ∃ j < s.regs.dstLen.toNat, place c q + i = s.regs.dstAddr.toNat + j) :
    PlanWithin (fun a => ∀ c < n, ∀ q < 64, ∀ i < bpp fmt, a ≠ place c q + i) s.regs pl := by
  refine planWithin_of_payloadCheck (fun k hk c hc q hq i hi => ?_) (fun k hk c hc q hq i hi => ?_) h.check
  · obtain ⟨j, hj, heq⟩ := hplace c hc q hq i hi
    rw [heq]
    exact ne_of_not_overlaps hsrc (v := s.regs.srcWindow) hk hj
  · obtain ⟨j, hj, heq⟩ := hplace c hc q hq i hi
    rw [heq]
    exact ne_of_not_overlaps hscr (v := s.regs.scrWindow) hk hj

/-! ### The places of a raster image -/

/-- Quotient and remainder are determined. -/
theorem eq_of_mul_add_eq {n q q' r r' : Nat} (hr : r < n) (hr' : r' < n) (h : q * n + r = q' * n + r') :
    q = q' ∧ r = r' := by
  have hpos : 0 < n := by omega
  have hdiv : ∀ {a b : Nat}, b < n → (a * n + b) / n = a := fun {a b} hb => by
    rw [Nat.add_comm, Nat.add_mul_div_right _ _ hpos, Nat.div_eq_of_lt hb, Nat.zero_add]
  have hq : q = q' := by rw [← hdiv hr (a := q), h, hdiv hr']
  subst hq
  exact ⟨rfl, by omega⟩

/-- R207: no two pixels of a raster image share a place. -/
theorem raster_inj {w b b' px px' : Nat} (hw : 0 < w) (hw8 : w % 8 = 0) (hpx : px < 64) (hpx' : px' < 64)
    (h : (b / (w / 8) * 8 + px / 8) * w + (b % (w / 8) * 8 + px % 8) =
      (b' / (w / 8) * 8 + px' / 8) * w + (b' % (w / 8) * 8 + px' % 8)) : b = b' ∧ px = px' := by
  have hbl : 0 < w / 8 := by omega
  have hx := Nat.mod_lt b hbl
  have hx' := Nat.mod_lt b' hbl
  obtain ⟨hrow, hcol⟩ := eq_of_mul_add_eq (by omega) (by omega) h
  obtain ⟨hblockRow, hpixelRow⟩ := eq_of_mul_add_eq (by omega) (by omega) hrow
  obtain ⟨hblockCol, hpixelCol⟩ := eq_of_mul_add_eq (Nat.mod_lt _ (by omega)) (Nat.mod_lt _ (by omega)) hcol
  constructor
  · rw [← Nat.div_add_mod b (w / 8), hblockRow, hblockCol, Nat.div_add_mod]
  · omega

/-- R207: no two bytes of a raster image share an address. -/
theorem rasterAddr_inj {fmt : PixelFormat} {dst w b b' px px' k k' : Nat} (hw : 0 < w) (hw8 : w % 8 = 0) (hpx : px < 64)
    (hpx' : px' < 64) (hk : k < bpp fmt) (hk' : k' < bpp fmt)
    (h : rasterAddr fmt dst w b px + k = rasterAddr fmt dst w b' px' + k') : b = b' ∧ px = px' := by
  have hbytes := Nat.add_left_cancel ((Nat.add_assoc ..).symm.trans (h.trans (Nat.add_assoc ..)))
  exact raster_inj hw hw8 hpx hpx' (eq_of_mul_add_eq hk hk' hbytes).1

/-! ### DECODE_IMAGE -/

/-- Settles O47: the pre-checks pass, the decode of the payload ends as the reference decoder says
(`decodePayload_done`), and a pixel is read back at its place since no two pixels share one (`rasterAddr_inj`). -/
theorem decodeImageResult : Obligations.DecodeImageResult := by
  intro fmt s pl syms img w h hready hgeo hapart hdst hpl hreach hsyms himg
  obtain ⟨hw, -, hw8, -⟩ := geometry_ok hgeo
  have hcheck := decodeImageCheck_passes hpl hgeo hapart hdst
  have hfoot := footprintOf_of_check ((congrFun (commandCheck_decodeImageOf s.cfg fmt) s).trans hcheck)
  have hlen := refHuffman_length hsyms
  have hcount : img.1.length = w / 8 * (h / 8) := refBlocks_length _ himg
  have hdstScr : s.regs.dstWindow.overlaps s.regs.scrWindow = false := (List.pairwise_cons.mp hapart.1).1 _ (by simp)
  have hdstSrc : s.regs.dstWindow.overlaps s.regs.srcWindow = false := hapart.2 _ (by simp) _ (by simp)
  have hscrSrc : s.regs.scrWindow.overlaps s.regs.srcWindow = false := hapart.2 _ (by simp) _ (by simp)
  have hplace : ∀ c < w / 8 * (h / 8), ∀ q < 64, ∀ i < bpp fmt,
      ∃ j < w * h * bpp fmt, rasterAddr fmt s.regs.dstAddr.toNat w c q + i = s.regs.dstAddr.toNat + j :=
    fun c hc q hq i hi => ⟨_, pixel_bytes_lt (raster_in_image hgeo hc hq) hi, Nat.add_assoc ..⟩
  have haway := hpl.away hdstScr hdstSrc fun c hc q hq i hi =>
    (hplace c hc q hq i hi).imp fun j hj => ⟨hj.1.trans_le hdst, hj.2⟩
  obtain ⟨u, hbody, hdone⟩ := decodePayload_done hpl hready hscrSrc hsyms
    [⟨s.regs.scrAddr.toNat, pl.ds⟩, imageFootprint fmt s.regs] pl.offsets himg
    (fun c hc q hq i hi => by
      obtain ⟨j, hj, heq⟩ := hplace c hc q hq i hi
      rw [heq]
      exact hreach j hj) haway
  rw [← decodeImageBody_run, ← commandBody_decodeImageOf] at hbody
  rw [← commandCheck_decodeImageOf] at hcheck
  have hexec := exec_of_finished hready.interfered hcheck hbody
  have hrun : CommandRun (decodeImageOf fmt) s u none := .finished hcheck hbody
  have houtside := exec_sameOutside_footprint hexec hready.interfered
  rw [hfoot] at houtside
  have hstored := hdone.symbolsStored hready.mem hlen (hpl.room.trans_lt s.regs.scrLen.isLt) fun k hk => by
    rw [hcount]
    exact haway.scratch k hk
  refine ⟨_, hexec, hrun.finished_endCommand, hdone.tablesBuilt, ⟨hstored.bytes, hstored.count, hstored.short⟩,
    fun x hx => (endCommand_warned u x).trans (hdone.warned_of_ne hx), hdone.animCur, hcount,
    fun b planes hb px hpx k hk => hdone.read_pixel hready.mem hb hpx hk fun c _ q hq i hi hlater heq => ?_,
    houtside⟩
  obtain ⟨rfl, rfl⟩ := rasterAddr_inj hw hw8 hq hpx hi hk heq
  omega

end Sys2Proof.Machine
end

section
/-!
PROOF. The dequantizer's tables (spec/42_dequant.md rules R140-R145): the scale factor over each range of qualities, an
entry as the spec's formula over the integers, and QT_BUILD, which builds both tables and ends.
-/

namespace Sys2Proof.Machine

/-! ### The scale factor -/

section
variable (p : Params) {q : Int}

theorem qFactor_of_neg (h : q < 0) : qFactor p q = 5000 := if_pos h

@[simp] theorem qFactor_zero : qFactor p 0 = p.qAtQuality0 := rfl

theorem qFactor_of_lt_fifty (h0 : 0 < q) (h : q < 50) : qFactor p q = 5000 / q.toNat := by
  rw [qFactor, if_neg h0.not_gt, if_neg h0.ne', if_pos h]

theorem qFactor_of_lt_hundred (h50 : 50 ≤ q) (h : q < 100) : qFactor p q = (100 - q.toNat) * 2 := by
  rw [qFactor, if_neg (by omega), if_neg (by omega), if_neg h50.not_gt, if_pos h]

theorem qFactor_of_hundred_le (h : 100 ≤ q) : qFactor p q = 0 := by
  rw [qFactor, if_neg (by omega), if_neg (by omega), if_neg (by omega), if_neg h.not_gt]

theorem coe_qFactor_of_lt_fifty (h0 : 0 < q) (h : q < 50) : (qFactor p q : Int) = 5000 / q := by
  rw [qFactor_of_lt_fifty p h0 h, Int.natCast_ediv, Int.toNat_of_nonneg h0.le]
  rfl

theorem coe_qFactor_of_lt_hundred (h50 : 50 ≤ q) (h : q < 100) : (qFactor p q : Int) = (100 - q) * 2 := by
  rw [qFactor_of_lt_hundred p h50 h]
  omega

/-- R140: no quality scales by more than 5000, the factor at quality 1, unless P15 does at quality 0. -/
theorem qFactor_le (hp : p.qAtQuality0 ≤ 5000) (q : Int) : qFactor p q ≤ 5000 := by
  obtain h | rfl | h := lt_trichotomy q 0
  · exact (qFactor_of_neg p h).le
  · exact hp
  · obtain h50 | h50 := lt_or_ge q 50
    · exact (qFactor_of_lt_fifty p h h50).trans_le (Nat.div_le_self ..)
    · obtain h100 | h100 := lt_or_ge q 100
      · rw [qFactor_of_lt_hundred p h50 h100]
        omega
      · exact (qFactor_of_hundred_le p h100).trans_le (Nat.zero_le _)

end

/-! ### A table entry -/

section
variable (base mult : BitVec 16) (q : Nat)

/-- R141: the scaled entry is the `clamp` of R9 on the rounded quotient. -/
theorem coe_scaledEntry : (scaledEntry base q : Int) = clamp (((base.toNat : Int) * q + 50) / 100) 8 255 := by
  simp [scaledEntry, clamp]

/-- R141: the product and its shift fit the 32 bits of an entry. -/
theorem finalEntry_toNat : (finalEntry base mult q).toNat = scaledEntry base q * mult.toNat / 2 ^ 13 := by
  have hscaled : scaledEntry base q ≤ 255 := min_le_left _ _
  have hprod : scaledEntry base q * mult.toNat ≤ 255 * 2 ^ 16 := Nat.mul_le_mul hscaled mult.isLt.le
  rw [finalEntry, BitVec.toNat_ofNat, Nat.shiftRight_eq_div_pow]
  exact Nat.mod_eq_of_lt (by omega)

theorem coe_finalEntry : ((finalEntry base mult q).toNat : Int) =
    clamp (((base.toNat : Int) * q + 50) / 100) 8 255 * mult.toNat / 2 ^ 13 := by
  rw [finalEntry_toNat, ← coe_scaledEntry]
  push_cast
  rfl

end

/-- Settles O37: the factor range by range, and the entry as the spec's formula, within the bound of R33. -/
theorem tableEntriesFollowTheQuality : Obligations.TableEntriesFollowTheQuality :=
  ⟨fun p q => ⟨qFactor_of_neg p, fun h => h ▸ qFactor_zero p, coe_qFactor_of_lt_fifty p,
      coe_qFactor_of_lt_hundred p, qFactor_of_hundred_le p, fun hp => qFactor_le p hp q⟩,
    fun b m q => ⟨coe_finalEntry b m q, finalEntry_le b m q⟩⟩

/-! ### QT_BUILD -/

theorem EndsAs.animCur {u t : State} {o : Option CmdFault} (h : EndsAs u o t) : t.regs.animCur = u.regs.animCur := by
  rw [h.regs]
  cases o <;> rfl

/-- R32: a run without a fault and its end, whatever the host did meanwhile (R81). -/
theorem CommandRun.finished_of_endsAs {i : Instr} {s u t : State} (h : CommandRun i s u none)
    (hend : EndsAs u none t) : Finished s t :=
  have hbody := h.bodyFrame
  have hfin := hend.finished
  { hbody.toCommandFrame.trans hfin.toCommandFrame with
    idle := hfin.idle
    busy := hfin.busy
    done := hfin.done
    err := hfin.err.trans hbody.err
    errcode := hfin.errcode.trans hbody.errcode
    faultInfo := hfin.faultInfo.trans hbody.faultInfo }

/-- R145: QT_BUILD has no pre-check to fail, and its body is the build of R142. -/
theorem qtBuild_run (s : State) : CommandRun .qtBuild s s.tablesBuilt none :=
  RunsTo.finished (plan := Plan.of []) rfl rfl

/-- Settles O36: the run leaves the tables built (`tablesBuilt_built`), its end changes no register, and with no written
window the host's interference changes no byte (`settle_nil_mem`). -/
theorem qtBuildBuildsBothTables : Obligations.QtBuildBuildsBothTables := by
  intro s
  have hend := endsAs_endCommand s.cfg [] s.tablesBuilt
  exact ⟨settle s.cfg [] (endCommand s.tablesBuilt), exec_eq_perform .qtBuild s,
    (qtBuild_run s).finished_of_endsAs hend, (tablesBuilt_built s).trans_same hend.sameTables, hend.warned,
    settle_nil_mem .., hend.hufOut, hend.animCur⟩

end Sys2Proof.Machine
end

section
/-!
PROOF. One channel of the entropy decode (spec/43_block_decode.md rules R160-R167): the level is sign-extended by its
top bit; `Consumes` bounds how far a piece moves the stream cursors; and past the end of the AC-code stream every code
ends the channel, so that the bound on the codes never does (R256).
-/

namespace Sys2Proof.Machine

/-! ### The level -/

/-- An integer in the range of int32 survives the wrap of R9. -/
theorem toInt_wrap32 {v : Int} (hlo : -2 ^ 31 ≤ v) (hhi : v < 2 ^ 31) : (wrap32 v).toInt = v :=
  BitVec.toInt_ofInt_eq_self (by decide) hlo hhi

section
variable {v len : Nat}

/-- R165: with its top bit set, the value is the level. -/
theorem level_toInt_of_top (hlen : len ≤ 15) (hv : v < 2 ^ len) (htop : v.testBit (len - 1) = true) :
    (level v len).toInt = v := by
  have hpow : 2 ^ len ≤ 2 ^ 15 := Nat.pow_le_pow_right (by decide) hlen
  rw [level, if_pos htop]
  exact toInt_wrap32 (by omega) (by omega)

/-- R165: with its top bit clear, the value is shifted down by the largest value of `len` bits. -/
theorem level_toInt_of_not_top (hlen : len ≤ 15) (hv : v < 2 ^ len) (htop : v.testBit (len - 1) = false) :
    (level v len).toInt = v - (2 ^ len - 1) := by
  have hpow : 2 ^ len ≤ 2 ^ 15 := Nat.pow_le_pow_right (by decide) hlen
  rw [level, if_neg (by simp [htop])]
  zify at hpow hv
  exact toInt_wrap32 (by omega) (by omega)

theorem lt_half_of_not_top (hlen : 1 ≤ len) (hv : v < 2 ^ len) (htop : v.testBit (len - 1) = false) :
    v < 2 ^ (len - 1) := by
  by_contra hle
  have hset := Nat.testBit_of_two_pow_le_and_two_pow_add_one_gt (i := len - 1) (Nat.le_of_not_lt hle)
    (by rwa [Nat.sub_add_cancel hlen])
  simp [htop] at hset

end

/-- Settles O30: the top bit says in which half of its range the value lies. -/
theorem levelIsSignExtended : Obligations.LevelIsSignExtended := by
  intro v len hlen hlen15 hv
  have hdouble : (2 : Int) ^ len = 2 * 2 ^ (len - 1) := by rw [← pow_succ', Nat.sub_add_cancel hlen]
  have hvInt : (v : Int) < 2 ^ len := by exact_mod_cast hv
  refine ⟨fun htop => ?_, fun htop => ?_⟩
  · have hhalf : (2 : Int) ^ (len - 1) ≤ v := by exact_mod_cast Nat.ge_two_pow_of_testBit htop
    rw [level_toInt_of_top hlen15 hv htop]
    exact ⟨rfl, hhalf, by omega⟩
  · have hhalf : (v : Int) < 2 ^ (len - 1) := by exact_mod_cast lt_half_of_not_top hlen hv htop
    rw [level_toInt_of_not_top hlen15 hv htop]
    exact ⟨rfl, by omega, by omega⟩

/-! ### How far a piece moves the cursors -/

/-- The AC-code cursor moved forward by at most `codes`, the AC-data cursor by at most `bits`, and the DC-data cursor
by `dc`. -/
structure Moved (codes bits dc : Nat) (s t : State) : Prop where
  forward : s.hidden.j ≤ t.hidden.j
  codes : t.hidden.j ≤ s.hidden.j + codes
  bits : t.hidden.acur ≤ s.hidden.acur + bits
  dc : t.hidden.dcur = s.hidden.dcur + dc

/-- Whenever the piece ends without a fault, it has moved the cursors so far. -/
def Consumes {α : Type} (codes bits dc : Nat) (m : Engine α) : Prop :=
  ∀ s a t, m s = .ok a t → Moved codes bits dc s t

section
variable {α β : Type} {c c' c'' b b' b'' d d' d'' : Nat}

theorem Consumes.mono {m : Engine α} (h : Consumes c b d m) (hc : c ≤ c') (hb : b ≤ b') : Consumes c' b' d m :=
  fun s a t hm =>
    have k := h s a t hm
    ⟨k.forward, k.codes.trans (by omega), k.bits.trans (by omega), k.dc⟩

theorem consumes_pure (a : α) : Consumes 0 0 0 (pure a : Engine α) := by
  intro s a t h
  cases h
  exact ⟨le_rfl, le_rfl, le_rfl, rfl⟩

theorem consumes_pure_within (a : α) : Consumes c b 0 (pure a : Engine α) :=
  (consumes_pure a).mono (Nat.zero_le _) (Nat.zero_le _)

theorem consumes_warn (w : Warning) : Consumes 0 0 0 (warn w) := by
  intro s a t h
  cases h
  exact ⟨le_rfl, le_rfl, le_rfl, rfl⟩

/-- In sequence the bounds add up; with what the first piece answered at hand. -/
theorem consumes_bind_of_ok {m : Engine α} {f : α → Engine β} (hm : Consumes c b d m)
    (hf : ∀ a s t, m s = .ok a t → Consumes c' b' d' (f a)) (hc : c + c' ≤ c'' := by omega)
    (hb : b + b' ≤ b'' := by omega) (hd : d + d' = d'' := by omega) : Consumes c'' b'' d'' (m >>= f) := by
  intro s a u h
  obtain ⟨x, t, hx, hrest⟩ := Engine.bind_eq_ok h
  obtain ⟨hfwd, hcodes, hbits, hdc⟩ := hm s x t hx
  obtain ⟨hfwd', hcodes', hbits', hdc'⟩ := hf x s t hx t a u hrest
  constructor <;> omega

theorem consumes_bind {m : Engine α} {f : α → Engine β} (hm : Consumes c b d m) (hf : ∀ a, Consumes c' b' d' (f a))
    (hc : c + c' ≤ c'' := by omega) (hb : b + b' ≤ b'' := by omega) (hd : d + d' = d'' := by omega) :
    Consumes c'' b'' d'' (m >>= f) := consumes_bind_of_ok hm (fun a _ _ _ => hf a) hc hb hd

theorem consumes_ite {q : Prop} [Decidable q] {m n : Engine α} (hm : q → Consumes c b d m)
    (hn : ¬q → Consumes c b d n) : Consumes c b d (if q then m else n) := by
  split
  · next h => exact hm h
  · next h => exact hn h

end

/-! ### Bits and codes -/

section
variable {p : Params} {pl : Plan}

theorem hidden_of_bitAC_ok {s t : State} {x : Bool} (h : bitAC p pl s = .ok x t) :
    t.hidden = { s.hidden with acur := s.hidden.acur + 1 } := by
  unfold bitAC at h
  dsimp only at h
  split at h
  · cases h; rfl
  · split at h <;> cases h
    rfl

theorem hidden_of_bitDC_ok {s t : State} {x : Bool} (h : bitDC p pl s = .ok x t) :
    t.hidden = { s.hidden with dcur := s.hidden.dcur + 1 } := by
  unfold bitDC at h
  dsimp only at h
  split at h
  · cases h
  · split at h <;> cases h
    rfl

theorem hidden_of_acCodeByte_ok {s t : State} {x : Byte} (h : acCodeByte p pl s = .ok x t) :
    t.hidden = { s.hidden with j := s.hidden.j + 1 } := by
  unfold acCodeByte at h
  dsimp only at h
  split at h
  · cases h; rfl
  · split at h <;> cases h
    rfl

theorem consumes_bitAC : Consumes 0 1 0 (bitAC p pl) := by
  intro s x t h
  have hid := hidden_of_bitAC_ok h
  constructor <;> simp [hid]

theorem consumes_bitDC : Consumes 0 0 1 (bitDC p pl) := by
  intro s x t h
  have hid := hidden_of_bitDC_ok h
  constructor <;> simp [hid]

theorem consumes_acCodeByte : Consumes 1 0 0 (acCodeByte p pl) := by
  intro s x t h
  have hid := hidden_of_acCodeByte_ok h
  constructor <;> simp [hid]

theorem consumes_readBits {next : Engine Bool} {b d : Nat} (hnext : Consumes 0 b d next) (n : Nat) :
    ∀ t v, Consumes 0 (n * b) (n * d) (readBits p next n t v) := by
  induction n with
  | zero => simp only [Nat.zero_mul]; exact fun t v => consumes_pure v
  | succ n ih =>
    intro t v
    rw [Nat.succ_mul, Nat.succ_mul]
    exact consumes_bind hnext fun _ => ih _ _

/-- R164: a level of `len` bits. -/
theorem consumes_levelCode (k len : Nat) (zz : Block) : Consumes 0 len 0 (levelCode p pl k len zz) := by
  have hdrop : Consumes 0 0 0 (do warn .posOverflow; pure (zz, none) : Engine (Block × Option Nat)) :=
    consumes_bind (consumes_warn _) fun _ => consumes_pure _
  exact consumes_ite (fun _ => hdrop.mono le_rfl (Nat.zero_le _)) fun _ =>
    consumes_bind (consumes_readBits consumes_bitAC len 0 0) fun _ =>
      consumes_ite (fun _ => hdrop) fun _ => consumes_pure _

/-- R161-R164: one AC code reads a level of at most 15 bits. -/
theorem consumes_acCode (k : Nat) (zz : Block) (x : Byte) : Consumes 0 15 0 (acCode p pl k zz x) :=
  consumes_ite (fun _ => consumes_pure_within _) fun _ => consumes_ite (fun _ => consumes_pure_within _) fun _ =>
    consumes_ite (fun _ => consumes_bind (consumes_warn _) fun _ => consumes_pure _) fun _ =>
      (consumes_levelCode _ _ zz).mono le_rfl (by omega)

theorem next_of_levelCode_ok {k len k' : Nat} {zz zz' : Block} {s t : State}
    (h : levelCode p pl k len zz s = .ok (zz', some k') t) : k' = k + 1 := by
  unfold levelCode at h
  split at h
  · cases h
  · obtain ⟨v, u, -, h⟩ := Engine.bind_eq_ok h
    split at h <;> cases h
    rfl

/-- R162, R164: a code after which the channel goes on moves the position forward. -/
theorem lt_of_acCode_ok {k k' : Nat} {zz zz' : Block} {x : Byte} {s t : State}
    (h : acCode p pl k zz x s = .ok (zz', some k') t) : k < k' := by
  unfold acCode at h
  split at h
  · cases h
  split at h
  · cases h; omega
  split at h
  · cases h
  · rw [next_of_levelCode_ok h]
    omega

/-! ### The AC loop -/

/-- R161, R167: the loop reads at most `c` codes where its bound is at most `c`, or where under STOP_AT_64 no more than
`c` positions are left. -/
theorem consumes_acLoop (n : Nat) : ∀ {k c : Nat} {zz : Block},
    n ≤ c ∨ p.fullBlockPolicy = .stopAt64 ∧ 64 ≤ k + c → Consumes c (c * 15) 0 (acLoop p pl n k zz) := by
  induction n with
  | zero => exact fun _ => consumes_pure_within _
  | succ n ih =>
    intro k c zz hc
    refine consumes_ite (fun _ => consumes_pure_within zz) fun hgo => ?_
    rw [← Bool.decide_and, decide_eq_true_eq] at hgo
    have hpos : 0 < c := by
      obtain hn | ⟨hstop, hk⟩ := hc
      · omega
      · have hroom : ¬63 < k := mt (And.intro hstop) hgo
        omega
    refine consumes_bind (c' := c - 1) (b' := c * 15) (d' := 0) consumes_acCodeByte fun x =>
      consumes_bind_of_ok (c' := c - 1) (b' := (c - 1) * 15) (d' := 0) (consumes_acCode k zz x) ?_
    rintro ⟨zz', _ | k'⟩ s t hcode
    · exact consumes_pure_within zz'
    · have hnext := lt_of_acCode_ok hcode
      exact ih (hc.imp (by omega) fun ⟨hstop, hk⟩ => ⟨hstop, by omega⟩)

/-- R76, R161: past the end of the AC-code stream a code ends the channel, so a bound above the codes that are left is
never what ends the loop (R256). -/
theorem acLoop_congr_bound (n : Nat) : ∀ {m k : Nat} {zz : Block} {s : State},
    pl.ds < s.hidden.j + n → pl.ds < s.hidden.j + m → 0 < n → 0 < m →
      acLoop p pl n k zz s = acLoop p pl m k zz s := by
  induction n with
  | zero => exact fun _ _ hn => absurd hn (lt_irrefl 0)
  | succ n ih =>
    intro m k zz s hn hm _ hpos
    obtain ⟨m, rfl⟩ := Nat.exists_eq_succ_of_ne_zero hpos.ne'
    rw [acLoop, acLoop]
    split
    · rfl
    rw [Engine.bind_run, Engine.bind_run]
    cases hbyte : acCodeByte p pl s with
    | error f t => rfl
    | ok x t =>
      have hj : t.hidden.j = s.hidden.j + 1 := by rw [hidden_of_acCodeByte_ok hbyte]
      simp only [Engine.bind_run]
      cases hcode : acCode p pl k zz x t with
      | error f u => rfl
      | ok r u =>
        obtain ⟨zz', _ | k'⟩ := r
        · rfl
        · have hj' := (consumes_acCode k zz x t _ u hcode).forward
          have hin : s.hidden.j < pl.ds := by
            by_contra hpast
            rw [acCodeByte_past (Nat.le_of_not_lt hpast)] at hbyte
            cases hbyte
            cases hcode
          exact ih (by omega) (by omega) (by omega) (by omega)

/-! ### The channel -/

/-- R61, R73: DC data that runs out, and a byte the port cannot reach. -/
theorem guarded_decodeChannel {r : Regs} {P : CmdFault → Prop} {W : Nat → Prop} (hbus : AllowsBus p W P)
    (hpl : PlanWithin W r pl) (hdc : ∀ n, P ⟨.dcOverrun, n⟩) : Guarded (AtPointers r) P (decodeChannel p pl) :=
  guarded_bind (guarded_readBits (guarded_bitDC hbus hpl hdc) _ _ _) fun _ => guarded_acLoop hbus hpl _ _ _

/-- R160, R167: a channel reads its DC value and then at most `c` codes. -/
theorem consumes_decodeChannel {c : Nat} (hc : pl.ds + 1 ≤ c ∨ p.fullBlockPolicy = .stopAt64 ∧ 63 ≤ c) :
    Consumes c (c * 15) 8 (decodeChannel p pl) :=
  consumes_bind (consumes_readBits consumes_bitDC 8 0 0) fun _ =>
    consumes_acLoop _ (hc.imp_right fun ⟨hstop, h⟩ => ⟨hstop, by omega⟩)

theorem fault_of_decodeChannel_error {s t : State} {f : CmdFault} (h : decodeChannel p pl s = .error f t) :
    f.code = .dcOverrun ∨ f.code = .busError := by
  have hall : PlanWithin (fun _ => True) s.regs pl :=
    ⟨fun _ _ => trivial, fun _ _ => trivial, fun _ _ => trivial, fun _ _ => trivial⟩
  have hbus : AllowsBus p (fun _ => True) fun f => f.code = .dcOverrun ∨ f.code = .busError := fun _ _ _ => .inr rfl
  have hguard := guarded_decodeChannel hbus hall (fun _ => .inl rfl) s (atPointers_self s)
  rwa [h] at hguard

end

/-- Settles O31: the DC bits from any bound on the codes, the rest from the 63 positions STOP_AT_64 leaves. -/
theorem channelBounds : Obligations.ChannelBounds := by
  refine ⟨fun s t pl zz h => ⟨?_, fun hstop => ?_⟩, fun s t pl f => fault_of_decodeChannel_error,
    fun s pl k n zz hn => acLoop_congr_bound n (by omega) (by omega) (by omega) (by omega)⟩
  · exact (consumes_decodeChannel (.inl le_rfl) s zz t h).dc
  · obtain ⟨-, hcodes, hbits, -⟩ := consumes_decodeChannel (.inr ⟨hstop, le_rfl⟩) s zz t h
    exact ⟨by omega, hbits⟩

end Sys2Proof.Machine
end

section
/-!
PROOF. The inverse DCT (spec/44_idct.md rules R175, R176, R178, R179): the fixed-point multiply and the descale as
divisions, the two passes element by element, and what the reference kernel makes of a block with only a DC coefficient.
-/

namespace Sys2Proof.Machine

/-! ### Shifts as divisions -/

theorem asr_eq_ediv (v : Int) (n : Nat) : asr v n = v / 2 ^ n := Int.shiftRight_eq_div_pow v n

/-- R176: the fixed-point multiply is a floor division of the exact, or of the wrapped, product by 2^16. -/
theorem mulK_eq_ediv (a : Word) (k : Int) :
    mulK .bits64 a k = wrap32 (a.toInt * k / 65536) ∧
      mulK .bits32 a k = wrap32 ((wrap32 (a.toInt * k)).toInt / 65536) := by
  simp only [mulK, asr_eq_ediv]
  exact ⟨rfl, rfl⟩

@[simp] theorem mulK_zero (w : ProductBits) (k : Int) : mulK w 0#32 k = 0#32 := by
  cases w <;> simp [mulK, asr]

/-! ### The descale -/

/-- R179: the 15 is added where the value is negative, so the addition does not wrap. -/
theorem toInt_wrap32_descaleBias (v : Word) :
    (wrap32 (v.toInt + if v.toInt < 0 then 15 else 0)).toInt = v.toInt + if v.toInt < 0 then 15 else 0 := by
  have hlo : -2 ^ 31 ≤ v.toInt := v.le_toInt
  have hhi : v.toInt < 2 ^ 31 := v.toInt_lt
  split <;> exact toInt_wrap32 (by omega) (by omega)

/-- R179: 15 more on a negative value turns the floor of the division by 16 into its truncation toward zero. -/
theorem descaleBias_ediv (v : Int) : (v + if v < 0 then 15 else 0) / 2 ^ 4 = v.tdiv 16 := by
  split
  · rw [Int.tdiv_eq_ediv, show Int.sign 16 = 1 from rfl]
    omega
  · rw [add_zero, Int.tdiv_eq_ediv_of_nonneg (by omega)]
    rfl

/-- R179: the descale of any int32 is its truncated sixteenth, clamped. -/
theorem descale_toInt (v : Word) : (descale v).toInt = clamp (v.toInt.tdiv 16) (-128) 128 := by
  have hlo := le_clamp (v.toInt.tdiv 16) (-128) 128 (by decide)
  have hhi := clamp_le (v.toInt.tdiv 16) (-128) 128
  rw [descale, toInt_wrap32_descaleBias, asr_eq_ediv, descaleBias_ediv]
  exact toInt_wrap32 (by omega) (by omega)

theorem descale_range (v : Word) : -128 ≤ (descale v).toInt ∧ (descale v).toInt ≤ 128 := by
  rw [descale_toInt]
  exact ⟨le_clamp _ _ _ (by decide), clamp_le _ _ _⟩

/-- Settles O41: the constants by evaluation, the multiply and the descale as divisions. -/
theorem fixedPointSteps : Obligations.FixedPointSteps :=
  ⟨⟨rfl, rfl, rfl, rfl⟩, mulK_eq_ediv, descale_toInt⟩

/-! ### The two passes -/

theorem columnPass_getElem (p : Params) (b : Block) (r x : Fin 8) :
    (columnPass p b)[r.val * 8 + x.val] = (kernel1d p (column b x))[r.val] := by
  have hrow : (r.val * 8 + x.val) / 8 = r.val := by omega
  have hcol : (r.val * 8 + x.val) % 8 = x.val := by omega
  simp only [columnPass, Vector.getElem_ofFn, hrow, hcol]

theorem rowPass_getElem (p : Params) (b : Block) (r x : Fin 8) :
    (rowPass p b)[r.val * 8 + x.val] = (kernel1d p (row b r))[x.val] := by
  have hrow : (r.val * 8 + x.val) / 8 = r.val := by omega
  have hcol : (r.val * 8 + x.val) % 8 = x.val := by omega
  simp only [rowPass, Vector.getElem_ofFn, hrow, hcol]

/-- R175: row `r` between the passes holds element `r` of each transformed column. -/
theorem row_columnPass (p : Params) (b : Block) (r : Fin 8) :
    row (columnPass p b) r = Vector.ofFn fun y : Fin 8 => (kernel1d p (column b y))[r.val] :=
  congrArg Vector.ofFn (funext fun y => columnPass_getElem p b r y)

/-- R175: an output is the descale of its row's transform, whose inputs come from the transformed columns. -/
theorem idct2D_getElem (p : Params) (b : Block) (r x : Fin 8) :
    (idct2D p b)[r.val * 8 + x.val] =
      descale (kernel1d p (Vector.ofFn fun y : Fin 8 => (kernel1d p (column b y))[r.val]))[x.val] := by
  simp only [idct2D, Vector.getElem_map, rowPass_getElem, row_columnPass]

/-- R178: every output is in the descale's range, whatever the kernel. -/
theorem idct2D_range (p : Params) (b : Block) (i : Fin 64) :
    -128 ≤ (idct2D p b)[i.val].toInt ∧ (idct2D p b)[i.val].toInt ≤ 128 := by
  rw [idct2D, Vector.getElem_map]
  exact descale_range _

/-! ### Only a DC coefficient -/

/-- The input of the kernel whose first element is `d` and whose others are 0. -/
def dcInput (d : Word) : Vector Word 8 := #v[d, 0, 0, 0, 0, 0, 0, 0]

theorem ofFn_eq_dcInput (d : Word) : (Vector.ofFn fun y : Fin 8 => if y = 0 then d else 0) = dcInput d := rfl

/-- R178: no product of the reference kernel has the first input in it, so all are 0 and the sums leave `d`. -/
theorem referenceKernel_dcInput (w : ProductBits) (d : Word) :
    referenceKernel w (dcInput d) = Vector.replicate 8 d :=
  calc referenceKernel w (dcInput d)
      _ = #v[d, d, d, d, d, d, d, d] := by simp [referenceKernel, dcInput]
      _ = Vector.replicate 8 d := rfl

theorem column_set_zero (d : Word) (y : Fin 8) :
    column (Block.zero.set 0 d) y = dcInput (if y = 0 then d else 0) := by
  rw [← ofFn_eq_dcInput]
  refine congrArg Vector.ofFn (funext fun r => ?_)
  rw [Vector.getElem_set, Block.zero, Vector.getElem_replicate]
  have hdc : 0 = r.val * 8 + y.val ↔ r = 0 ∧ y = 0 := by omega
  simp only [hdc, ite_and]

/-- R178: under the reference kernel a block with only a DC coefficient is flat. -/
theorem idct2D_set_zero {p : Params} (hp : p.kernel = .reference) (d : Word) (i : Fin 64) :
    (idct2D p (Block.zero.set 0 d))[i.val] = descale d := by
  have hkernel (c : Word) : kernel1d p (dcInput c) = Vector.replicate 8 c := by
    rw [kernel1d, hp]
    exact referenceKernel_dcInput _ c
  have hget := idct2D_getElem p (Block.zero.set 0 d) ⟨i.val / 8, by omega⟩ ⟨i.val % 8, by omega⟩
  simpa only [column_set_zero, hkernel, Vector.getElem_replicate, ofFn_eq_dcInput, Nat.div_add_mod'] using hget

/-- Settles O40: the passes element by element, and the DC coefficient followed through them. -/
theorem idctProperties : Obligations.IdctProperties := by
  refine ⟨idct2D_getElem, idct2D_range, referenceKernel_dcInput, fun p d i hp => ?_⟩
  rw [idct2D_set_zero hp, descale_toInt]

end Sys2Proof.Machine
end

section
/-!
PROOF. The colour conversion (spec/45_color.md rules R190-R193): Half and Div3 as divisions, and the channels of any
three int32 values and of those in the range of the image path, where no wrap acts.
-/

namespace Sys2Proof.Machine

/-! ### Half and Div3 -/

/-- R192: 1 more on a negative value turns the floor of the halving into its truncation toward zero. -/
theorem halfBias_ediv (t : Int) : (t + if t < 0 then 1 else 0) / 2 ^ 1 = t.tdiv 2 := by
  split
  · rw [Int.tdiv_eq_ediv, show Int.sign 2 = 1 from rfl]
    omega
  · rw [add_zero, Int.tdiv_eq_ediv_of_nonneg (by omega)]
    rfl

/-- R192: the 1 is added where the value is negative, so no wrap acts in Half. -/
theorem half_toInt (t : Word) : (half t).toInt = t.toInt.tdiv 2 := by
  have hlo : -2 ^ 31 ≤ t.toInt := t.le_toInt
  have hhi : t.toInt < 2 ^ 31 := t.toInt_lt
  have hbias : (wrap32 (t.toInt + if t.toInt < 0 then 1 else 0)).toInt = t.toInt + if t.toInt < 0 then 1 else 0 :=
    toInt_wrap32 (by omega) (by omega)
  rw [half, hbias, asr_eq_ediv, toInt_wrap32 (by omega) (by omega), halfBias_ediv]

theorem div3_eq_ediv (c : Word) : div3 c = wrap32 (c.toInt * 0x55555555 / 2 ^ 32) := by
  rw [div3, asr_eq_ediv]

section
variable {c : Word}

/-- R191: `3 * 0x55555555` is one less than `2 ^ 32`, so the product of a positive multiple of 3 falls just short of its
third, and no other floor changes. -/
theorem div3_toInt (hlo : -128 ≤ c.toInt) (hhi : c.toInt ≤ 128) :
    (div3 c).toInt = if 0 < c.toInt ∧ c.toInt % 3 = 0 then c.toInt / 3 - 1 else c.toInt / 3 := by
  rw [div3_eq_ediv, toInt_wrap32 (by omega) (by omega)]
  split <;> omega

/-- R191: at a multiple of 3 the difference is the negative even number `-2 * (c / 3)`, and 1 less has the same Half. -/
theorem half_div3_sub_toInt (hlo : -128 ≤ c.toInt) (hhi : c.toInt ≤ 128) :
    (half (div3 c - c)).toInt = (c.toInt / 3 - c.toInt).tdiv 2 := by
  have hd3 := div3_toInt hlo hhi
  have hsub : (div3 c - c).toInt = (div3 c).toInt - c.toInt := by
    rw [BitVec.toInt_sub, ← BitVec.toInt_ofInt]
    exact toInt_wrap32 (by omega) (by omega)
  rw [half_toInt, hsub, hd3, ← halfBias_ediv, ← halfBias_ediv]
  omega

end

/-- R190, R191: Half of the wrapped difference, with Div3 as a wrapped floor. -/
theorem half_div3_sub_eq_tdiv (c : Word) :
    (half (div3 c - c)).toInt =
      (wrap32 ((wrap32 (c.toInt * 0x55555555 / 2 ^ 32)).toInt - c.toInt)).toInt.tdiv 2 := by
  rw [half_toInt, BitVec.toInt_sub, ← BitVec.toInt_ofInt, div3_eq_ediv]

/-! ### The channels of any int32 values -/

/-- R193: a tenth of an int32 value needs no wrap. -/
theorem toInt_wrap32_tenth (w : Word) : (wrap32 (tdiv w.toInt 10)).toInt = w.toInt.tdiv 10 := by
  have hlo : -2 ^ 31 ≤ w.toInt := w.le_toInt
  have hhi : w.toInt < 2 ^ 31 := w.toInt_lt
  have habs : (w.toInt.tdiv 10).natAbs = w.toInt.natAbs / 10 := Int.natAbs_tdiv w.toInt 10
  exact toInt_wrap32 (by rw [tdiv]; omega) (by rw [tdiv]; omega)

theorem toInt_add_128_eq_wrap32 (y : Word) : (y + 128).toInt = (wrap32 (y.toInt + 128)).toInt := by
  rw [BitVec.toInt_add, BitVec.toInt_ofInt]
  rfl

section
variable (y cb cr : Word)

theorem color_r_toNat :
    ((color y cb cr).r.toNat : Int) =
      clamp (wrap32 ((wrap32 (y.toInt + 128)).toInt + (wrap32 (2 * cb.toInt)).toInt)).toInt 0 255 := by
  rw [color, toByte_toNat, BitVec.toInt_add, toInt_add_128_eq_wrap32, BitVec.toInt_mul, ← BitVec.toInt_ofInt,
    ← BitVec.toInt_ofInt]
  rfl

theorem color_g_toNat :
    ((color y cb cr).g.toNat : Int) =
      clamp (wrap32 ((wrap32 ((wrap32 (y.toInt + 128)).toInt + (half (div3 cb - cb)).toInt)).toInt -
        (wrap32 (cr.toInt * 8)).toInt.tdiv 10)).toInt 0 255 := by
  rw [color, toByte_toNat, BitVec.toInt_sub, toInt_wrap32_tenth, BitVec.toInt_add, toInt_add_128_eq_wrap32,
    BitVec.toInt_mul, ← BitVec.toInt_ofInt, ← BitVec.toInt_ofInt, ← BitVec.toInt_ofInt]
  rfl

theorem color_b_toNat :
    ((color y cb cr).b.toNat : Int) =
      clamp (wrap32 ((wrap32 (y.toInt + 128)).toInt + (wrap32 (cr.toInt * 16)).toInt.tdiv 10)).toInt 0 255 := by
  rw [color, toByte_toNat, BitVec.toInt_add, toInt_wrap32_tenth, toInt_add_128_eq_wrap32, BitVec.toInt_mul,
    ← BitVec.toInt_ofInt, ← BitVec.toInt_ofInt]
  rfl

end

/-! ### The channels in the range of the image path -/

section
variable {y cb cr : Word}

theorem toInt_wrap32_luma (hlo : -128 ≤ y.toInt) (hhi : y.toInt ≤ 128) :
    (wrap32 (y.toInt + 128)).toInt = y.toInt + 128 :=
  toInt_wrap32 (by omega) (by omega)

theorem color_r_of_range (hylo : -128 ≤ y.toInt) (hyhi : y.toInt ≤ 128) (hlo : -128 ≤ cb.toInt) (hhi : cb.toInt ≤ 128) :
    ((color y cb cr).r.toNat : Int) = clamp (y.toInt + 128 + 2 * cb.toInt) 0 255 := by
  have hcb : (wrap32 (2 * cb.toInt)).toInt = 2 * cb.toInt := toInt_wrap32 (by omega) (by omega)
  rw [color_r_toNat, toInt_wrap32_luma hylo hyhi, hcb, toInt_wrap32 (by omega) (by omega)]

theorem color_g_of_range (hylo : -128 ≤ y.toInt) (hyhi : y.toInt ≤ 128) (hblo : -128 ≤ cb.toInt)
    (hbhi : cb.toInt ≤ 128) (hrlo : -128 ≤ cr.toInt) (hrhi : cr.toInt ≤ 128) :
    ((color y cb cr).g.toNat : Int) =
      clamp (y.toInt + 128 + (cb.toInt / 3 - cb.toInt).tdiv 2 - (8 * cr.toInt).tdiv 10) 0 255 := by
  have hcr : (wrap32 (cr.toInt * 8)).toInt = 8 * cr.toInt := by
    rw [mul_comm]
    exact toInt_wrap32 (by omega) (by omega)
  have hhalf := Int.natAbs_tdiv_le_natAbs (cb.toInt / 3 - cb.toInt) 2
  have htenth := Int.natAbs_tdiv_le_natAbs (8 * cr.toInt) 10
  have hsum : (wrap32 (y.toInt + 128 + (cb.toInt / 3 - cb.toInt).tdiv 2)).toInt =
      y.toInt + 128 + (cb.toInt / 3 - cb.toInt).tdiv 2 := toInt_wrap32 (by omega) (by omega)
  rw [color_g_toNat, toInt_wrap32_luma hylo hyhi, half_div3_sub_toInt hblo hbhi, hsum, hcr,
    toInt_wrap32 (by omega) (by omega)]

theorem color_b_of_range (hylo : -128 ≤ y.toInt) (hyhi : y.toInt ≤ 128) (hlo : -128 ≤ cr.toInt) (hhi : cr.toInt ≤ 128) :
    ((color y cb cr).b.toNat : Int) = clamp (y.toInt + 128 + (16 * cr.toInt).tdiv 10) 0 255 := by
  have hcr : (wrap32 (cr.toInt * 16)).toInt = 16 * cr.toInt := by
    rw [mul_comm]
    exact toInt_wrap32 (by omega) (by omega)
  have htenth := Int.natAbs_tdiv_le_natAbs (16 * cr.toInt) 10
  rw [color_b_toNat, toInt_wrap32_luma hylo hyhi, hcr, toInt_wrap32 (by omega) (by omega)]

end

/-- Settles O43: the channels with every wrap, Half and Div3 as divisions, and the range in which no wrap acts. -/
theorem colorFollowsTheRules : Obligations.ColorFollowsTheRules := by
  refine ⟨fun y cb cr => ⟨color_r_toNat y cb cr, ?_, color_b_toNat y cb cr⟩, half_toInt,
    fun c hlo hhi => ⟨div3_toInt hlo hhi, half_div3_sub_toInt hlo hhi⟩,
    fun y cb cr hylo hyhi hblo hbhi hrlo hrhi =>
      ⟨color_r_of_range hylo hyhi hblo hbhi, color_g_of_range hylo hyhi hblo hbhi hrlo hrhi,
        color_b_of_range hylo hyhi hrlo hrhi⟩⟩
  rw [color_g_toNat, half_div3_sub_eq_tdiv]

end Sys2Proof.Machine
end

section
/-!
PROOF. The pre-checks of DECODE_IMAGE, in their order (spec/46_image.md rule R208, spec/60_exceptions.md R251-R254).
-/

namespace Sys2Proof.Machine

/-! ### Single checks -/

/-- R208: a geometry is rejected exactly when a side is 0, no multiple of 8 or above MAX_DIM. -/
theorem badGeometry_iff (w h : Nat) :
    badGeometry w h = true ↔ w = 0 ∨ h = 0 ∨ w % 8 ≠ 0 ∨ h % 8 ≠ 0 ∨ 10000 < w ∨ 10000 < h := by
  simp only [badGeometry, Bool.or_eq_true, beq_iff_eq, bne_iff_ne, decide_eq_true_eq, or_assoc]
  exact Iff.rfl

theorem overlapCheck_of_not_apart {written read : List Window} (h : ¬Apart written read) (s : State) :
    overlapCheck written read s = .error ⟨.overlap, 0⟩ s := by
  classical
  rw [overlapCheck_run, if_neg h]

/-- R70, R208: a fault of the parse is the fault of the payload's check. -/
theorem payloadCheck_of_parse_fault {p : Params} {s u : State} {f : CmdFault} (h : payloadParse p s = .error f u) :
    payloadCheck p s = .error f s := by
  obtain rfl := pure_payloadParse.error h
  exact Engine.bind_error h

/-- R208: a declared length that scratch has no room for. -/
theorem payloadCheck_of_short_scratch {p : Params} {s u : State} {pl : Plan} (h : payloadParse p s = .ok pl u)
    (hshort : s.regs.scrLen.toNat < pl.ds) : payloadCheck p s = .error ⟨.scratchOverflow, pl.ds⟩ s := by
  obtain rfl := pure_payloadParse.ok h
  rw [payloadCheck, Engine.bind_ok h, Engine.bind_ok (Engine.regVal_run _ _), faultIf_bind_of_fails hshort]

/-! ### The checks in order -/

section
variable {p : Params} {fmt : PixelFormat} {s : State}

theorem decodeImageCheck_of_badGeometry (h : badGeometry s.regs.width.toNat s.regs.height.toNat = true) :
    decodeImageCheck p fmt s = .error ⟨.badGeometry, 0⟩ s := by
  have hgeo : faultIf (badGeometry s.regs.width.toNat s.regs.height.toNat) .badGeometry 0 s =
      .error ⟨.badGeometry, 0⟩ s := by
    rw [h]; rfl
  rw [decodeImageCheck, Engine.bind_ok (Engine.getRegs_run s), Engine.bind_error hgeo]

variable (hgeo : badGeometry s.regs.width.toNat s.regs.height.toNat = false)
include hgeo

/-- Past the geometry, the check of the windows is next. -/
theorem decodeImageCheck_of_geometry :
    decodeImageCheck p fmt s =
      (overlapCheck [s.regs.dstWindow, s.regs.scrWindow] [s.regs.srcWindow] >>= fun _ =>
        faultIf (decide (s.regs.dstLen.toNat < s.regs.width.toNat * s.regs.height.toNat * bpp fmt)) .dstOverrun 0 >>=
          fun _ => payloadCheck p >>= fun pl =>
            pure { pl with footprint := [⟨s.regs.scrAddr.toNat, pl.ds⟩, imageFootprint fmt s.regs] }) s := by
  have hpass : faultIf (badGeometry s.regs.width.toNat s.regs.height.toNat) .badGeometry 0 s = .ok () s := by
    rw [hgeo]; rfl
  rw [decodeImageCheck, Engine.bind_ok (Engine.getRegs_run s), Engine.bind_ok hpass]

theorem decodeImageCheck_of_not_apart (h : ¬Apart [s.regs.dstWindow, s.regs.scrWindow] [s.regs.srcWindow]) :
    decodeImageCheck p fmt s = .error ⟨.overlap, 0⟩ s := by
  rw [decodeImageCheck_of_geometry hgeo, Engine.bind_error (overlapCheck_of_not_apart h s)]

variable (hapart : Apart [s.regs.dstWindow, s.regs.scrWindow] [s.regs.srcWindow])
include hapart

theorem decodeImageCheck_of_short_dst
    (h : s.regs.dstLen.toNat < s.regs.width.toNat * s.regs.height.toNat * bpp fmt) :
    decodeImageCheck p fmt s = .error ⟨.dstOverrun, 0⟩ s := by
  rw [decodeImageCheck_of_geometry hgeo, Engine.bind_ok (overlapCheck_of_apart hapart s), faultIf_bind_of_fails h]

theorem decodeImageCheck_of_payload_fault
    (hdst : s.regs.width.toNat * s.regs.height.toNat * bpp fmt ≤ s.regs.dstLen.toNat) {f : CmdFault}
    (h : payloadCheck p s = .error f s) : decodeImageCheck p fmt s = .error f s := by
  rw [decodeImageCheck_of_geometry hgeo, Engine.bind_ok (overlapCheck_of_apart hapart s),
    faultIf_bind_of_passes (Nat.not_lt.mpr hdst), Engine.bind_error h]

end

/-- Settles O54: each check raises the fault of the first condition that holds, and a pre-check's fault is all that the
command leaves (`exec_of_check_fault`). -/
theorem decodeImageChecksInOrder : Obligations.DecodeImageChecksInOrder := by
  intro fmt s hclean w h badSize apart faults
  have hgood : ¬badSize → badGeometry w h = false := fun hgeo => Bool.eq_false_iff.mpr (mt (badGeometry_iff w h).mp hgeo)
  have hfaults : ∀ {f : CmdFault}, decodeImageCheck s.cfg fmt s = .error f s → faults f.code f.info := fun hcheck =>
    exec_of_check_fault hclean ((congrFun (commandCheck_decodeImageOf s.cfg fmt) s).trans hcheck)
  exact ⟨fun hgeo => hfaults (decodeImageCheck_of_badGeometry ((badGeometry_iff w h).mpr hgeo)),
    fun hgeo hapart => hfaults (decodeImageCheck_of_not_apart (hgood hgeo) hapart),
    fun hgeo hapart hdst => hfaults (decodeImageCheck_of_short_dst (hgood hgeo) hapart hdst),
    fun hgeo hapart hdst =>
      ⟨fun f u hparse =>
        hfaults (decodeImageCheck_of_payload_fault (hgood hgeo) hapart hdst (payloadCheck_of_parse_fault hparse)),
      fun pl u hparse hroom =>
        hfaults (decodeImageCheck_of_payload_fault (hgood hgeo) hapart hdst
          (payloadCheck_of_short_scratch hparse hroom))⟩⟩

end Sys2Proof.Machine
end

section
/-!
PROOF. The raster placement (spec/46_image.md rules R207-R209): the pixels of the blocks are the pixels of the image,
each once.
-/

namespace Sys2Proof.Machine

/-- R207: the block, and the pixel in it, that pixel `n` of a row-major image of width `w` belongs to. -/
def rasterPlace (w n : Nat) : Nat × Nat :=
  (n / w / 8 * (w / 8) + n % w / 8, n / w % 8 * 8 + n % w % 8)

section
variable {w h n : Nat}

/-- Where the block and the pixel stand: both are a row and a column in base `w / 8` and in base 8. -/
theorem rasterPlace_rows (hw : 0 < w) (hw8 : w % 8 = 0) :
    (rasterPlace w n).1 / (w / 8) = n / w / 8 ∧ (rasterPlace w n).1 % (w / 8) = n % w / 8 ∧
      (rasterPlace w n).2 / 8 = n / w % 8 ∧ (rasterPlace w n).2 % 8 = n % w % 8 := by
  have hcol := Nat.mod_lt n hw
  have hblock : n % w / 8 < w / 8 := by omega
  refine ⟨?_, ?_, ?_, ?_⟩
  · rw [rasterPlace, Nat.add_comm, Nat.add_mul_div_right _ _ (by omega), Nat.div_eq_of_lt hblock, Nat.zero_add]
  · rw [rasterPlace, Nat.mul_add_mod', Nat.mod_eq_of_lt hblock]
  · simp only [rasterPlace]; omega
  · simp only [rasterPlace]; omega

/-- R207: pixel `n` of the image is where its block and its pixel are placed. -/
theorem rasterAddr_rasterPlace (fmt : PixelFormat) (dst : Nat) (hw : 0 < w) (hw8 : w % 8 = 0) :
    rasterAddr fmt dst w (rasterPlace w n).1 (rasterPlace w n).2 = dst + n * bpp fmt := by
  obtain ⟨hrow, hcol, hpixelRow, hpixelCol⟩ := rasterPlace_rows (n := n) hw hw8
  simp only [rasterAddr, hrow, hcol, hpixelRow, hpixelCol, Nat.div_add_mod', Nat.mul_comm _ w, Nat.div_add_mod]

theorem rasterPlace_lt (hw : 0 < w) (hw8 : w % 8 = 0) (hh8 : h % 8 = 0) (hn : n < w * h) :
    (rasterPlace w n).1 < w / 8 * (h / 8) ∧ (rasterPlace w n).2 < 64 := by
  have hrow : n / w < h := Nat.div_lt_of_lt_mul hn
  have hcol := Nat.mod_lt n hw
  constructor
  · rw [Nat.mul_comm (w / 8)]
    exact pixel_bytes_lt (by omega) (by omega)
  · simp only [rasterPlace]; omega

/-- R207, R209: a pixel ends inside the image. -/
theorem rasterAddr_end_le (fmt : PixelFormat) (dst : Nat) {b px : Nat} (hgeo : badGeometry w h = false)
    (hb : b < w / 8 * (h / 8)) (hpx : px < 64) : rasterAddr fmt dst w b px + bpp fmt ≤ dst + w * h * bpp fmt := by
  have hlt := Nat.mul_le_mul_right (bpp fmt) (raster_in_image hgeo hb hpx)
  rw [Nat.succ_mul] at hlt
  simp only [rasterAddr]
  omega

end

/-- Settles O52: a pixel of a block lies inside the image, each pixel of the image has its block and its pixel in it
(`rasterAddr_rasterPlace`), and no two pixels share a place (`rasterAddr_inj`). -/
theorem rasterCoversTheImageOnce : Obligations.RasterCoversTheImageOnce := by
  intro fmt dst w h hgeo
  obtain ⟨hw, -, hw8, hh8, -⟩ := geometry_ok hgeo
  refine ⟨fun b hb px hpx => ⟨rfl, rasterAddr_end_le fmt dst hgeo hb hpx⟩, fun n hn => ?_⟩
  obtain ⟨hblock, hpixel⟩ := rasterPlace_lt hw hw8 hh8 hn
  have hplace := rasterAddr_rasterPlace (n := n) fmt dst hw hw8
  refine ⟨rasterPlace w n, ⟨hblock, hpixel, hplace⟩, fun bp ⟨_, hpx, heq⟩ => ?_⟩
  obtain ⟨hb, hq⟩ := rasterAddr_inj hw hw8 hpx hpixel (bpp_pos fmt) (bpp_pos fmt)
    (congrArg (· + 0) (heq.trans hplace.symm))
  exact Prod.ext hb hq

end Sys2Proof.Machine
end

section
/-!
PROOF. COMPOSITE completes on a frame that is not empty (spec/47_composite.md rules R221-R226): the places of the
scattered pixels, and what the decode of the payload and the cursor leave.
-/

namespace Sys2Proof.Machine

/-! ### The places of the scattered pixels -/

/-- R222, R224: the pixels of blocks that fit the write window lie in it. -/
theorem scatterAddr_in_dst {fmt : PixelFormat} {dst stride len : Nat} {offsets : List Nat}
    (hfit : ∀ o ∈ offsets, (o + 7 * stride + 8) * bpp fmt ≤ len) {c q i : Nat} (hc : c < offsets.length) (hq : q < 64)
    (hi : i < bpp fmt) : ∃ j < len, scatterAddr fmt dst stride (offsets.getD c 0) q + i = dst + j := by
  obtain ⟨hlo, hhi⟩ := scatterWindows_subset hfit (scatter_in_footprint fmt dst stride offsets c q i hc hq hi)
  exact ⟨_, Nat.sub_lt_left_of_lt_add hlo hhi, (Nat.add_sub_cancel' hlo).symm⟩

/-- R222: the address of a pixel of a block, as the body of COMPOSITE takes it from the offsets the pre-checks read. -/
def Regs.listedPlace (r : Regs) (fmt : PixelFormat) (offsets : List Nat) (b px : Nat) : Nat :=
  scatterAddr fmt r.dstAddr.toNat r.dstStride.toNat (offsets.getD b 0) px

/-- R77, R222: for a block of the frame, the offset is the one in memory. -/
theorem listedPlace_eq_scatterAddr (s : State) (fmt : PixelFormat) {n b : Nat} (hb : b < n) (px : Nat) :
    s.regs.listedPlace fmt ((List.range n).map s.offset) b px =
      scatterAddr fmt s.regs.dstAddr.toNat s.regs.dstStride.toNat (s.offset b) px := by
  rw [Regs.listedPlace, offsets_getD s hb]

/-! ### The cursor -/

/-- The state AdvanceCursor leaves (R226). -/
def State.cursorAdvanced (s : State) : State :=
  s.withRegs { s.regs with animCur := advance s.regs.animCount s.regs.animCur }

theorem advanceCursor_run (s : State) : advanceCursor s = .ok () s.cursorAdvanced := rfl

/-- R224: once the payload is decoded, the body only advances the cursor. -/
theorem compositeBody_done {p : Params} {fmt : PixelFormat} {plan : Plan} {s u : State}
    (hpos : 0 < s.regs.blockCount.toNat)
    (h : decodePayload p plan fmt (s.regs.listedPlace fmt plan.offsets) s.regs.blockCount.toNat s = .ok () u) :
    compositeBody p fmt plan s = .ok () u.cursorAdvanced :=
  (compositeBody_run fmt (by omega)).trans ((Engine.bind_ok h).trans (advanceCursor_run u))

theorem PayloadDone.cursorAdvanced_animCur {s u : State} {pl : Plan} {syms : List Byte} {img : List Planes × Streams}
    {fmt : PixelFormat} {place : Nat → Nat → Nat} (h : PayloadDone s u pl syms img fmt place) :
    u.cursorAdvanced.regs.animCur = advance s.regs.animCount s.regs.animCur := by
  rw [State.cursorAdvanced, h.regs]
  rfl

/-! ### COMPOSITE -/

/-- Settles O49: the pre-checks pass, the decode of the payload ends as the reference decoder says
(`decodePayload_done`), the cursor advances, and a byte that no later pixel covers is read back
(`PayloadDone.read_pixel`). -/
theorem compositeResult : Obligations.CompositeResult := by
  intro fmt s pl syms img n place hready hpos hgeo hapart hoffs hfit hpl hreach hsyms himg
  have hcheck := compositeCheck_passes hpl hpos hgeo hapart hoffs hfit
  have hfoot := footprintOf_of_check ((congrFun (commandCheck_compositeOf s.cfg fmt) s).trans hcheck)
  have hlen := refHuffman_length hsyms
  have hcount : img.1.length = n := refBlocks_length _ himg
  have hdstScr : s.regs.dstWindow.overlaps s.regs.scrWindow = false := (List.pairwise_cons.mp hapart.1).1 _ (by simp)
  have hdstSrc : s.regs.dstWindow.overlaps s.regs.srcWindow = false := hapart.2 _ (by simp) _ (by simp)
  have hscrSrc : s.regs.scrWindow.overlaps s.regs.srcWindow = false := hapart.2 _ (by simp) _ (by simp)
  have hlisted : ∀ {b}, b < n → ∀ px, s.regs.listedPlace fmt ((List.range n).map s.offset) b px = place b px :=
    fun hb px => listedPlace_eq_scatterAddr s fmt hb px
  have haway := hpl.away hdstScr hdstSrc (place := s.regs.listedPlace fmt ((List.range n).map s.offset)) (n := n)
    fun c hc q hq i hi => scatterAddr_in_dst
      (fun o ho => by
        obtain ⟨b, hb, rfl⟩ := List.mem_map.mp ho
        exact hfit b (List.mem_range.mp hb))
      (by simpa using hc) hq hi
  obtain ⟨u, hpayload, hdone⟩ := decodePayload_done hpl hready hscrSrc hsyms
    (⟨s.regs.scrAddr.toNat, pl.ds⟩ ::
      scatterWindows fmt s.regs.dstAddr.toNat s.regs.dstStride.toNat ((List.range n).map s.offset))
    ((List.range n).map s.offset) himg
    (fun c hc q hq i hi => by
      rw [hlisted hc]
      exact hreach c hc q hq i hi) haway
  have hbody := compositeBody_done hpos hpayload
  rw [← commandBody_compositeOf] at hbody
  rw [← commandCheck_compositeOf] at hcheck
  have hexec := exec_of_finished hready.interfered hcheck hbody
  have hrun : CommandRun (compositeOf fmt) s u.cursorAdvanced none := .finished hcheck hbody
  have houtside := exec_sameOutside_footprint hexec hready.interfered
  rw [hfoot] at houtside
  have hstored := hdone.symbolsStored hready.mem hlen (hpl.room.trans_lt s.regs.scrLen.isLt) fun k hk => by
    rw [hcount]
    exact haway.scratch k hk
  refine ⟨_, hexec, hrun.finished_endCommand, hdone.tablesBuilt, ⟨hstored.bytes, hstored.count, hstored.short⟩,
    fun x hx => (endCommand_warned _ x).trans (hdone.warned_of_ne hx), hdone.cursorAdvanced_animCur, hcount,
    fun b planes hb px hpx k hk hlater => ?_, houtside⟩
  have hbn : b < n := hcount ▸ (List.getElem?_eq_some_iff.mp hb).1
  rw [← hlisted hbn]
  refine hdone.read_pixel hready.mem hb hpx hk fun c hc q hq i hi hcq => ?_
  rw [hcount] at hc
  rw [hlisted hc, hlisted hbn]
  exact hlater c hc q hq i hi hcq

end Sys2Proof.Machine
end

section
/-!
PROOF. COMPOSITE of an empty frame (spec/47_composite.md rule R225): no pre-check, and only the cursor's advance.
-/

namespace Sys2Proof.Machine

section
variable {s : State} (fmt : PixelFormat) (hempty : s.regs.blockCount.toNat = 0)
include hempty

theorem compositeCheck_empty (p : Params) : compositeCheck p fmt s = .ok (Plan.of []) s := by
  rw [compositeCheck, Engine.bind_ok (Engine.getRegs_run s), if_pos hempty, Engine.pure_run]

theorem writtenWindows_compositeOf_empty : writtenWindows s.regs (compositeOf fmt) = [] := by
  cases fmt <;> exact if_pos hempty

/-- R225: the run of an empty frame. -/
theorem compositeOf_run_empty : CommandRun (compositeOf fmt) s s.cursorAdvanced none :=
  .finished ((congrFun (commandCheck_compositeOf s.cfg fmt) s).trans (compositeCheck_empty fmt hempty s.cfg))
    ((congrFun (congrFun (commandBody_compositeOf s.cfg fmt) _) s).trans (compositeBody_empty fmt hempty))

/-- R225: an empty frame has no written window that the host's interference could make unspecified (R81). -/
theorem exec_compositeOf_empty :
    exec (compositeOf fmt) s = .next (settle s.cfg [] (endCommand s.cursorAdvanced)) := by
  rw [exec_eq_perform, writtenWindows_compositeOf_empty fmt hempty, commandCheck_compositeOf, commandBody_compositeOf,
    perform, compositeCheck_empty fmt hempty]
  simp only [compositeBody_empty fmt hempty, advanceCursor_run]

end

/-- Settles O50: with no block there is no check to fail and no byte to write, and the end of the command keeps what the
cursor's advance left; with no written window the host's interference changes no byte (`settle_nil_mem`). -/
theorem emptyFrameOnlyAdvances : Obligations.EmptyFrameOnlyAdvances := by
  intro fmt s hzero
  have hempty : s.regs.blockCount.toNat = 0 := by rw [hzero]; rfl
  have hend := endsAs_endCommand s.cfg [] s.cursorAdvanced
  exact ⟨_, exec_compositeOf_empty fmt hempty, (compositeOf_run_empty fmt hempty).finished_of_endsAs hend,
    settle_nil_mem .., hend.sameTables, hend.warned, hend.hufOut, hend.animCur⟩

end Sys2Proof.Machine
end

section
/-!
PROOF. The playback cursor (spec/47_composite.md rule R226): its advance as a number, and which commands advance it.
-/

namespace Sys2Proof.Machine

/-! ### The advance as a number -/

section
variable {count cur : Word}

theorem advance_of_count_zero (h : count = 0) : advance count cur = cur := if_pos h

theorem advance_of_last (hcount : count ≠ 0) (h : count.toNat ≤ cur.toNat + 1) : advance count cur = 0 := by
  rw [advance, if_neg hcount, if_pos h]

theorem advance_toNat_of_not_last (h : cur.toNat + 1 < count.toNat) :
    (advance count cur).toNat = cur.toNat + 1 := by
  have hcount : count ≠ 0 := by rintro rfl; exact absurd h (Nat.not_lt_zero _)
  rw [advance, if_neg hcount, if_neg (Nat.not_le.mpr h)]
  bv_omega

/-- Inside the animation an advance is the successor modulo the number of frames. -/
theorem advance_toNat_of_lt (h : cur.toNat < count.toNat) :
    (advance count cur).toNat = (cur.toNat + 1) % count.toNat := by
  obtain hnext | hlast := Nat.lt_or_ge (cur.toNat + 1) count.toNat
  · rw [advance_toNat_of_not_last hnext, Nat.mod_eq_of_lt hnext]
  · have hcount : count ≠ 0 := by rintro rfl; exact absurd h (Nat.not_lt_zero _)
    rw [advance_of_last hcount hlast, Nat.le_antisymm hlast h, Nat.mod_self]
    rfl

end

theorem iterate_advance_toNat {count : Word} (hcount : count ≠ 0) (n : Nat) :
    ((advance count)^[n] 0).toNat = n % count.toNat := by
  have hpos : 0 < count.toNat := by bv_omega
  induction n with
  | zero => exact (Nat.zero_mod _).symm
  | succ n ih =>
    have hin : ((advance count)^[n] 0).toNat < count.toNat := ih ▸ Nat.mod_lt n hpos
    rw [Function.iterate_succ_apply', advance_toNat_of_lt hin, ih, Nat.mod_add_mod]

/-! ### Which pieces keep the cursor -/

/-- Neither ANIM_COUNT nor ANIM_CUR changed. -/
def SameCursor (s t : State) : Prop := t.regs.animCount = s.regs.animCount ∧ t.regs.animCur = s.regs.animCur

theorem SameCursor.refl (s : State) : SameCursor s s := ⟨rfl, rfl⟩

theorem engineRel_sameCursor (p : Params) (W : Nat → Prop) : EngineRel p W SameCursor where
  refl := .refl
  trans _ _ _ h k := ⟨k.1.trans h.1, k.2.trans h.2⟩
  hidden s _ := .refl s
  warning s _ := .refl s
  byte s _ _ _ _ := .refl s
  hufOut _ _ := ⟨rfl, rfl⟩

theorem keeps_qtBuildTables_sameCursor (p : Params) : Keeps SameCursor (qtBuildTables p) := fun _ => ⟨rfl, rfl⟩

theorem decodePayload_sameCursor (p : Params) (pl : Plan) (fmt : PixelFormat) (place : Nat → Nat → Nat) (n : Nat)
    (s : State) : SameCursor s (finalState (decodePayload p pl fmt place n s)) :=
  keeps_decodePayload (engineRel_sameCursor p fun _ => True) (keeps_qtBuildTables_sameCursor p) pl fmt place n s
    (fun _ _ => trivial) fun _ _ _ _ _ _ => trivial

/-! ### Which commands advance it -/

theorem CommandRun.sameCursor {i : Instr} {s u : State} {o : Option CmdFault} (h : CommandRun i s u o)
    (hi : isComposite i = false) : SameCursor s u := by
  cases i with
  | nop | dequantBlockL | dequantBlockC | idctBlock | colorBlockRgb24 | colorBlockRgb565 | colorBlockArgb32 =>
    obtain ⟨m, d, rfl⟩ := h.memoryOnly rfl rfl
    exact .refl s
  | qtBuild => exact RunsTo.keeps h (.refl s) fun _ _ => keeps_qtBuildTables_sameCursor s.cfg s
  | hufDecode => exact RunsTo.keeps h (.refl s) fun _ hc => keeps_hufDecodeBody (engineRel_sameCursor s.cfg _) hc
  | decodeImageRgb24 | decodeImageRgb565 | decodeImageArgb32 =>
    exact RunsTo.keeps h (.refl s) fun _ hc =>
      keeps_decodeImageBody _ (engineRel_sameCursor s.cfg _) (keeps_qtBuildTables_sameCursor s.cfg) hc
  | compositeRgb24 | compositeRgb565 | compositeArgb32 => cases hi

theorem exists_compositeOf {i : Instr} (h : isComposite i = true) : ∃ fmt, i = compositeOf fmt := by
  cases i with
  | compositeRgb24 => exact ⟨.rgb24, rfl⟩
  | compositeRgb565 => exact ⟨.rgb565, rfl⟩
  | compositeArgb32 => exact ⟨.argb32, rfl⟩
  | _ => cases h

/-- R226: the body of COMPOSITE advances the cursor last, so a fault finds it as it was. -/
theorem compositeBody_animCur {p : Params} {fmt : PixelFormat} {plan : Plan} {s : State} :
    (∀ f u, compositeBody p fmt plan s = .error f u → u.regs.animCur = s.regs.animCur) ∧
    ∀ u, compositeBody p fmt plan s = .ok () u → u.regs.animCur = advance s.regs.animCount s.regs.animCur := by
  by_cases hn : s.regs.blockCount.toNat = 0
  · rw [compositeBody_empty fmt hn, advanceCursor_run]
    exact ⟨fun _ _ => nofun, fun | _, rfl => rfl⟩
  · have hkeep := decodePayload_sameCursor p plan fmt (s.regs.listedPlace fmt plan.offsets) s.regs.blockCount.toNat s
    cases hpayload : decodePayload p plan fmt (s.regs.listedPlace fmt plan.offsets) s.regs.blockCount.toNat s with
    | error e v =>
      rw [hpayload] at hkeep
      rw [(compositeBody_run fmt hn).trans (Engine.bind_error hpayload)]
      exact ⟨fun | _, _, rfl => hkeep.2, fun _ => nofun⟩
    | ok _ v =>
      rw [hpayload] at hkeep
      rw [compositeBody_done (Nat.pos_of_ne_zero hn) hpayload]
      exact ⟨fun _ _ => nofun, fun | _, rfl => congrArg₂ advance hkeep.1 hkeep.2⟩

/-- R226: where the algorithm of a command leaves the cursor. -/
theorem CommandRun.animCur {i : Instr} {s u : State} {o : Option CmdFault} (h : CommandRun i s u o) :
    u.regs.animCur =
      if isComposite i && o.isNone then advance s.regs.animCount s.regs.animCur else s.regs.animCur := by
  by_cases hi : isComposite i = true
  · obtain ⟨fmt, rfl⟩ := exists_compositeOf hi
    rw [hi]
    cases h with
    | refused => rfl
    | stopped _ hbody =>
      rw [commandBody_compositeOf] at hbody
      exact compositeBody_animCur.1 _ _ hbody
    | finished _ hbody =>
      rw [commandBody_compositeOf] at hbody
      exact compositeBody_animCur.2 _ hbody
  · rw [Bool.eq_false_of_not_eq_true hi]
    exact (h.sameCursor (Bool.eq_false_of_not_eq_true hi)).2

theorem EndsAs.err {u t : State} {o : Option CmdFault} (h : EndsAs u o t) :
    t.status.err = (o.isSome || u.status.err) := by
  rw [h.status]
  cases o <;> rfl

/-- Settles O51: the arithmetic of the advance, its iteration by induction on the number of advances, and for every
command where its run leaves the cursor (`CommandRun.animCur`), with STATUS.ERR telling whether a fault ended it. -/
theorem cursorAdvances : Obligations.CursorAdvances := by
  refine ⟨fun count cur => ⟨advance_of_count_zero, advance_of_last, advance_toNat_of_not_last⟩,
    fun count n hcount => iterate_advance_toNat hcount n, fun i s t hclear hexec => ?_⟩
  obtain ⟨u, o, hrun, hend⟩ := runs_of_exec hexec
  have herr : t.status.err = o.isSome := by rw [hend.err, hrun.bodyFrame.err, hclear, Bool.or_false]
  rw [hend.animCur, hrun.animCur, herr, Option.not_isSome]

end Sys2Proof.Machine
end

section
/-!
PROOF. The pre-checks of COMPOSITE with a frame that is not empty, in their order (spec/47_composite.md rule R224,
spec/60_exceptions.md R251-R254).
-/

namespace Sys2Proof.Machine

/-! ### The offset list -/

/-- R77, R251: reading the list stops at the lowest byte that the port cannot reach. -/
theorem readOffsets_of_not_reachable (p : Params) (n : Nat) :
    ∀ (a k : Nat) (s : State), k < 4 * n → (∀ i < k, reachable p (a + i) = true) → reachable p (a + k) = false →
      readOffsets p a n s = .error ⟨.busError, a + k⟩ s := by
  induction n with
  | zero => exact fun a k s hk => absurd hk (Nat.not_lt_zero k)
  | succ n ih =>
    intro a k s hk hreach hbad
    rw [readOffsets]
    obtain hfirst | hlater := Nat.lt_or_ge k 4
    · exact Engine.bind_error (memRead_of_not_reachable p k a 4 s hfirst hreach hbad)
    · obtain ⟨j, rfl⟩ := Nat.exists_eq_add_of_le hlater
      rw [← Nat.add_assoc] at hbad ⊢
      have hrest := ih (a + 4) j s (by omega)
        (fun i hi => by rw [Nat.add_assoc]; exact hreach (4 + i) (Nat.add_lt_add_left hi 4)) hbad
      rw [Engine.bind_ok (memRead_of_reaches p 4 a s fun i hi => hreach i (Nat.lt_of_lt_of_le hi hlater)),
        Engine.bind_error hrest]

/-- R77: where the list can be reached, it is read whole. -/
theorem readOffsets_offsWindow {p : Params} {s : State} (h : Reaches p s.regs.offsWindow) :
    readOffsets p s.regs.offsAddr.toNat s.regs.blockCount.toNat s =
      .ok ((List.range s.regs.blockCount.toNat).map s.offset) s := readOffsets_of_reaches p _ _ s h

/-- R224: the first offset that does not fit raises the fault, with its index. -/
theorem checkOffsets_of_misfit {fmt : PixelFormat} {stride len : Nat} (s : State) (l : List Nat) :
    ∀ (i b : Nat) (hb : b < l.length), (∀ c (_ : c < b), (l[c] + 7 * stride + 8) * bpp fmt ≤ len) →
      ¬(l[b] + 7 * stride + 8) * bpp fmt ≤ len → checkOffsets fmt stride len l i s = .error ⟨.dstOverrun, i + b⟩ s := by
  induction l with
  | nil => exact fun i b hb => absurd hb (Nat.not_lt_zero b)
  | cons o os ih =>
    intro i b hb hfit hbad
    rw [checkOffsets]
    cases b with
    | zero => exact faultIf_bind_of_fails (Nat.lt_of_not_le hbad) _ s
    | succ b =>
      have hfirst : (o + 7 * stride + 8) * bpp fmt ≤ len := hfit 0 (Nat.succ_pos b)
      rw [faultIf_bind_of_passes (Nat.not_lt.mpr hfirst),
        ih (i + 1) b (Nat.lt_of_succ_lt_succ hb) (fun c hc => hfit (c + 1) (Nat.succ_lt_succ hc)) hbad,
        Nat.add_right_comm]
      rfl

/-! ### The checks in order -/

section
variable {p : Params} {fmt : PixelFormat} {s : State} (hpos : 0 < s.regs.blockCount.toNat)
include hpos

theorem compositeCheck_of_tooMany (h : 10000 < 8 * s.regs.blockCount.toNat) :
    compositeCheck p fmt s = .error ⟨.badGeometry, 0⟩ s := by
  rw [compositeCheck, Engine.bind_ok (Engine.getRegs_run s), if_neg hpos.ne',
    faultIf_bind_of_fails (show Config.maxDim < _ from h)]

variable (hgeo : 8 * s.regs.blockCount.toNat ≤ 10000)
include hgeo

/-- Past the size of the frame, the check of the windows is next. -/
theorem compositeCheck_of_geometry :
    compositeCheck p fmt s =
      (overlapCheck [s.regs.dstWindow, s.regs.scrWindow] [s.regs.srcWindow, s.regs.offsWindow] >>= fun _ =>
        readOffsets p s.regs.offsAddr.toNat s.regs.blockCount.toNat >>= fun offsets =>
          checkOffsets fmt s.regs.dstStride.toNat s.regs.dstLen.toNat offsets 0 >>= fun _ =>
            payloadCheck p >>= fun pl =>
              pure { pl with
                footprint := ⟨s.regs.scrAddr.toNat, pl.ds⟩ ::
                  scatterWindows fmt s.regs.dstAddr.toNat s.regs.dstStride.toNat offsets
                offsets := offsets }) s := by
  rw [compositeCheck, Engine.bind_ok (Engine.getRegs_run s), if_neg hpos.ne',
    faultIf_bind_of_passes (Nat.not_lt.mpr (show _ ≤ Config.maxDim from hgeo))]

theorem compositeCheck_of_not_apart
    (h : ¬Apart [s.regs.dstWindow, s.regs.scrWindow] [s.regs.srcWindow, s.regs.offsWindow]) :
    compositeCheck p fmt s = .error ⟨.overlap, 0⟩ s := by
  rw [compositeCheck_of_geometry hpos hgeo, Engine.bind_error (overlapCheck_of_not_apart h s)]

variable (hapart : Apart [s.regs.dstWindow, s.regs.scrWindow] [s.regs.srcWindow, s.regs.offsWindow])
include hapart

theorem compositeCheck_of_unreachable_offset {k : Nat} (hk : k < 4 * s.regs.blockCount.toNat)
    (hreach : ∀ i < k, reachable p (s.regs.offsAddr.toNat + i) = true)
    (hbad : reachable p (s.regs.offsAddr.toNat + k) = false) :
    compositeCheck p fmt s = .error ⟨.busError, s.regs.offsAddr.toNat + k⟩ s := by
  rw [compositeCheck_of_geometry hpos hgeo, Engine.bind_ok (overlapCheck_of_apart hapart s),
    Engine.bind_error (readOffsets_of_not_reachable p _ _ k s hk hreach hbad)]

variable (hoffs : Reaches p s.regs.offsWindow)
include hoffs

theorem compositeCheck_of_misfit {b : Nat} (hb : b < s.regs.blockCount.toNat)
    (hfit : ∀ c < b, (s.offset c + 7 * s.regs.dstStride.toNat + 8) * bpp fmt ≤ s.regs.dstLen.toNat)
    (hbad : ¬(s.offset b + 7 * s.regs.dstStride.toNat + 8) * bpp fmt ≤ s.regs.dstLen.toNat) :
    compositeCheck p fmt s = .error ⟨.dstOverrun, b⟩ s := by
  have hcheck := checkOffsets_of_misfit (fmt := fmt) (stride := s.regs.dstStride.toNat) (len := s.regs.dstLen.toNat) s
    ((List.range s.regs.blockCount.toNat).map s.offset) 0 b (by simpa using hb) (by simpa using hfit)
    (by simpa using hbad)
  rw [compositeCheck_of_geometry hpos hgeo, Engine.bind_ok (overlapCheck_of_apart hapart s),
    Engine.bind_ok (readOffsets_offsWindow hoffs), Engine.bind_error hcheck, Nat.zero_add]

theorem compositeCheck_of_payload_fault
    (hfit : ∀ b < s.regs.blockCount.toNat,
      (s.offset b + 7 * s.regs.dstStride.toNat + 8) * bpp fmt ≤ s.regs.dstLen.toNat) {f : CmdFault}
    (h : payloadCheck p s = .error f s) : compositeCheck p fmt s = .error f s := by
  rw [compositeCheck_of_geometry hpos hgeo, Engine.bind_ok (overlapCheck_of_apart hapart s),
    Engine.bind_ok (readOffsets_offsWindow hoffs), Engine.bind_ok (checkOffsets_passes s _ 0 (by simpa using hfit)),
    Engine.bind_error h]

end

/-- Settles O55: each check raises the fault of the first condition that holds, and a pre-check's fault is all that the
command leaves (`exec_of_check_fault`). -/
theorem compositeChecksInOrder : Obligations.CompositeChecksInOrder := by
  intro fmt s hclean n apart fits faults hpos
  have hfaults : ∀ {f : CmdFault}, compositeCheck s.cfg fmt s = .error f s → faults f.code f.info := fun hcheck =>
    exec_of_check_fault hclean ((congrFun (commandCheck_compositeOf s.cfg fmt) s).trans hcheck)
  exact ⟨fun hmany => hfaults (compositeCheck_of_tooMany hpos hmany),
    fun hgeo hapart => hfaults (compositeCheck_of_not_apart hpos hgeo hapart),
    fun hgeo hapart =>
      ⟨fun k hk hreach hbad => hfaults (compositeCheck_of_unreachable_offset hpos hgeo hapart hk hreach hbad),
      fun hoffs =>
        ⟨fun b hb hfit hbad => hfaults (compositeCheck_of_misfit hpos hgeo hapart hoffs hb hfit hbad),
        fun hfit =>
          ⟨fun f u hparse =>
            hfaults (compositeCheck_of_payload_fault hpos hgeo hapart hoffs hfit (payloadCheck_of_parse_fault hparse)),
          fun pl u hparse hroom =>
            hfaults (compositeCheck_of_payload_fault hpos hgeo hapart hoffs hfit
              (payloadCheck_of_short_scratch hparse hroom))⟩⟩⟩⟩

end Sys2Proof.Machine
end

section
/-!
PROOF. The schedule of the pending moves (spec/70_reset_and_hazards.md rule R285, spec/60_exceptions.md rules R256,
R271): what an idle block's step is, and that every step has a next state.
-/

namespace Sys2Proof.Machine

section
variable {s : State}

/-- R271: the engine of an idle block does nothing. -/
theorem engineTurn_of_idle (h : s.phase = .idle) : engineTurn s = .next s := by
  rw [engineTurn, h]

/-- R256: whatever the phase, the engine's turn has a next state. -/
theorem engineTurn_total (s : State) : ∃ t, engineTurn s = .next t := by
  cases hphase : s.phase with
  | idle => exact ⟨s, engineTurn_of_idle hphase⟩
  | run i =>
    obtain ⟨t, hexec, -⟩ := exec_runs i s
    exact ⟨t, (engineTurn_of_run hphase).trans hexec⟩
  | runIllegal => exact ⟨_, engineTurn_of_runIllegal hphase⟩

/-- R256: there is no stuck state. -/
theorem step_total (s : State) : ∃ t, step s = .next t := by
  cases hin : s.inputs with
  | nil => exact step_noMove hin ▸ engineTurn_total _
  | cons m rest =>
    by_cases hm : m = .engineTurn
    · subst hm
      exact step_engineTurn hin ▸ engineTurn_total _
    · exact ⟨_, step_hostMove hin hm⟩

theorem State.withInputs_self {l : List HostMove} (hin : s.inputs = l) : s.withInputs l = s := by
  rw [← hin]
  rfl

/-- R271: an idle block with no move pending stays as it is. -/
theorem step_of_idle_noMove (hidle : s.phase = .idle) (hin : s.inputs = []) : step s = .next s := by
  rw [step_noMove hin, State.withInputs_self hin, engineTurn_of_idle hidle]

theorem step_of_idle_yield {rest : List HostMove} (hidle : s.phase = .idle) (hin : s.inputs = .engineTurn :: rest) :
    step s = .next (s.withInputs rest) := by
  rw [step_engineTurn hin]
  exact engineTurn_of_idle hidle

/-- In an idle block a yield is a move like any other, one that does nothing. -/
theorem step_of_idle_move {m : HostMove} {rest : List HostMove} (hidle : s.phase = .idle) (hin : s.inputs = m :: rest) :
    step s = .next (hostMove s.cfg m (s.withInputs rest)) := by
  by_cases hm : m = .engineTurn
  · subst hm
    exact step_of_idle_yield hidle hin
  · exact step_hostMove hin hm

end

/-- Settles O5: each clause is one law of the step. -/
theorem pendingMovesComeFirst : Obligations.PendingMovesComeFirst := fun s =>
  ⟨fun _ _ hin hm => step_hostMove hin hm, step_of_idle_noMove, fun _ => step_of_idle_yield, step_total s⟩

end Sys2Proof.Machine
end

section
/-!
PROOF. The state after reset meets the invariant (spec/70_reset_and_hazards.md rule R280): the parameters are such as
spec/00_scope.md rule R6 lists, memory lists nothing, and no command runs.
-/

namespace Sys2Proof.Machine

/-- R144: the default zig-zag table names no place twice. -/
theorem defaultZigzag_nodup : defaultZigzag.toList.Nodup := by decide

/-- R6: of the default parameters the ones left open carry no condition. -/
theorem defaultParams_legal : defaultParams.Legal := ⟨defaultZigzag_nodup, by decide⟩

/-- Settles O7: the clauses on a running command, a fault, the mark and the held input are void, and the tables are
zeros. -/
theorem resetMeetsTheInvariant : Obligations.ResetMeetsTheInvariant where
  legal := defaultParams_legal
  canonical := by decide
  reached _ hc := absurd hc List.not_mem_nil
  busyRuns := ⟨fun hbusy => absurd hbusy Bool.false_ne_true, fun hrun => absurd rfl hrun⟩
  errcode := Nat.zero_le 9
  errHasCode herr := absurd herr Bool.false_ne_true
  started hbusy := absurd hbusy Bool.false_ne_true
  marked hmark := absurd hmark Bool.false_ne_true
  held _ := rfl
  tables := Regs.reset_tablesBounded

end Sys2Proof.Machine
end

section
/-!
PROOF. The interrupt output (spec/60_exceptions.md rule R262): the level IRQ_EN and DONE, after a command and after the
host's writes of CTRL and STATUS.
-/

namespace Sys2Proof.Machine

/-! ### The level -/

section
variable {s : State}

theorem State.irq_iff (s : State) : s.irq = true ↔ s.irqEn = true ∧ s.status.done = true := Bool.and_eq_true_iff

/-- R262: once DONE is set, the level is IRQ_EN. -/
theorem State.irq_of_done (h : s.status.done = true) : s.irq = s.irqEn := by rw [irq, h, Bool.and_true]

theorem State.irq_of_not_done (h : s.status.done = false) : s.irq = false := by rw [irq, h, Bool.and_false]

theorem State.irq_of_disabled (h : s.irqEn = false) : s.irq = false := by rw [irq, h, Bool.false_and]

/-- R262: once IRQ_EN is set, the level is DONE. -/
theorem State.irq_of_enabled (h : s.irqEn = true) : s.irq = s.status.done := by rw [irq, h, Bool.true_and]

end

/-! ### After a command and after a write -/

/-- R32, R252: with or without a fault a command sets DONE and keeps IRQ_EN. -/
theorem exec_irq {i : Instr} {s t : State} (h : exec i s = .next t) : t.irq = s.irqEn := by
  obtain ⟨u, o, hrun, hend⟩ := runs_of_exec h
  rw [State.irq_of_done hend.done, hend.irqEn, hrun.bodyFrame.irqEn]

section
variable {p : Params} {v : Word} {s : State}

/-- R27: a CTRL write that does not reset stores bit 2 in IRQ_EN, even where its START is dropped. -/
theorem writeCtrl_irqEn (hreset : v.getLsbD 1 = false) : (writeCtrl p v s).irqEn = v.getLsbD 2 := by
  rw [writeCtrl_of_not_softReset hreset]
  split
  · split
    · rfl
    · rfl
  · rfl

/-- R280: reset clears IRQ_EN. -/
theorem writeCtrl_irq_of_reset (hreset : v.getLsbD 1 = true) : (writeCtrl p v s).irq = false := by
  rw [writeCtrl_softReset hreset]
  exact State.irq_of_disabled rfl

/-- R30: an accepted START clears DONE. -/
theorem writeCtrl_irq_of_start (hreset : v.getLsbD 1 = false) (hstart : v.getLsbD 0 = true)
    (hbusy : s.status.busy = false) : (writeCtrl p v s).irq = false := by
  rw [writeCtrl_start hstart hreset hbusy]
  exact State.irq_of_not_done rfl

/-- R31: without START and SOFT_RESET, DONE stays. -/
theorem writeCtrl_irq_of_enable (hreset : v.getLsbD 1 = false) (hstart : v.getLsbD 0 = false)
    (hen : v.getLsbD 2 = true) : (writeCtrl p v s).irq = s.status.done := by
  rw [State.irq_of_enabled ((writeCtrl_irqEn hreset).trans hen), writeCtrl_of_not_softReset hreset,
    if_neg (ne_true_of_eq_false hstart), State.withIrqEn_status]

end

/-- Settles O19: the level by its definition, a command by the frame of its end, and each write by what it leaves of
IRQ_EN and DONE. -/
theorem irqFollowsEnableAndDone : Obligations.IrqFollowsEnableAndDone := by
  refine ⟨State.irq_iff, fun i s t => exec_irq, fun s t v rest hw hstep => ?_, fun s t v rest hw hv hstep => ?_⟩
  · obtain rfl := Host.Outcome.next.inj (hw.step_eq.symm.trans hstep)
    exact ⟨writeCtrl_irq_of_reset,
      fun hreset hstart hbusy => writeCtrl_irq_of_start (s := s.withInputs rest) hreset hstart hbusy,
      fun hreset hoff => State.irq_of_disabled ((writeCtrl_irqEn hreset).trans hoff),
      fun hreset hstart hen => writeCtrl_irq_of_enable (s := s.withInputs rest) hreset hstart hen⟩
  · obtain rfl := Host.Outcome.next.inj (hw.step_eq.symm.trans hstep)
    have hdone : (s.status.clearedBy v).done = false := by rw [Status.clearedBy_done, hv, Bool.not_true, Bool.and_false]
    exact State.irq_of_not_done hdone

end Sys2Proof.Machine
end

section
/-!
PROOF. A run that has ended (spec/60_exceptions.md rule R271, spec/70_reset_and_hazards.md rule R292): without a
register access only the reset input moves what the block holds, and only a host write moves memory.
-/

namespace Sys2Proof.Machine

/-! ### The moves that are no register access -/

/-- What the block holds of its own, memory aside. -/
structure SameBlock (s t : State) : Prop where
  regs : t.regs = s.regs
  status : t.status = s.status
  irqEn : t.irqEn = s.irqEn
  phase : t.phase = s.phase
  hidden : t.hidden = s.hidden

theorem SameBlock.refl (s : State) : SameBlock s s := ⟨rfl, rfl, rfl, rfl, rfl⟩

theorem hostMemWrite_sameBlock (p : Params) (a : Word) (v : Byte) (s : State) :
    SameBlock s (hostMemWrite p a v s) := by
  unfold hostMemWrite
  split
  · exact ⟨rfl, rfl, rfl, rfl, rfl⟩
  · exact .refl s

theorem hostMemRead_sameBlock (p : Params) (a : Word) (s : State) : SameBlock s (hostMemRead p a s) := by
  obtain h | ⟨b, n, h⟩ := hostMemRead_cases p a s
  · rw [h]
    exact .refl s
  · rw [h]
    exact ⟨rfl, rfl, rfl, rfl, rfl⟩

theorem hostMemRead_mem (p : Params) (a : Word) (s : State) : (hostMemRead p a s).mem = s.mem := by
  obtain h | ⟨b, n, h⟩ := hostMemRead_cases p a s
  · rw [h]
  · rw [h]
    rfl

section
variable {p : Params} {m : HostMove} {s : State}

/-- R271: without a register access only the reset input reaches the block. -/
theorem hostMove_sameBlock (haccess : m.isRegisterAccess = false) (hreset : m ≠ .resetAssert) :
    SameBlock s (hostMove p m s) := by
  cases m with
  | portWrite | portRead => exact absurd haccess.symm Bool.false_ne_true
  | memWrite a v => exact hostMemWrite_sameBlock p a v s
  | memRead a => exact hostMemRead_sameBlock p a s
  | resetAssert => exact absurd rfl hreset
  | resetRelease | engineTurn => exact ⟨rfl, rfl, rfl, rfl, rfl⟩

/-- R280, R281: with no command to cancel, only the host's own writes move memory. -/
theorem hostMove_mem (haccess : m.isRegisterAccess = false) (hwrite : ∀ a v, m ≠ .memWrite a v)
    (hidle : s.phase = .idle) : (hostMove p m s).mem = s.mem := by
  cases m with
  | portWrite | portRead => exact absurd haccess.symm Bool.false_ne_true
  | memWrite a v => exact absurd rfl (hwrite a v)
  | memRead a => exact hostMemRead_mem p a s
  | resetAssert =>
    calc (softReset p s).mem = (cancel p s).mem := rfl
      _ = s.mem := by rw [cancel_of_not_running fun i => by simp [hidle]]
  | resetRelease | engineTurn => rfl

/-- A move takes no other move off the list. -/
theorem HostEffect.inputs {t : State} (h : HostEffect p s t) : t.inputs = s.inputs := by
  cases h with
  | memWrite a v => unfold hostMemWrite; split <;> rfl
  | softReset | resetAssert => exact cancel_inputs p s
  | nothing | irqEn | hazard | start | resetRelease | acknowledge | store | portAnswer | memAnswer => rfl

theorem hostMove_not_busy (haccess : m.isRegisterAccess = false) (hbusy : s.status.busy = false) :
    (hostMove p m s).status.busy = false := by
  by_cases hreset : m = .resetAssert
  · subst hreset
    rfl
  · rw [(hostMove_sameBlock haccess hreset).status, hbusy]

end

/-! ### The ended run -/

/-- R292: the moves left to an ended run start no command. -/
theorem State.RunEnded.hostMove {p : Params} {s : State} {m : HostMove} {rest : List HostMove} (h : s.RunEnded)
    (hin : s.inputs = m :: rest) : (hostMove p m (s.withInputs rest)).RunEnded := by
  obtain ⟨hquiet, hbusy⟩ := h
  rw [hin, List.forall_mem_cons] at hquiet
  obtain ⟨haccess, hrest⟩ := hquiet
  refine ⟨?_, hostMove_not_busy (s := s.withInputs rest) haccess hbusy⟩
  rwa [(hostMove_effect p (s.withInputs rest) m).inputs]

/-- Settles O60: BUSY = 0 is an idle block by the invariant, whose step is the next move, and that is no register
access. -/
theorem endedRunStaysEnded : Obligations.EndedRunStaysEnded := by
  intro s t hinv hended hstep
  obtain ⟨hquiet, hbusy⟩ := hended
  have hidle : s.phase = .idle := hinv.idle_of_not_busy hbusy
  cases hin : s.inputs with
  | nil =>
    obtain rfl := Host.Outcome.next.inj ((step_of_idle_noMove hidle hin).symm.trans hstep)
    exact ⟨⟨hquiet, hbusy⟩, fun _ => ⟨rfl, rfl, rfl, hidle, rfl⟩, fun _ => rfl⟩
  | cons m rest =>
    obtain rfl := Host.Outcome.next.inj ((step_of_idle_move hidle hin).symm.trans hstep)
    have haccess : m.isRegisterAccess = false := hquiet m (hin ▸ List.mem_cons_self)
    refine ⟨State.RunEnded.hostMove ⟨hquiet, hbusy⟩ hin, fun hreset => ?_, fun hwrite => ?_⟩
    · have hkept := hostMove_sameBlock (p := s.cfg) (s := s.withInputs rest) haccess fun hm => hreset rest (hm ▸ rfl)
      exact ⟨hkept.regs, hkept.status, hkept.irqEn, hkept.phase.trans hidle, hkept.hidden⟩
    · exact hostMove_mem (s := s.withInputs rest) haccess (fun a v hm => hwrite a v rest (hm ▸ rfl)) hidle

end Sys2Proof.Machine
end
